-- ==== Sys2Proof/Word.lean ====
section
/-! DEFINITION. The bit-vector types of the engine (00_scope.md R13): bytes, halfwords and words. -/

namespace Sys2Proof

/-- A byte, the spec's `u8`. -/
abbrev Byte := BitVec 8

/-- A halfword, the spec's `u16`: the payload unit of the flash writer (20_memory.md R88). -/
abbrev Half := BitVec 16

/-- A word, the spec's `u32`: registers and addresses. -/
abbrev Word := BitVec 32

end Sys2Proof
end

