-- ==== Sys2Proof/Config.lean ====
section
/-! DEFINITION. What an implementation fixes (00_scope.md R10 to R12), the environment's answers to a
collaborator call (60_exceptions.md R393), and the free values of the model. -/

namespace Sys2Proof

/-- `TOPOLOGY` (00_scope.md R4, R11). -/
inductive Topology where
  /-- The A/B topology. -/
  | ab
  /-- The staging/run topology. -/
  | sr
deriving DecidableEq, Repr

/-- `ESC_MODE` (30_encoding.md R151). -/
inductive EscMode where
  /-- `WINDOW5`: the first 5 and last 5 raw positions are verbatim. -/
  | window5
  /-- `FULL`: only the first and last raw positions are verbatim. -/
  | full
deriving DecidableEq, Repr

/-- `PROGRAM_OVER_NONERASED` (20_memory.md R97). -/
inductive OverNonErased where
  /-- `AND_BITS`: the old and new bits are combined. -/
  | andBits
  /-- `FAIL_ANY`: the call fails and the granule holds any value. -/
  | failAny
deriving DecidableEq, Repr

/-- Flash size in bytes, fixed by the source (00_scope.md R10). -/
def flashSize : Nat := 0x20000

/-- RAM size in bytes, fixed by the source (00_scope.md R10). -/
def ramSize : Nat := 0x8000

/-- `ERASED`, the erased-state byte (00_scope.md R10); also what an address that memory does not list
reads as (DESIGN CHOICE, log 3: unsafe at `State.reset`, where flash and RAM hold any value). -/
def erasedByte : Byte := 0xFF

/-- `FLAG`, the frame sentinel (00_scope.md R10). -/
def flagByte : Byte := 0x7E

/-- `ESC`, the escape byte (00_scope.md R10). -/
def escByte : Byte := 0x7A

/-- The second byte that stands for `FLAG` (00_scope.md R10). -/
def escFlag : Byte := 0x55

/-- The second byte that stands for `ESC` (00_scope.md R10). -/
def escEsc : Byte := 0xAA

/-- `EOT`, the end-of-transfer marker (00_scope.md R10). -/
def eotByte : Byte := 0xFF

/-- `MIN_LEN`, the least body length (00_scope.md R10). -/
def minLen : Nat := 3

/-- The implementation parameters of 00_scope.md R11. "The model takes each as an argument": the
record is held in `State.par`, and no step changes it (log 1). `CFG_ADDR` is fixed by `FLASH_BASE`,
`BOOT_SIZE` and `S` and is computed (`Config.cfgAddr`). -/
structure Config where
  /-- `FLASH_BASE` -/
  flashBase : Nat
  /-- `RAM_BASE` -/
  ramBase : Nat
  /-- `S`, erase sector size in bytes -/
  sector : Nat
  /-- `G`, program granule in bytes -/
  granule : Nat
  /-- `BOOT_SIZE` -/
  bootSize : Nat
  /-- `REGION_SIZE` -/
  regionSize : Nat
  /-- `A_BASE` -/
  aBase : Nat
  /-- `B_BASE` -/
  bBase : Nat
  /-- `STAGING_BASE` -/
  stagingBase : Nat
  /-- `RUN_BASE` -/
  runBase : Nat
  /-- `TOPOLOGY` -/
  topology : Topology
  /-- `MAX_LEN` -/
  maxLen : Nat
  /-- `RX_CAP` -/
  rxCap : Nat
  /-- `MAX_BOOT_ATTEMPTS` -/
  maxBootAttempts : Nat
  /-- `SESSION_TIMEOUT_MS` -/
  sessionTimeout : Nat
  /-- `ESC_MODE` -/
  escMode : EscMode
  /-- `CFG_MAGIC` -/
  cfgMagic : Word
  /-- `RSP_VERSION` -/
  rspVersion : Byte
  /-- `RSP_RECEIVER` -/
  rspReceiver : Byte
  /-- `RSP_SENDER` -/
  rspSender : Byte
  /-- `PROBE_FACTORY`: `true` is on -/
  probeFactory : Bool
  /-- `IDLE_END_LIMIT`, 0 = never -/
  idleEndLimit : Nat
  /-- `PROGRAM_OVER_NONERASED` -/
  overNonErased : OverNonErased
  /-- `BLK_BASE` -/
  blkBase : Word
deriving DecidableEq, Repr

/-- The reference values of 00_scope.md R11, used by the test vectors of 95_test_vectors.md. `BLK_BASE`
has no reference value: DESIGN CHOICE 0 (log 2, unsafe where it matters: no rule depends on it). -/
def Config.reference : Config where
  flashBase := 0x08000000
  ramBase := 0x20000000
  sector := 2048
  granule := 16
  bootSize := 0x4000
  regionSize := 0xE000
  aBase := 0x08004000
  bBase := 0x08012000
  stagingBase := 0x08004000
  runBase := 0x08012000
  topology := .ab
  maxLen := 1027
  rxCap := 2064
  maxBootAttempts := 3
  sessionTimeout := 30000
  escMode := .window5
  cfgMagic := 0x424F4F54
  rspVersion := 0x01
  rspReceiver := 0x01
  rspSender := 0x02
  probeFactory := false
  idleEndLimit := 0
  overNonErased := .failAny
  blkBase := 0

/-- `FLASH_END` (00_scope.md R12). -/
def Config.flashEnd (p : Config) : Nat := p.flashBase + flashSize

/-- `RAM_END` (00_scope.md R12). -/
def Config.ramEnd (p : Config) : Nat := p.ramBase + ramSize

/-- `NSECT` (00_scope.md R12). -/
def Config.nsect (p : Config) : Nat := flashSize / p.sector

/-- `CFG_ADDR = FLASH_BASE + BOOT_SIZE − S` (00_scope.md R11). -/
def Config.cfgAddr (p : Config) : Nat := p.flashBase + p.bootSize - p.sector

/-- `REC_SIZE` (00_scope.md R12). -/
def Config.recSize (p : Config) : Nat :=
  match p.topology with
  | .ab => 32
  | .sr => 16

/-- `WR_LO`, the first byte of the managed flash range (00_scope.md R12). -/
def Config.wrLo (p : Config) : Nat := p.cfgAddr

/-- `WR_HI`, one past the last byte of the managed flash range (00_scope.md R12). -/
def Config.wrHi (p : Config) : Nat := p.flashEnd

/-! ### The environment's answers -/

/-- How a flash collaborator call ends (20_memory.md R96, R97), or that power is lost between two
micro-steps (R104 b) or during this one (R104 c). -/
inductive FlashOutcome where
  /-- The call returns ok. -/
  | ok
  /-- The call returns fail; the touched bytes hold any value. -/
  | fail
  /-- Power is lost just before the call: it never starts (R104 b). -/
  | lostBefore
  /-- Power is lost during the call: the touched bytes hold any value (R104 c). -/
  | lostDuring
deriving DecidableEq, Repr, Inhabited

/-- One answer of the flash collaborator, a choice of the environment (60_exceptions.md R393).
`junk` gives the bytes a failed or interrupted call leaves, from the lowest address on; `ram` gives the
bytes RAM holds after a power loss; where either list ends early the older bytes stay, which is one of
the values the spec allows (log 6). -/
structure FlashAnswer where
  /-- How the call ends. -/
  outcome : FlashOutcome
  /-- Ticks that pass during the call (log 9). -/
  elapsed : Word
  /-- Bytes left by a failed or interrupted call. -/
  junk : List Byte
  /-- RAM contents after a power loss. -/
  ram : List Byte
deriving DecidableEq, Repr, Inhabited

/-! ### Free values: nothing constrains them -/

/-- FREE VALUE (log 5). The answer of the `n`-th flash call, counted from 0, where the state lists none:
"which one is a draw of the flash collaborator" (20_memory.md R96, R97). -/
opaque Config.flashAnswer : Nat → FlashAnswer

/-- FREE VALUE (log 7). The answer of the `n`-th `RxArm()`, counted from 0, where the state lists none:
"draw ok or fail from the receive-channel agent" (43_protocol.md R220); `true` is ok. -/
opaque Config.armAnswer : Nat → Bool

/-- FREE VALUE (log 16). Whether a cached `active` byte that is neither 0 nor 1 counts as B. The spec
gives such a byte no role (30_encoding.md R160); only UPD_COMPLETE with `cfg_valid = 0` reads one. -/
opaque Config.rawActiveIsB : Byte → Bool

end Sys2Proof
end

