-- ==== Sys2Proof/Machine/Bytes.lean ====
section
/-! DEFINITION. Byte lists and byte order (00_scope.md R13, R14; 20_memory.md R84, R85). -/

namespace Sys2Proof.Machine

/-- `LE16(x)` (00_scope.md R14). -/
def le16 (h : Half) : List Byte := [h.extractLsb' 0 8, h.extractLsb' 8 8]

/-- `LE32(x)` (00_scope.md R14). -/
def le32 (w : Word) : List Byte :=
  [w.extractLsb' 0 8, w.extractLsb' 8 8, w.extractLsb' 16 8, w.extractLsb' 24 8]

/-- `U16(l)` of a 2-byte list (00_scope.md R14). -/
def u16 (l : List Byte) : Half := l.getD 1 0 ++ l.getD 0 0

/-- `U32(l)` of a 4-byte list (00_scope.md R14). -/
def u32 (l : List Byte) : Word := l.getD 3 0 ++ l.getD 2 0 ++ l.getD 1 0 ++ l.getD 0 0

/-- The halfwords of a byte list, taken as `LE16` pairs (20_memory.md R85); an odd last byte is left out. -/
def halves : List Byte → List Half
  | lo :: hi :: rest => (hi ++ lo) :: halves rest
  | _ => []

/-- "A halfword list `[h0, h1, ...]` is stored as the byte list `LE16(h0) ++ LE16(h1) ++ ...`"
(00_scope.md R14). -/
def halfBytes (hs : List Half) : List Byte := hs.flatMap le16

/-- `ceil(x / m)`. -/
def ceilDiv (x m : Nat) : Nat := (x + m - 1) / m

/-- `RoundUp(x, m)`, the least multiple of `m` that is at least `x` (44_flash.md R271). -/
def roundUp (x m : Nat) : Nat := ceilDiv x m * m

/-- `l` with its bytes from index `off` on replaced by `seg`. -/
def splice (l : List Byte) (off : Nat) (seg : List Byte) : List Byte :=
  l.take off ++ seg ++ l.drop (off + seg.length)

/-- `l` padded with `b` up to length `n` (30_encoding.md R165, 45_config.md R303). -/
def padTo (n : Nat) (b : Byte) (l : List Byte) : List Byte := l ++ List.replicate (n - l.length) b

/-- The first `n` pieces of `g` bytes of `l`: the granules a program sequence writes (30_encoding.md R165). -/
def pieces (g n : Nat) (l : List Byte) : List (List Byte) :=
  (List.range n).map fun q => (l.drop (q * g)).take g

end Sys2Proof.Machine
end

