-- ==== Sys2Proof/Machine/Checksum.lean ====
section
/-! DEFINITION. The CRC-32 function of 41_crc.md R170 to R172. -/

namespace Sys2Proof.Machine

/-- One iteration of the loop of 41_crc.md R170. -/
def crcBit (s : Word) : Word :=
  match s.getLsbD 0 with
  | true => (s >>> 1) ^^^ 0xEDB88320
  | false => s >>> 1

/-- `n` iterations of the loop of 41_crc.md R170. -/
def crcBits : Nat → Word → Word
  | 0, s => s
  | n + 1, s => crcBits n (crcBit s)

/-- `CrcStep(s, b)` (41_crc.md R170). -/
def crcStep (s : Word) (b : Byte) : Word := crcBits 8 (s ^^^ b.setWidth 32)

/-- `CrcUpdate(s, l)` (41_crc.md R170). -/
def crcUpdate : Word → List Byte → Word
  | s, [] => s
  | s, b :: l => crcUpdate (crcStep s b) l

/-- The final complement, `s XOR 0xFFFFFFFF` (41_crc.md R171, R178). -/
def crcFinal (s : Word) : Word := s ^^^ 0xFFFFFFFF

/-- `crc32(l)` (41_crc.md R171), "a pure function ... with no hidden state". -/
def crc32 (l : List Byte) : Word := crcFinal (crcUpdate 0xFFFFFFFF l)

/-- `T[i] = CrcStep(0, i)`, the table of 41_crc.md R172. -/
def crcTable (i : Byte) : Word := crcStep 0 i

/-- The table-driven form of `CrcStep` (41_crc.md R172): "They agree on every input". -/
def crcStepTable (s : Word) (b : Byte) : Word :=
  (s >>> 8) ^^^ crcTable ((s ^^^ b.setWidth 32).extractLsb' 0 8)

end Sys2Proof.Machine
end

