-- ==== Sys2Proof/Machine/Escape.lean ====
section
/-! DEFINITION. The frame codec's functions (42_codec.md R190 to R195). -/

namespace Sys2Proof.Machine

/-- `Esc(b)` (42_codec.md R190). -/
def escByteOf (b : Byte) : List Byte :=
  if b = flagByte then [escByte, escFlag] else if b = escByte then [escByte, escEsc] else [b]

/-- `EscList(l)` (42_codec.md R190). -/
def escList (l : List Byte) : List Byte := l.flatMap escByteOf

/-- Apply `f` to the bytes of `l` but for the first and last `k`, which stay as they are. -/
def onInterior (k : Nat) (f : List Byte → List Byte) (l : List Byte) : List Byte :=
  l.take k ++ f ((l.drop k).take (l.length - 2 * k)) ++ l.drop (l.length - k)

/-- How many positions at each end are verbatim (30_encoding.md R151). -/
def verbatim : EscMode → Nat
  | .window5 => 5
  | .full => 1

/-- `Escape(r)` (42_codec.md R191, R192): a list too short for the two windows is copied unchanged. -/
def escape (m : EscMode) (r : List Byte) : List Byte :=
  if r.length < 2 * verbatim m then r else onInterior (verbatim m) escList r

/-- What a decode gives: the raw bytes, or the index of an anomaly (42_codec.md R193). -/
inductive Decoded where
  | ok (r : List Byte)
  | anomaly (i : Nat)
deriving DecidableEq, Repr

/-- Put a decoded byte before the rest of a decode. -/
def Decoded.cons (b : Byte) : Decoded → Decoded
  | .ok r => .ok (b :: r)
  | .anomaly i => .anomaly i

/-- `Dec(x, off)` (42_codec.md R193), with `off` the index of the list's first byte. The three anomaly
forms are those of 30_encoding.md R155. -/
def dec : List Byte → Nat → Decoded
  | [], _ => .ok []
  | c :: rest, off =>
    if c = flagByte then .anomaly off
    else if c = escByte then
      match rest with
      | [] => .anomaly off
      | d :: rest' =>
        if d = escFlag then (dec rest' (off + 2)).cons flagByte
        else if d = escEsc then (dec rest' (off + 2)).cons escByte
        else .anomaly off
    else (dec rest (off + 1)).cons c

/-- `Unescape(w)` (42_codec.md R193). -/
def unescape (m : EscMode) (w : List Byte) : Decoded :=
  let k := verbatim m
  if w.length < 2 * k then .ok w
  else
    match dec ((w.drop k).take (w.length - 2 * k)) k with
    | .ok d => .ok (w.take k ++ d ++ w.drop (w.length - k))
    | .anomaly i => .anomaly i

/-- The body of a frame: header and payload (30_encoding.md R140). -/
def frameBody (v rc sd : Byte) (p : List Byte) : List Byte := [v, rc, sd] ++ p

/-- `crc32(LE32(L) ++ body)`, the frame's CRC (30_encoding.md R142). -/
def frameCrc (body : List Byte) : Word :=
  crc32 (le32 (BitVec.ofNat 32 body.length) ++ body)

/-- `raw` of `AssembleFrame(v, rc, sd, p)` (42_codec.md R195); its `c` is `frameCrc`. -/
def assembleFrame (v rc sd : Byte) (p : List Byte) : List Byte :=
  let body := frameBody v rc sd p
  [flagByte] ++ le32 (BitVec.ofNat 32 body.length) ++ body ++ le32 (frameCrc body) ++ [flagByte]

/-- `WireFrame(v, rc, sd, p)` (42_codec.md R195). -/
def wireFrame (m : EscMode) (v rc sd : Byte) (p : List Byte) : List Byte :=
  escape m (assembleFrame v rc sd p)

end Sys2Proof.Machine
end

