-- ==== Sys2Proof/Syntax.lean ====
section
/-! DEFINITION. The 31 commands of 30_encoding.md R125 (spec/opcode_table.json), one constructor per row. -/

namespace Sys2Proof

/-- A region's role, encoded 0 = A, 1 = B, 2 = STAGING, 3 = RUN (30_encoding.md R123). -/
inductive Role where
  | a
  | b
  | staging
  | run
deriving DecidableEq, Repr

/-- A command with its immediates (30_encoding.md R120, R122). Register operands are not part of the
word: a command reads `ARG0`..`ARG3` when it is issued (R121). -/
inductive Instr where
  | crcInit
  | crcUpdate
  | crcUpdateByte (imm8 : Byte)
  | crcFinal
  | crcCompute
  | escape
  | unescape
  | frameBuild (version receiver sender : Byte)
  | sessBegin
  | sessPoll
  | sessProgress
  | flWrite
  | flWriteNocheck
  | flRead
  | flEraseSector
  | cfgRead
  | cfgWrite
  | cfgInit
  | imgCrc
  | imgVerify (role : Role)
  | bootSelect
  | updTarget
  | updStart (role : Role)
  | updComplete (role : Role)
  | updFailed
  | bootConfirm
  | requestUpdate
  | cfgGet
  | runApp
  | startUpdate
  | erase
deriving DecidableEq, Repr

end Sys2Proof
end

