-- ==== Sys2Proof/WellFormed.lean ====
section
/-! DEFINITION. Well-formed instructions and well-formed parameters. An instruction's operands are typed
by exactly the values their fields admit (30_encoding.md R120, R122, R123), so no instruction term is
ill-formed; the checks that can refuse something are those of the parameters (00_scope.md R11). -/

namespace Sys2Proof

/-- Every operand value of every command is encodable: formats B, R and H reserve no value of their
immediate fields (30_encoding.md R120, R122). Whether a role names a region of the topology is checked
when the command runs (R123, `E_BADARG`), not when it is decoded. -/
def Instr.wellFormed (_ : Instr) : Bool := true

/-- `n` is a power of two (00_scope.md R11, for `S` and `G`); the parameters in question are below `2 ^ 32`. -/
def isPow2 (n : Nat) : Bool := (List.range 32).any fun k => n == 2 ^ k

/-- `a` and `b` of `size` bytes each do not overlap. -/
def disjointSpans (a b size : Nat) : Bool := a + size ≤ b || b + size ≤ a

/-- "sector-aligned, ..., inside flash, above the bootloader region" (00_scope.md R11, region bases). -/
def Config.regionOk (p : Config) (base : Nat) : Bool :=
  p.flashBase + p.bootSize ≤ base && base + p.regionSize ≤ p.flashEnd
    && (base - p.flashBase) % p.sector == 0

/-- The constraints 00_scope.md R11 puts on the parameters, one check each. The last two checks are read
from other rules (DEDUCED, log 25): addresses and `sess_limit` are u32 (20_memory.md R81, 10_state.md
R46), and the record lies in the config sector (20_memory.md R90). -/
def Config.checks (p : Config) : List Bool :=
  [ p.sector != 0 && p.flashBase % p.sector == 0,                            -- FLASH_BASE
    p.flashEnd ≤ p.ramBase || p.ramEnd ≤ p.flashBase,                        -- RAM_BASE
    isPow2 p.sector && p.sector % p.granule == 0 && flashSize % p.sector == 0, -- S
    isPow2 p.granule && 2 ≤ p.granule,                                       -- G
    p.bootSize % p.sector == 0 && p.sector ≤ p.bootSize,                     -- BOOT_SIZE
    p.regionSize % p.sector == 0 && 8 ≤ p.regionSize,                        -- REGION_SIZE
    p.regionOk p.aBase && p.regionOk p.bBase && disjointSpans p.aBase p.bBase p.regionSize,
    p.regionOk p.stagingBase && p.regionOk p.runBase
      && disjointSpans p.stagingBase p.runBase p.regionSize,
    minLen ≤ p.maxLen && p.maxLen < 2 ^ 32,                                  -- MAX_LEN
    1 ≤ p.rxCap,                                                             -- RX_CAP
    1 ≤ p.maxBootAttempts && p.maxBootAttempts ≤ 255,                        -- MAX_BOOT_ATTEMPTS
    1 ≤ p.sessionTimeout && p.sessionTimeout < 2 ^ 32,                       -- SESSION_TIMEOUT_MS (R428)
    p.cfgMagic != 0xFFFFFFFF,                                                -- CFG_MAGIC
    p.idleEndLimit < 2 ^ 32,                                                 -- IDLE_END_LIMIT
    p.blkBase.toNat % 4 == 0,                                                -- BLK_BASE
    p.flashEnd < 2 ^ 32 && p.ramEnd < 2 ^ 32,
    p.recSize ≤ p.sector ]

/-- The parameters meet every constraint of 00_scope.md R11. -/
def Config.wellFormed (p : Config) : Bool := p.checks.all id

end Sys2Proof
end

