-- ==== Sys2Proof/Decode.lean ====
section
/-! DEFINITION. The command-word decoder and encoder (30_encoding.md R120 to R127, spec/opcode_table.json).
Decoding is total: every word is an instruction or is rejected by name. -/

namespace Sys2Proof

/-- Why a command word is illegal (30_encoding.md R126); both raise `E_ILLEGAL`. -/
inductive DecodeError where
  /-- The opcode is not in the table of R125. -/
  | unknownOpcode
  /-- A reserved-zero bit of the opcode's format is 1. -/
  | reservedBit
deriving DecidableEq, Repr

/-- The 2-bit role field (30_encoding.md R123). -/
def decodeRole (f : BitVec 2) : Role :=
  match f.toNat with
  | 0 => .a
  | 1 => .b
  | 2 => .staging
  | _ => .run

/-- The 2-bit encoding of a role (30_encoding.md R123). -/
def encodeRole : Role → BitVec 2
  | .a => 0
  | .b => 1
  | .staging => 2
  | .run => 3

/-- Format `N` (30_encoding.md R120): bits [31:8] are reserved-zero. -/
def formatN (w : Word) (i : Instr) : Except DecodeError Instr :=
  if w.extractLsb' 8 24 = 0 then .ok i else .error .reservedBit

/-- Format `B`: `imm8 = CMD[15:8]`, bits [31:16] are reserved-zero (30_encoding.md R120, R122). -/
def formatB (w : Word) (f : Byte → Instr) : Except DecodeError Instr :=
  if w.extractLsb' 16 16 = 0 then .ok (f (w.extractLsb' 8 8)) else .error .reservedBit

/-- Format `R`: `role = CMD[9:8]`, bits [31:10] are reserved-zero (30_encoding.md R120, R122). -/
def formatR (w : Word) (f : Role → Instr) : Except DecodeError Instr :=
  if w.extractLsb' 10 22 = 0 then .ok (f (decodeRole (w.extractLsb' 8 2))) else .error .reservedBit

/-- Format `H`: `version = CMD[15:8]`, `receiver = CMD[23:16]`, `sender = CMD[31:24]`
(30_encoding.md R120, R122); no bit is reserved. -/
def formatH (w : Word) (f : Byte → Byte → Byte → Instr) : Except DecodeError Instr :=
  .ok (f (w.extractLsb' 8 8) (w.extractLsb' 16 8) (w.extractLsb' 24 8))

/-- Decode a command word: the opcode is `CMD[7:0]`, and the formats are those of 30_encoding.md R125. -/
def decode (w : Word) : Except DecodeError Instr :=
  match (w.extractLsb' 0 8).toNat with
  | 0x01 => formatN w .crcInit
  | 0x02 => formatN w .crcUpdate
  | 0x03 => formatB w .crcUpdateByte
  | 0x04 => formatN w .crcFinal
  | 0x05 => formatN w .crcCompute
  | 0x10 => formatN w .escape
  | 0x11 => formatN w .unescape
  | 0x12 => formatH w .frameBuild
  | 0x20 => formatN w .sessBegin
  | 0x21 => formatN w .sessPoll
  | 0x22 => formatN w .sessProgress
  | 0x30 => formatN w .flWrite
  | 0x31 => formatN w .flWriteNocheck
  | 0x32 => formatN w .flRead
  | 0x33 => formatN w .flEraseSector
  | 0x40 => formatN w .cfgRead
  | 0x41 => formatN w .cfgWrite
  | 0x42 => formatN w .cfgInit
  | 0x43 => formatN w .imgCrc
  | 0x44 => formatR w .imgVerify
  | 0x45 => formatN w .bootSelect
  | 0x46 => formatN w .updTarget
  | 0x47 => formatR w .updStart
  | 0x48 => formatR w .updComplete
  | 0x49 => formatN w .updFailed
  | 0x4A => formatN w .bootConfirm
  | 0x4B => formatN w .requestUpdate
  | 0x4C => formatN w .cfgGet
  | 0x50 => formatN w .runApp
  | 0x51 => formatN w .startUpdate
  | 0x52 => formatN w .erase
  | _ => .error .unknownOpcode

/-- The decoder on an instruction of spec/opcode_table.json: bit 0 of `w` is the least significant bit
of the one 32-bit word a command has, and bits above `nbits` are 0. -/
def decodeTableWord (nbits w : Nat) : Option Instr :=
  (decode (BitVec.ofNat 32 (w % 2 ^ nbits))).toOption

/-! ### The encoder -/

/-- A format-`N` word. -/
def wordN (opc : Byte) : Word := opc.setWidth 32

/-- A format-`B` word. -/
def wordB (opc imm8 : Byte) : Word := (0 : BitVec 16) ++ imm8 ++ opc

/-- A format-`R` word. -/
def wordR (opc : Byte) (r : Role) : Word := (0 : BitVec 22) ++ encodeRole r ++ opc

/-- A format-`H` word. -/
def wordH (opc version receiver sender : Byte) : Word := sender ++ receiver ++ version ++ opc

/-- The command word of an instruction (30_encoding.md R125). -/
def encode : Instr → Word
  | .crcInit => wordN 0x01
  | .crcUpdate => wordN 0x02
  | .crcUpdateByte imm8 => wordB 0x03 imm8
  | .crcFinal => wordN 0x04
  | .crcCompute => wordN 0x05
  | .escape => wordN 0x10
  | .unescape => wordN 0x11
  | .frameBuild version receiver sender => wordH 0x12 version receiver sender
  | .sessBegin => wordN 0x20
  | .sessPoll => wordN 0x21
  | .sessProgress => wordN 0x22
  | .flWrite => wordN 0x30
  | .flWriteNocheck => wordN 0x31
  | .flRead => wordN 0x32
  | .flEraseSector => wordN 0x33
  | .cfgRead => wordN 0x40
  | .cfgWrite => wordN 0x41
  | .cfgInit => wordN 0x42
  | .imgCrc => wordN 0x43
  | .imgVerify role => wordR 0x44 role
  | .bootSelect => wordN 0x45
  | .updTarget => wordN 0x46
  | .updStart role => wordR 0x47 role
  | .updComplete role => wordR 0x48 role
  | .updFailed => wordN 0x49
  | .bootConfirm => wordN 0x4A
  | .requestUpdate => wordN 0x4B
  | .cfgGet => wordN 0x4C
  | .runApp => wordN 0x50
  | .startUpdate => wordN 0x51
  | .erase => wordN 0x52

end Sys2Proof
end

