-- ==== Sys2Proof/Machine/State.lean ====
section
/-! DEFINITION. The state of the engine (10_state.md, 20_memory.md), as plain data, the reasons a step can
stop, and the state after reset. INVENTORY.md lists every field with its rule and its reset value. -/

namespace Sys2Proof.Machine

/-! ### Enumerations -/

/-- `DSTATE` (10_state.md R42); encodings 6 and 7 never occur. -/
inductive DState where
  | check
  | update
  | jump
  | noImage
  | handedOff
  | fault
deriving DecidableEq, Repr

/-- `PSTATE` (10_state.md R48); encodings 5 to 7 never occur. -/
inductive PState where
  | waitStart
  | readLength
  | readBody
  | readCrc
  | waitEnd
deriving DecidableEq, Repr

/-- `ret_state` (10_state.md R43). -/
inductive RetState where
  | jump
  | noImage
deriving DecidableEq, Repr

/-- `sess_kind` (10_state.md R43). -/
inductive SessKind where
  | flow
  | raw
deriving DecidableEq, Repr

/-- The result codes of 60_exceptions.md R380, by name. -/
inductive Code where
  | ok
  | eErase
  | eRxStart
  | eTimeoutNoData
  | eTimeoutPartial
  | eNoData
  | eWrite
  | eOverflow
  | eCopy
  | eNoImage
  | eIllegal
  | eBusy
  | eBadSpan
  | eAlign
  | eRange
  | eFlash
  | eCap
  | eEscape
  | eCfgInvalid
  | eNoSession
  | eState
  | eBadArg
deriving DecidableEq, Repr

/-! ### Memory -/

/-- The contents of the flash and RAM windows, by system address (20_memory.md R80): a list of
(address, byte) with addresses strictly rising and no entry equal to `erasedByte`, which an address
that is not listed reads as (log 3). `Memory.Wf` says the form holds. -/
abbrev Memory := List Host.Cell

/-- The canonical form of memory: equal memories are equal lists. -/
abbrev Memory.Wf (m : Memory) : Prop :=
  m.Pairwise (fun c d => c.1 < d.1) ∧ ∀ c ∈ m, c.2 ≠ erasedByte

/-! ### Records of the state -/

/-- The config cache under `TOPOLOGY = AB` (10_state.md R45); the four one-byte fields are held as their
raw u8 values (30_encoding.md R162). -/
structure AbRecord where
  magic : Word
  active : Byte
  updating : Byte
  bootCount : Byte
  updateReq : Byte
  sizeA : Word
  crcA : Word
  sizeB : Word
  crcB : Word
deriving DecidableEq, Repr

/-- The config cache under `TOPOLOGY = SR` (10_state.md R45). -/
structure SrRecord where
  magic : Word
  pageCount : Word
  runSize : Word
  runCrc : Word
deriving DecidableEq, Repr

/-- The receive session (10_state.md R46). -/
structure Session where
  /-- `sess_active` -/
  active : Bool
  /-- `sess_base` -/
  base : Word
  /-- `sess_limit` -/
  limit : Word
  /-- `cursor` -/
  cursor : Word
  /-- `written` -/
  written : Word
  /-- `pend_valid` -/
  pendValid : Bool
  /-- `pend_byte` -/
  pendByte : Byte
  /-- `idle_count` -/
  idleCount : Word
  /-- `start_tick` -/
  startTick : Word
deriving DecidableEq, Repr

/-- The session fields at reset (10_state.md R46). -/
def Session.init : Session :=
  { active := false, base := 0, limit := 0, cursor := 0, written := 0, pendValid := false,
    pendByte := 0, idleCount := 0, startTick := 0 }

/-- The receive parser (10_state.md R48). `body` lists exactly the `body_n` bytes held, since a byte at
index `body_n` or above holds no value; `body_n` is its length. -/
structure Parser where
  /-- `PSTATE` -/
  pstate : PState
  /-- `pcount`, 0..3 -/
  pcount : Nat
  /-- `len_acc` -/
  lenAcc : Word
  /-- `crc_acc` -/
  crcAcc : Word
  /-- `crc_raw`, 4 bytes in wire order -/
  crcRaw : List Byte
  /-- `body[0..body_n)` -/
  body : List Byte
  /-- `esc_pend` -/
  escPend : Bool
deriving DecidableEq, Repr

/-- The parser fields at reset and at session start (10_state.md R48, 43_protocol.md R220), with `PSTATE`
as given: also what a START byte (R223) and a frame error (R238) leave. -/
def Parser.cleared (ps : PState) : Parser :=
  { pstate := ps, pcount := 0, lenAcc := 0, crcAcc := 0, crcRaw := [0, 0, 0, 0], body := [],
    escPend := false }

/-- The receive channel (10_state.md R49). `buf` lists exactly the `rx_len` bytes of the chunk, since a
byte of `rx_buf` beyond it holds no value; `line` is what the host has sent since the channel was armed
and no chunk has taken (60_exceptions.md R384, log 13). -/
structure RxChannel where
  /-- `rx_armed` -/
  armed : Bool
  /-- `rx_ready` -/
  ready : Bool
  /-- `rx_buf[0..rx_len)` -/
  buf : List Byte
  /-- Bytes sent and not yet delivered. -/
  line : List Byte
deriving DecidableEq, Repr

/-- The receive channel at reset (10_state.md R49). -/
def RxChannel.init : RxChannel := { armed := false, ready := false, buf := [], line := [] }

/-- The hand-off record (10_state.md R52). -/
structure HandOff where
  /-- `ho_vtor` -/
  vtor : Word
  /-- `ho_sp` -/
  sp : Word
  /-- `ho_entry` -/
  entry : Word
deriving DecidableEq, Repr

/-! ### The environment (60_exceptions.md R393): the model's own fields -/

/-- One step of an agent other than the foreground controller, or `foreground`, which gives that
controller the next step (60_exceptions.md R387 a; log 4). -/
inductive Input where
  /-- The foreground controller takes its next step. -/
  | foreground
  /-- A register-window write of `size` bytes at a bus address (10_state.md R31). -/
  | portWrite (addr : Word) (size : Nat) (value : Word)
  /-- A register-window read of `size` bytes at a bus address (10_state.md R31). -/
  | portRead (addr : Word) (size : Nat)
  /-- The command issuer fills a RAM buffer (log 21). -/
  | ramWrite (addr : Word) (bytes : List Byte)
  /-- The host sender sends bytes on the serial line (00_scope.md R9 e). -/
  | hostSend (bytes : List Byte)
  /-- The receive channel delivers a chunk of `m` bytes (60_exceptions.md R384). -/
  | deliver (m : Nat)
  /-- The clock advances (60_exceptions.md R386). -/
  | clockAdvance (ticks : Word)
  /-- `fatal_in` is asserted (60_exceptions.md R392). -/
  | fatalIn
  /-- Power-on, power-loss or platform reset (70_reset_and_hazards.md R410); `ram` gives RAM's bytes
  after it (log 6). -/
  | reset (ram : List Byte)
deriving DecidableEq, Repr

/-- The environment's choices, as data (log 4, 5, 7, 9, 28). -/
structure Env where
  /-- The inputs still to come, in order. -/
  inputs : List Input
  /-- The flash collaborator's answers still to come, in order. -/
  flashAnswers : List FlashAnswer
  /-- Every later answer; `none`: the free value `Config.flashAnswer`. -/
  flashRest : Option FlashAnswer
  /-- The receive-channel agent's answers to `RxArm()` still to come (`true` is ok), in order; after
  them the free value `Config.armAnswer`. -/
  armAnswers : List Bool
  /-- `FlashErase` calls made (44_flash.md R281). -/
  eraseCalls : Nat
  /-- `FlashProgram` calls made (44_flash.md R282). -/
  programCalls : Nat
  /-- `RxArm` calls made. -/
  armCalls : Nat
  /-- What `Tick()` answers (60_exceptions.md R386). -/
  clock : Word
  /-- What the last register read returned to its reader (10_state.md R31). -/
  readData : Word
deriving DecidableEq, Repr

/-- No input and no answer chosen; counters at 0 (log 28). -/
def Env.init : Env :=
  { inputs := [], flashAnswers := [], flashRest := none, armAnswers := [], eraseCalls := 0,
    programCalls := 0, armCalls := 0, clock := 0, readData := 0 }

/-! ### The state -/

/-- Everything the spec gives the engine. `STATUS`, `SESS_WRITTEN`, `SESS_CURSOR` and `CMD` are views
(`State.readRegister`). An `Option` here is the spec's own "no value" (10_state.md R43, R44, R52, R55;
93_implementation_defined.md X32; log 10). -/
structure State where
  /-- The implementation parameters (00_scope.md R11); no step changes them. -/
  par : Config
  /-- Flash and RAM (20_memory.md R80). -/
  mem : Memory
  /-- The sector scratch buffer (20_memory.md R80 item 5, 44_flash.md R272). -/
  scratch : List Byte
  /-- The status-frame assembly buffer (20_memory.md R80 item 5). -/
  frameBuf : List Byte
  /-- `ARG0` -/
  arg0 : Word
  /-- `ARG1` -/
  arg1 : Word
  /-- `ARG2` -/
  arg2 : Word
  /-- `ARG3` -/
  arg3 : Word
  /-- `RES0` -/
  res0 : Word
  /-- `RES1` -/
  res1 : Word
  /-- `RESULT` -/
  result : Word
  /-- `CRC_STATE` -/
  crcState : Word
  /-- `FRAMES_OK` -/
  framesOk : Word
  /-- `FRAMES_BAD` -/
  framesBad : Word
  /-- `LAST_UPDATE` -/
  lastUpdate : Word
  /-- `DSTATE` -/
  dstate : DState
  /-- `ret_state` -/
  retState : Option RetState
  /-- `sess_kind` -/
  sessKind : Option SessKind
  /-- `flow_target` -/
  flowTarget : Option Role
  /-- The config cache under AB. -/
  cacheAb : Option AbRecord
  /-- The config cache under SR. -/
  cacheSr : Option SrRecord
  /-- `cfg_valid` -/
  cfgValid : Bool
  /-- `cfg_dirty` -/
  cfgDirty : Bool
  /-- The receive session. -/
  sess : Session
  /-- The receive parser. -/
  parser : Parser
  /-- The receive channel. -/
  rx : RxChannel
  /-- `irq_masked` -/
  irqMasked : Bool
  /-- `TX`, in call order. -/
  tx : List (List Byte)
  /-- The hand-off record. -/
  handOff : Option HandOff
  /-- The environment's choices: the model's own. -/
  env : Env
deriving DecidableEq, Repr

/-- Every state element at the reset value of 10_state.md R56, for given parameters, memory and
environment. -/
def State.initial (par : Config) (mem : Memory) (env : Env) : State :=
  { par := par, mem := mem, scratch := [], frameBuf := [],
    arg0 := 0, arg1 := 0, arg2 := 0, arg3 := 0, res0 := 0, res1 := 0, result := 0,
    crcState := 0xFFFFFFFF, framesOk := 0, framesBad := 0, lastUpdate := 0,
    dstate := .check, retState := none, sessKind := none, flowTarget := none,
    cacheAb := none, cacheSr := none, cfgValid := false, cfgDirty := false,
    sess := Session.init, parser := Parser.cleared .waitStart, rx := RxChannel.init,
    irqMasked := false, tx := [], handOff := none, env := env }

/-- The machine right after the first power-on reset, under the reference parameters, with no memory
byte listed and no environment choice made (log 1, 2, 3, 19, 28). -/
def State.reset : State := State.initial Config.reference [] Env.init

/-! ### Why a step stops -/

/-- A state element the spec says may hold no value (93_implementation_defined.md X32). -/
inductive Element where
  | configCache
  | retState
  | sessKind
  | flowTarget
  /-- A byte of `body` at index `body_n` or above (10_state.md R48). -/
  | frameBody
deriving DecidableEq, Repr

/-- The machine stops with a fault. -/
inductive Fault where
  /-- A rule read an element that holds no value: "a model must fault if a rule reads one before a rule
  writes it" (10_state.md R55, X32). Raised by the meanings that read the cache, by session end and by WAIT_END; safe:
  no state that a run reaches does it, and an obligation says so. -/
  | noValue (e : Element)
deriving DecidableEq, Repr

/-- The machine has no step. -/
inductive Refusal where
  /-- Raised by a dispatch arm whose instruction has no meaning yet; safe. No arm of this model raises it. -/
  | notModelled (mnemonic : String)
  /-- A register-window access that is not an aligned 32-bit access: "refused by a model; it has no
  step" (10_state.md R31, X28). Raised by the port; safe. -/
  | portAccess
deriving DecidableEq, Repr

end Sys2Proof.Machine
end

