-- ==== Sys2Proof/Machine/Ops.lean ====
section
/-! DEFINITION. The shared operations: memory (20_memory.md), the end of a command and `raise`
(00_scope.md R15), the collaborator calls (20_memory.md R96, R97; 43_protocol.md R220, R249) and reset
(10_state.md R55). Every meaning is written over them. -/

namespace Sys2Proof.Machine

/-! ### Memory (20_memory.md R80 to R83) -/

/-- The byte at a system address; an address that is not listed reads `erasedByte` (log 3). -/
def Memory.get : Memory → Nat → Byte
  | [], _ => erasedByte
  | c :: m, a => if c.1 = a then c.2 else Memory.get m a

/-- Set one byte, keeping the canonical form: setting `erasedByte` removes the entry. -/
def Memory.set : Memory → Nat → Byte → Memory
  | [], a, b => if b = erasedByte then [] else [(a, b)]
  | c :: m, a, b =>
    if a < c.1 then (if b = erasedByte then c :: m else (a, b) :: c :: m)
    else if a = c.1 then (if b = erasedByte then m else (a, b) :: m)
    else c :: Memory.set m a b

/-- Set the bytes from `a` on. -/
def Memory.store : Memory → Nat → List Byte → Memory
  | m, _, [] => m
  | m, a, b :: bs => Memory.store (m.set a b) (a + 1) bs

/-- Every byte of `[a, a + n)` becomes `erasedByte` (20_memory.md R96). -/
def Memory.eraseSpan (m : Memory) (a n : Nat) : Memory :=
  m.filter fun c => !(decide (a ≤ c.1) && decide (c.1 < a + n))

/-- The list `[M(a), ..., M(a + n − 1)]` (20_memory.md R82). -/
def Memory.read (m : Memory) (a n : Nat) : List Byte := (List.range n).map fun i => m.get (a + i)

/-- The word at `a` (20_memory.md R85). -/
def Memory.word (m : Memory) (a : Nat) : Word := u32 (m.read a 4)

/-- The span `(a, n)` is in the window `[lo, hi)` (20_memory.md R81): "computed exactly"; a span with
`n = 0` is in every window. -/
def inWindow (lo hi a n : Nat) : Bool := n == 0 || (lo ≤ a && a + n ≤ hi)

/-- The span is in the flash window. -/
def inFlash (p : Config) (a n : Nat) : Bool := inWindow p.flashBase p.flashEnd a n

/-- The span is in the RAM window: the spans `MemWrite` accepts (20_memory.md R83). -/
def inRam (p : Config) (a n : Nat) : Bool := inWindow p.ramBase p.ramEnd a n

/-- The span is in one window, flash or RAM: the spans `MemRead` accepts (20_memory.md R82). -/
def readable (p : Config) (a n : Nat) : Bool := inFlash p a n || inRam p a n

/-! ### The engine's computations -/

/-- Why a computation ends before its end. -/
inductive Stop where
  /-- Power was lost at a flash micro-step (20_memory.md R104 b, c); the state is the one after reset. -/
  | powerLost
  /-- A rule read an element that holds no value. -/
  | fault (f : Fault)
deriving DecidableEq, Repr

/-- A computation of the foreground controller: it runs from a state to a result and a state, or stops. -/
abbrev Engine := EStateM Stop State

/-- The current state. -/
def getState : Engine State := fun s => .ok s s

/-- Change the state. -/
def update (f : State → State) : Engine Unit := fun s => .ok () (f s)

/-- Read an element that may hold no value (10_state.md R55). -/
def valueOf {α : Type} (e : Element) (v : State → Option α) : Engine α := fun s =>
  match v s with
  | some a => .ok a s
  | none => .error (.fault (.noValue e)) s

/-! ### Results of a command -/

/-- The signed code of 60_exceptions.md R380. -/
def Code.number : Code → Int
  | .ok => 0
  | .eErase => -1
  | .eRxStart => -2
  | .eTimeoutNoData => -3
  | .eTimeoutPartial => -4
  | .eNoData => -5
  | .eWrite => -6
  | .eOverflow => -7
  | .eCopy => -8
  | .eNoImage => -9
  | .eIllegal => -16
  | .eBusy => -17
  | .eBadSpan => -18
  | .eAlign => -19
  | .eRange => -20
  | .eFlash => -21
  | .eCap => -22
  | .eEscape => -23
  | .eCfgInvalid => -24
  | .eNoSession => -25
  | .eState => -26
  | .eBadArg => -27

/-- The code sign-extended to 32 bits, as `RESULT` and `LAST_UPDATE` hold it (10_state.md R33). -/
def Code.value (c : Code) : Word := BitVec.ofInt 32 c.number

/-- The end of a command (00_scope.md R15): `RESULT` takes the code, `ok` where nothing was raised, and
every other element stays as the rule had written it. `raise E_X` is this engine's only "trap entry", and
there is no return from it (60_exceptions.md R389). -/
def State.finish (s : State) (c : Code) : State := { s with result := c.value }

/-- `raise E_X` inside a command: the command ends with the code (00_scope.md R15). -/
def raise (c : Code) : Engine Code := pure c

/-- The outcome of a computation that ended: a power loss is a next state, the one after reset. -/
def settle (r : EStateM.Result Stop State Unit) : Host.Outcome State Fault Refusal :=
  match r with
  | .ok _ s => .next s
  | .error .powerLost s => .next s
  | .error (.fault f) _ => .fault f

/-! ### Command acceptance (30_encoding.md R127) -/

/-- The acceptance classes of 30_encoding.md R125 and R127. -/
inductive CmdClass where
  /-- P: pure. -/
  | pure
  /-- W: writes flash or the config cache. -/
  | write
  /-- A: application interface. -/
  | app
  /-- SESS_BEGIN. -/
  | sessBegin
  /-- SESS_POLL. -/
  | sessPoll
deriving DecidableEq, Repr

/-- The table of 30_encoding.md R127: `none` where the command is accepted, else the code it raises. -/
def refusalCode : CmdClass → DState → Option Code
  | _, .check => some .eBusy
  | _, .jump => some .eBusy
  | _, .fault => some .eState
  | .pure, _ => none
  | .sessPoll, .update => none
  | .sessPoll, _ => some .eNoSession
  | .sessBegin, .update => some .eBusy
  | .sessBegin, .noImage => none
  | .sessBegin, .handedOff => some .eState
  | .write, .update => some .eBusy
  | .write, .noImage => none
  | .write, .handedOff => some .eState
  | .app, .update => some .eBusy
  | .app, _ => none

/-- Issue a command: the acceptance test of 30_encoding.md R127 (check 2 of R128), then its body, whose
value is the code that ends it. A command refused here "changes nothing else". -/
def runCommand (k : CmdClass) (body : Engine Code) (s : State) : Host.Outcome State Fault Refusal :=
  match refusalCode k s.dstate with
  | some c => .next (s.finish c)
  | none => settle ((do let c ← body; update (·.finish c)) s)

/-! ### Reset (10_state.md R55) -/

/-- The state after a reset (10_state.md R55, 70_reset_and_hazards.md R410): every element at its reset
value, flash kept, RAM holding any value (the environment's bytes, log 6); the environment goes on. -/
def State.afterReset (s : State) (ram : List Byte) : State :=
  State.initial s.par (s.mem.store s.par.ramBase (ram.take ramSize)) s.env

/-! ### The flash collaborator (20_memory.md R96 to R98) -/

/-- The answer the next flash call gets: the next one listed, else the one given for the rest, else the
free value (log 5). -/
def State.flashAnswer (s : State) : FlashAnswer :=
  match s.env.flashAnswers with
  | a :: _ => a
  | [] => s.env.flashRest.getD (Config.flashAnswer (s.env.eraseCalls + s.env.programCalls))

/-- The environment after that answer is drawn: it is used up, and the clock has moved on (log 9). -/
def Env.drawFlash (e : Env) (a : FlashAnswer) : Env :=
  { e with flashAnswers := e.flashAnswers.tail, clock := e.clock + a.elapsed }

/-- `FlashErase(sec)` (20_memory.md R96); `true` is ok. Power may be lost before or during it (R104). -/
def flashErase (sec : Nat) : Engine Bool := fun s =>
  let a := s.flashAnswer
  let base := s.par.flashBase + sec * s.par.sector
  let before := { s with env := s.env.drawFlash a }
  let called := { s with env := { s.env.drawFlash a with eraseCalls := s.env.eraseCalls + 1 } }
  let junk := { called with mem := s.mem.store base (a.junk.take s.par.sector) }
  match a.outcome with
  | .ok => .ok true { called with mem := s.mem.eraseSpan base s.par.sector }
  | .fail => .ok false junk
  | .lostBefore => .error .powerLost (before.afterReset a.ram)
  | .lostDuring => .error .powerLost (junk.afterReset a.ram)

/-- What an ok answer makes of a granule: the new bytes, or `none` where the call fails all the same
(20_memory.md R97: the granule is not erased, under `FAIL_ANY`). -/
def programmed (o : OverNonErased) (old g : List Byte) : Option (List Byte) :=
  if old.all (· == erasedByte) then some g
  else
    match o with
    | .andBits => some (List.zipWith (· &&& ·) old g)
    | .failAny => none

/-- `FlashProgram(addr, g)` (20_memory.md R97); `true` is ok. Power may be lost before or during it (R104). -/
def flashProgram (addr : Nat) (g : List Byte) : Engine Bool := fun s =>
  let a := s.flashAnswer
  let before := { s with env := s.env.drawFlash a }
  let called := { s with env := { s.env.drawFlash a with programCalls := s.env.programCalls + 1 } }
  let junk := { called with mem := s.mem.store addr (a.junk.take s.par.granule) }
  match a.outcome with
  | .ok =>
    match programmed s.par.overNonErased (s.mem.read addr s.par.granule) g with
    | some new => .ok true { called with mem := s.mem.store addr new }
    | none => .ok false junk
  | .fail => .ok false junk
  | .lostBefore => .error .powerLost (before.afterReset a.ram)
  | .lostDuring => .error .powerLost (junk.afterReset a.ram)

/-- Program granules one after another from `addr` on, stopping at the first fail (44_flash.md R271, R277,
45_config.md R303). -/
def programGranules : Nat → List (List Byte) → Engine Bool
  | _, [] => pure true
  | addr, g :: gs => do
    let s ← getState
    if ← flashProgram addr g then programGranules (addr + s.par.granule) gs else pure false

/-- Run a sector operation between one `IrqMask()` and one `IrqUnmask()` (44_flash.md R274). -/
def masked (op : Engine Bool) : Engine Bool := do
  update fun s => { s with irqMasked := true }
  let r ← op
  update fun s => { s with irqMasked := false }
  pure r

/-! ### The serial collaborators -/

/-- The answer the next `RxArm()` gets (43_protocol.md R220): the next one listed, else the free value
(log 7); `true` is ok. -/
def State.armAnswer (s : State) : Bool :=
  match s.env.armAnswers with
  | b :: _ => b
  | [] => Config.armAnswer s.env.armCalls

/-- `RxArm()` (43_protocol.md R220). Arming starts a new count of "what the host sender has sent since
the channel was armed" (60_exceptions.md R384, log 13). -/
def rxArm : Engine Bool := fun s =>
  let t := { s with env := { s.env with armAnswers := s.env.armAnswers.tail,
                                        armCalls := s.env.armCalls + 1 } }
  if s.armAnswer then
    .ok true { t with rx := { armed := true, ready := false, buf := [], line := [] } }
  else .ok false t

/-- `Tick()` (60_exceptions.md R386). -/
def State.tick (s : State) : Word := s.env.clock

/-- `UartSend(l)` (43_protocol.md R249). -/
def State.uartSend (s : State) (l : List Byte) : State := { s with tx := s.tx ++ [l] }

/-- `SendStatus(tag, st)` (43_protocol.md R239): the raw frame is assembled in its own buffer
(20_memory.md R80 item 5) and sent escaped. -/
def State.sendStatus (s : State) (tag : List Byte) (st : Word) : State :=
  let raw := assembleFrame s.par.rspVersion s.par.rspReceiver s.par.rspSender (tag ++ le32 st)
  { s with frameBuf := raw }.uartSend (escape s.par.escMode raw)

end Sys2Proof.Machine
end

