-- ==== Sys2Proof/Machine/Operands.lean ====
section
/-! DEFINITION. The operand forms (30_encoding.md R121 to R124): roles and their regions, memory spans
given by a pair of ARG registers, flash addresses and their alignment. -/

namespace Sys2Proof.Machine

/-- The numeric encoding of a role in a result register (30_encoding.md R123). -/
def roleWord (r : Role) : Word := (encodeRole r).setWidth 32

/-- NONE, "no bootable image", in `RES0` and `RES1` (30_encoding.md R124). -/
def noneWord : Word := 0xFFFFFFFF

/-- The role names a region of the topology (30_encoding.md R123). -/
def hasRole (p : Config) (r : Role) : Bool :=
  match p.topology, r with
  | .ab, .a => true
  | .ab, .b => true
  | .sr, .staging => true
  | .sr, .run => true
  | _, _ => false

/-- `Base(role)` (30_encoding.md R123). -/
def regionBase (p : Config) : Role → Nat
  | .a => p.aBase
  | .b => p.bBase
  | .staging => p.stagingBase
  | .run => p.runBase

/-- An address or length operand as a number: "A plain `+` or `−` on addresses and counts is exact
integer arithmetic" (00_scope.md R13). -/
def State.operand0 (s : State) : Nat := s.arg0.toNat

/-- `ARG1` as a number. -/
def State.operand1 (s : State) : Nat := s.arg1.toNat

/-- `ARG2` as a number. -/
def State.operand2 (s : State) : Nat := s.arg2.toNat

/-- `ARG3` as a number. -/
def State.operand3 (s : State) : Nat := s.arg3.toNat

/-- `(a − FLASH_BASE) mod G = 0` (20_memory.md R87, 44_flash.md R270), the difference taken exactly, also
below `FLASH_BASE` (log 17). -/
def granuleAligned (p : Config) (a : Nat) : Bool :=
  ((a : Int) - (p.flashBase : Int)) % (p.granule : Int) == 0

/-- `[lo, hi)` lies in the managed range `[WR_LO, WR_HI)` (20_memory.md R91). -/
def managed (p : Config) (lo hi : Nat) : Bool := p.wrLo ≤ lo && hi ≤ p.wrHi

/-- The sector that holds a flash address (44_flash.md R271). -/
def sectorOf (p : Config) (a : Nat) : Nat := (a - p.flashBase) / p.sector

/-- The first address of a sector (44_flash.md R271). -/
def sectorBase (p : Config) (sec : Nat) : Nat := p.flashBase + sec * p.sector

/-- The halfword buffer of `n` halfwords at `a` (20_memory.md R85). -/
def Memory.halfBuffer (m : Memory) (a n : Nat) : List Half := halves (m.read a (2 * n))

end Sys2Proof.Machine
end

