-- ==== Sys2Proof/Machine/Writer.lean ====
section
/-! DEFINITION. The flash writer (44_flash.md R271 to R277, R280): the sector-aware halfword writer, its
program primitive and region erase. -/

namespace Sys2Proof.Machine

/-- `NoCheck(a, hw)` (44_flash.md R277): halfwords packed into granules, an incomplete last group padded
with 0xFF (30_encoding.md R165). -/
def noCheck (a : Nat) (hw : List Half) : Engine Bool := do
  let s ← getState
  let g := s.par.granule
  let n := ceilDiv (2 * hw.length) g
  programGranules a (pieces g n (padTo (n * g) erasedByte (halfBytes hw)))

/-- `EraseMergeProgram(sec, sb, scratch, off, seg)` (44_flash.md R271): the scratch buffer keeps the
sector's previous content (90_conflicts.md C4). -/
def eraseMergeProgram (sec off : Nat) (seg : List Half) : Engine Bool :=
  masked do
    if ← flashErase sec then do
      update fun s => { s with scratch := splice s.scratch (2 * off) (halfBytes seg) }
      let s ← getState
      programGranules (sectorBase s.par sec)
        (pieces s.par.granule (s.par.sector / s.par.granule) s.scratch)
    else pure false

/-- Some halfword of `[off, hi)` of the scratch buffer is not erased (44_flash.md R271, R273). -/
def holdsData (scratch : List Byte) (off hi : Nat) : Bool :=
  (halves ((scratch.drop (2 * off)).take (2 * (hi - off)))).any (· != 0xFFFF)

/-- One turn of the loop of `Write` (44_flash.md R271): halfwords `seg` at halfword offset `off` of
sector `sec`. -/
def writeSector (sec off : Nat) (seg : List Half) : Engine Bool := do
  update fun s => { s with scratch := s.mem.read (sectorBase s.par sec) s.par.sector }
  let s ← getState
  let hi := roundUp (off + seg.length) (s.par.granule / 2)
  if holdsData s.scratch off hi then eraseMergeProgram sec off seg
  else masked (noCheck (sectorBase s.par sec + 2 * off) seg)

/-- The loop of `Write` (44_flash.md R271). Each turn writes at least one halfword, so as many turns as
halfwords suffice (log 22). -/
def writeLoop : Nat → Nat → List Half → Engine Bool
  | 0, _, _ => pure true
  | turns + 1, a, hw =>
    if hw.isEmpty then pure true
    else do
      let s ← getState
      let sec := sectorOf s.par a
      let off := (a - sectorBase s.par sec) / 2
      let k := min (s.par.sector / 2 - off) hw.length
      if ← writeSector sec off (hw.take k) then writeLoop turns (a + 2 * k) (hw.drop k)
      else pure false

/-- `Write(addr, hw)` (44_flash.md R271); `true` is ok. It stops at the first failing call (R275). -/
def writeFlash (addr : Nat) (hw : List Half) : Engine Bool := writeLoop hw.length addr hw

/-- `MergeWrite(c, hws)` (43_protocol.md R237): from the granule boundary below `c`, the halfwords that
flash already holds are written again with their values. -/
def mergeWrite (c : Nat) (hws : List Half) : Engine Bool := do
  let s ← getState
  let a0 := c - (c - s.par.flashBase) % s.par.granule
  writeFlash a0 (s.mem.halfBuffer a0 ((c - a0) / 2) ++ hws)

/-- Erase `n` sectors from `sec` on, each masked on its own, stopping at the first fail (44_flash.md R280). -/
def eraseSectors : Nat → Nat → Engine Bool
  | _, 0 => pure true
  | sec, n + 1 => do
    if ← masked (flashErase sec) then eraseSectors (sec + 1) n else pure false

/-- `EraseRegion(base, size)` (44_flash.md R280). -/
def eraseRegion (base size : Nat) : Engine Bool := do
  let s ← getState
  eraseSectors (sectorOf s.par base) (size / s.par.sector)

end Sys2Proof.Machine
end

