-- ==== Sys2Proof/Machine/Record.lean ====
section
/-! DEFINITION. The config record (30_encoding.md R160 to R163) and the internal steps of the boot unit
(45_config.md R300 to R317): load, validate, initialise, persist, verify, select, and the update
lifecycle. -/

namespace Sys2Proof.Machine

/-! ### The record's bytes (30_encoding.md R160 to R162) -/

/-- `Serialize` under AB (30_encoding.md R160). -/
def serializeAb (c : AbRecord) : List Byte :=
  le32 c.magic ++ [c.active, c.updating, c.bootCount, c.updateReq]
    ++ le32 c.sizeA ++ le32 c.crcA ++ le32 c.sizeB ++ le32 c.crcB ++ List.replicate 8 erasedByte

/-- `Serialize` under SR (30_encoding.md R161). -/
def serializeSr (c : SrRecord) : List Byte :=
  le32 c.magic ++ le32 c.pageCount ++ le32 c.runSize ++ le32 c.runCrc

/-- `Deserialize` under AB (30_encoding.md R160, R162): the four flag bytes are read raw. -/
def deserializeAb (l : List Byte) : AbRecord :=
  { magic := u32 (l.drop 0), active := l.getD 4 0, updating := l.getD 5 0, bootCount := l.getD 6 0,
    updateReq := l.getD 7 0, sizeA := u32 (l.drop 8), crcA := u32 (l.drop 12),
    sizeB := u32 (l.drop 16), crcB := u32 (l.drop 20) }

/-- `Deserialize` under SR (30_encoding.md R161, R162). -/
def deserializeSr (l : List Byte) : SrRecord :=
  { magic := u32 (l.drop 0), pageCount := u32 (l.drop 4), runSize := u32 (l.drop 8),
    runCrc := u32 (l.drop 12) }

/-- `Valid(cfg)` under AB (45_config.md R301). -/
def validAb (p : Config) (c : AbRecord) : Bool :=
  c.magic == p.cfgMagic && c.active.toNat ≤ 1 && c.updating.toNat ≤ 1
    && c.bootCount.toNat ≤ p.maxBootAttempts && c.updateReq.toNat ≤ 1
    && c.sizeA.toNat ≤ p.regionSize && c.sizeB.toNat ≤ p.regionSize

/-- `Valid(cfg)` under SR (45_config.md R301); every `page_count` is valid. -/
def validSr (p : Config) (c : SrRecord) : Bool :=
  c.magic == p.cfgMagic && c.runSize.toNat ≤ p.regionSize

/-! ### The cache -/

/-- The role a raw `active` byte names: 0 = A, 1 = B (30_encoding.md R160); any other byte names none,
and which of the two it counts as is a free value (log 16). -/
def activeRole (b : Byte) : Role :=
  if b = 0 then .a else if b = 1 then .b else if Config.rawActiveIsB b then .b else .a

/-- The byte that names a role in the `active` field (30_encoding.md R160). -/
def activeByte : Role → Byte
  | .b => 1
  | _ => 0

/-- `Other(role)`: the other one of A and B (45_config.md R308, R309). -/
def otherRole : Role → Role
  | .a => .b
  | .b => .a
  | r => r

/-- Set the recorded size and CRC of A or B. -/
def AbRecord.setImage (c : AbRecord) (r : Role) (size crc : Word) : AbRecord :=
  match r with
  | .a => { c with sizeA := size, crcA := crc }
  | .b => { c with sizeB := size, crcB := crc }
  | _ => c

/-- The AB cache (10_state.md R44). -/
def abCache : Engine AbRecord := valueOf .configCache State.cacheAb

/-- The SR cache (10_state.md R44). -/
def srCache : Engine SrRecord := valueOf .configCache State.cacheSr

/-- Change fields of the AB cache. -/
def updateAb (f : AbRecord → AbRecord) : Engine Unit := do
  let c ← abCache
  update fun s => { s with cacheAb := some (f c) }

/-- Change fields of the SR cache. -/
def updateSr (f : SrRecord → SrRecord) : Engine Unit := do
  let c ← srCache
  update fun s => { s with cacheSr := some (f c) }

/-- `Serialize(cache)` (30_encoding.md R162). -/
def serializeCache : Engine (List Byte) := do
  let s ← getState
  match s.par.topology with
  | .ab => do
    let c ← abCache
    pure (serializeAb c)
  | .sr => do
    let c ← srCache
    pure (serializeSr c)

/-! ### Load, persist, initialise -/

/-- The state after `CfgLoad()` (45_config.md R300). -/
def State.loadRecord (s : State) : State :=
  let l := s.mem.read s.par.cfgAddr s.par.recSize
  match s.par.topology with
  | .ab =>
    { s with cacheAb := some (deserializeAb l), cfgValid := validAb s.par (deserializeAb l),
             cfgDirty := false }
  | .sr =>
    { s with cacheSr := some (deserializeSr l), cfgValid := validSr s.par (deserializeSr l),
             cfgDirty := false }

/-- `CfgLoad()` (45_config.md R300): its answer is `cfg_valid`. -/
def cfgLoad : Engine Bool := do
  update State.loadRecord
  let s ← getState
  pure s.cfgValid

/-- `CfgPersist()` (45_config.md R303): one erase, then `ceil(REC_SIZE / G)` programs; `true` is ok. -/
def cfgPersist : Engine Bool := do
  let l ← serializeCache
  let s ← getState
  let g := s.par.granule
  let n := ceilDiv s.par.recSize g
  let r ← masked do
    if ← flashErase (sectorOf s.par s.par.cfgAddr) then
      programGranules s.par.cfgAddr (pieces g n (padTo (n * g) erasedByte l))
    else pure false
  update fun s => { s with cfgDirty := !r }
  pure r

/-- The default AB record (45_config.md R302). -/
def defaultAb (p : Config) : AbRecord :=
  { magic := p.cfgMagic, active := 0, updating := 0, bootCount := 0, updateReq := 0,
    sizeA := 0, crcA := 0, sizeB := 0, crcB := 0 }

/-- The default SR record (45_config.md R302). -/
def defaultSr (p : Config) : SrRecord :=
  { magic := p.cfgMagic, pageCount := 0, runSize := 0, runCrc := 0 }

/-- `SpPlausible(sp)` (45_config.md R307). -/
def spPlausible (p : Config) (sp : Word) : Bool := p.ramBase < sp.toNat && sp.toNat ≤ p.ramEnd

/-- The bytes up to the last one that is not 0xFF: `size` of `Probe()` (45_config.md R304). -/
def measuredSize (l : List Byte) : Nat := (l.reverse.dropWhile (· == erasedByte)).length

/-- What `Probe()` finds in the region at `b` (45_config.md R304): size and CRC, or nothing. -/
def probeImage (p : Config) (m : Memory) (b : Nat) : Option (Word × Word) :=
  let rv := (m.word (b + 4)).toNat
  if spPlausible p (m.word b) && (b ≤ rv && rv < b + p.regionSize) then
    let size := measuredSize (m.read b p.regionSize)
    some (BitVec.ofNat 32 size, crc32 (m.read b size))
  else none

/-- `Probe()` (45_config.md R304): the probe region is A under AB and the run region under SR. -/
def probe : Engine Unit := do
  let s ← getState
  match s.par.topology with
  | .ab =>
    match probeImage s.par s.mem s.par.aBase with
    | some (size, crc) => updateAb fun c => { c with sizeA := size, crcA := crc, active := 0 }
    | none => pure ()
  | .sr =>
    match probeImage s.par s.mem s.par.runBase with
    | some (size, crc) => updateSr fun c => { c with runSize := size, runCrc := crc }
    | none => pure ()

/-- The state with the default record in the cache (45_config.md R302). -/
def State.defaultRecord (s : State) : State :=
  match s.par.topology with
  | .ab => { s with cacheAb := some (defaultAb s.par), cfgValid := true }
  | .sr => { s with cacheSr := some (defaultSr s.par), cfgValid := true }

/-- `CfgInit()` (45_config.md R302). -/
def cfgInit : Engine Bool := do
  update State.defaultRecord
  let s ← getState
  if s.par.probeFactory then probe else pure ()
  cfgPersist

/-! ### Verification -/

/-- `ImgCrc(base, size)` (45_config.md R305). Its span is checked where a command gives it (log 20). -/
def imgCrc (p : Config) (m : Memory) (base size : Nat) : Word :=
  if size = 0 ∨ p.regionSize < size then 0 else crc32 (m.read base size)

/-- `Rec(role)` (45_config.md R306): the recorded size and CRC. -/
def recorded (r : Role) : Engine (Word × Word) :=
  match r with
  | .a => do
    let c ← abCache
    pure (c.sizeA, c.crcA)
  | .b => do
    let c ← abCache
    pure (c.sizeB, c.crcB)
  | .run => do
    let c ← srCache
    pure (c.runSize, c.runCrc)
  | .staging => pure (0, 0)

/-- An image of recorded size and CRC at `base` verifies (45_config.md R306). -/
def imageVerifies (p : Config) (m : Memory) (base : Nat) (size crc : Word) : Bool :=
  0 < size.toNat && size.toNat ≤ p.regionSize && spPlausible p (m.word base)
    && imgCrc p m base size.toNat == crc

/-- `Verify(role)` (45_config.md R306). -/
def verify (r : Role) : Engine Bool := do
  let s ← getState
  let (size, crc) ← recorded r
  pure (imageVerifies s.par s.mem (regionBase s.par r) size crc)

/-! ### Boot selection (45_config.md R308 to R310) -/

/-- `CrashRecovery()` (45_config.md R308), under AB. -/
def crashRecovery : Engine Bool := do
  updateAb fun c =>
    { c.setImage (otherRole (activeRole c.active)) 0 0 with updating := 0, bootCount := 0 }
  cfgPersist

/-- Step 3's "boot attempted" for one candidate (45_config.md R309, R319); `pf` is the persist result so far. -/
def attemptBoot (cand : Role) (pf : Bool) : Engine (Option Role × Bool) := do
  updateAb fun c =>
    { c with active := if cand = activeRole c.active then c.active else activeByte cand,
             bootCount := c.bootCount + 1 }
  let r ← cfgPersist
  pure (some cand, pf && r)

/-- `BootSelect()` under AB (45_config.md R309): the selected role, or none, and whether every persist was
ok. -/
def bootSelectAb : Engine (Option Role × Bool) := do
  let s ← getState
  let c ← abCache
  let pf ← if c.updating = 1 then crashRecovery else pure true
  let c ← abCache
  let pf ← if s.par.maxBootAttempts ≤ c.bootCount.toNat then do
      updateAb fun c =>
        { c with active := activeByte (otherRole (activeRole c.active)), bootCount := 0 }
      let r ← cfgPersist
      pure (pf && r)
    else pure pf
  let c ← abCache
  let first := activeRole c.active
  if ← verify first then attemptBoot first pf
  else if ← verify (otherRole first) then attemptBoot (otherRole first) pf
  else pure (none, pf)

/-- `BootSelect()` under SR (45_config.md R310): no config change. -/
def bootSelectSr : Engine (Option Role × Bool) := do
  if ← verify .run then pure (some .run, true) else pure (none, true)

/-- `BootSelect()` (45_config.md R309, R310). -/
def bootSelect : Engine (Option Role × Bool) := do
  let s ← getState
  match s.par.topology with
  | .ab => bootSelectAb
  | .sr => bootSelectSr

/-! ### The update lifecycle (45_config.md R311 to R315) -/

/-- `UpdTarget()` (45_config.md R311). -/
def updTarget : Engine Role := do
  let s ← getState
  match s.par.topology with
  | .ab => do
    let c ← abCache
    pure (otherRole (activeRole c.active))
  | .sr => pure .staging

/-- `UpdStart(role)` (45_config.md R312). -/
def updStart : Engine Bool := do
  let s ← getState
  match s.par.topology with
  | .ab => updateAb fun c => { c with updating := 1, updateReq := 0 }
  | .sr => updateSr fun c => { c with pageCount := 1 }
  cfgPersist

/-- The code of a persist: `E_FLASH` where it failed. -/
def persistCode (r : Bool) : Code := if r then .ok else .eFlash

/-- `UpdComplete(role, size, crc)` under AB (45_config.md R313). -/
def updCompleteAb (r : Role) (size crc : Word) : Engine Code := do
  updateAb fun c =>
    { c.setImage r size crc with active := activeByte r, updating := 0, bootCount := 0 }
  let ok ← cfgPersist
  pure (persistCode ok)

/-- `UpdComplete(STAGING, size, crc)` under SR (45_config.md R314): copy, then verify. -/
def updCompleteSr (size crc : Word) : Engine Code := do
  let s ← getState
  let w ← writeFlash s.par.runBase
    (s.mem.halfBuffer s.par.stagingBase (ceilDiv size.toNat 2))
  let s ← getState
  if w && imgCrc s.par s.mem s.par.runBase size.toNat == crc then do
    updateSr fun c => { c with runSize := size, runCrc := crc, pageCount := 0 }
    let ok ← cfgPersist
    pure (persistCode ok)
  else do
    updateSr fun c => { c with pageCount := 0 }
    let _ ← cfgPersist
    pure .eCopy

/-- `UpdComplete(role, size, crc)` (45_config.md R313, R314). -/
def updComplete (r : Role) (size crc : Word) : Engine Code := do
  let s ← getState
  match s.par.topology with
  | .ab => updCompleteAb r size crc
  | .sr => updCompleteSr size crc

/-- `UpdFailed()` (45_config.md R315). -/
def updFailed : Engine Bool := do
  let s ← getState
  match s.par.topology with
  | .ab => updateAb fun c => { c with updating := 0 }
  | .sr => updateSr fun c => { c with pageCount := 0 }
  cfgPersist

end Sys2Proof.Machine
end

