-- ==== Sys2Proof/Machine/Boot.lean ====
section
/-! DEFINITION. The commands of the boot unit (45_config.md R300 to R318). -/

namespace Sys2Proof.Machine

/-- Run a transition only where `cfg_valid = 1`, else `E_CFGINVALID` (45_config.md R300). -/
def requireValid (body : Engine Code) : Engine Code := do
  let s ← getState
  if s.cfgValid then body else raise .eCfgInvalid

/-- CFG_READ (45_config.md R300). -/
def execCfgRead (s : State) : Host.Outcome State Fault Refusal :=
  runCommand .write (do
    let v ← cfgLoad
    update fun s => { s with res0 := (BitVec.ofBool v).setWidth 32 }
    raise .ok) s

/-- CFG_WRITE (45_config.md R303). -/
def execCfgWrite (s : State) : Host.Outcome State Fault Refusal :=
  runCommand .write (requireValid do
    let r ← cfgPersist
    raise (persistCode r)) s

/-- CFG_INIT (45_config.md R302). -/
def execCfgInit (s : State) : Host.Outcome State Fault Refusal :=
  runCommand .write (do
    let r ← cfgInit
    raise (persistCode r)) s

/-- IMG_CRC (45_config.md R305): a rejected size gives 0 and success. -/
def execImgCrc (s : State) : Host.Outcome State Fault Refusal :=
  runCommand .pure (do
    let s ← getState
    if 0 < s.operand1 ∧ s.operand1 ≤ s.par.regionSize ∧ !readable s.par s.operand0 s.operand1 then
      raise .eBadSpan
    else do
      update fun s => { s with res0 := imgCrc s.par s.mem s.operand0 s.operand1 }
      raise .ok) s

/-- IMG_VERIFY (45_config.md R306). -/
def execImgVerify (role : Role) (s : State) : Host.Outcome State Fault Refusal :=
  runCommand .pure (do
    let s ← getState
    if !hasRole s.par role then raise .eBadArg
    else requireValid do
      let v ← verify role
      update fun s => { s with res0 := (BitVec.ofBool v).setWidth 32 }
      raise .ok) s

/-- The selection as `RES0` (base or NONE) and `RES1` (role or NONE) (30_encoding.md R124, R125). -/
def State.setSelection (s : State) (sel : Option Role) : State :=
  match sel with
  | some r => { s with res0 := BitVec.ofNat 32 (regionBase s.par r), res1 := roleWord r }
  | none => { s with res0 := noneWord, res1 := noneWord }

/-- BOOT_SELECT (45_config.md R309, R310): on `E_FLASH` the results still hold the selection. -/
def execBootSelect (s : State) : Host.Outcome State Fault Refusal :=
  runCommand .write (requireValid do
    let (sel, pf) ← bootSelect
    update fun s => s.setSelection sel
    raise (persistCode pf)) s

/-- UPD_TARGET (45_config.md R311). -/
def execUpdTarget (s : State) : Host.Outcome State Fault Refusal :=
  runCommand .pure (requireValid do
    let t ← updTarget
    update fun s => { s with res0 := roleWord t }
    raise .ok) s

/-- UPD_START (45_config.md R312). -/
def execUpdStart (role : Role) (s : State) : Host.Outcome State Fault Refusal :=
  runCommand .write (do
    let s ← getState
    if !hasRole s.par role then raise .eBadArg
    else requireValid do
      let t ← updTarget
      if role ≠ t then raise .eBadArg
      else do
        let r ← updStart
        raise (persistCode r)) s

/-- UPD_COMPLETE (45_config.md R313): the four `E_BADARG` tests all come before `E_CFGINVALID`. -/
def execUpdComplete (role : Role) (s : State) : Host.Outcome State Fault Refusal :=
  runCommand .write (do
    let s ← getState
    if !hasRole s.par role ∨ s.operand0 = 0 ∨ s.par.regionSize < s.operand0 then raise .eBadArg
    else do
      let t ← updTarget
      if role ≠ t then raise .eBadArg
      else requireValid do
        let c ← updComplete role s.arg0 s.arg1
        raise c) s

/-- UPD_FAILED (45_config.md R315). -/
def execUpdFailed (s : State) : Host.Outcome State Fault Refusal :=
  runCommand .write (requireValid do
    let r ← updFailed
    raise (persistCode r)) s

/-- BOOT_CONFIRM (45_config.md R316): the record is reloaded first, and written only where the count is
not already 0. -/
def execBootConfirm (s : State) : Host.Outcome State Fault Refusal :=
  runCommand .app (do
    if ← cfgLoad then do
      let s ← getState
      match s.par.topology with
      | .ab => do
        let c ← abCache
        if c.bootCount ≠ 0 then do
          updateAb fun c => { c with bootCount := 0 }
          let r ← cfgPersist
          raise (persistCode r)
        else raise .ok
      | .sr => raise .ok
    else raise .eCfgInvalid) s

/-- REQUEST_UPDATE (45_config.md R317). -/
def execRequestUpdate (s : State) : Host.Outcome State Fault Refusal :=
  runCommand .app (do
    if ← cfgLoad then do
      let s ← getState
      match s.par.topology with
      | .ab => updateAb fun c => { c with updateReq := 1 }
      | .sr => updateSr fun c => { c with pageCount := 1 }
      let r ← cfgPersist
      raise (persistCode r)
    else raise .eCfgInvalid) s

/-- CFG_GET (45_config.md R318): the cache, which differs from flash when `cfg_dirty = 1`. -/
def execCfgGet (s : State) : Host.Outcome State Fault Refusal :=
  runCommand .pure (do
    let s ← getState
    if inRam s.par s.operand0 s.par.recSize then do
      let l ← serializeCache
      update fun s =>
        { s with mem := s.mem.store s.operand0 l, res0 := BitVec.ofNat 32 s.par.recSize,
                 res1 := (BitVec.ofBool s.cfgValid).setWidth 32 }
      raise .ok
    else raise .eBadSpan) s

end Sys2Proof.Machine
end

