-- ==== Sys2Proof/Machine/Codec.lean ====
section
/-! DEFINITION. The commands of the frame codec (42_codec.md R196 to R198). -/

namespace Sys2Proof.Machine

/-- Write an output list at `ARG2` if it fits the `ARG3` bytes there, and put its length in `RES0`;
otherwise `E_CAP`, with nothing written (42_codec.md R196 to R198). -/
def emit (out : List Byte) (res1 : State → Word) : Engine Code := do
  let s ← getState
  if s.operand3 < out.length then raise .eCap
  else do
    update fun s =>
      { s with mem := s.mem.store s.operand2 out,
               res0 := BitVec.ofNat 32 out.length, res1 := res1 s }
    raise .ok

/-- The span checks of the codec commands: the source `(ARG0, ARG1)` in one window, the destination
`(ARG2, ARG3)` in RAM (42_codec.md R196). -/
def codecSpansOk (s : State) : Bool :=
  readable s.par s.operand0 s.operand1 && inRam s.par s.operand2 s.operand3

/-- ESCAPE (42_codec.md R196): the whole input is read before the first output byte is written. -/
def execEscape (s : State) : Host.Outcome State Fault Refusal :=
  runCommand .pure (do
    let s ← getState
    if codecSpansOk s then
      emit (escape s.par.escMode (s.mem.read s.operand0 s.operand1)) (·.res1)
    else raise .eBadSpan) s

/-- UNESCAPE (42_codec.md R197): `E_ESCAPE` comes before `E_CAP` (30_encoding.md R128). -/
def execUnescape (s : State) : Host.Outcome State Fault Refusal :=
  runCommand .pure (do
    let s ← getState
    if codecSpansOk s then
      match unescape s.par.escMode (s.mem.read s.operand0 s.operand1) with
      | .anomaly i => do
        update fun s => { s with res0 := 0, res1 := BitVec.ofNat 32 i }
        raise .eEscape
      | .ok out => emit out fun _ => 0xFFFFFFFF
    else raise .eBadSpan) s

/-- FRAME_BUILD (42_codec.md R198). -/
def execFrameBuild (version receiver sender : Byte) (s : State) : Host.Outcome State Fault Refusal :=
  runCommand .pure (do
    let s ← getState
    if s.par.maxLen - 3 < s.operand1 then raise .eBadArg
    else if codecSpansOk s then
      let payload := s.mem.read s.operand0 s.operand1
      emit (wireFrame s.par.escMode version receiver sender payload)
        fun _ => frameCrc (frameBody version receiver sender payload)
    else raise .eBadSpan) s

end Sys2Proof.Machine
end

