-- ==== Sys2Proof/Machine/Crc.lean ====
section
/-! DEFINITION. The commands of the CRC unit (41_crc.md R175 to R179). -/

namespace Sys2Proof.Machine

/-- CRC_INIT (41_crc.md R175). -/
def execCrcInit (s : State) : Host.Outcome State Fault Refusal :=
  runCommand .pure (do
    update fun s => { s with crcState := 0xFFFFFFFF }
    raise .ok) s

/-- CRC_UPDATE (41_crc.md R176). -/
def execCrcUpdate (s : State) : Host.Outcome State Fault Refusal :=
  runCommand .pure (do
    let s ← getState
    if readable s.par s.operand0 s.operand1 then do
      update fun s => { s with crcState := crcUpdate s.crcState (s.mem.read s.operand0 s.operand1) }
      raise .ok
    else raise .eBadSpan) s

/-- CRC_UPDATE_BYTE (41_crc.md R177). -/
def execCrcUpdateByte (imm8 : Byte) (s : State) : Host.Outcome State Fault Refusal :=
  runCommand .pure (do
    update fun s => { s with crcState := crcStep s.crcState imm8 }
    raise .ok) s

/-- CRC_FINAL (41_crc.md R178): `CRC_STATE` is unchanged. -/
def execCrcFinal (s : State) : Host.Outcome State Fault Refusal :=
  runCommand .pure (do
    update fun s => { s with res0 := crcFinal s.crcState }
    raise .ok) s

/-- CRC_COMPUTE (41_crc.md R179): `CRC_STATE` is neither read nor written. -/
def execCrcCompute (s : State) : Host.Outcome State Fault Refusal :=
  runCommand .pure (do
    let s ← getState
    if readable s.par s.operand0 s.operand1 then do
      update fun s => { s with res0 := crc32 (s.mem.read s.operand0 s.operand1) }
      raise .ok
    else raise .eBadSpan) s

end Sys2Proof.Machine
end

