-- ==== Sys2Proof/Machine/Flags.lean ====
section
/-! DEFINITION. The flags as software sees them: `STATUS` (10_state.md R35), the encodings of `DSTATE` and
`PSTATE` (R42, R48), and the data-accepted predicate (R47). The engine has no arithmetic condition codes
(R53). -/

namespace Sys2Proof.Machine

/-- The encoding of `DSTATE` (10_state.md R42). -/
def DState.encoding : DState → BitVec 3
  | .check => 0
  | .update => 1
  | .jump => 2
  | .noImage => 3
  | .handedOff => 4
  | .fault => 5

/-- The encoding of `PSTATE` (10_state.md R48). -/
def PState.encoding : PState → BitVec 3
  | .waitStart => 0
  | .readLength => 1
  | .readBody => 2
  | .readCrc => 3
  | .waitEnd => 4

/-- `data_seen` (10_state.md R47). -/
def Session.dataSeen (u : Session) : Bool := u.written != 0 || u.pendValid

/-- `STATUS` (10_state.md R35), from bit 31 down; every reserved bit reads 0. -/
def State.status (s : State) : Word :=
  (0 : BitVec 13) ++ s.dstate.encoding                      -- 31:19 reserved, 18:16 DSTATE
    ++ (0 : BitVec 2) ++ BitVec.ofBool s.irqMasked           -- 15:14 reserved, 13 IRQ_MASKED
    ++ BitVec.ofBool s.sess.pendValid                        -- 12 PEND_VALID
    ++ BitVec.ofBool s.parser.escPend                        -- 11 ESC_PEND
    ++ s.parser.pstate.encoding                              -- 10:8 PSTATE
    ++ BitVec.ofBool s.rx.ready ++ BitVec.ofBool s.rx.armed  -- 7 RX_READY, 6 RX_ARMED
    ++ BitVec.ofBool s.cfgDirty ++ BitVec.ofBool s.cfgValid  -- 5 CFG_DIRTY, 4 CFG_VALID
    ++ (0 : BitVec 3) ++ BitVec.ofBool (s.dstate == .update) -- 3:1 reserved, 0 BUSY

end Sys2Proof.Machine
end

