-- ==== Sys2Proof/Machine/Session.lean ====
section
/-! DEFINITION. The protocol unit's internal steps (43_protocol.md R220 to R247): session start and end, the
receive parser, frame dispatch and the poll step; and `FlowEnd` (46_dispatch.md R353), which session end
calls. A session that ends answers its end code. -/

namespace Sys2Proof.Machine

/-! ### Session start and end -/

/-- The state `StartSession` writes once the channel is armed (43_protocol.md R220). -/
def State.openSession (s : State) (base limit : Nat) (kind : SessKind) (ret : RetState) : State :=
  { s with
    sess := { active := true, base := BitVec.ofNat 32 base, limit := BitVec.ofNat 32 limit,
              cursor := BitVec.ofNat 32 base, written := 0, pendValid := false, pendByte := 0,
              idleCount := 0, startTick := s.tick },
    parser := Parser.cleared .waitStart, framesOk := 0, framesBad := 0,
    sessKind := some kind, retState := some ret, dstate := .update }

/-- `StartSession(base, limit, kind, ret)` (43_protocol.md R220); `true` is ok. -/
def startSession (base limit : Nat) (kind : SessKind) (ret : RetState) : Engine Bool := do
  if ← rxArm then do
    update fun s => s.openSession base limit kind ret
    pure true
  else pure false

/-- The dispatcher state `ret_state` names (10_state.md R43). -/
def RetState.dstate : RetState → DState
  | .jump => .jump
  | .noImage => .noImage

/-- `DSTATE <- ret_state` (43_protocol.md R244, 46_dispatch.md R353). -/
def returnState : Engine Unit := do
  let r ← valueOf .retState State.retState
  update fun s => { s with dstate := r.dstate }

/-- `Flush()` (43_protocol.md R242): the carry byte padded with 0xFF to a halfword. -/
def flush : Engine Code := do
  let s ← getState
  if !s.sess.pendValid then pure .ok
  else if s.sess.limit.toNat < s.sess.cursor.toNat + 2 then pure .eOverflow
  else do
    if ← mergeWrite s.sess.cursor.toNat [(erasedByte ++ s.sess.pendByte : Half)] then do
      update fun s =>
        { s with sess := { s.sess with cursor := s.sess.cursor + 2, written := s.sess.written + 1,
                                       pendValid := false } }
      pure .ok
    else pure .eWrite

/-- `uart_abort()`: the channel stops (43_protocol.md R244). -/
def RxChannel.stop (c : RxChannel) : RxChannel := { c with armed := false, ready := false, line := [] }

/-- What `EndSession` writes before the flow's own end (43_protocol.md R244). -/
def State.closeSession (s : State) (code : Code) : State :=
  { s with rx := s.rx.stop, sess := { s.sess with active := false, pendValid := false },
           parser := Parser.cleared .waitStart, lastUpdate := code.value }

/-- `FlowEnd(code)` (46_dispatch.md R353). -/
def flowEnd (code : Code) : Engine Unit := do
  if code = .ok then do
    let s ← getState
    let crc := imgCrc s.par s.mem s.sess.base.toNat s.sess.written.toNat
    let t ← valueOf .flowTarget State.flowTarget
    let r ← updComplete t s.sess.written crc
    update fun s => { s with lastUpdate := (if r = .eFlash then Code.ok else r).value }
  else do
    let _ ← updFailed
    update fun s => { s with lastUpdate := code.value }
  returnState

/-- `EndSession(code)` (43_protocol.md R244); it answers the session's end code. -/
def endSession (code : Code) : Engine Code := do
  let code ← if code = .ok then flush else pure code
  update fun s => s.closeSession code
  match ← valueOf .sessKind State.sessKind with
  | .flow => flowEnd code
  | .raw => returnState
  pure code

/-- End the session and answer that it ended. -/
def ended (code : Code) : Engine (Option Code) := do
  let c ← endSession code
  pure (some c)

/-- The session goes on. -/
def goesOn : Engine (Option Code) := pure none

/-- `EndTransfer()` (43_protocol.md R241). -/
def endTransfer : Engine (Option Code) := do
  let s ← getState
  ended (if s.sess.dataSeen then .ok else .eNoData)

/-! ### The parser (43_protocol.md R222 to R229) -/

/-- The kinds of frame error (60_exceptions.md R381). -/
inductive FrameErrorKind where
  | length
  | escape
  | flag
  | wrongEnd
  | crc
deriving DecidableEq, Repr

/-- The tag of a frame error's status (43_protocol.md R238). -/
def errorTag (k : FrameErrorKind) (p : Parser) : List Byte :=
  match k with
  | .crc => p.crcRaw
  | .wrongEnd => p.crcRaw
  | _ => [0, 0, 0, 0]

/-- `FrameError(kind, next)` (43_protocol.md R238). -/
def State.frameError (s : State) (k : FrameErrorKind) (next : PState) : State :=
  { { s with framesBad := s.framesBad + 1 }.sendStatus (errorTag k s.parser) 1 with
    parser := Parser.cleared next }

/-- WAIT_START on a byte (43_protocol.md R223). -/
def State.fieldStart (s : State) (d : Byte) : State :=
  if d = flagByte then { s with parser := Parser.cleared .readLength } else s

/-- A 32-bit accumulator with byte `d` put at byte position `k` (43_protocol.md R224, R226). -/
def accumulate (acc : Word) (d : Byte) (k : Nat) : Word := acc ||| (d.setWidth 32 <<< (8 * k))

/-- READ_LENGTH on a byte (43_protocol.md R224). -/
def State.fieldLength (s : State) (d : Byte) : State :=
  let len := accumulate s.parser.lenAcc d s.parser.pcount
  if s.parser.pcount + 1 = 4 then
    if minLen ≤ len.toNat ∧ len.toNat ≤ s.par.maxLen then
      { s with parser := { s.parser with lenAcc := len, pcount := 0, pstate := .readBody, body := [] } }
    else s.frameError .length .waitStart
  else { s with parser := { s.parser with lenAcc := len, pcount := s.parser.pcount + 1 } }

/-- READ_BODY on a decoded byte (43_protocol.md R225). -/
def State.fieldBody (s : State) (d : Byte) : State :=
  let body := s.parser.body ++ [d]
  if body.length = s.parser.lenAcc.toNat then
    { s with parser := { s.parser with body := body, pstate := .readCrc, pcount := 0 } }
  else { s with parser := { s.parser with body := body } }

/-- READ_CRC on a byte (43_protocol.md R226). -/
def State.fieldCrc (s : State) (d : Byte) : State :=
  let p := s.parser
  let p := { p with crcRaw := p.crcRaw.set p.pcount d, crcAcc := accumulate p.crcAcc d p.pcount }
  if p.pcount + 1 = 4 then { s with parser := { p with pstate := .waitEnd, pcount := 0 } }
  else { s with parser := { p with pcount := p.pcount + 1 } }

/-- `body[0..len_acc)`, where it lies within the `body_n` bytes that hold a value (10_state.md R48). -/
def Parser.wholeBody (p : Parser) : Option (List Byte) :=
  if p.lenAcc.toNat ≤ p.body.length then some (p.body.take p.lenAcc.toNat) else none

/-- Read `body[0..len_acc)` (43_protocol.md R227, R236): a fault where a byte of it holds no value
(10_state.md R55, 93_implementation_defined.md X32). -/
def wholeBody : Engine (List Byte) := valueOf .frameBody fun s => s.parser.wholeBody

/-- The bytes an accepted frame gives the writer: `bytes` of 43_protocol.md R236, the carry byte and then the
payload of `body`. -/
def State.payloadBytes (s : State) (body : List Byte) : List Byte :=
  (if s.sess.pendValid then [s.sess.pendByte] else []) ++ body.drop 3

/-- The odd leftover byte of `bytes`, kept for the next frame (43_protocol.md R236). -/
def Session.keepCarry (u : Session) (bytes : List Byte) : Session :=
  if bytes.length % 2 = 1 then { u with pendByte := bytes.getLastD 0, pendValid := true }
  else { u with pendValid := false }

/-- The end of `Accept()` where every halfword is written: carry byte and OK status (43_protocol.md R236). -/
def acceptDone (tag bytes : List Byte) : Engine (Option Code) := do
  update fun s => { s with sess := s.sess.keepCarry bytes }.sendStatus tag 0
  goesOn

/-- A failure inside `Accept()`: ERROR status, and the session ends (43_protocol.md R236). -/
def acceptFailed (tag : List Byte) (code : Code) : Engine (Option Code) := do
  update fun s => s.sendStatus tag 1
  ended code

/-- `Accept()` (43_protocol.md R236). -/
def accept : Engine (Option Code) := do
  update fun s => { s with framesOk := s.framesOk + 1 }
  let s ← getState
  let body ← wholeBody
  let tag := s.parser.crcRaw
  let bytes := s.payloadBytes body
  let hws := halves bytes
  if hws.length = 0 then acceptDone tag bytes
  else if s.sess.limit.toNat < s.sess.cursor.toNat + 2 * hws.length then acceptFailed tag .eOverflow
  else do
    if ← mergeWrite s.sess.cursor.toNat hws then do
      update fun s =>
        { s with sess :=
          { s.sess with cursor := s.sess.cursor + BitVec.ofNat 32 (2 * hws.length),
                        written := s.sess.written + BitVec.ofNat 32 (2 * hws.length) } }
      acceptDone tag bytes
    else acceptFailed tag .eWrite

/-- WAIT_END on a wire byte (43_protocol.md R227). -/
def fieldEnd (c : Byte) : Engine (Option Code) := do
  let s ← getState
  if c = flagByte then do
    let body ← wholeBody
    if frameCrc body = s.parser.crcAcc then do
      let r ← accept
      update fun s => { s with parser := { s.parser with pstate := .waitStart } }
      pure r
    else do
      update fun s => s.frameError .crc .waitStart
      goesOn
  else do
    update fun s => s.frameError .wrongEnd .waitStart
    goesOn

/-- `Field(d)`, the state rule for `PSTATE` (43_protocol.md R222 to R227). -/
def field (d : Byte) : Engine (Option Code) := do
  let s ← getState
  match s.parser.pstate with
  | .waitStart => do
    update fun s => s.fieldStart d
    goesOn
  | .readLength => do
    update fun s => s.fieldLength d
    goesOn
  | .readBody => do
    update fun s => s.fieldBody d
    goesOn
  | .readCrc => do
    update fun s => s.fieldCrc d
    goesOn
  | .waitEnd => fieldEnd d

/-- `PSTATE in EscapedStates(ESC_MODE)` (43_protocol.md R222). -/
def escapedState : EscMode → PState → Bool
  | _, .readBody => true
  | .full, .readLength => true
  | .full, .readCrc => true
  | _, _ => false

/-- `Feed(c)` (43_protocol.md R222, R228, R229). -/
def feed (c : Byte) : Engine (Option Code) := do
  let s ← getState
  if escapedState s.par.escMode s.parser.pstate then
    if s.parser.escPend then do
      update fun s => { s with parser := { s.parser with escPend := false } }
      if c = escFlag then field flagByte
      else if c = escEsc then field escByte
      else do
        update fun s => s.frameError .escape (if c = flagByte then .readLength else .waitStart)
        goesOn
    else if c = escByte then do
      update fun s => { s with parser := { s.parser with escPend := true } }
      goesOn
    else if c = flagByte then do
      update fun s => s.frameError .flag .readLength
      goesOn
    else field c
  else field c

/-- Feed the bytes of a chunk in order; the rest of a chunk in which the session ends is dropped
(43_protocol.md R240). -/
def feedAll : List Byte → Engine (Option Code)
  | [] => goesOn
  | c :: cs => do
    match ← feed c with
    | some code => pure (some code)
    | none => feedAll cs

/-! ### The poll step (43_protocol.md R240 to R243) -/

/-- The timeout test (43_protocol.md R243): `now −32 start_tick` against the budget. -/
def checkTimeout (now : Word) : Engine (Option Code) := do
  let s ← getState
  if s.par.sessionTimeout ≤ (now - s.sess.startTick).toNat then
    ended (if s.sess.dataSeen then .eTimeoutPartial else .eTimeoutNoData)
  else goesOn

/-- The chunk is the end-of-transfer marker (43_protocol.md R241). -/
def isEndMarker (s : State) : Bool :=
  s.rx.buf == [eotByte] && s.parser.pstate == .waitStart

/-- The saturating increment of `idle_count` (10_state.md R46, 43_protocol.md R240). -/
def Session.idle (u : Session) : Session :=
  { u with idleCount := if u.idleCount = 0xFFFFFFFF then u.idleCount else u.idleCount + 1 }

/-- `Poll()` (43_protocol.md R240): the end code if the session ended. -/
def poll : Engine (Option Code) := do
  let s ← getState
  let now := s.tick
  if s.rx.ready then do
    update fun s => { s with rx := { s.rx with ready := false } }
    if isEndMarker s then endTransfer
    else do
      update fun s => { s with sess := { s.sess with idleCount := 0 } }
      match ← feedAll s.rx.buf with
      | some code => pure (some code)
      | none => do
        if ← rxArm then checkTimeout now else ended .eRxStart
  else do
    update fun s => { s with sess := s.sess.idle }
    let s ← getState
    if s.par.idleEndLimit ≠ 0 ∧ s.par.idleEndLimit ≤ s.sess.idleCount.toNat then endTransfer
    else checkTimeout now

end Sys2Proof.Machine
end

