-- ==== Sys2Proof/Machine/Flow.lean ====
section
/-! DEFINITION. The dispatcher's internal steps (46_dispatch.md R350 to R360): the reset sequence, the
update flow, the hand-off, FAULT, and which step the foreground controller takes on its own. -/

namespace Sys2Proof.Machine

/-- The end of a flow that could not start (46_dispatch.md R351). -/
def flowFailed (code : Code) (ret : RetState) : Engine Code := do
  let _ ← updFailed
  update fun s => { s with lastUpdate := code.value, dstate := ret.dstate }
  pure code

/-- `RunFlow(ret)` (46_dispatch.md R351). -/
def runFlow (ret : RetState) : Engine Code := do
  let t ← updTarget
  let s ← getState
  let b := regionBase s.par t
  let _ ← updStart
  update fun s => { s with flowTarget := some t }
  if ← eraseRegion b s.par.regionSize then do
    if ← startSession b (b + s.par.regionSize) .flow ret then pure .ok
    else flowFailed .eRxStart ret
  else flowFailed .eErase ret

/-- `HandOff(b)` (46_dispatch.md R357). The eight platform actions are recorded by the hand-off record
only (log 24). -/
def State.handOffTo (s : State) (b : Nat) : State :=
  { s with rx := s.rx.stop,
           handOff := some { vtor := BitVec.ofNat 32 b, sp := s.mem.word b, entry := s.mem.word (b + 4) },
           dstate := .handedOff }

/-- `NoneVerifies()` (46_dispatch.md R350). -/
def noneVerifies : Engine Bool := do
  let s ← getState
  match s.par.topology with
  | .ab => do
    let a ← verify .a
    let b ← verify .b
    pure (!a && !b)
  | .sr => do
    let r ← verify .run
    pure (!r)

/-- The record asks for an update (46_dispatch.md R350). -/
def updateMarked : Engine Bool := do
  let s ← getState
  match s.par.topology with
  | .ab => do
    let c ← abCache
    pure (c.updateReq == 1)
  | .sr => do
    let c ← srCache
    pure (c.pageCount != 0)

/-- `Check()`'s crash recovery, before the verify test (46_dispatch.md R350). -/
def recoverIfUpdating : Engine Unit := do
  let s ← getState
  match s.par.topology with
  | .ab => do
    let c ← abCache
    if c.updating = 1 then do
      let _ ← crashRecovery
      pure ()
    else pure ()
  | .sr => pure ()

/-- `Check()` (46_dispatch.md R350). A persist failure is tolerated. -/
def check : Engine Unit := do
  if ← cfgLoad then pure ()
  else do
    let _ ← cfgInit
    pure ()
  recoverIfUpdating
  let marked ← updateMarked
  let none ← noneVerifies
  if marked || none then do
    let _ ← runFlow .jump
    pure ()
  else update fun s => { s with dstate := .jump }

/-- `Jump()` (46_dispatch.md R354). -/
def jump : Engine Unit := do
  let (sel, _) ← bootSelect
  match sel with
  | some r => update fun s => s.handOffTo (regionBase s.par r)
  | none => update fun s => { s with dstate := .noImage }

/-- `fatal_in` is taken (46_dispatch.md R360, 60_exceptions.md R392): in FAULT it changes nothing. -/
def State.takeFatal (s : State) : State :=
  if s.dstate = .fault then s
  else { s with rx := s.rx.stop, sess := { s.sess with active := false }, dstate := .fault }

/-- The step the foreground controller takes on its own (46_dispatch.md R350, R354; 43_protocol.md R240).
In NOIMAGE, HANDED_OFF and FAULT, and with a RAW session open, it takes none: the state stays (R358 to
R360; log 11). -/
def foregroundStep (s : State) : Host.Outcome State Fault Refusal :=
  match s.dstate with
  | .check => settle (check s)
  | .jump => settle (jump s)
  | .update =>
    match s.sessKind with
    | some .flow => settle ((do let _ ← poll) s)
    | some .raw => .next s
    | none => .fault (.noValue .sessKind)
  | .noImage => .next s
  | .handedOff => .next s
  | .fault => .next s

end Sys2Proof.Machine
end

