-- ==== Sys2Proof/Machine/Dispatcher.lean ====
section
/-! DEFINITION. The commands of the dispatcher (46_dispatch.md R352, R355, R356). -/

namespace Sys2Proof.Machine

/-- RUN_APP (46_dispatch.md R355): a persist failure does not prevent the hand-off. -/
def execRunApp (s : State) : Host.Outcome State Fault Refusal :=
  runCommand .write (requireValid do
    let (sel, _) ← bootSelect
    match sel with
    | some r => do
      update fun s => s.handOffTo (regionBase s.par r)
      raise .ok
    | none => do
      update fun s => { s with res0 := noneWord, res1 := noneWord }
      raise .eNoImage) s

/-- START_UPDATE (46_dispatch.md R352). -/
def execStartUpdate (s : State) : Host.Outcome State Fault Refusal :=
  runCommand .write (requireValid do
    let r ← runFlow .noImage
    raise r) s

/-- ERASE (46_dispatch.md R356): the config record is not changed. -/
def execErase (s : State) : Host.Outcome State Fault Refusal :=
  runCommand .write (requireValid do
    let t ← updTarget
    let s ← getState
    let r ← eraseRegion (regionBase s.par t) s.par.regionSize
    raise (if r then .ok else .eErase)) s

end Sys2Proof.Machine
end

