-- ==== Sys2Proof/Machine/Flash.lean ====
section
/-! DEFINITION. The commands of the flash unit (44_flash.md R270, R277 to R279). -/

namespace Sys2Proof.Machine

/-- The end of a flash command: `E_FLASH` where a collaborator call failed (44_flash.md R275). -/
def flashCode (r : Bool) : Engine Code := if r then raise .ok else raise .eFlash

/-- FL_WRITE (44_flash.md R270). With `n = 0` the range check is that of the empty span. -/
def execFlWrite (s : State) : Host.Outcome State Fault Refusal :=
  runCommand .write (do
    let s ← getState
    if !readable s.par s.operand1 (2 * s.operand2) then raise .eBadSpan
    else if !granuleAligned s.par s.operand0 then raise .eAlign
    else if !managed s.par s.operand0 (s.operand0 + 2 * s.operand2) then raise .eRange
    else do
      let r ← writeFlash s.operand0 (s.mem.halfBuffer s.operand1 s.operand2)
      flashCode r) s

/-- FL_WRITE_NOCHECK (44_flash.md R277): the range check covers the padded granules. -/
def execFlWriteNocheck (s : State) : Host.Outcome State Fault Refusal :=
  runCommand .write (do
    let s ← getState
    if !readable s.par s.operand1 (2 * s.operand2) then raise .eBadSpan
    else if !granuleAligned s.par s.operand0 then raise .eAlign
    else if !managed s.par s.operand0
        (s.operand0 + s.par.granule * ceilDiv (2 * s.operand2) s.par.granule) then raise .eRange
    else do
      let r ← masked (noCheck s.operand0 (s.mem.halfBuffer s.operand1 s.operand2))
      flashCode r) s

/-- FL_READ (44_flash.md R278): both spans are checked before the write; an overlap reads first. -/
def execFlRead (s : State) : Host.Outcome State Fault Refusal :=
  runCommand .pure (do
    let s ← getState
    if readable s.par s.operand0 (2 * s.operand2) && inRam s.par s.operand1 (2 * s.operand2) then do
      update fun s =>
        { s with mem := s.mem.store s.operand1 (s.mem.read s.operand0 (2 * s.operand2)) }
      raise .ok
    else raise .eBadSpan) s

/-- FL_ERASE_SECTOR (44_flash.md R279). -/
def execFlEraseSector (s : State) : Host.Outcome State Fault Refusal :=
  runCommand .write (do
    let s ← getState
    if s.par.nsect ≤ s.operand0 then raise .eBadArg
    else if sectorBase s.par s.operand0 < s.par.wrLo then raise .eRange
    else do
      let r ← masked (flashErase s.operand0)
      flashCode r) s

end Sys2Proof.Machine
end

