-- ==== Sys2Proof/Machine/Protocol.lean ====
section
/-! DEFINITION. The commands of the protocol unit (43_protocol.md R221, R240, R246). -/

namespace Sys2Proof.Machine

/-- SESS_BEGIN (43_protocol.md R221). -/
def execSessBegin (s : State) : Host.Outcome State Fault Refusal :=
  runCommand .sessBegin (do
    let s ← getState
    if s.operand1 < s.operand0 then raise .eBadArg
    else if !granuleAligned s.par s.operand0 then raise .eAlign
    else if !managed s.par s.operand0 s.operand1 then raise .eRange
    else do
      if ← startSession s.operand0 s.operand1 .raw .noImage then raise .ok
      else raise .eRxStart) s

/-- SESS_POLL (43_protocol.md R240): `RESULT` takes the session's end code if it ended, else 0 (log 23). -/
def execSessPoll (s : State) : Host.Outcome State Fault Refusal :=
  runCommand .sessPoll (do
    match ← poll with
    | some code => do
      update fun s => { s with res0 := 1 }
      raise code
    | none => do
      update fun s => { s with res0 := 0 }
      raise .ok) s

/-- SESS_PROGRESS (43_protocol.md R246). -/
def execSessProgress (s : State) : Host.Outcome State Fault Refusal :=
  runCommand .pure (do
    update fun s => { s with res0 := s.sess.written, res1 := s.framesOk }
    raise .ok) s

end Sys2Proof.Machine
end

