-- ==== Sys2Proof/Machine/Dispatch.lean ====
section
/-! DEFINITION. One arm per command: the meaning each one has (30_encoding.md R125). -/

namespace Sys2Proof.Machine

def exec (i : Instr) (s : State) : Host.Outcome State Fault Refusal :=
  match i with
  | .crcInit => Sys2Proof.Machine.execCrcInit s
  | .crcUpdate => Sys2Proof.Machine.execCrcUpdate s
  | .crcUpdateByte imm8 => Sys2Proof.Machine.execCrcUpdateByte imm8 s
  | .crcFinal => Sys2Proof.Machine.execCrcFinal s
  | .crcCompute => Sys2Proof.Machine.execCrcCompute s
  | .escape => Sys2Proof.Machine.execEscape s
  | .unescape => Sys2Proof.Machine.execUnescape s
  | .frameBuild version receiver sender => Sys2Proof.Machine.execFrameBuild version receiver sender s
  | .sessBegin => Sys2Proof.Machine.execSessBegin s
  | .sessPoll => Sys2Proof.Machine.execSessPoll s
  | .sessProgress => Sys2Proof.Machine.execSessProgress s
  | .flWrite => Sys2Proof.Machine.execFlWrite s
  | .flWriteNocheck => Sys2Proof.Machine.execFlWriteNocheck s
  | .flRead => Sys2Proof.Machine.execFlRead s
  | .flEraseSector => Sys2Proof.Machine.execFlEraseSector s
  | .cfgRead => Sys2Proof.Machine.execCfgRead s
  | .cfgWrite => Sys2Proof.Machine.execCfgWrite s
  | .cfgInit => Sys2Proof.Machine.execCfgInit s
  | .imgCrc => Sys2Proof.Machine.execImgCrc s
  | .imgVerify role => Sys2Proof.Machine.execImgVerify role s
  | .bootSelect => Sys2Proof.Machine.execBootSelect s
  | .updTarget => Sys2Proof.Machine.execUpdTarget s
  | .updStart role => Sys2Proof.Machine.execUpdStart role s
  | .updComplete role => Sys2Proof.Machine.execUpdComplete role s
  | .updFailed => Sys2Proof.Machine.execUpdFailed s
  | .bootConfirm => Sys2Proof.Machine.execBootConfirm s
  | .requestUpdate => Sys2Proof.Machine.execRequestUpdate s
  | .cfgGet => Sys2Proof.Machine.execCfgGet s
  | .runApp => Sys2Proof.Machine.execRunApp s
  | .startUpdate => Sys2Proof.Machine.execStartUpdate s
  | .erase => Sys2Proof.Machine.execErase s

end Sys2Proof.Machine
end

