-- ==== Sys2Proof/Machine/Inputs.lean ====
section
/-! DEFINITION. The register window (10_state.md R31, R32, R35) and the steps of the agents other than the
foreground controller (60_exceptions.md R384 to R393; log 4). -/

namespace Sys2Proof.Machine

/-! ### The register window -/

/-- The byte offset of a bus address in the window (10_state.md R31). -/
def State.portOffset (s : State) (addr : Word) : Nat := (addr - s.par.blkBase).toNat

/-- An aligned 32-bit access (10_state.md R31). -/
def portAligned (off size : Nat) : Bool := size == 4 && off % 4 == 0

/-- What a read of the register at a byte offset returns (10_state.md R31): an offset that is not in the
table reads 0, and so does `CMD`. -/
def State.readRegister (s : State) (off : Nat) : Word :=
  match off with
  | 0x04 => s.arg0
  | 0x08 => s.arg1
  | 0x0C => s.arg2
  | 0x10 => s.arg3
  | 0x14 => s.res0
  | 0x18 => s.res1
  | 0x1C => s.result
  | 0x20 => s.status
  | 0x24 => s.crcState
  | 0x28 => s.framesOk
  | 0x2C => s.framesBad
  | 0x30 => s.lastUpdate
  | 0x34 => s.sess.written
  | 0x38 => s.sess.cursor
  | _ => 0

/-- A write to a register other than `CMD` (10_state.md R31, R32): only `ARG0`..`ARG3` take it. -/
def State.writeRegister (s : State) (off : Nat) (v : Word) : State :=
  match off with
  | 0x04 => { s with arg0 := v }
  | 0x08 => { s with arg1 := v }
  | 0x0C => { s with arg2 := v }
  | 0x10 => { s with arg3 := v }
  | _ => s

/-- A write to `CMD` issues the command: an illegal word raises `E_ILLEGAL` "and changes nothing else"
(30_encoding.md R126), check 1 of R128. -/
def issue (w : Word) (s : State) : Host.Outcome State Fault Refusal :=
  match decode w with
  | .ok i => exec i s
  | .error _ => .next (s.finish .eIllegal)

/-- A register-window write (10_state.md R31). -/
def portWrite (addr : Word) (size : Nat) (v : Word) (s : State) : Host.Outcome State Fault Refusal :=
  let off := s.portOffset addr
  if portAligned off size then
    if off = 0 then issue v s else .next (s.writeRegister off v)
  else .refused .portAccess

/-- A register-window read (10_state.md R31): no side effect but the value returned to the reader. -/
def portRead (addr : Word) (size : Nat) (s : State) : Host.Outcome State Fault Refusal :=
  let off := s.portOffset addr
  if portAligned off size then
    .next { s with env := { s.env with readData := s.readRegister off } }
  else .refused .portAccess

/-! ### The other agents -/

/-- The command issuer fills a RAM buffer; a span that is not in RAM is no such step (log 21). -/
def State.fillRam (s : State) (addr : Word) (bytes : List Byte) : State :=
  if inRam s.par addr.toNat bytes.length then { s with mem := s.mem.store addr.toNat bytes } else s

/-- The host sender sends bytes: "Bytes the host sends while `rx_armed = 0` are lost" (60_exceptions.md
R384, X37). -/
def State.receiveLine (s : State) (bytes : List Byte) : State :=
  if s.rx.armed then { s with rx := { s.rx with line := s.rx.line ++ bytes } } else s

/-- The chunk delivery step is enabled for `m` bytes (60_exceptions.md R384). -/
def State.canDeliver (s : State) (m : Nat) : Bool :=
  s.rx.armed && !s.rx.ready && !s.irqMasked && (1 ≤ m && m ≤ s.par.rxCap) && m ≤ s.rx.line.length

/-- The chunk delivery step (60_exceptions.md R384); where it is not enabled nothing happens (log 26).
What the host had sent beyond the chunk is lost with the channel disarmed (log 13). -/
def State.deliverChunk (s : State) (m : Nat) : State :=
  if s.canDeliver m then
    { s with rx := { armed := false, ready := true, buf := s.rx.line.take m, line := [] } }
  else s

/-- One input of the environment (log 4), or the foreground controller's own step. -/
def takeInput (i : Input) (s : State) : Host.Outcome State Fault Refusal :=
  match i with
  | .foreground => foregroundStep s
  | .portWrite addr size v => portWrite addr size v s
  | .portRead addr size => portRead addr size s
  | .ramWrite addr bytes => .next (s.fillRam addr bytes)
  | .hostSend bytes => .next (s.receiveLine bytes)
  | .deliver m => .next (s.deliverChunk m)
  | .clockAdvance ticks => .next { s with env := { s.env with clock := s.env.clock + ticks } }
  | .fatalIn => .next s.takeFatal
  | .reset ram => .next (s.afterReset ram)

/-- The state with the inputs still to come replaced. -/
def State.withInputs (s : State) (l : List Input) : State :=
  { s with env := { s.env with inputs := l } }

/-- The engine at a point where it accepts a command: past `Check()` and `Jump()`, its record read as
`Check()` reads it (log 18). -/
def State.awaitingCommand (s : State) : State :=
  match s.dstate with
  | .check => { s.loadRecord with dstate := .noImage }
  | .jump => { s with dstate := .noImage }
  | _ => s

end Sys2Proof.Machine
end

