-- ==== Sys2Proof/Machine/Step.lean ====
section
/-! DEFINITION. One step of the engine and its environment (00_scope.md R9, R17; 60_exceptions.md R387 a). -/

namespace Sys2Proof.Machine

/-- One step: the next input of the environment, or, where none is pending, the foreground controller's
own step (log 4). -/
def step (s : State) : Host.Outcome State Fault Refusal :=
  match s.env.inputs with
  | [] => foregroundStep s
  | i :: rest => takeInput i (s.withInputs rest)

/-- `s` with a command word written to `CMD` as its next input, at a point where commands are accepted
(log 18): the next step issues exactly that command. -/
def State.withFetchWord (s : State) (nbits w : Nat) : State :=
  let t := s.awaitingCommand
  t.withInputs (.portWrite t.par.blkBase 4 (BitVec.ofNat 32 (w % 2 ^ nbits)) :: t.env.inputs)

end Sys2Proof.Machine
end

