-- ==== Sys2Proof/Safety.lean ====
section
/-! DEFINITION. What claims are stated in terms of: the invariant that every run keeps, the premise "no flash
call fails", the acceptance classes of the commands, and what a claim says of memory and of the environment
where flash is written. -/

namespace Sys2Proof.Machine

/-! ### The command word (30_encoding.md R120, R125), as a table of its own -/

/-- The opcodes of 30_encoding.md R125, each with the reserved-zero bits of its format (R120). -/
def opcodeTable : List (Byte × Word) :=
  [ (0x01, 0xFFFFFF00), (0x02, 0xFFFFFF00), (0x03, 0xFFFF0000), (0x04, 0xFFFFFF00), (0x05, 0xFFFFFF00),
    (0x10, 0xFFFFFF00), (0x11, 0xFFFFFF00), (0x12, 0x00000000),
    (0x20, 0xFFFFFF00), (0x21, 0xFFFFFF00), (0x22, 0xFFFFFF00),
    (0x30, 0xFFFFFF00), (0x31, 0xFFFFFF00), (0x32, 0xFFFFFF00), (0x33, 0xFFFFFF00),
    (0x40, 0xFFFFFF00), (0x41, 0xFFFFFF00), (0x42, 0xFFFFFF00), (0x43, 0xFFFFFF00), (0x44, 0xFFFFFC00),
    (0x45, 0xFFFFFF00), (0x46, 0xFFFFFF00), (0x47, 0xFFFFFC00), (0x48, 0xFFFFFC00), (0x49, 0xFFFFFF00),
    (0x4A, 0xFFFFFF00), (0x4B, 0xFFFFFF00), (0x4C, 0xFFFFFF00),
    (0x50, 0xFFFFFF00), (0x51, 0xFFFFFF00), (0x52, 0xFFFFFF00) ]

/-- A command word is legal (30_encoding.md R126): its opcode is in the table and no reserved-zero bit is 1. -/
def legalWord (w : Word) : Bool :=
  opcodeTable.any fun row => w.extractLsb' 0 8 == row.1 && (w &&& row.2) == 0

/-! ### Acceptance (30_encoding.md R125, R127) -/

/-- The acceptance class of each command, the column "class" of 30_encoding.md R125. -/
def classOf : Instr → CmdClass
  | .crcInit => .pure
  | .crcUpdate => .pure
  | .crcUpdateByte _ => .pure
  | .crcFinal => .pure
  | .crcCompute => .pure
  | .escape => .pure
  | .unescape => .pure
  | .frameBuild _ _ _ => .pure
  | .sessBegin => .sessBegin
  | .sessPoll => .sessPoll
  | .sessProgress => .pure
  | .flWrite => .write
  | .flWriteNocheck => .write
  | .flRead => .pure
  | .flEraseSector => .write
  | .cfgRead => .write
  | .cfgWrite => .write
  | .cfgInit => .write
  | .imgCrc => .pure
  | .imgVerify _ => .pure
  | .bootSelect => .write
  | .updTarget => .pure
  | .updStart _ => .write
  | .updComplete _ => .write
  | .updFailed => .write
  | .bootConfirm => .app
  | .requestUpdate => .app
  | .cfgGet => .pure
  | .runApp => .write
  | .startUpdate => .write
  | .erase => .write

/-- Class P is accepted (30_encoding.md R127). -/
abbrev State.AcceptsPure (s : State) : Prop :=
  s.dstate = .update ∨ s.dstate = .noImage ∨ s.dstate = .handedOff

/-- Class A is accepted (30_encoding.md R127). -/
abbrev State.AcceptsApp (s : State) : Prop := s.dstate = .noImage ∨ s.dstate = .handedOff

/-- Class W and SESS_BEGIN are accepted (30_encoding.md R127). -/
abbrev State.AcceptsWrite (s : State) : Prop := s.dstate = .noImage

/-! ### The record -/

/-- The config cache holds a record of the topology. -/
def State.hasRecord (s : State) : Bool :=
  match s.par.topology with
  | .ab => s.cacheAb.isSome
  | .sr => s.cacheSr.isSome

/-- That record is valid (45_config.md R301). -/
def State.recordValid (s : State) : Bool :=
  match s.par.topology with
  | .ab => s.cacheAb.any (validAb s.par)
  | .sr => s.cacheSr.any (validSr s.par)

/-- The region an update writes (45_config.md R311). -/
def State.target (s : State) : Option Role :=
  match s.par.topology with
  | .ab => s.cacheAb.map fun c => otherRole (activeRole c.active)
  | .sr => some .staging

/-! ### The invariant -/

/-- Memory is in canonical form and lists only addresses of the two windows (20_memory.md R80). -/
abbrev State.MemoryOk (s : State) : Prop :=
  Memory.Wf s.mem ∧ ∀ c ∈ s.mem, readable s.par c.1 1 = true

/-- The record is there from CHECK on (46_dispatch.md R350), and valid where `cfg_valid = 1` (45_config.md
R300). -/
abbrev State.RecordOk (s : State) : Prop :=
  (s.dstate ≠ .check → s.dstate ≠ .fault → s.hasRecord = true)
    ∧ (s.cfgValid = true → s.recordValid = true)
    ∧ (s.dstate = .jump → s.cfgValid = true)

/-- The session (10_state.md R43, R46; 43_protocol.md R220, R247): it is open exactly in UPDATE, inside the
managed range, and the cursor has moved by the bytes written, an even number while the session is open. -/
abbrev State.SessionOk (s : State) : Prop :=
  (s.sess.active = true ↔ s.dstate = .update)
    ∧ (s.dstate = .update →
        s.retState.isSome = true ∧ s.sessKind.isSome = true
          ∧ granuleAligned s.par s.sess.base.toNat = true
          ∧ s.par.wrLo ≤ s.sess.base.toNat ∧ s.sess.cursor.toNat ≤ s.sess.limit.toNat
          ∧ s.sess.limit.toNat ≤ s.par.wrHi
          ∧ s.sess.cursor.toNat = s.sess.base.toNat + s.sess.written.toNat
          ∧ s.sess.written.toNat % 2 = 0)

/-- An open flow session (46_dispatch.md R351): it writes the update target's region, under a valid record;
a session that returns to JUMP is a flow's. -/
abbrev State.FlowOk (s : State) : Prop :=
  s.dstate = .update →
    (s.retState = some .jump → s.sessKind = some .flow)
      ∧ (s.sessKind = some .flow →
          s.cfgValid = true ∧ s.flowTarget = s.target
            ∧ (∀ t ∈ s.flowTarget, s.sess.base.toNat = regionBase s.par t)
            ∧ s.sess.limit.toNat = s.sess.base.toNat + s.par.regionSize)

/-- The parser's counters are in range (10_state.md R48), the body it has gathered fits the declared length
(43_protocol.md R224, R225), and `esc_pend` is 1 only in an escaped field (R222). -/
abbrev State.ParserOk (s : State) : Prop :=
  s.parser.pcount < 4 ∧ s.parser.crcRaw.length = 4 ∧ s.parser.body.length ≤ s.par.maxLen
    ∧ (s.parser.pstate = .readBody →
        minLen ≤ s.parser.lenAcc.toNat ∧ s.parser.lenAcc.toNat ≤ s.par.maxLen
          ∧ s.parser.body.length < s.parser.lenAcc.toNat)
    ∧ (s.parser.pstate = .readCrc ∨ s.parser.pstate = .waitEnd →
        minLen ≤ s.parser.lenAcc.toNat ∧ s.parser.body.length = s.parser.lenAcc.toNat)
    ∧ (s.parser.escPend = true → escapedState s.par.escMode s.parser.pstate = true)

/-- The receive channel (10_state.md R49, 20_memory.md R101): armed or ready exactly while a session is open,
never both, and a chunk has 1 to `RX_CAP` bytes. -/
abbrev State.ChannelOk (s : State) : Prop :=
  ((s.rx.armed = true ∨ s.rx.ready = true) ↔ s.dstate = .update)
    ∧ (s.rx.armed = true → s.rx.ready = false)
    ∧ s.rx.buf.length ≤ s.par.rxCap ∧ (s.rx.ready = true → s.rx.buf ≠ [])
    ∧ (s.rx.armed = false → s.rx.line = [])

/-- The hand-off record (10_state.md R52): written when DSTATE becomes HANDED_OFF, and only then. -/
abbrev State.HandOffOk (s : State) : Prop :=
  (s.dstate = .handedOff → s.handOff.isSome = true)
    ∧ (s.handOff.isSome = true → s.dstate = .handedOff ∨ s.dstate = .fault)

/-- What every step keeps: the parameters meet their constraints (00_scope.md R11), `irq_masked` is 0 between
steps (10_state.md R50), and every part of the state is as its rule says. -/
abbrev State.Inv (s : State) : Prop :=
  s.par.wellFormed = true ∧ s.irqMasked = false ∧ s.MemoryOk ∧ s.RecordOk ∧ s.SessionOk ∧ s.FlowOk
    ∧ s.ParserOk ∧ s.ChannelOk ∧ s.HandOffOk

/-! ### The environment's answers -/

/-- The premise "no flash call fails" (20_memory.md R98): every answer to come is ok. (Under `FAIL_ANY` a
program over a granule that is not erased fails all the same, 20_memory.md R97.) -/
def State.flashOk (s : State) : Bool :=
  s.env.flashAnswers.all (fun a => a.outcome == .ok) && s.env.flashRest.any (fun a => a.outcome == .ok)

/-- The environment after `erases` erase calls and `programs` program calls (44_flash.md R281, R282): that many
answers are used up, the clock may have moved on, and nothing else has changed. -/
def FlashCalls (e e' : Env) (erases programs : Nat) : Prop :=
  e' = { e with flashAnswers := e.flashAnswers.drop (erases + programs), clock := e'.clock,
                eraseCalls := e.eraseCalls + erases, programCalls := e.programCalls + programs }

/-- Only flash calls, however many, have changed the environment. -/
def OnlyFlashCalls (e e' : Env) : Prop := ∃ erases programs, FlashCalls e e' erases programs

/-! ### What memory holds after a write -/

/-- The bytes from `a` on are `l`, and every other byte is as before. -/
def StoredAt (m m' : Memory) (a : Nat) (l : List Byte) : Prop :=
  (∀ i, i < l.length → m'.get (a + i) = l.getD i 0) ∧ ∀ b, b < a ∨ a + l.length ≤ b → m'.get b = m.get b

/-- The bytes of `[a, a + n)` are erased, and every other byte is as before (20_memory.md R96). -/
def ErasedAt (m m' : Memory) (a n : Nat) : Prop :=
  (∀ b, a ≤ b → b < a + n → m'.get b = erasedByte) ∧ ∀ b, b < a ∨ a + n ≤ b → m'.get b = m.get b

/-- The config sector holds the record `l` in its first bytes and 0xFF in every other byte (30_encoding.md
R163), and every other byte of memory is as before. -/
def RecordStored (p : Config) (m m' : Memory) (l : List Byte) : Prop :=
  StoredAt m m' p.cfgAddr (padTo p.sector erasedByte l)

/-- How many program calls a persist makes: `ceil(REC_SIZE / G)` (45_config.md R303). -/
def recordPrograms (p : Config) : Nat := ceilDiv p.recSize p.granule

/-- `t` is `s` after the AB record `c` was written to the cache and persisted by `n` runs of `CfgPersist`, with
no call failing (45_config.md R303); the result registers are left open. -/
def PersistedAb (n : Nat) (s t : State) (c : AbRecord) : Prop :=
  t = { s with cacheAb := some c, cfgDirty := false, mem := t.mem, env := t.env,
               res0 := t.res0, res1 := t.res1, result := t.result }
    ∧ RecordStored s.par s.mem t.mem (serializeAb c)
    ∧ FlashCalls s.env t.env n (n * recordPrograms s.par)

/-- The same of the SR record. -/
def PersistedSr (n : Nat) (s t : State) (c : SrRecord) : Prop :=
  t = { s with cacheSr := some c, cfgDirty := false, mem := t.mem, env := t.env,
               res0 := t.res0, res1 := t.res1, result := t.result }
    ∧ RecordStored s.par s.mem t.mem (serializeSr c)
    ∧ FlashCalls s.env t.env n (n * recordPrograms s.par)

/-! ### Spans (20_memory.md R81 to R83, R91; 44_flash.md R270) -/

/-- The span lies in the flash window or in the RAM window, or is empty (20_memory.md R81, R82). -/
abbrev SpanReadable (p : Config) (a n : Nat) : Prop :=
  n = 0 ∨ (p.flashBase ≤ a ∧ a + n ≤ p.flashEnd) ∨ (p.ramBase ≤ a ∧ a + n ≤ p.ramEnd)

/-- The span lies in the RAM window, or is empty (20_memory.md R81, R83). -/
abbrev SpanWritable (p : Config) (a n : Nat) : Prop := n = 0 ∨ (p.ramBase ≤ a ∧ a + n ≤ p.ramEnd)

/-- A flash address is granule-aligned (20_memory.md R87). -/
abbrev Aligned (p : Config) (a : Nat) : Prop := ((a : Int) - (p.flashBase : Int)) % (p.granule : Int) = 0

/-- `[lo, hi)` is in the managed range (20_memory.md R91). -/
abbrev InManaged (p : Config) (lo hi : Nat) : Prop := p.wrLo ≤ lo ∧ hi ≤ p.wrHi

/-! ### Images and boot selection (45_config.md R306, R308, R309) -/

/-- A region's image verifies against a recorded size and CRC (45_config.md R306), said over the bytes. -/
abbrev ImageGood (p : Config) (m : Memory) (base : Nat) (size crc : Word) : Prop :=
  0 < size.toNat ∧ size.toNat ≤ p.regionSize
    ∧ p.ramBase < (m.word base).toNat ∧ (m.word base).toNat ≤ p.ramEnd
    ∧ crc32 (m.read base size.toNat) = crc

/-- The size an AB record holds for a role (45_config.md R306). -/
def AbRecord.sizeOf (c : AbRecord) : Role → Word
  | .a => c.sizeA
  | .b => c.sizeB
  | _ => 0

/-- The CRC an AB record holds for a role (45_config.md R306). -/
def AbRecord.crcOf (c : AbRecord) : Role → Word
  | .a => c.crcA
  | .b => c.crcB
  | _ => 0

/-- The image of role `r` verifies against the record `c`. -/
abbrev RoleGood (p : Config) (m : Memory) (c : AbRecord) (r : Role) : Prop :=
  ImageGood p m (regionBase p r) (c.sizeOf r) (c.crcOf r)

/-- Step 1 of `BootSelect()` (45_config.md R308, R309). -/
def recovered (c : AbRecord) : AbRecord :=
  if c.updating = 1 then
    { c.setImage (otherRole (activeRole c.active)) 0 0 with updating := 0, bootCount := 0 }
  else c

/-- Step 2 of `BootSelect()` (45_config.md R309). -/
def failedOver (p : Config) (c : AbRecord) : AbRecord :=
  if p.maxBootAttempts ≤ c.bootCount.toNat then
    { c with active := activeByte (otherRole (activeRole c.active)), bootCount := 0 }
  else c

/-- How many persists steps 1 and 2 make. -/
def earlyPersists (p : Config) (c : AbRecord) : Nat :=
  (if c.updating = 1 then 1 else 0)
    + (if p.maxBootAttempts ≤ (recovered c).bootCount.toNat then 1 else 0)

/-- `HandOff(b)` (46_dispatch.md R357), field by field. -/
def handedOffAt (s : State) (b : Nat) : State :=
  { s with rx := { s.rx with armed := false, ready := false, line := [] }, dstate := .handedOff,
           handOff := some { vtor := BitVec.ofNat 32 b, sp := u32 (s.mem.read b 4),
                             entry := u32 (s.mem.read (b + 4) 4) } }

/-! ### Reset, sessions and frame errors -/

/-- Every element of the engine at its reset value (10_state.md R56); parameters, memory and environment are
left open. -/
abbrev State.AtReset (t : State) : Prop :=
  t.arg0 = 0 ∧ t.arg1 = 0 ∧ t.arg2 = 0 ∧ t.arg3 = 0 ∧ t.res0 = 0 ∧ t.res1 = 0 ∧ t.result = 0
    ∧ t.framesOk = 0 ∧ t.framesBad = 0 ∧ t.lastUpdate = 0 ∧ t.crcState = 0xFFFFFFFF
    ∧ t.dstate = .check ∧ t.cacheAb = none ∧ t.cacheSr = none ∧ t.cfgValid = false ∧ t.cfgDirty = false
    ∧ t.sess = { active := false, base := 0, limit := 0, cursor := 0, written := 0, pendValid := false,
                 pendByte := 0, idleCount := 0, startTick := 0 }
    ∧ t.parser = { pstate := .waitStart, pcount := 0, lenAcc := 0, crcAcc := 0, crcRaw := [0, 0, 0, 0],
                   body := [], escPend := false }
    ∧ t.rx.armed = false ∧ t.rx.ready = false ∧ t.rx.buf = [] ∧ t.irqMasked = false ∧ t.tx = []
    ∧ t.handOff = none ∧ t.retState = none ∧ t.sessKind = none ∧ t.flowTarget = none ∧ t.status = 0

/-- What a frame error leaves (43_protocol.md R238): one more bad frame, one status frame with status 1 and
the given tag, and the parser cleared to `next`. -/
def State.afterFrameError (s : State) (tag : List Byte) (next : PState) : State :=
  { s with framesBad := s.framesBad + 1,
           frameBuf := assembleFrame s.par.rspVersion s.par.rspReceiver s.par.rspSender (tag ++ le32 1),
           tx := s.tx ++ [wireFrame s.par.escMode s.par.rspVersion s.par.rspReceiver s.par.rspSender
                           (tag ++ le32 1)],
           parser := { pstate := next, pcount := 0, lenAcc := 0, crcAcc := 0, crcRaw := [0, 0, 0, 0],
                       body := [], escPend := false } }

/-- What the end of a RAW session leaves (43_protocol.md R244, with SESS_POLL's results, R240). -/
def State.rawEnded (s : State) (code : Word) : State :=
  { s with rx := { s.rx with armed := false, ready := false, line := [] },
           sess := { s.sess with active := false, pendValid := false },
           parser := { pstate := .waitStart, pcount := 0, lenAcc := 0, crcAcc := 0, crcRaw := [0, 0, 0, 0],
                       body := [], escPend := false },
           lastUpdate := code, dstate := .noImage, res0 := 1, result := code }

/-- The idle counter after a poll that finds no chunk (10_state.md R46). -/
def idleNext (c : Word) : Word := if c = 0xFFFFFFFF then c else c + 1

/-- The session's budget has run out (43_protocol.md R243). -/
abbrev State.TimedOut (s : State) : Prop :=
  s.par.sessionTimeout ≤ (s.env.clock - s.sess.startTick).toNat

/-- The idle limit ends the session at this poll (43_protocol.md R240). -/
abbrev State.IdleEnds (s : State) : Prop :=
  s.par.idleEndLimit ≠ 0 ∧ s.par.idleEndLimit ≤ (idleNext s.sess.idleCount).toNat

/-- The end marker waits to be parsed (43_protocol.md R241). -/
abbrev State.MarkerReady (s : State) : Prop :=
  s.rx.ready = true ∧ s.rx.buf = [0xFF] ∧ s.parser.pstate = .waitStart

/-- Payload data has been accepted (10_state.md R47). -/
abbrev State.DataSeen (s : State) : Prop := s.sess.written ≠ 0 ∨ s.sess.pendValid = true

/-- The carry byte, if there is one (43_protocol.md R236). -/
def State.carry (s : State) : List Byte := if s.sess.pendValid then [s.sess.pendByte] else []

/-- The opened session (43_protocol.md R220), with the channel armed. -/
def sessionOpened (s : State) (base limit : Word) (kind : SessKind) (ret : RetState) : State :=
  { s with
    sess := { active := true, base := base, limit := limit, cursor := base, written := 0,
              pendValid := false, pendByte := 0, idleCount := 0, startTick := s.env.clock },
    parser := { pstate := .waitStart, pcount := 0, lenAcc := 0, crcAcc := 0, crcRaw := [0, 0, 0, 0],
                body := [], escPend := false },
    rx := { armed := true, ready := false, buf := [], line := [] },
    framesOk := 0, framesBad := 0, sessKind := some kind, retState := some ret, dstate := .update,
    env := { s.env with armAnswers := s.env.armAnswers.tail, armCalls := s.env.armCalls + 1 } }

/-- What a refused `RxArm()` leaves: nothing of the engine changes (43_protocol.md R220). -/
def armRefused (s : State) : State :=
  { s with env := { s.env with armAnswers := s.env.armAnswers.tail, armCalls := s.env.armCalls + 1 } }

end Sys2Proof.Machine
end

