-- ==== Sys2Proof/Certificates/Slice0/Obligations.lean ====
section
/-! DEFINITION. The statements for the provers. A result code is written as the 32-bit value RESULT holds
(60_exceptions.md R380): 0xFFFFFFF0 is E_ILLEGAL (-16), 0xFFFFFFEF E_BUSY (-17), and so on. A frame is written
`t = s but for ...`: the fields listed may differ, and the clauses that follow say how. -/

open Sys2Proof Sys2Proof.Machine

/-! ### The command word -/

/-- The decoder reads back every encoded command, every immediate at every value (30_encoding.md R120, R122,
R125). -/
def Obligations.DecodeReadsBackEncode : Prop :=
  ∀ i : Instr, i.wellFormed = true → decode (encode i) = .ok i

/-- Every word the decoder accepts is the encoding of the command it gives: no two words are one command, and no
bit of a legal word is dropped (30_encoding.md R120, R126). -/
def Obligations.EncodeReadsBackDecode : Prop :=
  ∀ (w : Word) (i : Instr), decode w = .ok i → encode i = w

/-- The words of 30_encoding.md R129's examples, and two more, decode to the commands they stand for. -/
def Obligations.DecodedWords : Prop :=
  decode 0x00000002 = .ok .crcUpdate ∧ decode 0x00003103 = .ok (.crcUpdateByte 0x31)
    ∧ decode 0x00000144 = .ok (.imgVerify .b) ∧ decode 0x03020112 = .ok (.frameBuild 0x01 0x02 0x03)
    ∧ decode 0x00000021 = .ok .sessPoll ∧ decode 0x00000248 = .ok (.updComplete .staging)

/-- A word whose opcode is not in the table of 30_encoding.md R125, or that has a 1 in a reserved-zero bit,
raises E_ILLEGAL and changes nothing else; every other word is a command (R126). `legalWord` is the table. -/
def Obligations.IllegalWordRaises : Prop :=
  ∀ (w : Word) (s : State),
    (legalWord w = true → ∃ i, decode w = .ok i)
      ∧ (legalWord w = false → issue w s = .next { s with result := 0xFFFFFFF0 })

/-- A step whose next input writes a legal word to CMD runs the command it decodes to, and so does the step
after `withFetchWord`, which writes the word at a point where commands are accepted (log 4, log 18). -/
def Obligations.StepRunsDecodedCommand : Prop :=
  (∀ (s : State) (w : Word) (i : Instr) (rest : List Input),
      s.env.inputs = .portWrite s.par.blkBase 4 w :: rest → decode w = .ok i →
      step s = exec i (s.withInputs rest))
    ∧ ∀ (s : State) (nbits w : Nat) (i : Instr), decodeTableWord nbits w = some i →
      step (s.withFetchWord nbits w) = exec i s.awaitingCommand

/-- Every cell of 30_encoding.md R127's table that refuses a command: the code it raises, and nothing else
changed, for every command of the class (`classOf` is the class column of R125). -/
def Obligations.RefusedByDispatcherState : Prop :=
  ∀ (i : Instr) (s : State),
    (s.dstate = .check ∨ s.dstate = .jump → exec i s = .next { s with result := 0xFFFFFFEF })
      ∧ (s.dstate = .fault → exec i s = .next { s with result := 0xFFFFFFE6 })
      ∧ (s.dstate = .update → classOf i = .sessBegin ∨ classOf i = .write ∨ classOf i = .app →
          exec i s = .next { s with result := 0xFFFFFFEF })
      ∧ (s.dstate = .noImage ∨ s.dstate = .handedOff → classOf i = .sessPoll →
          exec i s = .next { s with result := 0xFFFFFFE7 })
      ∧ (s.dstate = .handedOff → classOf i = .sessBegin ∨ classOf i = .write →
          exec i s = .next { s with result := 0xFFFFFFE6 })

/-! ### Reset and the register window -/

/-- Every element of 10_state.md R56 at its reset value after a reset, and in the machine's first state; flash
is kept (R55, 70_reset_and_hazards.md R410). -/
def Obligations.ResetLeavesResetValues : Prop :=
  State.reset.AtReset
    ∧ ∀ (s : State) (ram : List Byte), s.Inv → ∃ t, takeInput (.reset ram) s = .next t ∧ t.AtReset
        ∧ t.par = s.par ∧ t.readRegister 0x34 = 0 ∧ t.readRegister 0x38 = 0
        ∧ ∀ a, s.par.flashBase ≤ a → a < s.par.flashEnd → t.mem.get a = s.mem.get a

/-- The register window (10_state.md R31): what an aligned 32-bit read of each offset returns, which writes
store, that every other write but CMD's is ignored, that any other access is no step, and each register's reset
value. That the value read is kept in `env.readData`, and that the offset is the difference of the bus addresses
modulo 2^32, are the model's choice (log 15). -/
def Obligations.RegisterWindow : Prop :=
  ∀ (s : State) (off v : Word),
    (off.toNat % 4 = 0 →
        portRead (s.par.blkBase + off) 4 s
          = .next { s with env := { s.env with readData := s.readRegister off.toNat } })
      ∧ s.readRegister 0x00 = 0 ∧ s.readRegister 0x04 = s.arg0 ∧ s.readRegister 0x08 = s.arg1
      ∧ s.readRegister 0x0C = s.arg2 ∧ s.readRegister 0x10 = s.arg3 ∧ s.readRegister 0x14 = s.res0
      ∧ s.readRegister 0x18 = s.res1 ∧ s.readRegister 0x1C = s.result ∧ s.readRegister 0x20 = s.status
      ∧ s.readRegister 0x24 = s.crcState ∧ s.readRegister 0x28 = s.framesOk
      ∧ s.readRegister 0x2C = s.framesBad ∧ s.readRegister 0x30 = s.lastUpdate
      ∧ s.readRegister 0x34 = s.sess.written ∧ s.readRegister 0x38 = s.sess.cursor
      ∧ (0x38 < off.toNat → s.readRegister off.toNat = 0)
      ∧ (s.afterReset []).readRegister off.toNat = (if off = 0x24 then 0xFFFFFFFF else 0)
      ∧ portWrite s.par.blkBase 4 v s = issue v s
      ∧ portWrite (s.par.blkBase + 0x04) 4 v s = .next { s with arg0 := v }
      ∧ portWrite (s.par.blkBase + 0x08) 4 v s = .next { s with arg1 := v }
      ∧ portWrite (s.par.blkBase + 0x0C) 4 v s = .next { s with arg2 := v }
      ∧ portWrite (s.par.blkBase + 0x10) 4 v s = .next { s with arg3 := v }
      ∧ (off.toNat % 4 = 0 → 0x10 < off.toNat → portWrite (s.par.blkBase + off) 4 v s = .next s)
      ∧ (∀ size, size ≠ 4 ∨ off.toNat % 4 ≠ 0 →
          portRead (s.par.blkBase + off) size s = .refused .portAccess
            ∧ portWrite (s.par.blkBase + off) size v s = .refused .portAccess)

/-- The fields of STATUS (10_state.md R35), with the encodings of DSTATE (R42) and PSTATE (R48), and its reset
value. -/
def Obligations.StatusFields : Prop :=
  ∀ s : State,
    s.status.extractLsb' 0 1 = (if s.dstate = .update then 1 else 0)
      ∧ s.status.extractLsb' 1 3 = 0
      ∧ s.status.extractLsb' 4 1 = BitVec.ofBool s.cfgValid
      ∧ s.status.extractLsb' 5 1 = BitVec.ofBool s.cfgDirty
      ∧ s.status.extractLsb' 6 1 = BitVec.ofBool s.rx.armed
      ∧ s.status.extractLsb' 7 1 = BitVec.ofBool s.rx.ready
      ∧ s.status.extractLsb' 8 3
          = (match s.parser.pstate with
              | .waitStart => 0 | .readLength => 1 | .readBody => 2 | .readCrc => 3 | .waitEnd => 4)
      ∧ s.status.extractLsb' 11 1 = BitVec.ofBool s.parser.escPend
      ∧ s.status.extractLsb' 12 1 = BitVec.ofBool s.sess.pendValid
      ∧ s.status.extractLsb' 13 1 = BitVec.ofBool s.irqMasked
      ∧ s.status.extractLsb' 14 2 = 0
      ∧ s.status.extractLsb' 16 3
          = (match s.dstate with
              | .check => 0 | .update => 1 | .jump => 2 | .noImage => 3 | .handedOff => 4 | .fault => 5)
      ∧ s.status.extractLsb' 19 13 = 0
      ∧ (s.afterReset []).status = 0

/-! ### The CRC unit -/

/-- CRC_INIT, CRC_UPDATE_BYTE and CRC_FINAL where class P is accepted (41_crc.md R175, R177, R178). -/
def Obligations.CrcRegisterCommands : Prop :=
  ∀ (s : State) (b : Byte), s.AcceptsPure →
    exec .crcInit s = .next { s with crcState := 0xFFFFFFFF, result := 0 }
      ∧ exec (.crcUpdateByte b) s = .next { s with crcState := crcStep s.crcState b, result := 0 }
      ∧ exec .crcFinal s = .next { s with res0 := s.crcState ^^^ 0xFFFFFFFF, result := 0 }

/-- CRC_UPDATE and CRC_COMPUTE over a span of memory (41_crc.md R176, R179): a span in no window raises
E_BADSPAN with nothing else changed. -/
def Obligations.CrcSpanCommands : Prop :=
  ∀ s : State, s.AcceptsPure →
    (SpanReadable s.par s.arg0.toNat s.arg1.toNat →
        exec .crcUpdate s
            = .next { s with crcState := crcUpdate s.crcState (s.mem.read s.arg0.toNat s.arg1.toNat),
                             result := 0 }
          ∧ exec .crcCompute s
            = .next { s with res0 := crc32 (s.mem.read s.arg0.toNat s.arg1.toNat), result := 0 })
      ∧ (¬ SpanReadable s.par s.arg0.toNat s.arg1.toNat →
          exec .crcUpdate s = .next { s with result := 0xFFFFFFEE }
            ∧ exec .crcCompute s = .next { s with result := 0xFFFFFFEE })

/-- The loop form and the table-driven form agree on every input (41_crc.md R172), with the table's entries the
rule lists. -/
def Obligations.CrcTableFormAgrees : Prop :=
  (∀ (s : Word) (b : Byte),
      crcStep s b = (s >>> 8) ^^^ crcStep 0 ((s ^^^ b.setWidth 32).extractLsb' 0 8))
    ∧ crcStep 0 0x00 = 0x00000000 ∧ crcStep 0 0x01 = 0x77073096 ∧ crcStep 0 0x02 = 0xEE0E612C
    ∧ crcStep 0 0x80 = 0xEDB88320 ∧ crcStep 0 0xFF = 0x2D02EF8D

/-- The laws of 41_crc.md R173, and the check value of R180. -/
def Obligations.CrcStreamingLaws : Prop :=
  (∀ (s : Word) (a b : List Byte), crcUpdate s (a ++ b) = crcUpdate (crcUpdate s a) b)
    ∧ (∃ a a' b b' : List Byte, crc32 a = crc32 a' ∧ crc32 b = crc32 b' ∧ crc32 (a ++ b) ≠ crc32 (a' ++ b'))
    ∧ crc32 [] = 0x00000000
    ∧ crc32 [0x31, 0x32, 0x33, 0x34, 0x35, 0x36, 0x37, 0x38, 0x39] = 0xCBF43926

/-! ### The frame codec -/

/-- The laws of 42_codec.md R194, in both modes: round trip, canonical wire, length, and where 0x7E can
stand. -/
def Obligations.EscapeLaws : Prop :=
  (∀ (m : EscMode) (r : List Byte), unescape m (escape m r) = .ok r)
    ∧ (∀ (m : EscMode) (w r : List Byte), unescape m w = .ok r → escape m r = w)
    ∧ (∀ (m : EscMode) (r : List Byte), (escape m r).length = r.length
        + ((r.drop (verbatim m)).take (r.length - 2 * verbatim m)).countP fun b => b == 0x7E || b == 0x7A)
    ∧ (∀ (r : List Byte) (i : Nat), (escape .full r)[i]? = some 0x7E →
        (i = 0 ∧ r[0]? = some 0x7E)
          ∨ (i + 1 = (escape .full r).length ∧ r[r.length - 1]? = some 0x7E))
    ∧ (∀ (r : List Byte) (i : Nat), 10 ≤ r.length → 5 ≤ i → i + 5 < (escape .window5 r).length →
        (escape .window5 r)[i]? ≠ some 0x7E)

/-- ESCAPE (42_codec.md R196): the bytes written at ARG2, their number in RES0, and the two refusals, which
write nothing. -/
def Obligations.EscapeCommand : Prop :=
  ∀ (s : State) (out : List Byte), s.AcceptsPure → Memory.Wf s.mem →
    out = escape s.par.escMode (s.mem.read s.arg0.toNat s.arg1.toNat) →
    (¬ (SpanReadable s.par s.arg0.toNat s.arg1.toNat ∧ SpanWritable s.par s.arg2.toNat s.arg3.toNat) →
        exec .escape s = .next { s with result := 0xFFFFFFEE })
      ∧ (SpanReadable s.par s.arg0.toNat s.arg1.toNat → SpanWritable s.par s.arg2.toNat s.arg3.toNat →
          (s.arg3.toNat < out.length → exec .escape s = .next { s with result := 0xFFFFFFEA })
            ∧ (out.length ≤ s.arg3.toNat → ∃ t, exec .escape s = .next t
                ∧ t = { s with mem := t.mem, res0 := BitVec.ofNat 32 out.length, result := 0 }
                ∧ StoredAt s.mem t.mem s.arg2.toNat out))

/-- UNESCAPE (42_codec.md R197): an anomaly's index in RES1 with E_ESCAPE, else the decoded bytes at ARG2. -/
def Obligations.UnescapeCommand : Prop :=
  ∀ s : State, s.AcceptsPure → Memory.Wf s.mem →
    (¬ (SpanReadable s.par s.arg0.toNat s.arg1.toNat ∧ SpanWritable s.par s.arg2.toNat s.arg3.toNat) →
        exec .unescape s = .next { s with result := 0xFFFFFFEE })
      ∧ (SpanReadable s.par s.arg0.toNat s.arg1.toNat → SpanWritable s.par s.arg2.toNat s.arg3.toNat →
          (∀ i, unescape s.par.escMode (s.mem.read s.arg0.toNat s.arg1.toNat) = .anomaly i →
              exec .unescape s
                = .next { s with res0 := 0, res1 := BitVec.ofNat 32 i, result := 0xFFFFFFE9 })
            ∧ ∀ out, unescape s.par.escMode (s.mem.read s.arg0.toNat s.arg1.toNat) = .ok out →
              (s.arg3.toNat < out.length → exec .unescape s = .next { s with result := 0xFFFFFFEA })
                ∧ (out.length ≤ s.arg3.toNat → ∃ t, exec .unescape s = .next t
                    ∧ t = { s with mem := t.mem, res0 := BitVec.ofNat 32 out.length, res1 := 0xFFFFFFFF,
                                   result := 0 }
                    ∧ StoredAt s.mem t.mem s.arg2.toNat out))

/-- FRAME_BUILD (42_codec.md R195, R198): the wire frame of 30_encoding.md R140 and R142 at ARG2, its length in
RES0 and its CRC in RES1. -/
def Obligations.FrameBuildCommand : Prop :=
  ∀ (s : State) (v rc sd : Byte) (body out : List Byte) (crc : Word), s.AcceptsPure → Memory.Wf s.mem →
    body = [v, rc, sd] ++ s.mem.read s.arg0.toNat s.arg1.toNat →
    crc = crc32 (le32 (BitVec.ofNat 32 body.length) ++ body) →
    out = escape s.par.escMode
      ([0x7E] ++ le32 (BitVec.ofNat 32 body.length) ++ body ++ le32 crc ++ [0x7E]) →
    (s.par.maxLen - 3 < s.arg1.toNat → exec (.frameBuild v rc sd) s = .next { s with result := 0xFFFFFFE5 })
      ∧ (s.arg1.toNat ≤ s.par.maxLen - 3 →
          (¬ (SpanReadable s.par s.arg0.toNat s.arg1.toNat ∧ SpanWritable s.par s.arg2.toNat s.arg3.toNat) →
              exec (.frameBuild v rc sd) s = .next { s with result := 0xFFFFFFEE })
            ∧ (SpanReadable s.par s.arg0.toNat s.arg1.toNat →
                SpanWritable s.par s.arg2.toNat s.arg3.toNat →
                (s.arg3.toNat < out.length →
                    exec (.frameBuild v rc sd) s = .next { s with result := 0xFFFFFFEA })
                  ∧ (out.length ≤ s.arg3.toNat → ∃ t, exec (.frameBuild v rc sd) s = .next t
                      ∧ t = { s with mem := t.mem, res0 := BitVec.ofNat 32 out.length, res1 := crc,
                                     result := 0 }
                      ∧ StoredAt s.mem t.mem s.arg2.toNat out)))

/-! ### The protocol unit -/

/-- SESS_BEGIN (43_protocol.md R220, R221): the three argument checks in order, the refused channel, and the
session it opens. Which of E_ALIGN and E_RANGE an ARG0 below FLASH_BASE raises is the model's choice (log 17). -/
def Obligations.SessBeginCommand : Prop :=
  ∀ s : State, s.AcceptsWrite →
    (s.arg1.toNat < s.arg0.toNat → exec .sessBegin s = .next { s with result := 0xFFFFFFE5 })
      ∧ (s.arg0.toNat ≤ s.arg1.toNat → ¬ Aligned s.par s.arg0.toNat →
          exec .sessBegin s = .next { s with result := 0xFFFFFFED })
      ∧ (s.arg0.toNat ≤ s.arg1.toNat → Aligned s.par s.arg0.toNat →
          ¬ InManaged s.par s.arg0.toNat s.arg1.toNat →
          exec .sessBegin s = .next { s with result := 0xFFFFFFEC })
      ∧ (s.arg0.toNat ≤ s.arg1.toNat → Aligned s.par s.arg0.toNat →
          InManaged s.par s.arg0.toNat s.arg1.toNat →
          (s.armAnswer = false → exec .sessBegin s = .next { armRefused s with result := 0xFFFFFFFE })
            ∧ (s.armAnswer = true →
                exec .sessBegin s
                  = .next { sessionOpened s s.arg0 s.arg1 .raw .noImage with result := 0 }))

/-- SESS_PROGRESS (43_protocol.md R246). -/
def Obligations.SessProgressCommand : Prop :=
  ∀ s : State, s.AcceptsPure →
    exec .sessProgress s = .next { s with res0 := s.sess.written, res1 := s.framesOk, result := 0 }

/-- SESS_POLL of a RAW session (43_protocol.md R240 to R244), where no frame is waiting: a poll that finds
nothing counts one idle poll; the timeout, the idle limit and the end marker end the session with their
codes; and where the idle limit or the marker ends it with a carry byte in hand, that byte is written, padded
with 0xFF, before the session ends, or the session ends with E_OVERFLOW where it does not fit. -/
def Obligations.SessPollCommand : Prop :=
  ∀ s : State, s.dstate = .update → s.sessKind = some .raw → s.retState = some .noImage →
    (s.rx.ready = false → ¬ s.IdleEnds → ¬ s.TimedOut →
        exec .sessPoll s
          = .next { s with sess := { s.sess with idleCount := idleNext s.sess.idleCount }, res0 := 0,
                           result := 0 })
      ∧ (s.rx.ready = false → ¬ s.IdleEnds → s.TimedOut →
          exec .sessPoll s
            = .next ({ s with sess := { s.sess with idleCount := idleNext s.sess.idleCount } }.rawEnded
                (if s.DataSeen then 0xFFFFFFFC else 0xFFFFFFFD)))
      ∧ (s.rx.ready = false → s.IdleEnds → ¬ s.DataSeen →
          exec .sessPoll s
            = .next ({ s with sess := { s.sess with idleCount := idleNext s.sess.idleCount } }.rawEnded
                0xFFFFFFFB))
      ∧ (s.rx.ready = false → s.IdleEnds → s.sess.written ≠ 0 → s.sess.pendValid = false →
          exec .sessPoll s
            = .next ({ s with sess := { s.sess with idleCount := idleNext s.sess.idleCount } }.rawEnded 0))
      ∧ (s.rx.ready = false → s.IdleEnds → s.sess.pendValid = true →
          s.sess.limit.toNat < s.sess.cursor.toNat + 2 →
          exec .sessPoll s
            = .next ({ s with sess := { s.sess with idleCount := idleNext s.sess.idleCount } }.rawEnded
                0xFFFFFFF9))
      ∧ (s.rx.ready = false → s.IdleEnds → s.sess.pendValid = true →
          s.sess.cursor.toNat + 2 ≤ s.sess.limit.toNat → s.Inv → s.flashOk = true →
          ∃ u : State, exec .sessPoll s = .next ({ u with sess := { s.sess with
                  cursor := s.sess.cursor + 2, written := s.sess.written + 1,
                  idleCount := idleNext s.sess.idleCount } }.rawEnded 0)
            ∧ u = { s with mem := u.mem, scratch := u.scratch, env := u.env }
            ∧ OnlyFlashCalls s.env u.env
            ∧ StoredAt s.mem u.mem s.sess.cursor.toNat [s.sess.pendByte, 0xFF])
      ∧ (s.MarkerReady → ¬ s.DataSeen → exec .sessPoll s = .next (s.rawEnded 0xFFFFFFFB))
      ∧ (s.MarkerReady → s.sess.written ≠ 0 → s.sess.pendValid = false →
          exec .sessPoll s = .next (s.rawEnded 0))
      ∧ (s.MarkerReady → s.sess.pendValid = true → s.sess.limit.toNat < s.sess.cursor.toNat + 2 →
          exec .sessPoll s = .next (s.rawEnded 0xFFFFFFF9))
      ∧ (s.MarkerReady → s.sess.pendValid = true → s.sess.cursor.toNat + 2 ≤ s.sess.limit.toNat →
          s.Inv → s.flashOk = true →
          ∃ u : State, exec .sessPoll s = .next ({ u with sess := { s.sess with
                  cursor := s.sess.cursor + 2, written := s.sess.written + 1 } }.rawEnded 0)
            ∧ u = { s with mem := u.mem, scratch := u.scratch, env := u.env }
            ∧ OnlyFlashCalls s.env u.env
            ∧ StoredAt s.mem u.mem s.sess.cursor.toNat [s.sess.pendByte, 0xFF])

/-- SESS_POLL succeeds on every chunk and reports whether the session ended in it (43_protocol.md R240, R244):
RES0 = 0 and the session goes on, or RES0 = 1 and RESULT holds one of the session-ending codes; or power was
lost at a flash call, which is the model's choice of outcome (log 8). RESULT is EndSession's code (log 23). -/
def Obligations.SessPollReportsTheSession : Prop :=
  ∀ s : State, s.Inv → s.dstate = .update →
    ∃ t, exec .sessPoll s = .next t
      ∧ ((t.res0 = 0 ∧ t.result = 0 ∧ t.dstate = .update ∧ t.sess.active = true)
        ∨ (t.res0 = 1 ∧ t.sess.active = false ∧ some t.dstate = s.retState.map RetState.dstate
            ∧ t.result ∈ ([0, 0xFFFFFFFB, 0xFFFFFFFD, 0xFFFFFFFC, 0xFFFFFFF9, 0xFFFFFFFA, 0xFFFFFFFE] : List Word))
        ∨ t.AtReset)

/-- The byte rules of the receive parser (43_protocol.md R222 to R226): a byte outside an escaped field, or an
escaped field's byte once decoded, moves the parser as its state says, and touches nothing else. -/
def Obligations.ReceiveByteRules : Prop :=
  ∀ (s : State) (c d : Byte) (p : Parser), p = { s.parser with escPend := false } →
    (s.parser.pstate = .waitStart →
        feed c s = .ok none (if c = 0x7E then
          { s with parser := { pstate := .readLength, pcount := 0, lenAcc := 0, crcAcc := 0,
                               crcRaw := [0, 0, 0, 0], body := [], escPend := false } } else s))
      ∧ (escapedState s.par.escMode s.parser.pstate = true → s.parser.escPend = false → c = 0x7A →
          feed c s = .ok none { s with parser := { s.parser with escPend := true } })
      ∧ (((escapedState s.par.escMode s.parser.pstate = false
              ∨ (s.parser.escPend = false ∧ c ≠ 0x7A ∧ c ≠ 0x7E)) ∧ d = c ∧ p = s.parser
            ∨ escapedState s.par.escMode s.parser.pstate = true ∧ s.parser.escPend = true
                ∧ (c = 0x55 ∧ d = 0x7E ∨ c = 0xAA ∧ d = 0x7A)) →
          (s.parser.pstate = .readLength → s.parser.pcount < 3 →
              feed c s = .ok none { s with parser := { p with
                lenAcc := p.lenAcc ||| (d.setWidth 32 <<< (8 * p.pcount)), pcount := p.pcount + 1 } })
            ∧ (s.parser.pstate = .readLength → s.parser.pcount = 3 →
                3 ≤ (p.lenAcc ||| (d.setWidth 32 <<< 24)).toNat →
                (p.lenAcc ||| (d.setWidth 32 <<< 24)).toNat ≤ s.par.maxLen →
                feed c s = .ok none { s with parser := { p with
                  lenAcc := p.lenAcc ||| (d.setWidth 32 <<< 24), pcount := 0, pstate := .readBody,
                  body := [] } })
            ∧ (s.parser.pstate = .readBody → s.parser.body.length + 1 ≠ s.parser.lenAcc.toNat →
                feed c s = .ok none { s with parser := { p with body := p.body ++ [d] } })
            ∧ (s.parser.pstate = .readBody → s.parser.body.length + 1 = s.parser.lenAcc.toNat →
                feed c s = .ok none { s with parser := { p with
                  body := p.body ++ [d], pstate := .readCrc, pcount := 0 } })
            ∧ (s.parser.pstate = .readCrc → s.parser.pcount < 3 →
                feed c s = .ok none { s with parser := { p with
                  crcRaw := p.crcRaw.set p.pcount d,
                  crcAcc := p.crcAcc ||| (d.setWidth 32 <<< (8 * p.pcount)), pcount := p.pcount + 1 } })
            ∧ (s.parser.pstate = .readCrc → s.parser.pcount = 3 →
                feed c s = .ok none { s with parser := { p with
                  crcRaw := p.crcRaw.set 3 d, crcAcc := p.crcAcc ||| (d.setWidth 32 <<< 24),
                  pcount := 0, pstate := .waitEnd } }))

/-- The five kinds of frame error (60_exceptions.md R381, 43_protocol.md R238): what causes each, the tag of
its one status frame, and where the parser goes; the session, its cursor and flash are untouched. -/
def Obligations.FrameErrorKinds : Prop :=
  ∀ (s : State) (c d : Byte),
    (s.parser.pstate = .readLength → s.parser.pcount = 3 →
        ((escapedState s.par.escMode s.parser.pstate = false
              ∨ (s.parser.escPend = false ∧ c ≠ 0x7A ∧ c ≠ 0x7E)) ∧ d = c
            ∨ escapedState s.par.escMode s.parser.pstate = true ∧ s.parser.escPend = true
                ∧ (c = 0x55 ∧ d = 0x7E ∨ c = 0xAA ∧ d = 0x7A)) →
        ¬ (3 ≤ (s.parser.lenAcc ||| (d.setWidth 32 <<< 24)).toNat
            ∧ (s.parser.lenAcc ||| (d.setWidth 32 <<< 24)).toNat ≤ s.par.maxLen) →
        feed c s = .ok none (s.afterFrameError [0, 0, 0, 0] .waitStart))
      ∧ (escapedState s.par.escMode s.parser.pstate = true → s.parser.escPend = true →
          c ≠ 0x55 → c ≠ 0xAA →
          feed c s = .ok none (s.afterFrameError [0, 0, 0, 0] (if c = 0x7E then .readLength else .waitStart)))
      ∧ (escapedState s.par.escMode s.parser.pstate = true → s.parser.escPend = false → c = 0x7E →
          feed c s = .ok none (s.afterFrameError [0, 0, 0, 0] .readLength))
      ∧ (s.parser.pstate = .waitEnd → c ≠ 0x7E →
          feed c s = .ok none (s.afterFrameError s.parser.crcRaw .waitStart))
      ∧ (s.parser.pstate = .waitEnd → c = 0x7E → s.parser.body.length = s.parser.lenAcc.toNat →
          crc32 (le32 s.parser.lenAcc ++ s.parser.body) ≠ s.parser.crcAcc →
          feed c s = .ok none (s.afterFrameError s.parser.crcRaw .waitStart))

/-- A whole wire frame fed in WAIT_START is accepted exactly once (43_protocol.md R236, R245 a): its payload,
after the carry byte, reaches flash at the cursor in whole halfwords, an odd last byte becomes the carry byte,
and one OK status frame with the frame's CRC bytes as its tag is sent. -/
def Obligations.WireFrameAccepted : Prop :=
  ∀ (s : State) (v rc sd : Byte) (pay bytes : List Byte) (n : Nat),
    s.Inv → s.dstate = .update → s.parser.pstate = .waitStart → s.flashOk = true →
    pay.length + 3 ≤ s.par.maxLen → bytes = s.carry ++ pay → n = 2 * (bytes.length / 2) →
    s.sess.cursor.toNat + n ≤ s.sess.limit.toNat →
    ∃ t, feedAll (wireFrame s.par.escMode v rc sd pay) s = .ok none t
      ∧ t = { s with mem := t.mem, scratch := t.scratch, env := t.env, framesOk := s.framesOk + 1,
                     parser := t.parser, frameBuf := t.frameBuf, tx := t.tx,
                     sess := { s.sess with cursor := s.sess.cursor + BitVec.ofNat 32 n,
                                           written := s.sess.written + BitVec.ofNat 32 n,
                                           pendValid := decide (bytes.length % 2 = 1),
                                           pendByte := if bytes.length % 2 = 1 then bytes.getLastD 0
                                             else s.sess.pendByte } }
      ∧ OnlyFlashCalls s.env t.env
      ∧ StoredAt s.mem t.mem s.sess.cursor.toNat (bytes.take n)
      ∧ t.parser.pstate = .waitStart ∧ t.parser.escPend = false
      ∧ t.tx = s.tx ++ [wireFrame s.par.escMode s.par.rspVersion s.par.rspReceiver s.par.rspSender
          (le32 (crc32 (le32 (BitVec.ofNat 32 (pay.length + 3)) ++ [v, rc, sd] ++ pay)) ++ le32 0)]

/-! ### The flash unit -/

/-- FL_WRITE when no flash call fails (44_flash.md R270, R281 a): the halfwords of the source buffer, read in
full before the first flash call, are at the target, and every other byte of memory is as before. -/
def Obligations.FlWriteWritesExactly : Prop :=
  ∀ s : State, s.Inv → s.AcceptsWrite → s.flashOk = true →
    SpanReadable s.par s.arg1.toNat (2 * s.arg2.toNat) → Aligned s.par s.arg0.toNat →
    InManaged s.par s.arg0.toNat (s.arg0.toNat + 2 * s.arg2.toNat) →
    ∃ t, exec .flWrite s = .next t
      ∧ t = { s with mem := t.mem, scratch := t.scratch, env := t.env, result := 0 }
      ∧ OnlyFlashCalls s.env t.env
      ∧ StoredAt s.mem t.mem s.arg0.toNat (s.mem.read s.arg1.toNat (2 * s.arg2.toNat))

/-- How many flash calls FL_WRITE makes inside one sector (44_flash.md R271, R281 b, R282): none erases where
every granule it touches is erased; one erase and S/G programs where one of them holds data. -/
def Obligations.FlWriteCallCounts : Prop :=
  ∀ (s : State) (n : Nat), s.Inv → s.AcceptsWrite → s.flashOk = true → 0 < s.arg2.toNat →
    SpanReadable s.par s.arg1.toNat (2 * s.arg2.toNat) → Aligned s.par s.arg0.toNat →
    InManaged s.par s.arg0.toNat (s.arg0.toNat + 2 * s.arg2.toNat) →
    (s.arg0.toNat - s.par.flashBase) / s.par.sector
      = (s.arg0.toNat + 2 * s.arg2.toNat - 1 - s.par.flashBase) / s.par.sector →
    n = ceilDiv (2 * s.arg2.toNat) s.par.granule →
    ((∀ a, s.arg0.toNat ≤ a → a < s.arg0.toNat + n * s.par.granule → s.mem.get a = 0xFF) →
        ∃ t, exec .flWrite s = .next t ∧ FlashCalls s.env t.env 0 n)
      ∧ ((∃ a, s.arg0.toNat ≤ a ∧ a < s.arg0.toNat + n * s.par.granule ∧ s.mem.get a ≠ 0xFF) →
        ∃ t, exec .flWrite s = .next t ∧ FlashCalls s.env t.env 1 (s.par.sector / s.par.granule))

/-- What FL_WRITE and FL_WRITE_NOCHECK refuse, in order (44_flash.md R270, R277): nothing but RESULT changes,
so no flash call is made. Which of E_ALIGN and E_RANGE a target below FLASH_BASE raises is the model's choice
(log 17). -/
def Obligations.FlashWritesRefused : Prop :=
  ∀ s : State, s.AcceptsWrite →
    (¬ SpanReadable s.par s.arg1.toNat (2 * s.arg2.toNat) →
        exec .flWrite s = .next { s with result := 0xFFFFFFEE }
          ∧ exec .flWriteNocheck s = .next { s with result := 0xFFFFFFEE })
      ∧ (SpanReadable s.par s.arg1.toNat (2 * s.arg2.toNat) → ¬ Aligned s.par s.arg0.toNat →
          exec .flWrite s = .next { s with result := 0xFFFFFFED }
            ∧ exec .flWriteNocheck s = .next { s with result := 0xFFFFFFED })
      ∧ (SpanReadable s.par s.arg1.toNat (2 * s.arg2.toNat) → Aligned s.par s.arg0.toNat →
          (¬ InManaged s.par s.arg0.toNat (s.arg0.toNat + 2 * s.arg2.toNat) →
              exec .flWrite s = .next { s with result := 0xFFFFFFEC })
            ∧ (¬ InManaged s.par s.arg0.toNat
                (s.arg0.toNat + s.par.granule * ceilDiv (2 * s.arg2.toNat) s.par.granule) →
              exec .flWriteNocheck s = .next { s with result := 0xFFFFFFEC }))

/-- FL_WRITE_NOCHECK (44_flash.md R277, 20_memory.md R97), with every answer ok: over erased granules the
padded halfwords; under AND_BITS the AND of old and new bytes over any granules; under FAIL_ANY a first
granule that is not erased fails, and only its bytes may change. -/
def Obligations.FlWriteNocheckCommand : Prop :=
  ∀ (s : State) (n : Nat) (l : List Byte), s.Inv → s.AcceptsWrite → s.flashOk = true →
    SpanReadable s.par s.arg1.toNat (2 * s.arg2.toNat) → Aligned s.par s.arg0.toNat →
    n = ceilDiv (2 * s.arg2.toNat) s.par.granule →
    InManaged s.par s.arg0.toNat (s.arg0.toNat + n * s.par.granule) →
    l = padTo (n * s.par.granule) 0xFF (s.mem.read s.arg1.toNat (2 * s.arg2.toNat)) →
    ((∀ a, s.arg0.toNat ≤ a → a < s.arg0.toNat + n * s.par.granule → s.mem.get a = 0xFF) →
        ∃ t, exec .flWriteNocheck s = .next t
          ∧ t = { s with mem := t.mem, env := t.env, result := 0 } ∧ FlashCalls s.env t.env 0 n
          ∧ StoredAt s.mem t.mem s.arg0.toNat l)
      ∧ (s.par.overNonErased = .andBits →
        ∃ t, exec .flWriteNocheck s = .next t
          ∧ t = { s with mem := t.mem, env := t.env, result := 0 } ∧ FlashCalls s.env t.env 0 n
          ∧ StoredAt s.mem t.mem s.arg0.toNat
              (List.zipWith (· &&& ·) (s.mem.read s.arg0.toNat (n * s.par.granule)) l))
      ∧ (s.par.overNonErased = .failAny → 0 < n →
        (∃ a, s.arg0.toNat ≤ a ∧ a < s.arg0.toNat + s.par.granule ∧ s.mem.get a ≠ 0xFF) →
        ∃ t, exec .flWriteNocheck s = .next t
          ∧ t = { s with mem := t.mem, env := t.env, result := 0xFFFFFFEB } ∧ FlashCalls s.env t.env 0 1
          ∧ ∀ a, a < s.arg0.toNat ∨ s.arg0.toNat + s.par.granule ≤ a → t.mem.get a = s.mem.get a)

/-- FL_READ (44_flash.md R278): both spans are checked first, and the source is read in full before the
write. -/
def Obligations.FlReadCommand : Prop :=
  ∀ s : State, s.AcceptsPure → Memory.Wf s.mem →
    (SpanReadable s.par s.arg0.toNat (2 * s.arg2.toNat) → SpanWritable s.par s.arg1.toNat (2 * s.arg2.toNat) →
        ∃ t, exec .flRead s = .next t ∧ t = { s with mem := t.mem, result := 0 }
          ∧ StoredAt s.mem t.mem s.arg1.toNat (s.mem.read s.arg0.toNat (2 * s.arg2.toNat)))
      ∧ (¬ (SpanReadable s.par s.arg0.toNat (2 * s.arg2.toNat)
            ∧ SpanWritable s.par s.arg1.toNat (2 * s.arg2.toNat)) →
          exec .flRead s = .next { s with result := 0xFFFFFFEE })

/-- FL_ERASE_SECTOR (44_flash.md R279, 20_memory.md R96, R104): its two refusals, and each answer of the
collaborator: ok erases the sector and nothing else; fail raises E_FLASH with any bytes in the sector; a power
loss leaves the reset state, which is the model's choice of outcome (log 8), and flash outside the sector as it
was. -/
def Obligations.FlEraseSectorCommand : Prop :=
  ∀ (s : State) (lo : Nat), s.Inv → s.AcceptsWrite →
    lo = s.par.flashBase + s.arg0.toNat * s.par.sector →
    (flashSize / s.par.sector ≤ s.arg0.toNat →
        exec .flEraseSector s = .next { s with result := 0xFFFFFFE5 })
      ∧ (s.arg0.toNat < flashSize / s.par.sector → lo < s.par.wrLo →
          exec .flEraseSector s = .next { s with result := 0xFFFFFFEC })
      ∧ (s.arg0.toNat < flashSize / s.par.sector → s.par.wrLo ≤ lo →
          (s.flashAnswer.outcome = .ok → ∃ t, exec .flEraseSector s = .next t
              ∧ t = { s with mem := t.mem, env := t.env, result := 0 } ∧ FlashCalls s.env t.env 1 0
              ∧ ErasedAt s.mem t.mem lo s.par.sector)
            ∧ (s.flashAnswer.outcome = .fail → ∃ t, exec .flEraseSector s = .next t
                ∧ t = { s with mem := t.mem, env := t.env, result := 0xFFFFFFEB }
                ∧ FlashCalls s.env t.env 1 0
                ∧ ∀ a, a < lo ∨ lo + s.par.sector ≤ a → t.mem.get a = s.mem.get a)
            ∧ (s.flashAnswer.outcome = .lostBefore ∨ s.flashAnswer.outcome = .lostDuring →
                ∃ t, exec .flEraseSector s = .next t ∧ t.AtReset ∧ t.par = s.par
                  ∧ ∀ a, s.par.flashBase ≤ a → a < s.par.flashEnd →
                      a < lo ∨ lo + s.par.sector ≤ a → t.mem.get a = s.mem.get a))

/-! ### The boot unit -/

/-- CFG_READ (45_config.md R300) and the validity of a record (R301), under both topologies. -/
def Obligations.CfgReadCommand : Prop :=
  ∀ s : State, s.AcceptsWrite →
    (∀ c, s.par.topology = .ab → c = deserializeAb (s.mem.read s.par.cfgAddr 32) →
        (c.magic = s.par.cfgMagic ∧ c.active.toNat ≤ 1 ∧ c.updating.toNat ≤ 1
            ∧ c.bootCount.toNat ≤ s.par.maxBootAttempts ∧ c.updateReq.toNat ≤ 1
            ∧ c.sizeA.toNat ≤ s.par.regionSize ∧ c.sizeB.toNat ≤ s.par.regionSize →
          exec .cfgRead s = .next { s with cacheAb := some c, cfgValid := true, cfgDirty := false,
                                           res0 := 1, result := 0 })
          ∧ (¬ (c.magic = s.par.cfgMagic ∧ c.active.toNat ≤ 1 ∧ c.updating.toNat ≤ 1
              ∧ c.bootCount.toNat ≤ s.par.maxBootAttempts ∧ c.updateReq.toNat ≤ 1
              ∧ c.sizeA.toNat ≤ s.par.regionSize ∧ c.sizeB.toNat ≤ s.par.regionSize) →
            exec .cfgRead s = .next { s with cacheAb := some c, cfgValid := false, cfgDirty := false,
                                             res0 := 0, result := 0 }))
      ∧ (∀ c, s.par.topology = .sr → c = deserializeSr (s.mem.read s.par.cfgAddr 16) →
        (c.magic = s.par.cfgMagic ∧ c.runSize.toNat ≤ s.par.regionSize →
          exec .cfgRead s = .next { s with cacheSr := some c, cfgValid := true, cfgDirty := false,
                                           res0 := 1, result := 0 })
          ∧ (¬ (c.magic = s.par.cfgMagic ∧ c.runSize.toNat ≤ s.par.regionSize) →
            exec .cfgRead s = .next { s with cacheSr := some c, cfgValid := false, cfgDirty := false,
                                             res0 := 0, result := 0 }))

/-- CFG_WRITE when no flash call fails (45_config.md R303, 30_encoding.md R163): the record is in the config
sector, with 0xFF in its other bytes; and a CFG_READ after it gives back exactly the cache, valid (R162,
R320 e). -/
def Obligations.CfgWriteReadsBack : Prop :=
  ∀ s : State, s.Inv → s.AcceptsWrite → s.cfgValid = true → s.flashOk = true →
    (∀ c, s.par.topology = .ab → s.cacheAb = some c → ∃ t, exec .cfgWrite s = .next t
        ∧ PersistedAb 1 s t c ∧ t.res0 = s.res0 ∧ t.res1 = s.res1 ∧ t.result = 0
        ∧ exec .cfgRead t = .next { t with res0 := 1, result := 0 })
      ∧ (∀ c, s.par.topology = .sr → s.cacheSr = some c → ∃ t, exec .cfgWrite s = .next t
        ∧ PersistedSr 1 s t c ∧ t.res0 = s.res0 ∧ t.res1 = s.res1 ∧ t.result = 0
        ∧ exec .cfgRead t = .next { t with res0 := 1, result := 0 })

/-- CFG_WRITE whose erase fails (45_config.md R303): E_FLASH, `cfg_dirty` = 1, the cache as it was, one call,
and no byte outside the config sector changed. -/
def Obligations.CfgWriteEraseFails : Prop :=
  ∀ s : State, s.Inv → s.AcceptsWrite → s.cfgValid = true → s.flashAnswer.outcome = .fail →
    ∃ t, exec .cfgWrite s = .next t
      ∧ t = { s with mem := t.mem, env := t.env, cfgDirty := true, result := 0xFFFFFFEB }
      ∧ FlashCalls s.env t.env 1 0
      ∧ ∀ a, a < s.par.cfgAddr ∨ s.par.cfgAddr + s.par.sector ≤ a → t.mem.get a = s.mem.get a

/-- CFG_INIT when no flash call fails (45_config.md R302, R304): the defaults, persisted; with the factory probe
on, a plausible stack pointer and reset vector in the probe region record the image that ends at the last byte
that is not 0xFF. -/
def Obligations.CfgInitCommand : Prop :=
  ∀ (s : State) (b : Nat), s.Inv → s.AcceptsWrite → s.flashOk = true →
    b = (if s.par.topology = .ab then s.par.aBase else s.par.runBase) →
    (∀ c, s.par.topology = .ab →
        c = { magic := s.par.cfgMagic, active := 0, updating := 0, bootCount := 0, updateReq := 0,
              sizeA := 0, crcA := 0, sizeB := 0, crcB := 0 } →
        (s.par.probeFactory = false ∨ ¬ (s.par.ramBase < (s.mem.word b).toNat
              ∧ (s.mem.word b).toNat ≤ s.par.ramEnd ∧ b ≤ (s.mem.word (b + 4)).toNat
              ∧ (s.mem.word (b + 4)).toNat < b + s.par.regionSize) →
            ∃ t, exec .cfgInit s = .next t ∧ PersistedAb 1 { s with cfgValid := true } t c
              ∧ t.res0 = s.res0 ∧ t.res1 = s.res1 ∧ t.result = 0)
          ∧ ∀ o, s.par.probeFactory = true → s.par.ramBase < (s.mem.word b).toNat →
            (s.mem.word b).toNat ≤ s.par.ramEnd → b ≤ (s.mem.word (b + 4)).toNat →
            (s.mem.word (b + 4)).toNat < b + s.par.regionSize →
            o < s.par.regionSize → s.mem.get (b + o) ≠ 0xFF →
            (∀ q, o < q → q < s.par.regionSize → s.mem.get (b + q) = 0xFF) →
            ∃ t, exec .cfgInit s = .next t
              ∧ PersistedAb 1 { s with cfgValid := true } t
                  { c with sizeA := BitVec.ofNat 32 (o + 1), crcA := crc32 (s.mem.read b (o + 1)) }
              ∧ t.res0 = s.res0 ∧ t.res1 = s.res1 ∧ t.result = 0)
      ∧ (∀ c, s.par.topology = .sr →
        c = { magic := s.par.cfgMagic, pageCount := 0, runSize := 0, runCrc := 0 } →
        (s.par.probeFactory = false ∨ ¬ (s.par.ramBase < (s.mem.word b).toNat
              ∧ (s.mem.word b).toNat ≤ s.par.ramEnd ∧ b ≤ (s.mem.word (b + 4)).toNat
              ∧ (s.mem.word (b + 4)).toNat < b + s.par.regionSize) →
            ∃ t, exec .cfgInit s = .next t ∧ PersistedSr 1 { s with cfgValid := true } t c
              ∧ t.res0 = s.res0 ∧ t.res1 = s.res1 ∧ t.result = 0)
          ∧ ∀ o, s.par.probeFactory = true → s.par.ramBase < (s.mem.word b).toNat →
            (s.mem.word b).toNat ≤ s.par.ramEnd → b ≤ (s.mem.word (b + 4)).toNat →
            (s.mem.word (b + 4)).toNat < b + s.par.regionSize →
            o < s.par.regionSize → s.mem.get (b + o) ≠ 0xFF →
            (∀ q, o < q → q < s.par.regionSize → s.mem.get (b + q) = 0xFF) →
            ∃ t, exec .cfgInit s = .next t
              ∧ PersistedSr 1 { s with cfgValid := true } t
                  { c with runSize := BitVec.ofNat 32 (o + 1), runCrc := crc32 (s.mem.read b (o + 1)) }
              ∧ t.res0 = s.res0 ∧ t.res1 = s.res1 ∧ t.result = 0)

/-- IMG_CRC (45_config.md R305): a rejected size gives 0 and success, whatever the base. -/
def Obligations.ImgCrcCommand : Prop :=
  ∀ s : State, s.AcceptsPure →
    (s.arg1.toNat = 0 ∨ s.par.regionSize < s.arg1.toNat →
        exec .imgCrc s = .next { s with res0 := 0, result := 0 })
      ∧ (0 < s.arg1.toNat → s.arg1.toNat ≤ s.par.regionSize →
          (SpanReadable s.par s.arg0.toNat s.arg1.toNat →
              exec .imgCrc s
                = .next { s with res0 := crc32 (s.mem.read s.arg0.toNat s.arg1.toNat), result := 0 })
            ∧ (¬ SpanReadable s.par s.arg0.toNat s.arg1.toNat →
                exec .imgCrc s = .next { s with result := 0xFFFFFFEE }))

/-- IMG_VERIFY (45_config.md R306, R307): the bit it returns, and its two refusals. -/
def Obligations.ImgVerifyCommand : Prop :=
  ∀ (s : State) (r : Role), s.AcceptsPure →
    (s.par.topology = .ab → r = .staging ∨ r = .run →
        exec (.imgVerify r) s = .next { s with result := 0xFFFFFFE5 })
      ∧ (s.par.topology = .sr → r = .a ∨ r = .b →
          exec (.imgVerify r) s = .next { s with result := 0xFFFFFFE5 })
      ∧ (s.par.topology = .ab → r = .a ∨ r = .b →
          (s.cfgValid = false → exec (.imgVerify r) s = .next { s with result := 0xFFFFFFE8 })
            ∧ ∀ c, s.cfgValid = true → s.cacheAb = some c →
              exec (.imgVerify r) s
                = .next { s with res0 := if RoleGood s.par s.mem c r then 1 else 0, result := 0 })
      ∧ (s.par.topology = .sr → r = .staging ∨ r = .run →
          (s.cfgValid = false → exec (.imgVerify r) s = .next { s with result := 0xFFFFFFE8 })
            ∧ ∀ c, s.cfgValid = true → s.cacheSr = some c →
              exec (.imgVerify r) s
                = .next { s with res0 := if r = .run ∧ ImageGood s.par s.mem s.par.runBase c.runSize c.runCrc
                                   then 1 else 0,
                                 result := 0 })

/-- BOOT_SELECT when no flash call fails (45_config.md R308 to R310): under AB the record after crash recovery
and failover decides; the active image first, then the other; each choice counts a boot attempt; where neither
verifies, NONE. Under SR the run image or NONE, with no record change. -/
def Obligations.BootSelectCommand : Prop :=
  ∀ s : State, s.Inv → s.AcceptsWrite → s.cfgValid = true → s.flashOk = true →
    (∀ (c d : AbRecord) (n : Nat) (first second : Role), s.par.topology = .ab → s.cacheAb = some c →
        d = failedOver s.par (recovered c) → n = earlyPersists s.par c →
        first = activeRole d.active → second = otherRole first →
        (RoleGood s.par s.mem d first → ∃ t, exec .bootSelect s = .next t
            ∧ PersistedAb (n + 1) s t { d with bootCount := d.bootCount + 1 }
            ∧ t.res0 = BitVec.ofNat 32 (regionBase s.par first) ∧ t.res1 = roleWord first ∧ t.result = 0)
          ∧ (¬ RoleGood s.par s.mem d first → RoleGood s.par s.mem d second → ∃ t, exec .bootSelect s = .next t
            ∧ PersistedAb (n + 1) s t { d with active := activeByte second, bootCount := d.bootCount + 1 }
            ∧ t.res0 = BitVec.ofNat 32 (regionBase s.par second) ∧ t.res1 = roleWord second ∧ t.result = 0)
          ∧ (¬ RoleGood s.par s.mem d first → ¬ RoleGood s.par s.mem d second →
            ∃ t, exec .bootSelect s = .next t ∧ t.res0 = 0xFFFFFFFF ∧ t.res1 = 0xFFFFFFFF ∧ t.result = 0
              ∧ (0 < n → PersistedAb n s t d)
              ∧ (n = 0 → t = { s with res0 := 0xFFFFFFFF, res1 := 0xFFFFFFFF, result := 0 })))
      ∧ (∀ c, s.par.topology = .sr → s.cacheSr = some c →
        (ImageGood s.par s.mem s.par.runBase c.runSize c.runCrc →
            exec .bootSelect s
              = .next { s with res0 := BitVec.ofNat 32 s.par.runBase, res1 := 3, result := 0 })
          ∧ (¬ ImageGood s.par s.mem s.par.runBase c.runSize c.runCrc →
            exec .bootSelect s
              = .next { s with res0 := 0xFFFFFFFF, res1 := 0xFFFFFFFF, result := 0 }))

/-- UPD_TARGET (45_config.md R311), for a valid record. -/
def Obligations.UpdTargetCommand : Prop :=
  ∀ s : State, s.Inv → s.AcceptsPure →
    (s.cfgValid = false → exec .updTarget s = .next { s with result := 0xFFFFFFE8 })
      ∧ (∀ c, s.cfgValid = true → s.par.topology = .ab → s.cacheAb = some c →
          exec .updTarget s = .next { s with res0 := if c.active = 0 then 1 else 0, result := 0 })
      ∧ (s.cfgValid = true → s.par.topology = .sr →
          exec .updTarget s = .next { s with res0 := 2, result := 0 })

/-- UPD_START and UPD_FAILED when no flash call fails (45_config.md R312, R315): the one change each makes to
the record, persisted; UPD_START refuses a role that is not the update target. -/
def Obligations.UpdStartAndFailed : Prop :=
  ∀ (s : State) (r : Role), s.Inv → s.AcceptsWrite → s.cfgValid = true →
    (s.target ≠ some r → exec (.updStart r) s = .next { s with result := 0xFFFFFFE5 })
      ∧ (s.flashOk = true →
        (∀ c, s.par.topology = .ab → s.cacheAb = some c →
            (s.target = some r → ∃ t, exec (.updStart r) s = .next t
                ∧ PersistedAb 1 s t { c with updating := 1, updateReq := 0 }
                ∧ t.res0 = s.res0 ∧ t.res1 = s.res1 ∧ t.result = 0)
              ∧ ∃ t, exec .updFailed s = .next t ∧ PersistedAb 1 s t { c with updating := 0 }
                ∧ t.res0 = s.res0 ∧ t.res1 = s.res1 ∧ t.result = 0)
          ∧ (∀ c, s.par.topology = .sr → s.cacheSr = some c →
            (s.target = some r → ∃ t, exec (.updStart r) s = .next t
                ∧ PersistedSr 1 s t { c with pageCount := 1 }
                ∧ t.res0 = s.res0 ∧ t.res1 = s.res1 ∧ t.result = 0)
              ∧ ∃ t, exec .updFailed s = .next t ∧ PersistedSr 1 s t { c with pageCount := 0 }
                ∧ t.res0 = s.res0 ∧ t.res1 = s.res1 ∧ t.result = 0))

/-- UPD_COMPLETE under AB (45_config.md R313): its refusals, and the record it persists when no flash call
fails. -/
def Obligations.UpdCompleteAb : Prop :=
  ∀ (s : State) (r : Role) (c : AbRecord), s.Inv → s.AcceptsWrite → s.par.topology = .ab →
    s.cacheAb = some c → s.cfgValid = true →
    (s.target ≠ some r ∨ s.arg0 = 0 ∨ s.par.regionSize < s.arg0.toNat →
        exec (.updComplete r) s = .next { s with result := 0xFFFFFFE5 })
      ∧ (s.target = some r → s.arg0 ≠ 0 → s.arg0.toNat ≤ s.par.regionSize → s.flashOk = true →
          ∃ t, exec (.updComplete r) s = .next t
            ∧ PersistedAb 1 s t { c.setImage r s.arg0 s.arg1 with
                active := activeByte r, updating := 0, bootCount := 0 }
            ∧ t.res0 = s.res0 ∧ t.res1 = s.res1 ∧ t.result = 0)

/-- UPD_COMPLETE under SR (45_config.md R313, R314): a role other than STAGING, a size of 0 and a size above
REGION_SIZE are refused, whatever `cfg_valid` is; else, when no flash call fails, the staging image is copied to
the run region, and where its CRC matches the record takes it, else E_COPY and the old run record stays. -/
def Obligations.UpdCompleteSr : Prop :=
  ∀ (s : State) (c : SrRecord) (n : Nat), s.Inv → s.AcceptsWrite → s.par.topology = .sr →
    s.cacheSr = some c → n = s.arg0.toNat →
    (∀ r : Role, r ≠ .staging ∨ n = 0 ∨ s.par.regionSize < n →
        exec (.updComplete r) s = .next { s with result := 0xFFFFFFE5 })
      ∧ (s.cfgValid = true → s.flashOk = true → 0 < n → n ≤ s.par.regionSize →
        ∃ (t : State) (copied : Memory), exec (.updComplete .staging) s = .next t
          ∧ t = { s with mem := t.mem, scratch := t.scratch, env := t.env, cacheSr := t.cacheSr,
                         cfgDirty := false, result := t.result }
          ∧ OnlyFlashCalls s.env t.env
          ∧ StoredAt s.mem copied s.par.runBase (s.mem.read s.par.stagingBase (2 * ((n + 1) / 2)))
          ∧ (crc32 (s.mem.read s.par.stagingBase n) = s.arg1 → t.result = 0
              ∧ t.cacheSr = some { c with runSize := s.arg0, runCrc := s.arg1, pageCount := 0 }
              ∧ RecordStored s.par copied t.mem
                  (serializeSr { c with runSize := s.arg0, runCrc := s.arg1, pageCount := 0 }))
          ∧ (crc32 (s.mem.read s.par.stagingBase n) ≠ s.arg1 → t.result = 0xFFFFFFF8
              ∧ t.cacheSr = some { c with pageCount := 0 }
              ∧ RecordStored s.par copied t.mem (serializeSr { c with pageCount := 0 })))

/-- BOOT_CONFIRM (45_config.md R316): the record is reloaded; an invalid one is refused; a count that is 0
already makes no flash call; else it is cleared and persisted. -/
def Obligations.BootConfirmCommand : Prop :=
  ∀ s : State, s.Inv → s.AcceptsApp →
    (∀ c, s.par.topology = .ab → c = deserializeAb (s.mem.read s.par.cfgAddr 32) →
        (validAb s.par c = false →
            exec .bootConfirm s = .next { s with cacheAb := some c, cfgValid := false, cfgDirty := false,
                                                 result := 0xFFFFFFE8 })
          ∧ (validAb s.par c = true → c.bootCount = 0 →
            exec .bootConfirm s = .next { s with cacheAb := some c, cfgValid := true, cfgDirty := false,
                                                 result := 0 })
          ∧ (validAb s.par c = true → c.bootCount ≠ 0 → s.flashOk = true → ∃ t, exec .bootConfirm s = .next t
            ∧ PersistedAb 1 { s with cfgValid := true } t { c with bootCount := 0 }
            ∧ t.res0 = s.res0 ∧ t.res1 = s.res1 ∧ t.result = 0))
      ∧ (∀ c, s.par.topology = .sr → c = deserializeSr (s.mem.read s.par.cfgAddr 16) →
        (validSr s.par c = false →
            exec .bootConfirm s = .next { s with cacheSr := some c, cfgValid := false, cfgDirty := false,
                                                 result := 0xFFFFFFE8 })
          ∧ (validSr s.par c = true →
            exec .bootConfirm s = .next { s with cacheSr := some c, cfgValid := true, cfgDirty := false,
                                                 result := 0 }))

/-- REQUEST_UPDATE (45_config.md R317): the record is reloaded; an invalid one is refused; else the request is
persisted, when no flash call fails. -/
def Obligations.RequestUpdateCommand : Prop :=
  ∀ s : State, s.Inv → s.AcceptsApp →
    (∀ c, s.par.topology = .ab → c = deserializeAb (s.mem.read s.par.cfgAddr 32) →
        (validAb s.par c = false →
            exec .requestUpdate s = .next { s with cacheAb := some c, cfgValid := false, cfgDirty := false,
                                                   result := 0xFFFFFFE8 })
          ∧ (validAb s.par c = true → s.flashOk = true → ∃ t, exec .requestUpdate s = .next t
            ∧ PersistedAb 1 { s with cfgValid := true } t { c with updateReq := 1 }
            ∧ t.res0 = s.res0 ∧ t.res1 = s.res1 ∧ t.result = 0))
      ∧ (∀ c, s.par.topology = .sr → c = deserializeSr (s.mem.read s.par.cfgAddr 16) →
        (validSr s.par c = false →
            exec .requestUpdate s = .next { s with cacheSr := some c, cfgValid := false, cfgDirty := false,
                                                   result := 0xFFFFFFE8 })
          ∧ (validSr s.par c = true → s.flashOk = true → ∃ t, exec .requestUpdate s = .next t
            ∧ PersistedSr 1 { s with cfgValid := true } t { c with pageCount := 1 }
            ∧ t.res0 = s.res0 ∧ t.res1 = s.res1 ∧ t.result = 0))

/-- CFG_GET (45_config.md R318, 30_encoding.md R160 to R162): the cached record's bytes at ARG0. -/
def Obligations.CfgGetCommand : Prop :=
  ∀ s : State, s.AcceptsPure → Memory.Wf s.mem →
    (¬ SpanWritable s.par s.arg0.toNat s.par.recSize →
        exec .cfgGet s = .next { s with result := 0xFFFFFFEE })
      ∧ (SpanWritable s.par s.arg0.toNat s.par.recSize →
        (∀ c, s.par.topology = .ab → s.cacheAb = some c → ∃ t, exec .cfgGet s = .next t
            ∧ t = { s with mem := t.mem, res0 := 32, res1 := if s.cfgValid then 1 else 0, result := 0 }
            ∧ StoredAt s.mem t.mem s.arg0.toNat
                (le32 c.magic ++ [c.active, c.updating, c.bootCount, c.updateReq] ++ le32 c.sizeA
                  ++ le32 c.crcA ++ le32 c.sizeB ++ le32 c.crcB ++ List.replicate 8 0xFF))
          ∧ (∀ c, s.par.topology = .sr → s.cacheSr = some c → ∃ t, exec .cfgGet s = .next t
            ∧ t = { s with mem := t.mem, res0 := 16, res1 := if s.cfgValid then 1 else 0, result := 0 }
            ∧ StoredAt s.mem t.mem s.arg0.toNat
                (le32 c.magic ++ le32 c.pageCount ++ le32 c.runSize ++ le32 c.runCrc)))

/-- The transitions that need a valid record refuse with E_CFGINVALID where `cfg_valid = 0`, and change nothing
else (45_config.md R300, 46_dispatch.md R352, R355, R356). For UPD_COMPLETE the role must be the update target,
which is the model's choice where the cached `active` byte is neither 0 nor 1 (log 16). -/
def Obligations.NeedsValidRecord : Prop :=
  ∀ (s : State) (i : Instr), s.Inv → s.AcceptsWrite → s.cfgValid = false →
    i ∈ ([.cfgWrite, .bootSelect, .updTarget, .updFailed, .runApp, .startUpdate, .erase] : List Instr)
      ∨ (∃ r, i = .updStart r ∧ hasRole s.par r = true)
      ∨ (∃ r, i = .imgVerify r ∧ hasRole s.par r = true)
      ∨ (∃ r, i = .updComplete r ∧ s.target = some r ∧ s.arg0 ≠ 0 ∧ s.arg0.toNat ≤ s.par.regionSize) →
    exec i s = .next { s with result := 0xFFFFFFE8 }

/-! ### The dispatcher -/

/-- RUN_APP when no flash call fails (46_dispatch.md R355, R357): under AB the record after crash recovery and
failover decides; the active image that verifies, else the other one, is handed off to after its boot attempt is
counted; where neither verifies, E_NOIMAGE. Under SR the run image or E_NOIMAGE, with no record change. -/
def Obligations.RunAppCommand : Prop :=
  ∀ s : State, s.Inv → s.AcceptsWrite → s.cfgValid = true → s.flashOk = true →
    (∀ (c d : AbRecord) (n : Nat) (first second : Role), s.par.topology = .ab → s.cacheAb = some c →
        d = failedOver s.par (recovered c) → n = earlyPersists s.par c →
        first = activeRole d.active → second = otherRole first →
        (RoleGood s.par s.mem d first → ∃ u,
            exec .runApp s = .next { handedOffAt u (regionBase s.par first) with result := 0 }
              ∧ PersistedAb (n + 1) s u { d with bootCount := d.bootCount + 1 }
              ∧ u.res0 = s.res0 ∧ u.res1 = s.res1)
          ∧ (¬ RoleGood s.par s.mem d first → RoleGood s.par s.mem d second → ∃ u,
            exec .runApp s = .next { handedOffAt u (regionBase s.par second) with result := 0 }
              ∧ PersistedAb (n + 1) s u { d with active := activeByte second, bootCount := d.bootCount + 1 }
              ∧ u.res0 = s.res0 ∧ u.res1 = s.res1)
          ∧ (¬ RoleGood s.par s.mem d first → ¬ RoleGood s.par s.mem d second → ∃ u,
            exec .runApp s
                = .next { u with res0 := 0xFFFFFFFF, res1 := 0xFFFFFFFF, result := 0xFFFFFFF7 }
              ∧ (0 < n → PersistedAb n s u d) ∧ (n = 0 → u = s)))
      ∧ (∀ c, s.par.topology = .sr → s.cacheSr = some c →
        (ImageGood s.par s.mem s.par.runBase c.runSize c.runCrc →
            exec .runApp s = .next { handedOffAt s s.par.runBase with result := 0 })
          ∧ (¬ ImageGood s.par s.mem s.par.runBase c.runSize c.runCrc →
            exec .runApp s
              = .next { s with res0 := 0xFFFFFFFF, res1 := 0xFFFFFFFF, result := 0xFFFFFFF7 }))

/-- START_UPDATE when no flash call fails (46_dispatch.md R351, R352): the record is marked before the target is
erased; then the session opens over the target, or, where the channel cannot be armed, the mark is taken back
and the flow ends with E_RXSTART. -/
def Obligations.StartUpdateCommand : Prop :=
  ∀ (s : State) (r : Role), s.Inv → s.AcceptsWrite → s.cfgValid = true → s.flashOk = true →
    s.target = some r →
    (∀ c, s.par.topology = .ab → s.cacheAb = some c →
        (s.armAnswer = true → ∃ u v : State, exec .startUpdate s = .next { sessionOpened
              { v with flowTarget := some r } (BitVec.ofNat 32 (regionBase s.par r))
              (BitVec.ofNat 32 (regionBase s.par r + s.par.regionSize)) .flow .noImage with result := 0 }
            ∧ PersistedAb 1 s u { c with updating := 1, updateReq := 0 } ∧ u.res0 = s.res0
            ∧ u.res1 = s.res1 ∧ v = { u with mem := v.mem, env := v.env }
            ∧ FlashCalls u.env v.env (s.par.regionSize / s.par.sector) 0
            ∧ ErasedAt u.mem v.mem (regionBase s.par r) s.par.regionSize)
          ∧ (s.armAnswer = false → ∃ t, exec .startUpdate s = .next t
            ∧ t.result = 0xFFFFFFFE ∧ t.lastUpdate = 0xFFFFFFFE ∧ t.dstate = .noImage
            ∧ t.cacheAb = some { c with updating := 0, updateReq := 0 } ∧ t.cfgDirty = false
            ∧ ∃ m, ErasedAt s.mem m (regionBase s.par r) s.par.regionSize
                ∧ RecordStored s.par m t.mem (serializeAb { c with updating := 0, updateReq := 0 })))
      ∧ (∀ c, s.par.topology = .sr → s.cacheSr = some c →
        (s.armAnswer = true → ∃ u v : State, exec .startUpdate s = .next { sessionOpened
              { v with flowTarget := some r } (BitVec.ofNat 32 (regionBase s.par r))
              (BitVec.ofNat 32 (regionBase s.par r + s.par.regionSize)) .flow .noImage with result := 0 }
            ∧ PersistedSr 1 s u { c with pageCount := 1 } ∧ u.res0 = s.res0 ∧ u.res1 = s.res1
            ∧ v = { u with mem := v.mem, env := v.env }
            ∧ FlashCalls u.env v.env (s.par.regionSize / s.par.sector) 0
            ∧ ErasedAt u.mem v.mem (regionBase s.par r) s.par.regionSize)
          ∧ (s.armAnswer = false → ∃ t, exec .startUpdate s = .next t
            ∧ t.result = 0xFFFFFFFE ∧ t.lastUpdate = 0xFFFFFFFE ∧ t.dstate = .noImage
            ∧ t.cacheSr = some { c with pageCount := 0 } ∧ t.cfgDirty = false
            ∧ ∃ m, ErasedAt s.mem m (regionBase s.par r) s.par.regionSize
                ∧ RecordStored s.par m t.mem (serializeSr { c with pageCount := 0 })))

/-- ERASE (46_dispatch.md R356, 44_flash.md R280): when no flash call fails the update target is erased, one
erase a sector, and nothing else changes; where the first erase fails, E_ERASE. -/
def Obligations.EraseCommand : Prop :=
  ∀ (s : State) (r : Role), s.Inv → s.AcceptsWrite → s.cfgValid = true → s.target = some r →
    (s.flashOk = true → ∃ t, exec .erase s = .next t
        ∧ t = { s with mem := t.mem, env := t.env, result := 0 }
        ∧ FlashCalls s.env t.env (s.par.regionSize / s.par.sector) 0
        ∧ ErasedAt s.mem t.mem (regionBase s.par r) s.par.regionSize)
      ∧ (s.flashAnswer.outcome = .fail → ∃ t, exec .erase s = .next t
        ∧ t = { s with mem := t.mem, env := t.env, result := 0xFFFFFFFF }
        ∧ FlashCalls s.env t.env 1 0
        ∧ ∀ a, a < regionBase s.par r ∨ regionBase s.par r + s.par.sector ≤ a → t.mem.get a = s.mem.get a)

/-- The dispatcher's CHECK and JUMP steps for a valid record that asks for no update (46_dispatch.md R350, R354).
CHECK, where an image verifies, goes on to JUMP with no flash call, or, under AB with `updating` = 1, after crash
recovery. JUMP selects as BOOT_SELECT does (45_config.md R309, R310): after recovery and failover the active image
that verifies, else the other one, is handed off to and the attempt counted; where none verifies, NOIMAGE. Flash
calls do not fail. -/
def Obligations.CheckAndJumpSteps : Prop :=
  ∀ s : State, s.Inv → s.flashOk = true →
    (∀ c d : AbRecord, s.par.topology = .ab → s.dstate = .check →
        c = deserializeAb (s.mem.read s.par.cfgAddr 32) → validAb s.par c = true → c.updateReq = 0 →
        d = recovered c → RoleGood s.par s.mem d .a ∨ RoleGood s.par s.mem d .b →
        (c.updating = 0 → foregroundStep s
            = .next { s with cacheAb := some c, cfgValid := true, cfgDirty := false, dstate := .jump })
          ∧ (c.updating = 1 → ∃ u, foregroundStep s = .next { u with dstate := .jump }
            ∧ PersistedAb 1 { s with cfgValid := true } u d
            ∧ u.res0 = s.res0 ∧ u.res1 = s.res1 ∧ u.result = s.result))
      ∧ (∀ c : SrRecord, s.par.topology = .sr → s.dstate = .check →
        c = deserializeSr (s.mem.read s.par.cfgAddr 16) → validSr s.par c = true → c.pageCount = 0 →
        ImageGood s.par s.mem s.par.runBase c.runSize c.runCrc →
        foregroundStep s
          = .next { s with cacheSr := some c, cfgValid := true, cfgDirty := false, dstate := .jump })
      ∧ (∀ (c d : AbRecord) (n : Nat) (first second : Role), s.par.topology = .ab → s.dstate = .jump →
        s.cacheAb = some c → d = failedOver s.par (recovered c) → n = earlyPersists s.par c →
        first = activeRole d.active → second = otherRole first →
        (RoleGood s.par s.mem d first → ∃ u,
            foregroundStep s = .next (handedOffAt u (regionBase s.par first))
              ∧ PersistedAb (n + 1) s u { d with bootCount := d.bootCount + 1 }
              ∧ u.res0 = s.res0 ∧ u.res1 = s.res1 ∧ u.result = s.result)
          ∧ (¬ RoleGood s.par s.mem d first → RoleGood s.par s.mem d second → ∃ u,
            foregroundStep s = .next (handedOffAt u (regionBase s.par second))
              ∧ PersistedAb (n + 1) s u { d with active := activeByte second, bootCount := d.bootCount + 1 }
              ∧ u.res0 = s.res0 ∧ u.res1 = s.res1 ∧ u.result = s.result)
          ∧ (¬ RoleGood s.par s.mem d first → ¬ RoleGood s.par s.mem d second → ∃ u,
            foregroundStep s = .next { u with dstate := .noImage }
              ∧ (0 < n → PersistedAb n s u d) ∧ (n = 0 → u = s)
              ∧ u.res0 = s.res0 ∧ u.res1 = s.res1 ∧ u.result = s.result))
      ∧ (∀ c : SrRecord, s.par.topology = .sr → s.dstate = .jump → s.cacheSr = some c →
        (ImageGood s.par s.mem s.par.runBase c.runSize c.runCrc →
            foregroundStep s = .next (handedOffAt s s.par.runBase))
          ∧ (¬ ImageGood s.par s.mem s.par.runBase c.runSize c.runCrc →
            foregroundStep s = .next { s with dstate := .noImage }))

/-- The first boot under AB (70_reset_and_hazards.md R412): no valid record, the probe off, no flash call fails
and the channel arms: CHECK writes the defaults, erases B and opens a flow session over it. -/
def Obligations.FirstBootOpensAnUpdate : Prop :=
  ∀ s : State, s.Inv → s.dstate = .check → s.par.topology = .ab → s.par.probeFactory = false →
    validAb s.par (deserializeAb (s.mem.read s.par.cfgAddr 32)) = false →
    s.flashOk = true → s.armAnswer = true →
    ∃ t, foregroundStep s = .next t ∧ t.dstate = .update ∧ t.sessKind = some .flow
      ∧ t.retState = some .jump ∧ t.flowTarget = some .b ∧ t.cfgValid = true ∧ t.cfgDirty = false
      ∧ t.sess.active = true ∧ t.sess.base.toNat = s.par.bBase
      ∧ t.sess.limit.toNat = s.par.bBase + s.par.regionSize ∧ t.sess.written = 0
      ∧ t.cacheAb = some { magic := s.par.cfgMagic, active := 0, updating := 1, bootCount := 0,
                           updateReq := 0, sizeA := 0, crcA := 0, sizeB := 0, crcB := 0 }
      ∧ t.env.eraseCalls = s.env.eraseCalls + 2 + s.par.regionSize / s.par.sector
      ∧ ∃ m, RecordStored s.par s.mem m
            (serializeAb { magic := s.par.cfgMagic, active := 0, updating := 1, bootCount := 0,
                           updateReq := 0, sizeA := 0, crcA := 0, sizeB := 0, crcB := 0 })
          ∧ ErasedAt m t.mem s.par.bBase s.par.regionSize

/-- The end of an update flow (46_dispatch.md R353). After the end marker, when no flash call fails: under AB the
record names the target active with the size received and the CRC read back from flash; under SR the staging image
is copied to the run region and the record takes that size and CRC (45_config.md R314). After a timeout the record
only stops saying that an update goes on. -/
def Obligations.UpdateFlowEnds : Prop :=
  ∀ (s : State) (r : Role) (ret : RetState), s.Inv → s.dstate = .update → s.sessKind = some .flow →
    s.flowTarget = some r → s.retState = some ret → s.flashOk = true →
    (s.MarkerReady → s.DataSeen → (s.sess.pendValid = true → s.sess.cursor.toNat + 2 ≤ s.sess.limit.toNat) →
        ∃ (t : State) (m : Memory) (size crc : Word), foregroundStep s = .next t
          ∧ StoredAt s.mem m s.sess.cursor.toNat
              (if s.sess.pendValid then [s.sess.pendByte, 0xFF] else [])
          ∧ size = s.sess.written + (if s.sess.pendValid then 1 else 0)
          ∧ crc = crc32 (m.read s.sess.base.toNat size.toNat)
          ∧ (∀ c, s.par.topology = .ab → s.cacheAb = some c →
              t.cacheAb = some { c.setImage r size crc with
                  active := activeByte r, updating := 0, bootCount := 0 }
                ∧ RecordStored s.par m t.mem (serializeAb { c.setImage r size crc with
                    active := activeByte r, updating := 0, bootCount := 0 }))
          ∧ (∀ c, s.par.topology = .sr → s.cacheSr = some c →
              t.cacheSr = some { c with runSize := size, runCrc := crc, pageCount := 0 }
                ∧ ∃ copied, StoredAt m copied s.par.runBase
                      (m.read s.par.stagingBase (2 * ((size.toNat + 1) / 2)))
                    ∧ RecordStored s.par copied t.mem
                        (serializeSr { c with runSize := size, runCrc := crc, pageCount := 0 }))
          ∧ t.cfgDirty = false ∧ t.lastUpdate = 0 ∧ t.dstate = ret.dstate ∧ t.sess.active = false
          ∧ t.sess.written = size ∧ t.rx.armed = false ∧ t.rx.ready = false)
      ∧ (s.rx.ready = false → ¬ s.IdleEnds → s.TimedOut → ∃ t, foregroundStep s = .next t
          ∧ (∀ c, s.par.topology = .ab → s.cacheAb = some c →
              t.cacheAb = some { c with updating := 0 }
                ∧ RecordStored s.par s.mem t.mem (serializeAb { c with updating := 0 }))
          ∧ (∀ c, s.par.topology = .sr → s.cacheSr = some c →
              t.cacheSr = some { c with pageCount := 0 }
                ∧ RecordStored s.par s.mem t.mem (serializeSr { c with pageCount := 0 }))
          ∧ t.lastUpdate = (if s.DataSeen then 0xFFFFFFFC else 0xFFFFFFFD) ∧ t.dstate = ret.dstate
          ∧ t.sess.active = false ∧ t.sess.written = s.sess.written)

/-- `fatal_in` (46_dispatch.md R360, 60_exceptions.md R392): FAULT from any state, with the channel and the
session stopped and nothing else written; in FAULT it changes nothing. -/
def Obligations.FatalSignalEntersFault : Prop :=
  ∀ s : State,
    (s.dstate ≠ .fault → takeInput .fatalIn s
        = .next { s with rx := { s.rx with armed := false, ready := false, line := [] },
                         sess := { s.sess with active := false }, dstate := .fault })
      ∧ (s.dstate = .fault → takeInput .fatalIn s = .next s)

/-- The receive channel (60_exceptions.md R384): a delivery hands over the next `m` bytes and disarms the
channel where it is enabled, and does nothing where it is not (log 26); bytes sent while the channel is not armed
are lost. That a delivery also drops what was sent beyond it is the model's choice (log 13). -/
def Obligations.ChunkDelivery : Prop :=
  ∀ (s : State) (m : Nat) (l : List Byte),
    (s.rx.armed = true → s.rx.ready = false → s.irqMasked = false → 1 ≤ m → m ≤ s.par.rxCap →
        m ≤ s.rx.line.length →
        takeInput (.deliver m) s
          = .next { s with rx := { armed := false, ready := true, buf := s.rx.line.take m, line := [] } })
      ∧ (s.rx.armed = false ∨ s.rx.ready = true ∨ s.irqMasked = true ∨ m = 0 ∨ s.par.rxCap < m
          ∨ s.rx.line.length < m → takeInput (.deliver m) s = .next s)
      ∧ (s.rx.armed = true →
          takeInput (.hostSend l) s = .next { s with rx := { s.rx with line := s.rx.line ++ l } })
      ∧ (s.rx.armed = false → takeInput (.hostSend l) s = .next s)

/-! ### The whole machine -/

/-- The invariant holds in the first state: the reference parameters (log 1) and empty memory (log 3) are the
model's choices. -/
def Obligations.InvariantAtReset : Prop := State.reset.Inv

/-- Every step keeps the invariant: memory canonical and inside the windows, the record present and valid where
it says so, the session inside the managed range with its cursor where the bytes written put it, the parser's
counters in range, the channel armed or ready exactly while a session is open (10_state.md R42 to R52,
43_protocol.md R247). The checks on the parameters among them include the model's own (log 25). -/
def Obligations.InvariantKept : Prop :=
  ∀ s t : State, s.Inv → step s = .next t → t.Inv

/-- No step from a state that meets the invariant reads an element that holds no value
(93_implementation_defined.md X32, 10_state.md R55), and the only access with no step is a register-window
access that is not an aligned 32-bit one (10_state.md R31). Where such a read would happen it does fault: a
WAIT_END that reads `body` at or past `body_n`, and UPD_TARGET of a cache never loaded (log 10). -/
def Obligations.NoStepFaults : Prop :=
  (∀ s : State, s.Inv →
    (∀ f, step s ≠ .fault f)
      ∧ ∀ r, step s = .refused r → r = .portAccess ∧ ∃ (addr : Word) (size : Nat) (rest : List Input),
          (size ≠ 4 ∨ (addr - s.par.blkBase).toNat % 4 ≠ 0)
            ∧ (s.env.inputs = .portRead addr size :: rest
                ∨ ∃ v, s.env.inputs = .portWrite addr size v :: rest))
    ∧ (∀ s : State, s.parser.pstate = .waitEnd → s.parser.body.length < s.parser.lenAcc.toNat →
        feed 0x7E s = .error (.fault (.noValue .frameBody)) s)
    ∧ ∀ s : State, s.AcceptsPure → s.cfgValid = true → s.par.topology = .ab → s.cacheAb = none →
        exec .updTarget s = .fault (.noValue .configCache)

/-- No step changes a byte of the bootloader's code, the flash below CFG_ADDR (20_memory.md R90, R91). -/
def Obligations.BootloaderNeverWritten : Prop :=
  ∀ s t : State, s.Inv → step s = .next t →
    ∀ a, s.par.flashBase ≤ a → a < s.par.cfgAddr → t.mem.get a = s.mem.get a

/-- No step of an open update flow under AB changes a byte of the active region (45_config.md R320 c). -/
def Obligations.ActiveRegionNotWrittenByFlow : Prop :=
  ∀ (s t : State) (c : AbRecord), s.Inv → s.par.topology = .ab → s.dstate = .update →
    s.sessKind = some .flow → s.cacheAb = some c → step s = .next t →
    ∀ a, regionBase s.par (activeRole c.active) ≤ a →
      a < regionBase s.par (activeRole c.active) + s.par.regionSize → t.mem.get a = s.mem.get a

/-- Every step keeps memory in its canonical form, whatever the state, and no step changes the parameters. Both
are the model's choices (log 1, log 3). -/
def Obligations.CanonicalMemoryKept : Prop :=
  ∀ s t : State, step s = .next t → t.par = s.par ∧ (Memory.Wf s.mem → Memory.Wf t.mem)

/-- What no command writes: ARG0 to ARG3 (10_state.md R32); CRC_STATE but for the three CRC commands (R36); and
for class P everything but RAM, CRC_STATE and the result registers (30_encoding.md R127); unless power was
lost inside it, whose outcome is the model's choice (log 8). -/
def Obligations.WhatCommandsNeverWrite : Prop :=
  ∀ (i : Instr) (s t : State), exec i s = .next t →
    (t.AtReset ∨ (t.arg0 = s.arg0 ∧ t.arg1 = s.arg1 ∧ t.arg2 = s.arg2 ∧ t.arg3 = s.arg3))
      ∧ (i ≠ .crcInit → i ≠ .crcUpdate → (∀ b, i ≠ .crcUpdateByte b) →
          t.AtReset ∨ t.crcState = s.crcState)
      ∧ (classOf i = .pure → s.Inv →
          t = { s with mem := t.mem, crcState := t.crcState, res0 := t.res0, res1 := t.res1,
                       result := t.result }
            ∧ ∀ a, s.par.flashBase ≤ a → a < s.par.flashEnd → t.mem.get a = s.mem.get a)
end

