-- ==== Sys2Proof/Laws/State.lean ====
section
/-! SUPPORT. What each named update of the state leaves in each field, one lemma per field per update. -/

namespace Sys2Proof.Machine

/-! ### `State.finish` -/

@[simp] theorem State.finish_par (s : State) (c : Code) : (s.finish c).par = s.par := rfl
@[simp] theorem State.finish_mem (s : State) (c : Code) : (s.finish c).mem = s.mem := rfl
@[simp] theorem State.finish_scratch (s : State) (c : Code) : (s.finish c).scratch = s.scratch := rfl
@[simp] theorem State.finish_frameBuf (s : State) (c : Code) : (s.finish c).frameBuf = s.frameBuf := rfl
@[simp] theorem State.finish_arg0 (s : State) (c : Code) : (s.finish c).arg0 = s.arg0 := rfl
@[simp] theorem State.finish_arg1 (s : State) (c : Code) : (s.finish c).arg1 = s.arg1 := rfl
@[simp] theorem State.finish_arg2 (s : State) (c : Code) : (s.finish c).arg2 = s.arg2 := rfl
@[simp] theorem State.finish_arg3 (s : State) (c : Code) : (s.finish c).arg3 = s.arg3 := rfl
@[simp] theorem State.finish_res0 (s : State) (c : Code) : (s.finish c).res0 = s.res0 := rfl
@[simp] theorem State.finish_res1 (s : State) (c : Code) : (s.finish c).res1 = s.res1 := rfl
@[simp] theorem State.finish_result (s : State) (c : Code) : (s.finish c).result = c.value := rfl
@[simp] theorem State.finish_crcState (s : State) (c : Code) : (s.finish c).crcState = s.crcState := rfl
@[simp] theorem State.finish_framesOk (s : State) (c : Code) : (s.finish c).framesOk = s.framesOk := rfl
@[simp] theorem State.finish_framesBad (s : State) (c : Code) :
    (s.finish c).framesBad = s.framesBad := rfl
@[simp] theorem State.finish_lastUpdate (s : State) (c : Code) :
    (s.finish c).lastUpdate = s.lastUpdate := rfl
@[simp] theorem State.finish_dstate (s : State) (c : Code) : (s.finish c).dstate = s.dstate := rfl
@[simp] theorem State.finish_retState (s : State) (c : Code) : (s.finish c).retState = s.retState := rfl
@[simp] theorem State.finish_sessKind (s : State) (c : Code) : (s.finish c).sessKind = s.sessKind := rfl
@[simp] theorem State.finish_flowTarget (s : State) (c : Code) :
    (s.finish c).flowTarget = s.flowTarget := rfl
@[simp] theorem State.finish_cacheAb (s : State) (c : Code) : (s.finish c).cacheAb = s.cacheAb := rfl
@[simp] theorem State.finish_cacheSr (s : State) (c : Code) : (s.finish c).cacheSr = s.cacheSr := rfl
@[simp] theorem State.finish_cfgValid (s : State) (c : Code) : (s.finish c).cfgValid = s.cfgValid := rfl
@[simp] theorem State.finish_cfgDirty (s : State) (c : Code) : (s.finish c).cfgDirty = s.cfgDirty := rfl
@[simp] theorem State.finish_sess (s : State) (c : Code) : (s.finish c).sess = s.sess := rfl
@[simp] theorem State.finish_parser (s : State) (c : Code) : (s.finish c).parser = s.parser := rfl
@[simp] theorem State.finish_rx (s : State) (c : Code) : (s.finish c).rx = s.rx := rfl
@[simp] theorem State.finish_irqMasked (s : State) (c : Code) :
    (s.finish c).irqMasked = s.irqMasked := rfl
@[simp] theorem State.finish_tx (s : State) (c : Code) : (s.finish c).tx = s.tx := rfl
@[simp] theorem State.finish_handOff (s : State) (c : Code) : (s.finish c).handOff = s.handOff := rfl
@[simp] theorem State.finish_env (s : State) (c : Code) : (s.finish c).env = s.env := rfl

/-! ### `State.withInputs` -/

@[simp] theorem State.withInputs_par (s : State) (l : List Input) : (s.withInputs l).par = s.par := rfl
@[simp] theorem State.withInputs_mem (s : State) (l : List Input) : (s.withInputs l).mem = s.mem := rfl
@[simp] theorem State.withInputs_scratch (s : State) (l : List Input) :
    (s.withInputs l).scratch = s.scratch := rfl
@[simp] theorem State.withInputs_frameBuf (s : State) (l : List Input) :
    (s.withInputs l).frameBuf = s.frameBuf := rfl
@[simp] theorem State.withInputs_arg0 (s : State) (l : List Input) :
    (s.withInputs l).arg0 = s.arg0 := rfl
@[simp] theorem State.withInputs_arg1 (s : State) (l : List Input) :
    (s.withInputs l).arg1 = s.arg1 := rfl
@[simp] theorem State.withInputs_arg2 (s : State) (l : List Input) :
    (s.withInputs l).arg2 = s.arg2 := rfl
@[simp] theorem State.withInputs_arg3 (s : State) (l : List Input) :
    (s.withInputs l).arg3 = s.arg3 := rfl
@[simp] theorem State.withInputs_res0 (s : State) (l : List Input) :
    (s.withInputs l).res0 = s.res0 := rfl
@[simp] theorem State.withInputs_res1 (s : State) (l : List Input) :
    (s.withInputs l).res1 = s.res1 := rfl
@[simp] theorem State.withInputs_result (s : State) (l : List Input) :
    (s.withInputs l).result = s.result := rfl
@[simp] theorem State.withInputs_crcState (s : State) (l : List Input) :
    (s.withInputs l).crcState = s.crcState := rfl
@[simp] theorem State.withInputs_framesOk (s : State) (l : List Input) :
    (s.withInputs l).framesOk = s.framesOk := rfl
@[simp] theorem State.withInputs_framesBad (s : State) (l : List Input) :
    (s.withInputs l).framesBad = s.framesBad := rfl
@[simp] theorem State.withInputs_lastUpdate (s : State) (l : List Input) :
    (s.withInputs l).lastUpdate = s.lastUpdate := rfl
@[simp] theorem State.withInputs_dstate (s : State) (l : List Input) :
    (s.withInputs l).dstate = s.dstate := rfl
@[simp] theorem State.withInputs_retState (s : State) (l : List Input) :
    (s.withInputs l).retState = s.retState := rfl
@[simp] theorem State.withInputs_sessKind (s : State) (l : List Input) :
    (s.withInputs l).sessKind = s.sessKind := rfl
@[simp] theorem State.withInputs_flowTarget (s : State) (l : List Input) :
    (s.withInputs l).flowTarget = s.flowTarget := rfl
@[simp] theorem State.withInputs_cacheAb (s : State) (l : List Input) :
    (s.withInputs l).cacheAb = s.cacheAb := rfl
@[simp] theorem State.withInputs_cacheSr (s : State) (l : List Input) :
    (s.withInputs l).cacheSr = s.cacheSr := rfl
@[simp] theorem State.withInputs_cfgValid (s : State) (l : List Input) :
    (s.withInputs l).cfgValid = s.cfgValid := rfl
@[simp] theorem State.withInputs_cfgDirty (s : State) (l : List Input) :
    (s.withInputs l).cfgDirty = s.cfgDirty := rfl
@[simp] theorem State.withInputs_sess (s : State) (l : List Input) :
    (s.withInputs l).sess = s.sess := rfl
@[simp] theorem State.withInputs_parser (s : State) (l : List Input) :
    (s.withInputs l).parser = s.parser := rfl
@[simp] theorem State.withInputs_rx (s : State) (l : List Input) : (s.withInputs l).rx = s.rx := rfl
@[simp] theorem State.withInputs_irqMasked (s : State) (l : List Input) :
    (s.withInputs l).irqMasked = s.irqMasked := rfl
@[simp] theorem State.withInputs_tx (s : State) (l : List Input) : (s.withInputs l).tx = s.tx := rfl
@[simp] theorem State.withInputs_handOff (s : State) (l : List Input) :
    (s.withInputs l).handOff = s.handOff := rfl
@[simp] theorem State.withInputs_env (s : State) (l : List Input) :
    (s.withInputs l).env = { s.env with inputs := l } := rfl

/-! ### `State.uartSend` -/

@[simp] theorem State.uartSend_par (s : State) (l : List Byte) : (s.uartSend l).par = s.par := rfl
@[simp] theorem State.uartSend_mem (s : State) (l : List Byte) : (s.uartSend l).mem = s.mem := rfl
@[simp] theorem State.uartSend_scratch (s : State) (l : List Byte) :
    (s.uartSend l).scratch = s.scratch := rfl
@[simp] theorem State.uartSend_frameBuf (s : State) (l : List Byte) :
    (s.uartSend l).frameBuf = s.frameBuf := rfl
@[simp] theorem State.uartSend_arg0 (s : State) (l : List Byte) : (s.uartSend l).arg0 = s.arg0 := rfl
@[simp] theorem State.uartSend_arg1 (s : State) (l : List Byte) : (s.uartSend l).arg1 = s.arg1 := rfl
@[simp] theorem State.uartSend_arg2 (s : State) (l : List Byte) : (s.uartSend l).arg2 = s.arg2 := rfl
@[simp] theorem State.uartSend_arg3 (s : State) (l : List Byte) : (s.uartSend l).arg3 = s.arg3 := rfl
@[simp] theorem State.uartSend_res0 (s : State) (l : List Byte) : (s.uartSend l).res0 = s.res0 := rfl
@[simp] theorem State.uartSend_res1 (s : State) (l : List Byte) : (s.uartSend l).res1 = s.res1 := rfl
@[simp] theorem State.uartSend_result (s : State) (l : List Byte) :
    (s.uartSend l).result = s.result := rfl
@[simp] theorem State.uartSend_crcState (s : State) (l : List Byte) :
    (s.uartSend l).crcState = s.crcState := rfl
@[simp] theorem State.uartSend_framesOk (s : State) (l : List Byte) :
    (s.uartSend l).framesOk = s.framesOk := rfl
@[simp] theorem State.uartSend_framesBad (s : State) (l : List Byte) :
    (s.uartSend l).framesBad = s.framesBad := rfl
@[simp] theorem State.uartSend_lastUpdate (s : State) (l : List Byte) :
    (s.uartSend l).lastUpdate = s.lastUpdate := rfl
@[simp] theorem State.uartSend_dstate (s : State) (l : List Byte) :
    (s.uartSend l).dstate = s.dstate := rfl
@[simp] theorem State.uartSend_retState (s : State) (l : List Byte) :
    (s.uartSend l).retState = s.retState := rfl
@[simp] theorem State.uartSend_sessKind (s : State) (l : List Byte) :
    (s.uartSend l).sessKind = s.sessKind := rfl
@[simp] theorem State.uartSend_flowTarget (s : State) (l : List Byte) :
    (s.uartSend l).flowTarget = s.flowTarget := rfl
@[simp] theorem State.uartSend_cacheAb (s : State) (l : List Byte) :
    (s.uartSend l).cacheAb = s.cacheAb := rfl
@[simp] theorem State.uartSend_cacheSr (s : State) (l : List Byte) :
    (s.uartSend l).cacheSr = s.cacheSr := rfl
@[simp] theorem State.uartSend_cfgValid (s : State) (l : List Byte) :
    (s.uartSend l).cfgValid = s.cfgValid := rfl
@[simp] theorem State.uartSend_cfgDirty (s : State) (l : List Byte) :
    (s.uartSend l).cfgDirty = s.cfgDirty := rfl
@[simp] theorem State.uartSend_sess (s : State) (l : List Byte) : (s.uartSend l).sess = s.sess := rfl
@[simp] theorem State.uartSend_parser (s : State) (l : List Byte) :
    (s.uartSend l).parser = s.parser := rfl
@[simp] theorem State.uartSend_rx (s : State) (l : List Byte) : (s.uartSend l).rx = s.rx := rfl
@[simp] theorem State.uartSend_irqMasked (s : State) (l : List Byte) :
    (s.uartSend l).irqMasked = s.irqMasked := rfl
@[simp] theorem State.uartSend_tx (s : State) (l : List Byte) : (s.uartSend l).tx = s.tx ++ [l] := rfl
@[simp] theorem State.uartSend_handOff (s : State) (l : List Byte) :
    (s.uartSend l).handOff = s.handOff := rfl
@[simp] theorem State.uartSend_env (s : State) (l : List Byte) : (s.uartSend l).env = s.env := rfl

/-! ### `State.sendStatus` -/

@[simp] theorem State.sendStatus_par (s : State) (tag : List Byte) (st : Word) :
    (s.sendStatus tag st).par = s.par := rfl
@[simp] theorem State.sendStatus_mem (s : State) (tag : List Byte) (st : Word) :
    (s.sendStatus tag st).mem = s.mem := rfl
@[simp] theorem State.sendStatus_scratch (s : State) (tag : List Byte) (st : Word) :
    (s.sendStatus tag st).scratch = s.scratch := rfl
@[simp] theorem State.sendStatus_frameBuf (s : State) (tag : List Byte) (st : Word) :
    (s.sendStatus tag st).frameBuf = assembleFrame s.par.rspVersion s.par.rspReceiver s.par.rspSender (tag ++ le32 st) := rfl
@[simp] theorem State.sendStatus_arg0 (s : State) (tag : List Byte) (st : Word) :
    (s.sendStatus tag st).arg0 = s.arg0 := rfl
@[simp] theorem State.sendStatus_arg1 (s : State) (tag : List Byte) (st : Word) :
    (s.sendStatus tag st).arg1 = s.arg1 := rfl
@[simp] theorem State.sendStatus_arg2 (s : State) (tag : List Byte) (st : Word) :
    (s.sendStatus tag st).arg2 = s.arg2 := rfl
@[simp] theorem State.sendStatus_arg3 (s : State) (tag : List Byte) (st : Word) :
    (s.sendStatus tag st).arg3 = s.arg3 := rfl
@[simp] theorem State.sendStatus_res0 (s : State) (tag : List Byte) (st : Word) :
    (s.sendStatus tag st).res0 = s.res0 := rfl
@[simp] theorem State.sendStatus_res1 (s : State) (tag : List Byte) (st : Word) :
    (s.sendStatus tag st).res1 = s.res1 := rfl
@[simp] theorem State.sendStatus_result (s : State) (tag : List Byte) (st : Word) :
    (s.sendStatus tag st).result = s.result := rfl
@[simp] theorem State.sendStatus_crcState (s : State) (tag : List Byte) (st : Word) :
    (s.sendStatus tag st).crcState = s.crcState := rfl
@[simp] theorem State.sendStatus_framesOk (s : State) (tag : List Byte) (st : Word) :
    (s.sendStatus tag st).framesOk = s.framesOk := rfl
@[simp] theorem State.sendStatus_framesBad (s : State) (tag : List Byte) (st : Word) :
    (s.sendStatus tag st).framesBad = s.framesBad := rfl
@[simp] theorem State.sendStatus_lastUpdate (s : State) (tag : List Byte) (st : Word) :
    (s.sendStatus tag st).lastUpdate = s.lastUpdate := rfl
@[simp] theorem State.sendStatus_dstate (s : State) (tag : List Byte) (st : Word) :
    (s.sendStatus tag st).dstate = s.dstate := rfl
@[simp] theorem State.sendStatus_retState (s : State) (tag : List Byte) (st : Word) :
    (s.sendStatus tag st).retState = s.retState := rfl
@[simp] theorem State.sendStatus_sessKind (s : State) (tag : List Byte) (st : Word) :
    (s.sendStatus tag st).sessKind = s.sessKind := rfl
@[simp] theorem State.sendStatus_flowTarget (s : State) (tag : List Byte) (st : Word) :
    (s.sendStatus tag st).flowTarget = s.flowTarget := rfl
@[simp] theorem State.sendStatus_cacheAb (s : State) (tag : List Byte) (st : Word) :
    (s.sendStatus tag st).cacheAb = s.cacheAb := rfl
@[simp] theorem State.sendStatus_cacheSr (s : State) (tag : List Byte) (st : Word) :
    (s.sendStatus tag st).cacheSr = s.cacheSr := rfl
@[simp] theorem State.sendStatus_cfgValid (s : State) (tag : List Byte) (st : Word) :
    (s.sendStatus tag st).cfgValid = s.cfgValid := rfl
@[simp] theorem State.sendStatus_cfgDirty (s : State) (tag : List Byte) (st : Word) :
    (s.sendStatus tag st).cfgDirty = s.cfgDirty := rfl
@[simp] theorem State.sendStatus_sess (s : State) (tag : List Byte) (st : Word) :
    (s.sendStatus tag st).sess = s.sess := rfl
@[simp] theorem State.sendStatus_parser (s : State) (tag : List Byte) (st : Word) :
    (s.sendStatus tag st).parser = s.parser := rfl
@[simp] theorem State.sendStatus_rx (s : State) (tag : List Byte) (st : Word) :
    (s.sendStatus tag st).rx = s.rx := rfl
@[simp] theorem State.sendStatus_irqMasked (s : State) (tag : List Byte) (st : Word) :
    (s.sendStatus tag st).irqMasked = s.irqMasked := rfl
@[simp] theorem State.sendStatus_tx (s : State) (tag : List Byte) (st : Word) :
    (s.sendStatus tag st).tx = s.tx ++ [escape s.par.escMode (assembleFrame s.par.rspVersion s.par.rspReceiver s.par.rspSender (tag ++ le32 st))] := rfl
@[simp] theorem State.sendStatus_handOff (s : State) (tag : List Byte) (st : Word) :
    (s.sendStatus tag st).handOff = s.handOff := rfl
@[simp] theorem State.sendStatus_env (s : State) (tag : List Byte) (st : Word) :
    (s.sendStatus tag st).env = s.env := rfl

/-! ### `State.openSession` -/

@[simp] theorem State.openSession_par (s : State) (b l : Nat) (k : SessKind) (r : RetState) :
    (s.openSession b l k r).par = s.par := rfl
@[simp] theorem State.openSession_mem (s : State) (b l : Nat) (k : SessKind) (r : RetState) :
    (s.openSession b l k r).mem = s.mem := rfl
@[simp] theorem State.openSession_scratch (s : State) (b l : Nat) (k : SessKind) (r : RetState) :
    (s.openSession b l k r).scratch = s.scratch := rfl
@[simp] theorem State.openSession_frameBuf (s : State) (b l : Nat) (k : SessKind) (r : RetState) :
    (s.openSession b l k r).frameBuf = s.frameBuf := rfl
@[simp] theorem State.openSession_arg0 (s : State) (b l : Nat) (k : SessKind) (r : RetState) :
    (s.openSession b l k r).arg0 = s.arg0 := rfl
@[simp] theorem State.openSession_arg1 (s : State) (b l : Nat) (k : SessKind) (r : RetState) :
    (s.openSession b l k r).arg1 = s.arg1 := rfl
@[simp] theorem State.openSession_arg2 (s : State) (b l : Nat) (k : SessKind) (r : RetState) :
    (s.openSession b l k r).arg2 = s.arg2 := rfl
@[simp] theorem State.openSession_arg3 (s : State) (b l : Nat) (k : SessKind) (r : RetState) :
    (s.openSession b l k r).arg3 = s.arg3 := rfl
@[simp] theorem State.openSession_res0 (s : State) (b l : Nat) (k : SessKind) (r : RetState) :
    (s.openSession b l k r).res0 = s.res0 := rfl
@[simp] theorem State.openSession_res1 (s : State) (b l : Nat) (k : SessKind) (r : RetState) :
    (s.openSession b l k r).res1 = s.res1 := rfl
@[simp] theorem State.openSession_result (s : State) (b l : Nat) (k : SessKind) (r : RetState) :
    (s.openSession b l k r).result = s.result := rfl
@[simp] theorem State.openSession_crcState (s : State) (b l : Nat) (k : SessKind) (r : RetState) :
    (s.openSession b l k r).crcState = s.crcState := rfl
@[simp] theorem State.openSession_framesOk (s : State) (b l : Nat) (k : SessKind) (r : RetState) :
    (s.openSession b l k r).framesOk = 0 := rfl
@[simp] theorem State.openSession_framesBad (s : State) (b l : Nat) (k : SessKind) (r : RetState) :
    (s.openSession b l k r).framesBad = 0 := rfl
@[simp] theorem State.openSession_lastUpdate (s : State) (b l : Nat) (k : SessKind) (r : RetState) :
    (s.openSession b l k r).lastUpdate = s.lastUpdate := rfl
@[simp] theorem State.openSession_dstate (s : State) (b l : Nat) (k : SessKind) (r : RetState) :
    (s.openSession b l k r).dstate = .update := rfl
@[simp] theorem State.openSession_retState (s : State) (b l : Nat) (k : SessKind) (r : RetState) :
    (s.openSession b l k r).retState = some r := rfl
@[simp] theorem State.openSession_sessKind (s : State) (b l : Nat) (k : SessKind) (r : RetState) :
    (s.openSession b l k r).sessKind = some k := rfl
@[simp] theorem State.openSession_flowTarget (s : State) (b l : Nat) (k : SessKind) (r : RetState) :
    (s.openSession b l k r).flowTarget = s.flowTarget := rfl
@[simp] theorem State.openSession_cacheAb (s : State) (b l : Nat) (k : SessKind) (r : RetState) :
    (s.openSession b l k r).cacheAb = s.cacheAb := rfl
@[simp] theorem State.openSession_cacheSr (s : State) (b l : Nat) (k : SessKind) (r : RetState) :
    (s.openSession b l k r).cacheSr = s.cacheSr := rfl
@[simp] theorem State.openSession_cfgValid (s : State) (b l : Nat) (k : SessKind) (r : RetState) :
    (s.openSession b l k r).cfgValid = s.cfgValid := rfl
@[simp] theorem State.openSession_cfgDirty (s : State) (b l : Nat) (k : SessKind) (r : RetState) :
    (s.openSession b l k r).cfgDirty = s.cfgDirty := rfl
@[simp] theorem State.openSession_sess (s : State) (b l : Nat) (k : SessKind) (r : RetState) :
    (s.openSession b l k r).sess = { active := true, base := BitVec.ofNat 32 b, limit := BitVec.ofNat 32 l, cursor := BitVec.ofNat 32 b, written := 0, pendValid := false, pendByte := 0, idleCount := 0, startTick := s.env.clock } := rfl
@[simp] theorem State.openSession_parser (s : State) (b l : Nat) (k : SessKind) (r : RetState) :
    (s.openSession b l k r).parser = Parser.cleared .waitStart := rfl
@[simp] theorem State.openSession_rx (s : State) (b l : Nat) (k : SessKind) (r : RetState) :
    (s.openSession b l k r).rx = s.rx := rfl
@[simp] theorem State.openSession_irqMasked (s : State) (b l : Nat) (k : SessKind) (r : RetState) :
    (s.openSession b l k r).irqMasked = s.irqMasked := rfl
@[simp] theorem State.openSession_tx (s : State) (b l : Nat) (k : SessKind) (r : RetState) :
    (s.openSession b l k r).tx = s.tx := rfl
@[simp] theorem State.openSession_handOff (s : State) (b l : Nat) (k : SessKind) (r : RetState) :
    (s.openSession b l k r).handOff = s.handOff := rfl
@[simp] theorem State.openSession_env (s : State) (b l : Nat) (k : SessKind) (r : RetState) :
    (s.openSession b l k r).env = s.env := rfl

/-! ### `State.closeSession` -/

@[simp] theorem State.closeSession_par (s : State) (c : Code) : (s.closeSession c).par = s.par := rfl
@[simp] theorem State.closeSession_mem (s : State) (c : Code) : (s.closeSession c).mem = s.mem := rfl
@[simp] theorem State.closeSession_scratch (s : State) (c : Code) :
    (s.closeSession c).scratch = s.scratch := rfl
@[simp] theorem State.closeSession_frameBuf (s : State) (c : Code) :
    (s.closeSession c).frameBuf = s.frameBuf := rfl
@[simp] theorem State.closeSession_arg0 (s : State) (c : Code) : (s.closeSession c).arg0 = s.arg0 := rfl
@[simp] theorem State.closeSession_arg1 (s : State) (c : Code) : (s.closeSession c).arg1 = s.arg1 := rfl
@[simp] theorem State.closeSession_arg2 (s : State) (c : Code) : (s.closeSession c).arg2 = s.arg2 := rfl
@[simp] theorem State.closeSession_arg3 (s : State) (c : Code) : (s.closeSession c).arg3 = s.arg3 := rfl
@[simp] theorem State.closeSession_res0 (s : State) (c : Code) : (s.closeSession c).res0 = s.res0 := rfl
@[simp] theorem State.closeSession_res1 (s : State) (c : Code) : (s.closeSession c).res1 = s.res1 := rfl
@[simp] theorem State.closeSession_result (s : State) (c : Code) :
    (s.closeSession c).result = s.result := rfl
@[simp] theorem State.closeSession_crcState (s : State) (c : Code) :
    (s.closeSession c).crcState = s.crcState := rfl
@[simp] theorem State.closeSession_framesOk (s : State) (c : Code) :
    (s.closeSession c).framesOk = s.framesOk := rfl
@[simp] theorem State.closeSession_framesBad (s : State) (c : Code) :
    (s.closeSession c).framesBad = s.framesBad := rfl
@[simp] theorem State.closeSession_lastUpdate (s : State) (c : Code) :
    (s.closeSession c).lastUpdate = c.value := rfl
@[simp] theorem State.closeSession_dstate (s : State) (c : Code) :
    (s.closeSession c).dstate = s.dstate := rfl
@[simp] theorem State.closeSession_retState (s : State) (c : Code) :
    (s.closeSession c).retState = s.retState := rfl
@[simp] theorem State.closeSession_sessKind (s : State) (c : Code) :
    (s.closeSession c).sessKind = s.sessKind := rfl
@[simp] theorem State.closeSession_flowTarget (s : State) (c : Code) :
    (s.closeSession c).flowTarget = s.flowTarget := rfl
@[simp] theorem State.closeSession_cacheAb (s : State) (c : Code) :
    (s.closeSession c).cacheAb = s.cacheAb := rfl
@[simp] theorem State.closeSession_cacheSr (s : State) (c : Code) :
    (s.closeSession c).cacheSr = s.cacheSr := rfl
@[simp] theorem State.closeSession_cfgValid (s : State) (c : Code) :
    (s.closeSession c).cfgValid = s.cfgValid := rfl
@[simp] theorem State.closeSession_cfgDirty (s : State) (c : Code) :
    (s.closeSession c).cfgDirty = s.cfgDirty := rfl
@[simp] theorem State.closeSession_sess (s : State) (c : Code) :
    (s.closeSession c).sess = { s.sess with active := false, pendValid := false } := rfl
@[simp] theorem State.closeSession_parser (s : State) (c : Code) :
    (s.closeSession c).parser = Parser.cleared .waitStart := rfl
@[simp] theorem State.closeSession_rx (s : State) (c : Code) : (s.closeSession c).rx = s.rx.stop := rfl
@[simp] theorem State.closeSession_irqMasked (s : State) (c : Code) :
    (s.closeSession c).irqMasked = s.irqMasked := rfl
@[simp] theorem State.closeSession_tx (s : State) (c : Code) : (s.closeSession c).tx = s.tx := rfl
@[simp] theorem State.closeSession_handOff (s : State) (c : Code) :
    (s.closeSession c).handOff = s.handOff := rfl
@[simp] theorem State.closeSession_env (s : State) (c : Code) : (s.closeSession c).env = s.env := rfl

/-! ### `State.frameError` -/

@[simp] theorem State.frameError_par (s : State) (k : FrameErrorKind) (n : PState) :
    (s.frameError k n).par = s.par := rfl
@[simp] theorem State.frameError_mem (s : State) (k : FrameErrorKind) (n : PState) :
    (s.frameError k n).mem = s.mem := rfl
@[simp] theorem State.frameError_scratch (s : State) (k : FrameErrorKind) (n : PState) :
    (s.frameError k n).scratch = s.scratch := rfl
@[simp] theorem State.frameError_frameBuf (s : State) (k : FrameErrorKind) (n : PState) :
    (s.frameError k n).frameBuf = assembleFrame s.par.rspVersion s.par.rspReceiver s.par.rspSender (errorTag k s.parser ++ le32 1) := rfl
@[simp] theorem State.frameError_arg0 (s : State) (k : FrameErrorKind) (n : PState) :
    (s.frameError k n).arg0 = s.arg0 := rfl
@[simp] theorem State.frameError_arg1 (s : State) (k : FrameErrorKind) (n : PState) :
    (s.frameError k n).arg1 = s.arg1 := rfl
@[simp] theorem State.frameError_arg2 (s : State) (k : FrameErrorKind) (n : PState) :
    (s.frameError k n).arg2 = s.arg2 := rfl
@[simp] theorem State.frameError_arg3 (s : State) (k : FrameErrorKind) (n : PState) :
    (s.frameError k n).arg3 = s.arg3 := rfl
@[simp] theorem State.frameError_res0 (s : State) (k : FrameErrorKind) (n : PState) :
    (s.frameError k n).res0 = s.res0 := rfl
@[simp] theorem State.frameError_res1 (s : State) (k : FrameErrorKind) (n : PState) :
    (s.frameError k n).res1 = s.res1 := rfl
@[simp] theorem State.frameError_result (s : State) (k : FrameErrorKind) (n : PState) :
    (s.frameError k n).result = s.result := rfl
@[simp] theorem State.frameError_crcState (s : State) (k : FrameErrorKind) (n : PState) :
    (s.frameError k n).crcState = s.crcState := rfl
@[simp] theorem State.frameError_framesOk (s : State) (k : FrameErrorKind) (n : PState) :
    (s.frameError k n).framesOk = s.framesOk := rfl
@[simp] theorem State.frameError_framesBad (s : State) (k : FrameErrorKind) (n : PState) :
    (s.frameError k n).framesBad = s.framesBad + 1 := rfl
@[simp] theorem State.frameError_lastUpdate (s : State) (k : FrameErrorKind) (n : PState) :
    (s.frameError k n).lastUpdate = s.lastUpdate := rfl
@[simp] theorem State.frameError_dstate (s : State) (k : FrameErrorKind) (n : PState) :
    (s.frameError k n).dstate = s.dstate := rfl
@[simp] theorem State.frameError_retState (s : State) (k : FrameErrorKind) (n : PState) :
    (s.frameError k n).retState = s.retState := rfl
@[simp] theorem State.frameError_sessKind (s : State) (k : FrameErrorKind) (n : PState) :
    (s.frameError k n).sessKind = s.sessKind := rfl
@[simp] theorem State.frameError_flowTarget (s : State) (k : FrameErrorKind) (n : PState) :
    (s.frameError k n).flowTarget = s.flowTarget := rfl
@[simp] theorem State.frameError_cacheAb (s : State) (k : FrameErrorKind) (n : PState) :
    (s.frameError k n).cacheAb = s.cacheAb := rfl
@[simp] theorem State.frameError_cacheSr (s : State) (k : FrameErrorKind) (n : PState) :
    (s.frameError k n).cacheSr = s.cacheSr := rfl
@[simp] theorem State.frameError_cfgValid (s : State) (k : FrameErrorKind) (n : PState) :
    (s.frameError k n).cfgValid = s.cfgValid := rfl
@[simp] theorem State.frameError_cfgDirty (s : State) (k : FrameErrorKind) (n : PState) :
    (s.frameError k n).cfgDirty = s.cfgDirty := rfl
@[simp] theorem State.frameError_sess (s : State) (k : FrameErrorKind) (n : PState) :
    (s.frameError k n).sess = s.sess := rfl
@[simp] theorem State.frameError_parser (s : State) (k : FrameErrorKind) (n : PState) :
    (s.frameError k n).parser = Parser.cleared n := rfl
@[simp] theorem State.frameError_rx (s : State) (k : FrameErrorKind) (n : PState) :
    (s.frameError k n).rx = s.rx := rfl
@[simp] theorem State.frameError_irqMasked (s : State) (k : FrameErrorKind) (n : PState) :
    (s.frameError k n).irqMasked = s.irqMasked := rfl
@[simp] theorem State.frameError_tx (s : State) (k : FrameErrorKind) (n : PState) :
    (s.frameError k n).tx = s.tx ++ [escape s.par.escMode (assembleFrame s.par.rspVersion s.par.rspReceiver s.par.rspSender (errorTag k s.parser ++ le32 1))] := rfl
@[simp] theorem State.frameError_handOff (s : State) (k : FrameErrorKind) (n : PState) :
    (s.frameError k n).handOff = s.handOff := rfl
@[simp] theorem State.frameError_env (s : State) (k : FrameErrorKind) (n : PState) :
    (s.frameError k n).env = s.env := rfl

/-! ### `State.handOffTo` -/

@[simp] theorem State.handOffTo_par (s : State) (b : Nat) : (s.handOffTo b).par = s.par := rfl
@[simp] theorem State.handOffTo_mem (s : State) (b : Nat) : (s.handOffTo b).mem = s.mem := rfl
@[simp] theorem State.handOffTo_scratch (s : State) (b : Nat) :
    (s.handOffTo b).scratch = s.scratch := rfl
@[simp] theorem State.handOffTo_frameBuf (s : State) (b : Nat) :
    (s.handOffTo b).frameBuf = s.frameBuf := rfl
@[simp] theorem State.handOffTo_arg0 (s : State) (b : Nat) : (s.handOffTo b).arg0 = s.arg0 := rfl
@[simp] theorem State.handOffTo_arg1 (s : State) (b : Nat) : (s.handOffTo b).arg1 = s.arg1 := rfl
@[simp] theorem State.handOffTo_arg2 (s : State) (b : Nat) : (s.handOffTo b).arg2 = s.arg2 := rfl
@[simp] theorem State.handOffTo_arg3 (s : State) (b : Nat) : (s.handOffTo b).arg3 = s.arg3 := rfl
@[simp] theorem State.handOffTo_res0 (s : State) (b : Nat) : (s.handOffTo b).res0 = s.res0 := rfl
@[simp] theorem State.handOffTo_res1 (s : State) (b : Nat) : (s.handOffTo b).res1 = s.res1 := rfl
@[simp] theorem State.handOffTo_result (s : State) (b : Nat) : (s.handOffTo b).result = s.result := rfl
@[simp] theorem State.handOffTo_crcState (s : State) (b : Nat) :
    (s.handOffTo b).crcState = s.crcState := rfl
@[simp] theorem State.handOffTo_framesOk (s : State) (b : Nat) :
    (s.handOffTo b).framesOk = s.framesOk := rfl
@[simp] theorem State.handOffTo_framesBad (s : State) (b : Nat) :
    (s.handOffTo b).framesBad = s.framesBad := rfl
@[simp] theorem State.handOffTo_lastUpdate (s : State) (b : Nat) :
    (s.handOffTo b).lastUpdate = s.lastUpdate := rfl
@[simp] theorem State.handOffTo_dstate (s : State) (b : Nat) : (s.handOffTo b).dstate = .handedOff := rfl
@[simp] theorem State.handOffTo_retState (s : State) (b : Nat) :
    (s.handOffTo b).retState = s.retState := rfl
@[simp] theorem State.handOffTo_sessKind (s : State) (b : Nat) :
    (s.handOffTo b).sessKind = s.sessKind := rfl
@[simp] theorem State.handOffTo_flowTarget (s : State) (b : Nat) :
    (s.handOffTo b).flowTarget = s.flowTarget := rfl
@[simp] theorem State.handOffTo_cacheAb (s : State) (b : Nat) :
    (s.handOffTo b).cacheAb = s.cacheAb := rfl
@[simp] theorem State.handOffTo_cacheSr (s : State) (b : Nat) :
    (s.handOffTo b).cacheSr = s.cacheSr := rfl
@[simp] theorem State.handOffTo_cfgValid (s : State) (b : Nat) :
    (s.handOffTo b).cfgValid = s.cfgValid := rfl
@[simp] theorem State.handOffTo_cfgDirty (s : State) (b : Nat) :
    (s.handOffTo b).cfgDirty = s.cfgDirty := rfl
@[simp] theorem State.handOffTo_sess (s : State) (b : Nat) : (s.handOffTo b).sess = s.sess := rfl
@[simp] theorem State.handOffTo_parser (s : State) (b : Nat) : (s.handOffTo b).parser = s.parser := rfl
@[simp] theorem State.handOffTo_rx (s : State) (b : Nat) : (s.handOffTo b).rx = s.rx.stop := rfl
@[simp] theorem State.handOffTo_irqMasked (s : State) (b : Nat) :
    (s.handOffTo b).irqMasked = s.irqMasked := rfl
@[simp] theorem State.handOffTo_tx (s : State) (b : Nat) : (s.handOffTo b).tx = s.tx := rfl
@[simp] theorem State.handOffTo_handOff (s : State) (b : Nat) :
    (s.handOffTo b).handOff = some { vtor := BitVec.ofNat 32 b, sp := s.mem.word b, entry := s.mem.word (b + 4) } := rfl
@[simp] theorem State.handOffTo_env (s : State) (b : Nat) : (s.handOffTo b).env = s.env := rfl

/-! ### `State.initial` and `State.afterReset` -/

@[simp] theorem State.initial_par (p : Config) (m : Memory) (e : Env) :
    (State.initial p m e).par = p := rfl
@[simp] theorem State.initial_mem (p : Config) (m : Memory) (e : Env) :
    (State.initial p m e).mem = m := rfl
@[simp] theorem State.initial_scratch (p : Config) (m : Memory) (e : Env) :
    (State.initial p m e).scratch = [] := rfl
@[simp] theorem State.initial_frameBuf (p : Config) (m : Memory) (e : Env) :
    (State.initial p m e).frameBuf = [] := rfl
@[simp] theorem State.initial_arg0 (p : Config) (m : Memory) (e : Env) :
    (State.initial p m e).arg0 = 0 := rfl
@[simp] theorem State.initial_arg1 (p : Config) (m : Memory) (e : Env) :
    (State.initial p m e).arg1 = 0 := rfl
@[simp] theorem State.initial_arg2 (p : Config) (m : Memory) (e : Env) :
    (State.initial p m e).arg2 = 0 := rfl
@[simp] theorem State.initial_arg3 (p : Config) (m : Memory) (e : Env) :
    (State.initial p m e).arg3 = 0 := rfl
@[simp] theorem State.initial_res0 (p : Config) (m : Memory) (e : Env) :
    (State.initial p m e).res0 = 0 := rfl
@[simp] theorem State.initial_res1 (p : Config) (m : Memory) (e : Env) :
    (State.initial p m e).res1 = 0 := rfl
@[simp] theorem State.initial_result (p : Config) (m : Memory) (e : Env) :
    (State.initial p m e).result = 0 := rfl
@[simp] theorem State.initial_crcState (p : Config) (m : Memory) (e : Env) :
    (State.initial p m e).crcState = 0xFFFFFFFF := rfl
@[simp] theorem State.initial_framesOk (p : Config) (m : Memory) (e : Env) :
    (State.initial p m e).framesOk = 0 := rfl
@[simp] theorem State.initial_framesBad (p : Config) (m : Memory) (e : Env) :
    (State.initial p m e).framesBad = 0 := rfl
@[simp] theorem State.initial_lastUpdate (p : Config) (m : Memory) (e : Env) :
    (State.initial p m e).lastUpdate = 0 := rfl
@[simp] theorem State.initial_dstate (p : Config) (m : Memory) (e : Env) :
    (State.initial p m e).dstate = .check := rfl
@[simp] theorem State.initial_retState (p : Config) (m : Memory) (e : Env) :
    (State.initial p m e).retState = none := rfl
@[simp] theorem State.initial_sessKind (p : Config) (m : Memory) (e : Env) :
    (State.initial p m e).sessKind = none := rfl
@[simp] theorem State.initial_flowTarget (p : Config) (m : Memory) (e : Env) :
    (State.initial p m e).flowTarget = none := rfl
@[simp] theorem State.initial_cacheAb (p : Config) (m : Memory) (e : Env) :
    (State.initial p m e).cacheAb = none := rfl
@[simp] theorem State.initial_cacheSr (p : Config) (m : Memory) (e : Env) :
    (State.initial p m e).cacheSr = none := rfl
@[simp] theorem State.initial_cfgValid (p : Config) (m : Memory) (e : Env) :
    (State.initial p m e).cfgValid = false := rfl
@[simp] theorem State.initial_cfgDirty (p : Config) (m : Memory) (e : Env) :
    (State.initial p m e).cfgDirty = false := rfl
@[simp] theorem State.initial_sess (p : Config) (m : Memory) (e : Env) :
    (State.initial p m e).sess = Session.init := rfl
@[simp] theorem State.initial_parser (p : Config) (m : Memory) (e : Env) :
    (State.initial p m e).parser = Parser.cleared .waitStart := rfl
@[simp] theorem State.initial_rx (p : Config) (m : Memory) (e : Env) :
    (State.initial p m e).rx = RxChannel.init := rfl
@[simp] theorem State.initial_irqMasked (p : Config) (m : Memory) (e : Env) :
    (State.initial p m e).irqMasked = false := rfl
@[simp] theorem State.initial_tx (p : Config) (m : Memory) (e : Env) :
    (State.initial p m e).tx = [] := rfl
@[simp] theorem State.initial_handOff (p : Config) (m : Memory) (e : Env) :
    (State.initial p m e).handOff = none := rfl
@[simp] theorem State.initial_env (p : Config) (m : Memory) (e : Env) :
    (State.initial p m e).env = e := rfl

@[simp] theorem State.afterReset_par (s : State) (ram : List Byte) :
    (s.afterReset ram).par = s.par := rfl
@[simp] theorem State.afterReset_mem (s : State) (ram : List Byte) :
    (s.afterReset ram).mem = s.mem.store s.par.ramBase (ram.take ramSize) := rfl
@[simp] theorem State.afterReset_scratch (s : State) (ram : List Byte) :
    (s.afterReset ram).scratch = [] := rfl
@[simp] theorem State.afterReset_frameBuf (s : State) (ram : List Byte) :
    (s.afterReset ram).frameBuf = [] := rfl
@[simp] theorem State.afterReset_arg0 (s : State) (ram : List Byte) :
    (s.afterReset ram).arg0 = 0 := rfl
@[simp] theorem State.afterReset_arg1 (s : State) (ram : List Byte) :
    (s.afterReset ram).arg1 = 0 := rfl
@[simp] theorem State.afterReset_arg2 (s : State) (ram : List Byte) :
    (s.afterReset ram).arg2 = 0 := rfl
@[simp] theorem State.afterReset_arg3 (s : State) (ram : List Byte) :
    (s.afterReset ram).arg3 = 0 := rfl
@[simp] theorem State.afterReset_res0 (s : State) (ram : List Byte) :
    (s.afterReset ram).res0 = 0 := rfl
@[simp] theorem State.afterReset_res1 (s : State) (ram : List Byte) :
    (s.afterReset ram).res1 = 0 := rfl
@[simp] theorem State.afterReset_result (s : State) (ram : List Byte) :
    (s.afterReset ram).result = 0 := rfl
@[simp] theorem State.afterReset_crcState (s : State) (ram : List Byte) :
    (s.afterReset ram).crcState = 0xFFFFFFFF := rfl
@[simp] theorem State.afterReset_framesOk (s : State) (ram : List Byte) :
    (s.afterReset ram).framesOk = 0 := rfl
@[simp] theorem State.afterReset_framesBad (s : State) (ram : List Byte) :
    (s.afterReset ram).framesBad = 0 := rfl
@[simp] theorem State.afterReset_lastUpdate (s : State) (ram : List Byte) :
    (s.afterReset ram).lastUpdate = 0 := rfl
@[simp] theorem State.afterReset_dstate (s : State) (ram : List Byte) :
    (s.afterReset ram).dstate = .check := rfl
@[simp] theorem State.afterReset_retState (s : State) (ram : List Byte) :
    (s.afterReset ram).retState = none := rfl
@[simp] theorem State.afterReset_sessKind (s : State) (ram : List Byte) :
    (s.afterReset ram).sessKind = none := rfl
@[simp] theorem State.afterReset_flowTarget (s : State) (ram : List Byte) :
    (s.afterReset ram).flowTarget = none := rfl
@[simp] theorem State.afterReset_cacheAb (s : State) (ram : List Byte) :
    (s.afterReset ram).cacheAb = none := rfl
@[simp] theorem State.afterReset_cacheSr (s : State) (ram : List Byte) :
    (s.afterReset ram).cacheSr = none := rfl
@[simp] theorem State.afterReset_cfgValid (s : State) (ram : List Byte) :
    (s.afterReset ram).cfgValid = false := rfl
@[simp] theorem State.afterReset_cfgDirty (s : State) (ram : List Byte) :
    (s.afterReset ram).cfgDirty = false := rfl
@[simp] theorem State.afterReset_sess (s : State) (ram : List Byte) :
    (s.afterReset ram).sess = Session.init := rfl
@[simp] theorem State.afterReset_parser (s : State) (ram : List Byte) :
    (s.afterReset ram).parser = Parser.cleared .waitStart := rfl
@[simp] theorem State.afterReset_rx (s : State) (ram : List Byte) :
    (s.afterReset ram).rx = RxChannel.init := rfl
@[simp] theorem State.afterReset_irqMasked (s : State) (ram : List Byte) :
    (s.afterReset ram).irqMasked = false := rfl
@[simp] theorem State.afterReset_tx (s : State) (ram : List Byte) :
    (s.afterReset ram).tx = [] := rfl
@[simp] theorem State.afterReset_handOff (s : State) (ram : List Byte) :
    (s.afterReset ram).handOff = none := rfl
@[simp] theorem State.afterReset_env (s : State) (ram : List Byte) :
    (s.afterReset ram).env = s.env := rfl

@[simp] theorem State.loadRecord_par (s : State) : s.loadRecord.par = s.par := by
  unfold State.loadRecord; dsimp only; split <;> rfl
@[simp] theorem State.loadRecord_mem (s : State) : s.loadRecord.mem = s.mem := by
  unfold State.loadRecord; dsimp only; split <;> rfl
@[simp] theorem State.loadRecord_scratch (s : State) : s.loadRecord.scratch = s.scratch := by
  unfold State.loadRecord; dsimp only; split <;> rfl
@[simp] theorem State.loadRecord_frameBuf (s : State) : s.loadRecord.frameBuf = s.frameBuf := by
  unfold State.loadRecord; dsimp only; split <;> rfl
@[simp] theorem State.loadRecord_arg0 (s : State) : s.loadRecord.arg0 = s.arg0 := by
  unfold State.loadRecord; dsimp only; split <;> rfl
@[simp] theorem State.loadRecord_arg1 (s : State) : s.loadRecord.arg1 = s.arg1 := by
  unfold State.loadRecord; dsimp only; split <;> rfl
@[simp] theorem State.loadRecord_arg2 (s : State) : s.loadRecord.arg2 = s.arg2 := by
  unfold State.loadRecord; dsimp only; split <;> rfl
@[simp] theorem State.loadRecord_arg3 (s : State) : s.loadRecord.arg3 = s.arg3 := by
  unfold State.loadRecord; dsimp only; split <;> rfl
@[simp] theorem State.loadRecord_res0 (s : State) : s.loadRecord.res0 = s.res0 := by
  unfold State.loadRecord; dsimp only; split <;> rfl
@[simp] theorem State.loadRecord_res1 (s : State) : s.loadRecord.res1 = s.res1 := by
  unfold State.loadRecord; dsimp only; split <;> rfl
@[simp] theorem State.loadRecord_result (s : State) : s.loadRecord.result = s.result := by
  unfold State.loadRecord; dsimp only; split <;> rfl
@[simp] theorem State.loadRecord_crcState (s : State) : s.loadRecord.crcState = s.crcState := by
  unfold State.loadRecord; dsimp only; split <;> rfl
@[simp] theorem State.loadRecord_framesOk (s : State) : s.loadRecord.framesOk = s.framesOk := by
  unfold State.loadRecord; dsimp only; split <;> rfl
@[simp] theorem State.loadRecord_framesBad (s : State) : s.loadRecord.framesBad = s.framesBad := by
  unfold State.loadRecord; dsimp only; split <;> rfl
@[simp] theorem State.loadRecord_lastUpdate (s : State) : s.loadRecord.lastUpdate = s.lastUpdate := by
  unfold State.loadRecord; dsimp only; split <;> rfl
@[simp] theorem State.loadRecord_dstate (s : State) : s.loadRecord.dstate = s.dstate := by
  unfold State.loadRecord; dsimp only; split <;> rfl
@[simp] theorem State.loadRecord_retState (s : State) : s.loadRecord.retState = s.retState := by
  unfold State.loadRecord; dsimp only; split <;> rfl
@[simp] theorem State.loadRecord_sessKind (s : State) : s.loadRecord.sessKind = s.sessKind := by
  unfold State.loadRecord; dsimp only; split <;> rfl
@[simp] theorem State.loadRecord_flowTarget (s : State) : s.loadRecord.flowTarget = s.flowTarget := by
  unfold State.loadRecord; dsimp only; split <;> rfl
@[simp] theorem State.loadRecord_cfgDirty (s : State) : s.loadRecord.cfgDirty = false := by
  unfold State.loadRecord; dsimp only; split <;> rfl
@[simp] theorem State.loadRecord_sess (s : State) : s.loadRecord.sess = s.sess := by
  unfold State.loadRecord; dsimp only; split <;> rfl
@[simp] theorem State.loadRecord_parser (s : State) : s.loadRecord.parser = s.parser := by
  unfold State.loadRecord; dsimp only; split <;> rfl
@[simp] theorem State.loadRecord_rx (s : State) : s.loadRecord.rx = s.rx := by
  unfold State.loadRecord; dsimp only; split <;> rfl
@[simp] theorem State.loadRecord_irqMasked (s : State) : s.loadRecord.irqMasked = s.irqMasked := by
  unfold State.loadRecord; dsimp only; split <;> rfl
@[simp] theorem State.loadRecord_tx (s : State) : s.loadRecord.tx = s.tx := by
  unfold State.loadRecord; dsimp only; split <;> rfl
@[simp] theorem State.loadRecord_handOff (s : State) : s.loadRecord.handOff = s.handOff := by
  unfold State.loadRecord; dsimp only; split <;> rfl
@[simp] theorem State.loadRecord_env (s : State) : s.loadRecord.env = s.env := by
  unfold State.loadRecord; dsimp only; split <;> rfl
@[simp] theorem State.defaultRecord_par (s : State) : s.defaultRecord.par = s.par := by
  unfold State.defaultRecord; split <;> rfl
@[simp] theorem State.defaultRecord_mem (s : State) : s.defaultRecord.mem = s.mem := by
  unfold State.defaultRecord; split <;> rfl
@[simp] theorem State.defaultRecord_scratch (s : State) : s.defaultRecord.scratch = s.scratch := by
  unfold State.defaultRecord; split <;> rfl
@[simp] theorem State.defaultRecord_frameBuf (s : State) : s.defaultRecord.frameBuf = s.frameBuf := by
  unfold State.defaultRecord; split <;> rfl
@[simp] theorem State.defaultRecord_arg0 (s : State) : s.defaultRecord.arg0 = s.arg0 := by
  unfold State.defaultRecord; split <;> rfl
@[simp] theorem State.defaultRecord_arg1 (s : State) : s.defaultRecord.arg1 = s.arg1 := by
  unfold State.defaultRecord; split <;> rfl
@[simp] theorem State.defaultRecord_arg2 (s : State) : s.defaultRecord.arg2 = s.arg2 := by
  unfold State.defaultRecord; split <;> rfl
@[simp] theorem State.defaultRecord_arg3 (s : State) : s.defaultRecord.arg3 = s.arg3 := by
  unfold State.defaultRecord; split <;> rfl
@[simp] theorem State.defaultRecord_res0 (s : State) : s.defaultRecord.res0 = s.res0 := by
  unfold State.defaultRecord; split <;> rfl
@[simp] theorem State.defaultRecord_res1 (s : State) : s.defaultRecord.res1 = s.res1 := by
  unfold State.defaultRecord; split <;> rfl
@[simp] theorem State.defaultRecord_result (s : State) : s.defaultRecord.result = s.result := by
  unfold State.defaultRecord; split <;> rfl
@[simp] theorem State.defaultRecord_crcState (s : State) : s.defaultRecord.crcState = s.crcState := by
  unfold State.defaultRecord; split <;> rfl
@[simp] theorem State.defaultRecord_framesOk (s : State) : s.defaultRecord.framesOk = s.framesOk := by
  unfold State.defaultRecord; split <;> rfl
@[simp] theorem State.defaultRecord_framesBad (s : State) : s.defaultRecord.framesBad = s.framesBad := by
  unfold State.defaultRecord; split <;> rfl
@[simp] theorem State.defaultRecord_lastUpdate (s : State) : s.defaultRecord.lastUpdate = s.lastUpdate := by
  unfold State.defaultRecord; split <;> rfl
@[simp] theorem State.defaultRecord_dstate (s : State) : s.defaultRecord.dstate = s.dstate := by
  unfold State.defaultRecord; split <;> rfl
@[simp] theorem State.defaultRecord_retState (s : State) : s.defaultRecord.retState = s.retState := by
  unfold State.defaultRecord; split <;> rfl
@[simp] theorem State.defaultRecord_sessKind (s : State) : s.defaultRecord.sessKind = s.sessKind := by
  unfold State.defaultRecord; split <;> rfl
@[simp] theorem State.defaultRecord_flowTarget (s : State) : s.defaultRecord.flowTarget = s.flowTarget := by
  unfold State.defaultRecord; split <;> rfl
@[simp] theorem State.defaultRecord_cfgDirty (s : State) : s.defaultRecord.cfgDirty = s.cfgDirty := by
  unfold State.defaultRecord; split <;> rfl
@[simp] theorem State.defaultRecord_sess (s : State) : s.defaultRecord.sess = s.sess := by
  unfold State.defaultRecord; split <;> rfl
@[simp] theorem State.defaultRecord_parser (s : State) : s.defaultRecord.parser = s.parser := by
  unfold State.defaultRecord; split <;> rfl
@[simp] theorem State.defaultRecord_rx (s : State) : s.defaultRecord.rx = s.rx := by
  unfold State.defaultRecord; split <;> rfl
@[simp] theorem State.defaultRecord_irqMasked (s : State) : s.defaultRecord.irqMasked = s.irqMasked := by
  unfold State.defaultRecord; split <;> rfl
@[simp] theorem State.defaultRecord_tx (s : State) : s.defaultRecord.tx = s.tx := by
  unfold State.defaultRecord; split <;> rfl
@[simp] theorem State.defaultRecord_handOff (s : State) : s.defaultRecord.handOff = s.handOff := by
  unfold State.defaultRecord; split <;> rfl
@[simp] theorem State.defaultRecord_env (s : State) : s.defaultRecord.env = s.env := by
  unfold State.defaultRecord; split <;> rfl

theorem State.loadRecord_cacheAb (s : State) (h : s.par.topology = .ab) :
    s.loadRecord.cacheAb = some (deserializeAb (s.mem.read s.par.cfgAddr 32)) := by
  simp [State.loadRecord, Config.recSize, h]

theorem State.loadRecord_cacheSr (s : State) (h : s.par.topology = .sr) :
    s.loadRecord.cacheSr = some (deserializeSr (s.mem.read s.par.cfgAddr 16)) := by
  simp [State.loadRecord, Config.recSize, h]

@[simp] theorem Session.keepCarry_base (u : Session) (l : List Byte) : (u.keepCarry l).base = u.base := by
  unfold Session.keepCarry; split <;> rfl
@[simp] theorem Session.keepCarry_limit (u : Session) (l : List Byte) : (u.keepCarry l).limit = u.limit := by
  unfold Session.keepCarry; split <;> rfl
@[simp] theorem Session.keepCarry_cursor (u : Session) (l : List Byte) :
    (u.keepCarry l).cursor = u.cursor := by
  unfold Session.keepCarry; split <;> rfl
@[simp] theorem Session.keepCarry_written (u : Session) (l : List Byte) :
    (u.keepCarry l).written = u.written := by
  unfold Session.keepCarry; split <;> rfl
@[simp] theorem Session.keepCarry_active (u : Session) (l : List Byte) :
    (u.keepCarry l).active = u.active := by
  unfold Session.keepCarry; split <;> rfl

end Sys2Proof.Machine
end

