-- ==== Sys2Proof/Laws/Engine.lean ====
section
/-! SUPPORT. How a computation of the engine runs: one equation per primitive, and what holds after a
computation (`After`), pushed through sequencing. -/

namespace Sys2Proof.Machine

/-! ### Running -/

theorem Engine.bind_run {α β : Type} (x : Engine α) (f : α → Engine β) (s : State) :
    (x >>= f) s = match x s with
      | .ok a t => f a t
      | .error e t => .error e t := by
  show EStateM.bind x f s = _
  unfold EStateM.bind
  rcases x s with ⟨_, _⟩ | ⟨_, _⟩ <;> rfl

@[simp] theorem Engine.pure_run {α : Type} (a : α) (s : State) : (pure a : Engine α) s = .ok a s := rfl

@[simp] theorem Engine.raise_run (c : Code) (s : State) : raise c s = .ok c s := rfl

@[simp] theorem Engine.getState_run (s : State) : getState s = .ok s s := rfl

@[simp] theorem Engine.update_run (f : State → State) (s : State) : update f s = .ok () (f s) := rfl

@[simp] theorem Engine.getState_bind {β : Type} (f : State → Engine β) (s : State) :
    (getState >>= f) s = f s s := rfl

@[simp] theorem Engine.update_bind {β : Type} (g : State → State) (f : Unit → Engine β) (s : State) :
    (update g >>= f) s = f () (g s) := rfl

@[simp] theorem Engine.pure_bind_run {α β : Type} (a : α) (f : α → Engine β) (s : State) :
    ((pure a : Engine α) >>= f) s = f a s := rfl

@[simp] theorem Engine.raise_bind {β : Type} (c : Code) (f : Code → Engine β) (s : State) :
    (raise c >>= f) s = f c s := rfl

@[simp] theorem Engine.ite_run {α : Type} (c : Prop) [Decidable c] (x y : Engine α) (s : State) :
    (if c then x else y) s = if c then x s else y s := by split <;> rfl

theorem Engine.bind_run_ok {α β : Type} {x : Engine α} {f : α → Engine β} {s t : State} {a : α}
    (h : x s = .ok a t) : (x >>= f) s = f a t := by rw [Engine.bind_run, h]

theorem Engine.bind_run_error {α β : Type} {x : Engine α} {f : α → Engine β} {s t : State} {e : Stop}
    (h : x s = .error e t) : (x >>= f) s = .error e t := by rw [Engine.bind_run, h]

theorem Engine.valueOf_run {α : Type} {e : Element} {v : State → Option α} {s : State} {a : α}
    (h : v s = some a) : valueOf e v s = .ok a s := by rw [valueOf, h]

/-! ### Commands -/

/-- An accepted command runs its body, and RESULT takes the code that ends it. -/
theorem runCommand_accepted {k : CmdClass} {body : Engine Code} {s : State}
    (h : refusalCode k s.dstate = none) :
    runCommand k body s = match body s with
      | .ok c t => .next (t.finish c)
      | .error .powerLost t => .next t
      | .error (.fault f) _ => .fault f := by
  rw [runCommand, h]
  simp only [Engine.bind_run]
  rcases body s with ⟨c, t⟩ | ⟨_ | f, t⟩ <;> rfl

theorem runCommand_ok {k : CmdClass} {body : Engine Code} {s t : State} {c : Code}
    (h : refusalCode k s.dstate = none) (hb : body s = .ok c t) :
    runCommand k body s = .next (t.finish c) := by rw [runCommand_accepted h, hb]

/-- A command that is not accepted changes RESULT only. -/
theorem runCommand_refused {k : CmdClass} {body : Engine Code} {s : State} {c : Code}
    (h : refusalCode k s.dstate = some c) : runCommand k body s = .next (s.finish c) := by
  rw [runCommand, h]

theorem refusalCode_pure {s : State} (h : s.AcceptsPure) : refusalCode .pure s.dstate = none := by
  rcases h with h | h | h <;> rw [h] <;> rfl

theorem refusalCode_write {s : State} (h : s.AcceptsWrite) : refusalCode .write s.dstate = none := by
  rw [show s.dstate = .noImage from h]; rfl

theorem refusalCode_app {s : State} (h : s.AcceptsApp) : refusalCode .app s.dstate = none := by
  rcases h with h | h <;> rw [h] <;> rfl

/-! ### What holds after a computation -/

/-- `x` run from `s` ends with a result and a state that meet `Q`, or loses power and leaves a state that
meets `L`; it reads no element that holds no value. -/
def After {α : Type} (x : Engine α) (s : State) (Q : α → State → Prop) (L : State → Prop) : Prop :=
  match x s with
  | .ok a t => Q a t
  | .error .powerLost t => L t
  | .error (.fault _) _ => False

section
variable {α β : Type} {Q : α → State → Prop} {L : State → Prop} {s : State}

@[simp] theorem after_pure {a : α} : After (pure a) s Q L ↔ Q a s := Iff.rfl

@[simp] theorem after_raise {c : Code} {Q : Code → State → Prop} : After (raise c) s Q L ↔ Q c s := Iff.rfl

@[simp] theorem after_getState {Q : State → State → Prop} : After getState s Q L ↔ Q s s := Iff.rfl

@[simp] theorem after_update {f : State → State} {Q : Unit → State → Prop} :
    After (update f) s Q L ↔ Q () (f s) := Iff.rfl

@[simp] theorem after_bind {x : Engine β} {f : β → Engine α} :
    After (x >>= f) s Q L ↔ After x s (fun b t => After (f b) t Q L) L := by
  unfold After
  rw [Engine.bind_run]
  rcases x s with ⟨c, t⟩ | ⟨_ | f, t⟩ <;> rfl

@[simp] theorem after_ite {c : Prop} [Decidable c] {x y : Engine α} :
    After (if c then x else y) s Q L ↔ if c then After x s Q L else After y s Q L := by
  split <;> rfl

theorem after_valueOf {e : Element} {v : State → Option α} {a : α} (h : v s = some a) :
    After (valueOf e v) s Q L ↔ Q a s := by
  unfold After
  rw [Engine.valueOf_run h]

theorem After.mono {x : Engine α} {Q' : α → State → Prop} {L' : State → Prop} (h : After x s Q L)
    (hQ : ∀ a t, Q a t → Q' a t) (hL : ∀ t, L t → L' t) : After x s Q' L' := by
  unfold After at h ⊢
  rcases hx : x s with ⟨c, t⟩ | ⟨_ | f, t⟩ <;> rw [hx] at h
  · exact hQ _ _ h
  · exact hL _ h
  · exact h

theorem After.and {x : Engine α} {Q' : α → State → Prop} {L' : State → Prop} (h : After x s Q L)
    (h' : After x s Q' L') : After x s (fun a t => Q a t ∧ Q' a t) fun t => L t ∧ L' t := by
  unfold After at h h' ⊢
  rcases hx : x s with ⟨c, t⟩ | ⟨_ | f, t⟩ <;> rw [hx] at h h'
  · exact ⟨h, h'⟩
  · exact ⟨h, h'⟩
  · exact h

theorem After.of_ok {x : Engine α} {a : α} {t : State} (hx : x s = .ok a t) (h : Q a t) :
    After x s Q L := by
  unfold After
  rw [hx]
  exact h

/-- Where power cannot be lost, a computation ends with a result. -/
theorem After.ok {x : Engine α} (h : After x s Q fun _ => False) : ∃ a t, x s = .ok a t ∧ Q a t := by
  unfold After at h
  rcases hx : x s with ⟨a, t⟩ | ⟨_ | f, t⟩ <;> rw [hx] at h
  · exact ⟨a, t, rfl, h⟩
  · exact h.elim
  · exact h.elim

end

end Sys2Proof.Machine
end

