-- ==== Sys2Proof/Laws/Memory.lean ====
section
/-! SUPPORT. Memory: reading after writing, and every memory operation keeps the canonical form. -/

namespace Sys2Proof.Machine

/-! ### Reading one byte -/

@[simp] theorem Memory.get_nil (a : Nat) : Memory.get [] a = erasedByte := rfl

theorem Memory.get_cons (c : Host.Cell) (m : Memory) (a : Nat) :
    Memory.get (c :: m) a = if c.1 = a then c.2 else Memory.get m a := rfl

/-- An address below every listed one is not listed. -/
theorem Memory.get_of_lt (m : Memory) (a : Nat) (h : ∀ c ∈ m, a < c.1) : m.get a = erasedByte := by
  induction m with
  | nil => rfl
  | cons c m ih =>
    have := h c (by simp)
    rw [Memory.get_cons, if_neg (by omega), ih fun d hd => h d (by simp [hd])]

/-- A byte that is not erased stands in the list. -/
theorem Memory.mem_of_get (m : Memory) (a : Nat) (h : m.get a ≠ erasedByte) : (a, m.get a) ∈ m := by
  induction m with
  | nil => exact absurd rfl h
  | cons c m ih =>
    rw [Memory.get_cons] at h ⊢
    split
    · next e => subst e; simp
    · next e => rw [if_neg e] at h; exact List.mem_cons_of_mem _ (ih h)

/-! ### The canonical form -/

theorem Memory.wf_nil : Memory.Wf [] := ⟨List.Pairwise.nil, by simp⟩

theorem Memory.wf_cons {c : Host.Cell} {m : Memory} :
    Memory.Wf (c :: m) ↔ c.2 ≠ erasedByte ∧ (∀ d ∈ m, c.1 < d.1) ∧ Memory.Wf m := by
  simp only [Memory.Wf, List.pairwise_cons, List.forall_mem_cons]
  tauto

/-- In canonical form the list holds exactly the bytes that are not erased. -/
theorem Memory.mem_iff {m : Memory} (h : Memory.Wf m) (a : Nat) (b : Byte) :
    (a, b) ∈ m ↔ b ≠ erasedByte ∧ m.get a = b := by
  induction m with
  | nil => simp [eq_comm]
  | cons c m ih =>
    obtain ⟨h1, h2, h3⟩ := Memory.wf_cons.1 h
    rw [List.mem_cons, Memory.get_cons, ih h3]
    by_cases e : c.1 = a
    · rw [if_pos e]
      constructor
      · rintro (rfl | ⟨hb, hm⟩)
        · exact ⟨h1, rfl⟩
        · exact absurd (hm ▸ Memory.get_of_lt m a fun d hd => e ▸ h2 d hd) hb
      · rintro ⟨-, rfl⟩
        exact .inl (by rw [← e])
    · rw [if_neg e]
      constructor
      · rintro (rfl | h)
        · exact absurd rfl e
        · exact h
      · exact .inr

/-- Equal bytes are equal lists. -/
theorem Memory.ext_get {m n : Memory} (hm : Memory.Wf m) (hn : Memory.Wf n)
    (h : ∀ a, m.get a = n.get a) : m = n := by
  have hs : ∀ {l : Memory}, Memory.Wf l → l.Pairwise fun c d => c.1 < d.1 := fun hl => hl.1
  refine List.Perm.eq_of_pairwise (fun a b _ _ h1 h2 => absurd h1 (by omega)) (hs hm) (hs hn) ?_
  have nodup : ∀ {l : Memory}, Memory.Wf l → l.Nodup := fun hl =>
    hl.1.imp fun {c d} hcd => by rintro rfl; exact absurd hcd (by omega)
  refine (List.perm_ext_iff_of_nodup (nodup hm) (nodup hn)).2 fun c => ?_
  obtain ⟨a, b⟩ := c
  rw [Memory.mem_iff hm, Memory.mem_iff hn, h]

/-! ### Writing -/

theorem Memory.set_bound {m : Memory} {a k : Nat} {b : Byte} (hk : k < a) (h : ∀ d ∈ m, k < d.1) :
    ∀ d ∈ m.set a b, k < d.1 := by
  induction m with
  | nil => unfold Memory.set; split <;> simp [hk]
  | cons c m ih =>
    have hc := h c (by simp)
    have hm : ∀ d ∈ m, k < d.1 := fun d hd => h d (by simp [hd])
    unfold Memory.set
    intro d hd
    split at hd
    · split at hd
      · exact h d hd
      · rcases List.mem_cons.1 hd with rfl | hd
        · exact hk
        · exact h d hd
    · split at hd
      · split at hd
        · exact hm d hd
        · rcases List.mem_cons.1 hd with rfl | hd
          · exact hk
          · exact hm d hd
      · rcases List.mem_cons.1 hd with rfl | hd
        · exact hc
        · exact ih hm d hd

/-- Setting a byte keeps the canonical form. -/
theorem Memory.set_wf {m : Memory} (h : Memory.Wf m) (a : Nat) (b : Byte) : Memory.Wf (m.set a b) := by
  induction m with
  | nil =>
    unfold Memory.set
    split
    · exact h
    · next hb => exact Memory.wf_cons.2 ⟨hb, by simp, Memory.wf_nil⟩
  | cons c m ih =>
    obtain ⟨h1, h2, h3⟩ := Memory.wf_cons.1 h
    unfold Memory.set
    split
    · next ha =>
      split
      · exact h
      · next hb =>
        refine Memory.wf_cons.2 ⟨hb, fun d hd => ?_, h⟩
        rcases List.mem_cons.1 hd with rfl | hd
        · exact ha
        · exact Nat.lt_trans ha (h2 d hd)
    · split
      · next ha =>
        split
        · exact h3
        · next hb => exact Memory.wf_cons.2 ⟨hb, fun d hd => by simpa [ha] using h2 d hd, h3⟩
      · exact Memory.wf_cons.2 ⟨h1, Memory.set_bound (by omega) h2, ih h3⟩

/-- Reading after setting a byte. -/
theorem Memory.get_set {m : Memory} (h : Memory.Wf m) (a : Nat) (b : Byte) (x : Nat) :
    (m.set a b).get x = if x = a then b else m.get x := by
  induction m with
  | nil =>
    unfold Memory.set
    by_cases hb : b = erasedByte
    · rw [if_pos hb]; split <;> simp_all
    · rw [if_neg hb, Memory.get_cons]
      by_cases e : x = a
      · simp [e]
      · rw [if_neg (by simpa using Ne.symm e), if_neg e]
  | cons c m ih =>
    obtain ⟨-, h2, h3⟩ := Memory.wf_cons.1 h
    unfold Memory.set
    split
    · next ha =>
      have far : Memory.get (c :: m) a = erasedByte := by
        refine Memory.get_of_lt _ _ fun d hd => ?_
        rcases List.mem_cons.1 hd with rfl | hd
        · exact ha
        · exact Nat.lt_trans ha (h2 d hd)
      by_cases hb : b = erasedByte
      · rw [if_pos hb]
        split
        · next e => rw [e, far, hb]
        · rfl
      · rw [if_neg hb, Memory.get_cons]
        by_cases e : x = a
        · simp [e]
        · rw [if_neg (by simpa using Ne.symm e), if_neg e]
    · split
      · next ha =>
        subst ha
        have far : Memory.get m c.1 = erasedByte := Memory.get_of_lt _ _ h2
        by_cases hb : b = erasedByte
        · rw [if_pos hb, Memory.get_cons]
          by_cases e : x = c.1
          · subst e; rw [if_pos rfl, far, hb]
          · rw [if_neg e, if_neg (Ne.symm e)]
        · rw [if_neg hb, Memory.get_cons, Memory.get_cons]
          by_cases e : x = c.1
          · simp [e]
          · rw [if_neg (by simpa using Ne.symm e), if_neg e, if_neg (Ne.symm e)]
      · rw [Memory.get_cons, Memory.get_cons, ih h3]
        by_cases e : c.1 = x
        · rw [if_pos e, if_pos e, if_neg (by omega)]
        · rw [if_neg e, if_neg e]

/-- Storing bytes keeps the canonical form. -/
theorem Memory.store_wf {m : Memory} (h : Memory.Wf m) (a : Nat) (l : List Byte) :
    Memory.Wf (m.store a l) := by
  induction l generalizing m a with
  | nil => exact h
  | cons b l ih => exact ih (Memory.set_wf h a b) (a + 1)

/-- Reading after storing bytes. -/
theorem Memory.get_store {m : Memory} (h : Memory.Wf m) (a : Nat) (l : List Byte) (x : Nat) :
    (m.store a l).get x = if a ≤ x ∧ x < a + l.length then l.getD (x - a) 0 else m.get x := by
  induction l generalizing m a with
  | nil => simp [Memory.store]
  | cons b l ih =>
    rw [Memory.store, ih (Memory.set_wf h a b), Memory.get_set h]
    by_cases e : x = a
    · subst e
      rw [if_neg (by omega), if_pos rfl, if_pos (by simp)]
      simp
    · rw [if_neg e]
      by_cases hx : a ≤ x ∧ x < a + (b :: l).length
      · obtain ⟨k, rfl⟩ : ∃ k, x = a + 1 + k := ⟨x - (a + 1), by omega⟩
        rw [if_pos (by simp at hx; omega), if_pos hx]
        have e1 : a + 1 + k - (a + 1) = k := by omega
        have e2 : a + 1 + k - a = k + 1 := by omega
        rw [e1, e2, List.getD_cons_succ]
      · rw [if_neg (by simp at hx ⊢; omega), if_neg hx]

/-- A store leaves every other byte alone. -/
theorem Memory.get_store_outside {m : Memory} (h : Memory.Wf m) {a x : Nat} {l : List Byte}
    (hx : x < a ∨ a + l.length ≤ x) : (m.store a l).get x = m.get x := by
  rw [Memory.get_store h, if_neg (by omega)]

/-- What a store leaves, as `StoredAt` says it. -/
theorem Memory.storedAt {m : Memory} (h : Memory.Wf m) (a : Nat) (l : List Byte) :
    StoredAt m (m.store a l) a l := by
  refine ⟨fun i hi => ?_, fun b hb => Memory.get_store_outside h hb⟩
  rw [Memory.get_store h, if_pos (by omega)]
  congr 1; omega

/-- Erasing a span keeps the canonical form. -/
theorem Memory.eraseSpan_wf {m : Memory} (h : Memory.Wf m) (a n : Nat) : Memory.Wf (m.eraseSpan a n) :=
  ⟨h.1.filter _, fun c hc => h.2 c (List.mem_filter.1 hc).1⟩

/-- Reading after erasing a span. -/
theorem Memory.get_eraseSpan (m : Memory) (a n x : Nat) :
    (m.eraseSpan a n).get x = if a ≤ x ∧ x < a + n then erasedByte else m.get x := by
  induction m with
  | nil => simp [Memory.eraseSpan]
  | cons c m ih =>
    unfold Memory.eraseSpan at ih ⊢
    rw [List.filter_cons, Memory.get_cons]
    by_cases hc : a ≤ c.1 ∧ c.1 < a + n
    · rw [if_neg (by simp [hc.1, hc.2]), ih]
      by_cases e : c.1 = x
      · rw [if_pos (e ▸ hc), if_pos (e ▸ hc)]
      · rw [if_neg e]
    · rw [if_pos (by simp; omega), Memory.get_cons, ih]
      by_cases e : c.1 = x
      · rw [if_pos e, if_pos e, if_neg (e ▸ hc)]
      · rw [if_neg e, if_neg e]

/-- What an erase leaves, as `ErasedAt` says it. -/
theorem Memory.erasedAt (m : Memory) (a n : Nat) : ErasedAt m (m.eraseSpan a n) a n :=
  ⟨fun b h1 h2 => by rw [Memory.get_eraseSpan, if_pos ⟨h1, h2⟩],
   fun b hb => by rw [Memory.get_eraseSpan, if_neg (by omega)]⟩

/-! ### Reading a span -/

@[simp] theorem Memory.read_length (m : Memory) (a n : Nat) : (m.read a n).length = n := by
  simp [Memory.read]

theorem Memory.read_getD (m : Memory) (a n i : Nat) (h : i < n) (d : Byte) :
    (m.read a n).getD i d = m.get (a + i) := by
  simp [Memory.read, List.getD_eq_getElem?_getD, h]

@[simp] theorem Memory.read_zero (m : Memory) (a : Nat) : m.read a 0 = [] := rfl

/-- Spans with equal bytes read equal. -/
theorem Memory.read_congr {m m' : Memory} {a n : Nat} (h : ∀ b, a ≤ b → b < a + n → m'.get b = m.get b) :
    m'.read a n = m.read a n := by
  unfold Memory.read
  refine List.map_congr_left fun i hi => h _ (by omega) ?_
  have := List.mem_range.1 hi
  omega

/-- A read is the two reads of its parts. -/
theorem Memory.read_append (m : Memory) (a n k : Nat) :
    m.read a (n + k) = m.read a n ++ m.read (a + n) k := by
  simp [Memory.read, List.range_add, Function.comp_def, Nat.add_assoc]

/-- Reading back what was stored. -/
theorem Memory.read_store {m : Memory} (h : Memory.Wf m) (a : Nat) (l : List Byte) :
    (m.store a l).read a l.length = l := by
  refine List.ext_getElem (by simp) fun i h1 h2 => ?_
  have := Memory.read_getD (m.store a l) a l.length i h2 0
  rw [Memory.get_store h, if_pos (by omega)] at this
  have e : a + i - a = i := by omega
  rw [e] at this
  simpa [List.getD_eq_getElem?_getD, h1, h2] using this

/-! ### The windows -/

theorem readable_one (p : Config) (a : Nat) :
    readable p a 1 = true ↔ (p.flashBase ≤ a ∧ a < p.flashEnd) ∨ (p.ramBase ≤ a ∧ a < p.ramEnd) := by
  simp only [readable, inFlash, inRam, inWindow, Bool.or_eq_true, Bool.and_eq_true, decide_eq_true_eq,
    beq_iff_eq]
  omega

/-- The listed addresses after a store are the old ones and those of the span. -/
theorem Memory.mem_store {m : Memory} (h : Memory.Wf m) (a : Nat) (l : List Byte) {c : Host.Cell}
    (hc : c ∈ m.store a l) : c ∈ m ∨ (a ≤ c.1 ∧ c.1 < a + l.length) := by
  obtain ⟨x, b⟩ := c
  obtain ⟨hb, hx⟩ := (Memory.mem_iff (Memory.store_wf h a l) x b).1 hc
  rw [Memory.get_store h] at hx
  split at hx
  · exact .inr ‹_›
  · exact .inl ((Memory.mem_iff h x b).2 ⟨hb, hx⟩)

/-- The listed addresses after an erase are among the old ones. -/
theorem Memory.mem_eraseSpan {m : Memory} {a n : Nat} {c : Host.Cell} (hc : c ∈ m.eraseSpan a n) : c ∈ m :=
  (List.mem_filter.1 hc).1

/-- Memory at reset is in canonical form. -/
theorem State.reset_memory_wf : Memory.Wf State.reset.mem := Memory.wf_nil

end Sys2Proof.Machine
end

