-- ==== Sys2Proof/Laws/FlashCalls.lean ====
section
/-! SUPPORT. What flash calls can do: once for any answers of the collaborator (`Flashing`), once under the
premise that no call fails. -/

namespace Sys2Proof.Machine

/-! ### Any answers -/

/-- What flash calls inside `[lo, hi)` can change, whatever the collaborator answers. -/
structure FlashStep (lo hi : Nat) (s t : State) : Prop where
  rest : t = { s with mem := t.mem, scratch := t.scratch, irqMasked := t.irqMasked, env := t.env }
  env : t.env = { s.env with flashAnswers := t.env.flashAnswers, clock := t.env.clock,
                             eraseCalls := t.env.eraseCalls, programCalls := t.env.programCalls }
  wf : Memory.Wf t.mem
  outside : ∀ a, a < lo ∨ hi ≤ a → t.mem.get a = s.mem.get a

theorem FlashStep.refl {lo hi : Nat} {s : State} (h : Memory.Wf s.mem) : FlashStep lo hi s s :=
  ⟨rfl, rfl, h, fun _ _ => rfl⟩

theorem FlashStep.trans {lo hi : Nat} {s t u : State} (h : FlashStep lo hi s t)
    (k : FlashStep lo hi t u) : FlashStep lo hi s u where
  rest := by rw [k.rest, h.rest]
  env := by rw [k.env, h.env]
  wf := k.wf
  outside a ha := by rw [k.outside a ha, h.outside a ha]

theorem FlashStep.mono {lo hi lo' hi' : Nat} {s t : State} (h : FlashStep lo hi s t) (h1 : lo' ≤ lo)
    (h2 : hi ≤ hi') : FlashStep lo' hi' s t where
  rest := h.rest
  env := h.env
  wf := h.wf
  outside a ha := h.outside a (by omega)

theorem FlashStep.par {lo hi : Nat} {s t : State} (h : FlashStep lo hi s t) : t.par = s.par := by
  rw [h.rest]

theorem FlashStep.dstate {lo hi : Nat} {s t : State} (h : FlashStep lo hi s t) : t.dstate = s.dstate := by
  rw [h.rest]

theorem FlashStep.sess {lo hi : Nat} {s t : State} (h : FlashStep lo hi s t) : t.sess = s.sess := by
  rw [h.rest]

theorem FlashStep.inputs {lo hi : Nat} {s t : State} (h : FlashStep lo hi s t) :
    t.env.inputs = s.env.inputs := by rw [h.env]

/-- A computation whose only effects are flash calls inside `[lo, hi)`, or a power loss inside one. -/
abbrev Flashing {α : Type} (lo hi : Nat) (x : Engine α) (s : State) : Prop :=
  After x s (fun _ t => FlashStep lo hi s t) fun t => ∃ u ram, FlashStep lo hi s u ∧ t = u.afterReset ram

theorem Flashing.bind {α β : Type} {lo hi : Nat} {x : Engine α} {f : α → Engine β} {s : State}
    (hx : Flashing lo hi x s) (hf : ∀ a t, FlashStep lo hi s t → Flashing lo hi (f a) t) :
    Flashing lo hi (x >>= f) s := by
  rw [Flashing, after_bind]
  refine hx.mono (fun a t h => ?_) fun t h => h
  refine (hf a t h).mono (fun b u k => h.trans k) ?_
  rintro u ⟨v, ram, k, rfl⟩
  exact ⟨v, ram, h.trans k, rfl⟩

theorem Flashing.mono {α : Type} {lo hi lo' hi' : Nat} {x : Engine α} {s : State}
    (h : Flashing lo hi x s) (h1 : lo' ≤ lo) (h2 : hi ≤ hi') : Flashing lo' hi' x s :=
  After.mono h (fun _ _ k => k.mono h1 h2) fun _ ⟨u, ram, k, e⟩ => ⟨u, ram, k.mono h1 h2, e⟩

theorem Flashing.pure {α : Type} {lo hi : Nat} {a : α} {s : State} (h : Memory.Wf s.mem) :
    Flashing lo hi (pure a) s := FlashStep.refl h

/-! ### One call -/

/-- The environment after an erase call. -/
abbrev State.erased (s : State) (m : Memory) : State :=
  { s with mem := m, env := { s.env.drawFlash s.flashAnswer with eraseCalls := s.env.eraseCalls + 1 } }

/-- The environment after a program call. -/
abbrev State.granuleWritten (s : State) (m : Memory) : State :=
  { s with mem := m, env := { s.env.drawFlash s.flashAnswer with programCalls := s.env.programCalls + 1 } }

theorem flashErase_ok {s : State} (h : s.flashAnswer.outcome = .ok) (sec : Nat) :
    flashErase sec s =
      .ok true (s.erased (s.mem.eraseSpan (s.par.flashBase + sec * s.par.sector) s.par.sector)) := by
  simp only [flashErase, h]

theorem flashErase_fail {s : State} (h : s.flashAnswer.outcome = .fail) (sec : Nat) :
    flashErase sec s = .ok false (s.erased (s.mem.store (s.par.flashBase + sec * s.par.sector)
      (s.flashAnswer.junk.take s.par.sector))) := by
  simp only [flashErase, h]

theorem flashErase_lostBefore {s : State} (h : s.flashAnswer.outcome = .lostBefore) (sec : Nat) :
    flashErase sec s =
      .error .powerLost
        ({ s with env := s.env.drawFlash s.flashAnswer }.afterReset s.flashAnswer.ram) := by
  simp only [flashErase, h]

theorem flashErase_lostDuring {s : State} (h : s.flashAnswer.outcome = .lostDuring) (sec : Nat) :
    flashErase sec s = .error .powerLost
      ((s.erased (s.mem.store (s.par.flashBase + sec * s.par.sector)
        (s.flashAnswer.junk.take s.par.sector))).afterReset s.flashAnswer.ram) := by
  simp only [flashErase, h]

theorem flashProgram_ok {s : State} {addr : Nat} {g new : List Byte} (h : s.flashAnswer.outcome = .ok)
    (hp : programmed s.par.overNonErased (s.mem.read addr s.par.granule) g = some new) :
    flashProgram addr g s = .ok true (s.granuleWritten (s.mem.store addr new)) := by
  simp only [flashProgram, h, hp]

theorem flashProgram_refused {s : State} {addr : Nat} {g : List Byte} (h : s.flashAnswer.outcome = .ok)
    (hp : programmed s.par.overNonErased (s.mem.read addr s.par.granule) g = none) :
    flashProgram addr g s =
      .ok false (s.granuleWritten (s.mem.store addr (s.flashAnswer.junk.take s.par.granule))) := by
  simp only [flashProgram, h, hp]

theorem flashProgram_fail {s : State} {addr : Nat} {g : List Byte} (h : s.flashAnswer.outcome = .fail) :
    flashProgram addr g s =
      .ok false (s.granuleWritten (s.mem.store addr (s.flashAnswer.junk.take s.par.granule))) := by
  simp only [flashProgram, h]

theorem flashProgram_lostBefore {s : State} {addr : Nat} {g : List Byte}
    (h : s.flashAnswer.outcome = .lostBefore) :
    flashProgram addr g s = .error .powerLost
      ({ s with env := s.env.drawFlash s.flashAnswer }.afterReset s.flashAnswer.ram) := by
  simp only [flashProgram, h]

theorem flashProgram_lostDuring {s : State} {addr : Nat} {g : List Byte}
    (h : s.flashAnswer.outcome = .lostDuring) :
    flashProgram addr g s = .error .powerLost
      ((s.granuleWritten (s.mem.store addr (s.flashAnswer.junk.take s.par.granule))).afterReset
        s.flashAnswer.ram) := by
  simp only [flashProgram, h]

theorem FlashStep.erased {lo hi : Nat} {s : State} {m : Memory} (h : Memory.Wf m)
    (ho : ∀ a, a < lo ∨ hi ≤ a → m.get a = s.mem.get a) : FlashStep lo hi s (s.erased m) :=
  ⟨rfl, rfl, h, ho⟩

theorem FlashStep.granuleWritten {lo hi : Nat} {s : State} {m : Memory} (h : Memory.Wf m)
    (ho : ∀ a, a < lo ∨ hi ≤ a → m.get a = s.mem.get a) : FlashStep lo hi s (s.granuleWritten m) :=
  ⟨rfl, rfl, h, ho⟩

theorem FlashStep.drawn {lo hi : Nat} {s : State} (h : Memory.Wf s.mem) :
    FlashStep lo hi s { s with env := s.env.drawFlash s.flashAnswer } :=
  ⟨rfl, rfl, h, fun _ _ => rfl⟩

theorem FlashStep.unmasked {lo hi : Nat} {s : State} (h : Memory.Wf s.mem) (b : Bool) :
    FlashStep lo hi s { s with irqMasked := b } := ⟨rfl, rfl, h, fun _ _ => rfl⟩

theorem FlashStep.scratched {lo hi : Nat} {s : State} (h : Memory.Wf s.mem) (l : List Byte) :
    FlashStep lo hi s { s with scratch := l } := ⟨rfl, rfl, h, fun _ _ => rfl⟩

theorem after_error {α : Type} {x : Engine α} {s t : State} {Q : α → State → Prop} {L : State → Prop}
    (hx : x s = .error .powerLost t) (h : L t) : After x s Q L := by
  unfold After
  rw [hx]
  exact h

/-- `FlashErase` changes its sector, whatever it answers (20_memory.md R96, R104). -/
theorem flashErase_flashing {s : State} (h : Memory.Wf s.mem) (sec : Nat) :
    Flashing (s.par.flashBase + sec * s.par.sector) (s.par.flashBase + sec * s.par.sector + s.par.sector)
      (flashErase sec) s := by
  have junk : ∀ (l : List Byte) (a : Nat), a < s.par.flashBase + sec * s.par.sector ∨
      s.par.flashBase + sec * s.par.sector + s.par.sector ≤ a →
      (s.mem.store (s.par.flashBase + sec * s.par.sector) (l.take s.par.sector)).get a = s.mem.get a :=
    fun l a ha => Memory.get_store_outside h (by simp; omega)
  cases ho : s.flashAnswer.outcome
  · exact .of_ok (flashErase_ok ho sec) (.erased (Memory.eraseSpan_wf h _ _) fun a ha => by
      rw [Memory.get_eraseSpan, if_neg (by omega)])
  · exact .of_ok (flashErase_fail ho sec) (.erased (Memory.store_wf h _ _) (junk _))
  · exact after_error (flashErase_lostBefore ho sec) ⟨_, _, .drawn h, rfl⟩
  · exact after_error (flashErase_lostDuring ho sec) ⟨_, _, .erased (Memory.store_wf h _ _) (junk _), rfl⟩

/-- An erase leaves the scratch buffer alone. -/
theorem flashErase_scratch (s : State) (sec : Nat) :
    After (flashErase sec) s (fun _ t => t.scratch = s.scratch) fun _ => True := by
  cases ho : s.flashAnswer.outcome
  · exact .of_ok (flashErase_ok ho sec) rfl
  · exact .of_ok (flashErase_fail ho sec) rfl
  · exact after_error (flashErase_lostBefore ho sec) trivial
  · exact after_error (flashErase_lostDuring ho sec) trivial

theorem programmed_length {o : OverNonErased} {old g new : List Byte} {n : Nat} (ho : old.length = n)
    (hg : g.length = n) (h : programmed o old g = some new) : new.length = n := by
  unfold programmed at h
  split at h
  · cases h; exact hg
  · cases o <;> simp at h
    subst h; simp [ho, hg]

/-- `FlashProgram` changes its granule, whatever it answers (20_memory.md R97, R104). -/
theorem flashProgram_flashing {s : State} (h : Memory.Wf s.mem) (addr : Nat) {g : List Byte}
    (hg : g.length = s.par.granule) :
    Flashing addr (addr + s.par.granule) (flashProgram addr g) s := by
  have junk : ∀ (l : List Byte) (a : Nat), a < addr ∨ addr + s.par.granule ≤ a →
      (s.mem.store addr (l.take s.par.granule)).get a = s.mem.get a :=
    fun l a ha => Memory.get_store_outside h (by simp; omega)
  cases ho : s.flashAnswer.outcome
  · cases hp : programmed s.par.overNonErased (s.mem.read addr s.par.granule) g with
    | none =>
      exact .of_ok (flashProgram_refused ho hp) (.granuleWritten (Memory.store_wf h _ _) (junk _))
    | some new =>
      have hl := programmed_length (Memory.read_length _ _ _) hg hp
      exact .of_ok (flashProgram_ok ho hp) (.granuleWritten (Memory.store_wf h _ _) fun a ha =>
        Memory.get_store_outside h (by omega))
  · exact .of_ok (flashProgram_fail ho) (.granuleWritten (Memory.store_wf h _ _) (junk _))
  · exact after_error (flashProgram_lostBefore ho) ⟨_, _, .drawn h, rfl⟩
  · exact after_error (flashProgram_lostDuring ho)
      ⟨_, _, .granuleWritten (Memory.store_wf h _ _) (junk _), rfl⟩

/-! ### Runs of calls -/

/-- A run of granule programs changes those granules only. -/
theorem programGranules_flashing {s : State} (h : Memory.Wf s.mem) (addr : Nat) {gs : List (List Byte)}
    (hg : ∀ g ∈ gs, g.length = s.par.granule) :
    Flashing addr (addr + gs.length * s.par.granule) (programGranules addr gs) s := by
  induction gs generalizing addr s with
  | nil => exact Flashing.pure h
  | cons g gs ih =>
    have hl : (g :: gs).length * s.par.granule = s.par.granule + gs.length * s.par.granule := by
      rw [List.length_cons, Nat.succ_mul, Nat.add_comm]
    rw [hl, programGranules, Flashing, after_bind, after_getState]
    refine Flashing.bind ((flashProgram_flashing h addr (hg g (by simp))).mono le_rfl (by omega))
      fun a t ht => ?_
    rw [Flashing, after_ite]
    split
    · refine (ih ht.wf _ fun g' hg' => ?_).mono (by omega) ?_
      · rw [ht.par]; exact hg g' (by simp [hg'])
      · rw [ht.par]; omega
    · exact Flashing.pure ht.wf

/-- Masking changes nothing but `irq_masked` (44_flash.md R274). -/
theorem masked_flashing {s : State} (h : Memory.Wf s.mem) {lo hi : Nat} {op : Engine Bool}
    (hop : ∀ t, FlashStep lo hi s t → Flashing lo hi op t) : Flashing lo hi (masked op) s := by
  have h0 : FlashStep lo hi s { s with irqMasked := true } := .unmasked h true
  rw [masked, Flashing, after_bind, after_update]
  refine After.mono (Q := fun _ t => FlashStep lo hi { s with irqMasked := true } t)
    (L := fun t => ∃ u ram, FlashStep lo hi { s with irqMasked := true } u ∧ t = u.afterReset ram)
    (Flashing.bind (hop _ h0) fun a t ht => ?_) (fun a t ht => h0.trans ht)
    fun t ⟨u, ram, hu, e⟩ => ⟨u, ram, h0.trans hu, e⟩
  rw [Flashing, after_bind, after_update]
  exact (FlashStep.unmasked ht.wf false)

/-- After a masked operation that ends, interrupts are unmasked (10_state.md R50). -/
theorem masked_irq {s t : State} {op : Engine Bool} {r : Bool} (h : masked op s = .ok r t) :
    t.irqMasked = false := by
  rw [masked, Engine.update_bind, Engine.bind_run] at h
  split at h
  · rw [Engine.update_bind, Engine.pure_run] at h
    injection h with _ h
    rw [← h]
  · cases h

end Sys2Proof.Machine
end

