-- ==== Sys2Proof/Laws/Parameters.lean ====
section
/-! SUPPORT. What the constraints of 00_scope.md R11 give: the geometry of sectors, granules and regions. -/

namespace Sys2Proof

/-- The constraints of 00_scope.md R11, as facts. -/
structure Config.Sound (p : Config) : Prop where
  sector_pos : 0 < p.sector
  base_aligned : p.sector ∣ p.flashBase
  windows : p.flashEnd ≤ p.ramBase ∨ p.ramEnd ≤ p.flashBase
  granule_dvd : p.granule ∣ p.sector
  sector_dvd : p.sector ∣ flashSize
  granule_even : 2 ∣ p.granule
  granule_pos : 0 < p.granule
  boot_dvd : p.sector ∣ p.bootSize
  boot_ge : p.sector ≤ p.bootSize
  region_dvd : p.sector ∣ p.regionSize
  region_ge : 8 ≤ p.regionSize
  a_ok : p.regionOk p.aBase = true
  b_ok : p.regionOk p.bBase = true
  ab_disjoint : disjointSpans p.aBase p.bBase p.regionSize = true
  staging_ok : p.regionOk p.stagingBase = true
  run_ok : p.regionOk p.runBase = true
  sr_disjoint : disjointSpans p.stagingBase p.runBase p.regionSize = true
  min_le_max : minLen ≤ p.maxLen
  max_lt : p.maxLen < 2 ^ 32
  cap_pos : 1 ≤ p.rxCap
  attempts_pos : 1 ≤ p.maxBootAttempts
  attempts_le : p.maxBootAttempts ≤ 255
  timeout_pos : 1 ≤ p.sessionTimeout
  timeout_lt : p.sessionTimeout < 2 ^ 32
  magic_ne : p.cfgMagic ≠ 0xFFFFFFFF
  idle_lt : p.idleEndLimit < 2 ^ 32
  blk_aligned : p.blkBase.toNat % 4 = 0
  flash_lt : p.flashEnd < 2 ^ 32
  ram_lt : p.ramEnd < 2 ^ 32
  rec_le : p.recSize ≤ p.sector

theorem isPow2_even {n : Nat} (h : isPow2 n = true) (h2 : 2 ≤ n) : 2 ∣ n := by
  simp only [isPow2, List.any_eq_true, beq_iff_eq] at h
  obtain ⟨k, -, rfl⟩ := h
  cases k with
  | zero => simp at h2
  | succ k => exact ⟨2 ^ k, by rw [Nat.pow_succ, Nat.mul_comm]⟩

theorem Config.sound {p : Config} (h : p.wellFormed = true) : p.Sound := by
  simp only [Config.wellFormed, Config.checks, List.all_cons, List.all_nil, Bool.and_true, id_eq,
    Bool.and_eq_true, Bool.or_eq_true, decide_eq_true_eq, beq_iff_eq, bne_iff_ne, ne_eq] at h
  obtain ⟨⟨h1, h2⟩, h3, ⟨⟨h4, h5⟩, h6⟩, ⟨h7, h8⟩, ⟨h9, h10⟩, ⟨h11, h12⟩, ⟨⟨h13, h14⟩, h15⟩,
    ⟨⟨h16, h17⟩, h18⟩, ⟨h19, h20⟩, h21, ⟨h22, h23⟩, ⟨h24, h25⟩, h26, h27, h28, ⟨h29, h30⟩, h31⟩ := h
  exact {
    sector_pos := Nat.pos_of_ne_zero h1
    base_aligned := Nat.dvd_of_mod_eq_zero h2
    windows := h3
    granule_dvd := Nat.dvd_of_mod_eq_zero h5
    sector_dvd := Nat.dvd_of_mod_eq_zero h6
    granule_even := isPow2_even h7 h8
    granule_pos := by omega
    boot_dvd := Nat.dvd_of_mod_eq_zero h9
    boot_ge := h10
    region_dvd := Nat.dvd_of_mod_eq_zero h11
    region_ge := h12
    a_ok := h13
    b_ok := h14
    ab_disjoint := h15
    staging_ok := h16
    run_ok := h17
    sr_disjoint := h18
    min_le_max := h19
    max_lt := h20
    cap_pos := h21
    attempts_pos := h22
    attempts_le := h23
    timeout_pos := h24
    timeout_lt := h25
    magic_ne := h26
    idle_lt := h27
    blk_aligned := h28
    flash_lt := h29
    ram_lt := h30
    rec_le := h31 }

/-- A region's bounds and alignment. -/
theorem Config.regionOk_iff {p : Config} {b : Nat} : p.regionOk b = true ↔
    p.flashBase + p.bootSize ≤ b ∧ b + p.regionSize ≤ p.flashEnd ∧ p.sector ∣ (b - p.flashBase) := by
  simp only [Config.regionOk, Bool.and_eq_true, decide_eq_true_eq, beq_iff_eq, Nat.dvd_iff_mod_eq_zero]
  tauto

theorem Config.Sound.regionBase_ok {p : Config} (h : p.Sound) (r : Role) :
    p.regionOk (Machine.regionBase p r) = true := by
  cases r
  · exact h.a_ok
  · exact h.b_ok
  · exact h.staging_ok
  · exact h.run_ok

/-- The config sector begins at a sector boundary below the regions. -/
theorem Config.Sound.cfgAddr_eq {p : Config} (h : p.Sound) :
    ∃ k, p.cfgAddr = p.flashBase + k * p.sector ∧ p.bootSize = (k + 1) * p.sector := by
  obtain ⟨k, hk⟩ := h.boot_dvd
  have hge := h.boot_ge
  have hpos := h.sector_pos
  cases k with
  | zero => rw [Nat.mul_zero] at hk; omega
  | succ k =>
    refine ⟨k, ?_, by rw [hk, Nat.mul_comm]⟩
    rw [Config.cfgAddr, hk, Nat.mul_succ, Nat.mul_comm p.sector k]
    omega

/-- The reference parameters meet their constraints. -/
theorem Config.reference_wellFormed : Config.reference.wellFormed = true := by decide +kernel

end Sys2Proof
end

