-- ==== Sys2Proof/Laws/Writer.lean ====
section
/-! SUPPORT. What the flash writer does (44_flash.md R271 to R281): which addresses it can change, whatever
the collaborator answers, and what flash holds after it when no call fails. -/

namespace Sys2Proof.Machine

/-! ### Byte lists -/

@[simp] theorem halfBytes_nil : halfBytes [] = [] := rfl

theorem halfBytes_cons (h : Half) (hs : List Half) : halfBytes (h :: hs) = le16 h ++ halfBytes hs := rfl

theorem halfBytes_append (a b : List Half) : halfBytes (a ++ b) = halfBytes a ++ halfBytes b := by
  simp [halfBytes]

@[simp] theorem halfBytes_length (hs : List Half) : (halfBytes hs).length = 2 * hs.length := by
  induction hs with
  | nil => rfl
  | cons h hs ih => rw [halfBytes_cons, List.length_append, ih, List.length_cons]; simp [le16]; omega

theorem le16_append (hi lo : Byte) : le16 (hi ++ lo) = [lo, hi] := by
  have bit : ∀ i, (hi ++ lo : Half).getLsbD i = if i < 8 then lo.getLsbD i else hi.getLsbD (i - 8) :=
    fun i => BitVec.getLsbD_append
  simp only [le16, List.cons.injEq, and_true]
  constructor
  · refine BitVec.eq_of_getLsbD_eq fun i h => ?_
    rw [BitVec.getLsbD_extractLsb', bit]
    simp [h]
  · refine BitVec.eq_of_getLsbD_eq fun i h => ?_
    rw [BitVec.getLsbD_extractLsb', bit]
    simp [h]

@[simp] theorem halves_length (l : List Byte) : (halves l).length = l.length / 2 := by
  induction l using halves.induct with
  | case1 lo hi rest ih => simp [halves, ih]; omega
  | case2 l h =>
    match l with
    | [] => rfl
    | [_] => simp [halves]
    | a :: b :: r => exact absurd rfl (h a b r)

/-- Halfwords stored are the bytes they were taken from (20_memory.md R85). -/
theorem halfBytes_halves (l : List Byte) (h : l.length % 2 = 0) : halfBytes (halves l) = l := by
  induction l using halves.induct with
  | case1 lo hi rest ih =>
    rw [halves, halfBytes_cons, le16_append, ih (by simp at h; omega)]; rfl
  | case2 l hl =>
    match l with
    | [] => rfl
    | [_] => simp at h
    | a :: b :: r => exact absurd rfl (hl a b r)

theorem halves_take (l : List Byte) (n : Nat) : (halves l).take n = halves (l.take (2 * n)) := by
  induction n generalizing l with
  | zero => simp [halves]
  | succ n ih =>
    match l with
    | [] => simp [halves]
    | [_] => simp [halves, show 2 * (n + 1) = 2 * n + 1 + 1 by omega]
    | a :: b :: r => simp [halves, show 2 * (n + 1) = 2 * n + 1 + 1 by omega, ih]

theorem padTo_length (n : Nat) (b : Byte) (l : List Byte) : (padTo n b l).length = max l.length n := by
  simp [padTo]; omega

theorem splice_length {l seg : List Byte} {off : Nat} (h : off + seg.length ≤ l.length) :
    (splice l off seg).length = l.length := by
  simp [splice]; omega

theorem pieces_length (g n : Nat) (l : List Byte) : (pieces g n l).length = n := by simp [pieces]

theorem pieces_all {g n : Nat} {l : List Byte} (h : n * g ≤ l.length) : ∀ x ∈ pieces g n l, x.length = g := by
  intro x hx
  simp only [pieces, List.mem_map, List.mem_range] at hx
  obtain ⟨q, hq, rfl⟩ := hx
  have : (q + 1) * g ≤ n * g := Nat.mul_le_mul_right g hq
  simp [Nat.succ_mul] at this ⊢
  omega

theorem pieces_succ (g n : Nat) (l : List Byte) : pieces g (n + 1) l = l.take g :: pieces g n (l.drop g) := by
  simp [pieces, List.range_succ_eq_map, Function.comp_def, Nat.succ_mul, Nat.add_comm]

/-- The granules of a program sequence are the bytes, in order. -/
theorem pieces_flatten (g n : Nat) (l : List Byte) : (pieces g n l).flatten = l.take (n * g) := by
  induction n generalizing l with
  | zero => simp [pieces]
  | succ n ih => rw [pieces_succ, List.flatten_cons, ih, Nat.succ_mul, Nat.add_comm, List.take_add]

theorem le_ceilDiv_mul (x : Nat) {m : Nat} (h : 0 < m) : x ≤ ceilDiv x m * m := by
  unfold ceilDiv
  have := Nat.div_add_mod (x + m - 1) m
  have := Nat.mod_lt (x + m - 1) h
  rw [Nat.mul_comm]
  omega

theorem ceilDiv_mul_lt (x : Nat) {m : Nat} (h : 0 < m) : ceilDiv x m * m < x + m := by
  unfold ceilDiv
  have := Nat.div_mul_le_self (x + m - 1) m
  omega

/-- Rounding up to granules does not leave a granule-aligned bound. -/
theorem ceilDiv_mul_le {x y m : Nat} (h : 0 < m) (hx : x ≤ y) (hy : m ∣ y) : ceilDiv x m * m ≤ y := by
  obtain ⟨k, rfl⟩ := hy
  have h1 := ceilDiv_mul_lt x h
  have h2 : ceilDiv x m * m < (k + 1) * m := by rw [Nat.succ_mul, Nat.mul_comm k]; omega
  have h3 := Nat.lt_of_mul_lt_mul_right h2
  rw [Nat.mul_comm m]
  exact Nat.mul_le_mul_right m (by omega)

/-! ### Which addresses the writer can change -/

/-- `NoCheck` changes its granules only (44_flash.md R277). -/
theorem noCheck_flashing {s : State} (h : Memory.Wf s.mem) (hp : s.par.Sound) (a : Nat) (hw : List Half) :
    Flashing a (a + ceilDiv (2 * hw.length) s.par.granule * s.par.granule) (noCheck a hw) s := by
  rw [noCheck, Flashing, after_bind, after_getState]
  have hl := le_ceilDiv_mul (2 * hw.length) hp.granule_pos
  have := programGranules_flashing h a
    (pieces_all (n := ceilDiv (2 * hw.length) s.par.granule) (g := s.par.granule)
      (l := padTo (ceilDiv (2 * hw.length) s.par.granule * s.par.granule) erasedByte (halfBytes hw))
      (by rw [padTo_length]; omega))
  rwa [pieces_length] at this

/-- The erase path changes its sector only (44_flash.md R271). -/
theorem eraseMergeProgram_flashing {s : State} (h : Memory.Wf s.mem) (hp : s.par.Sound) (sec : Nat)
    {off : Nat} {seg : List Half} (hs : s.scratch.length = s.par.sector)
    (hoff : 2 * off + 2 * seg.length ≤ s.par.sector) :
    Flashing (sectorBase s.par sec) (sectorBase s.par sec + s.par.sector)
      (eraseMergeProgram sec off seg) s := by
  obtain ⟨k, hk⟩ := hp.granule_dvd
  have hdiv : s.par.sector / s.par.granule * s.par.granule = s.par.sector := by
    rw [hk, Nat.mul_div_cancel_left _ hp.granule_pos, Nat.mul_comm]
  have hlen : (splice s.scratch (2 * off) (halfBytes seg)).length = s.par.sector := by
    rw [splice_length] <;> simp [hs]; omega
  have h0 : FlashStep (sectorBase s.par sec) (sectorBase s.par sec + s.par.sector) s
    { s with irqMasked := true } := .unmasked h true
  have herase := (flashErase_flashing (s := { s with irqMasked := true }) h sec).and
    (flashErase_scratch { s with irqMasked := true } sec)
  rw [eraseMergeProgram, masked, Flashing, after_bind, after_update, after_bind, after_bind]
  refine After.mono herase (fun r t ht => ?_) fun t ht => ?_
  · obtain ⟨ht, hscr⟩ := ht
    have ht : FlashStep (sectorBase s.par sec) (sectorBase s.par sec + s.par.sector) s t := h0.trans ht
    have last : ∀ (b : Bool) (u : State),
        FlashStep (sectorBase s.par sec) (sectorBase s.par sec + s.par.sector) s u →
        After (do update fun s => { s with irqMasked := false }; pure b) u
          (fun _ t => FlashStep (sectorBase s.par sec) (sectorBase s.par sec + s.par.sector) s t)
          fun t => ∃ u ram, FlashStep (sectorBase s.par sec) (sectorBase s.par sec + s.par.sector) s u ∧
            t = u.afterReset ram :=
      fun b u hu => hu.trans (.unmasked hu.wf false)
    rw [after_ite]
    split
    · rw [after_bind, after_update, after_bind, after_getState]
      have hscr' : t.scratch = s.scratch := hscr
      have h1 := ht.trans (.scratched ht.wf (splice t.scratch (2 * off) (halfBytes seg)))
      have hpar : t.par = s.par := ht.par
      have hg := programGranules_flashing h1.wf (sectorBase s.par sec)
        (gs := pieces s.par.granule (s.par.sector / s.par.granule) (splice s.scratch (2 * off) (halfBytes seg)))
        (by rw [h1.par]; exact pieces_all (by rw [hlen, hdiv]))
      rw [pieces_length, h1.par, hdiv] at hg
      simp only [hpar, hscr'] at h1 hg ⊢
      refine After.mono hg (fun b u hu => last b u (h1.trans hu)) ?_
      rintro u ⟨v, ram, hv, e⟩
      exact ⟨v, ram, h1.trans hv, e⟩
    · rw [after_pure]
      exact last _ _ ht
  · obtain ⟨⟨u, ram, hu, e⟩, -⟩ := ht
    exact ⟨u, ram, h0.trans hu, e⟩

/-- One turn of the writer changes its sector only (44_flash.md R271). -/
theorem writeSector_flashing {s : State} (h : Memory.Wf s.mem) (hp : s.par.Sound) (sec : Nat) {off : Nat}
    {seg : List Half} (hoff : 2 * off + 2 * seg.length ≤ s.par.sector)
    (hal : s.par.granule ∣ 2 * off) :
    Flashing (sectorBase s.par sec) (sectorBase s.par sec + s.par.sector) (writeSector sec off seg) s := by
  rw [writeSector, Flashing, after_bind, after_update, after_bind, after_getState]
  have h1 : FlashStep (sectorBase s.par sec) (sectorBase s.par sec + s.par.sector) s
    { s with scratch := s.mem.read (sectorBase s.par sec) s.par.sector } := .scratched h _
  have lift : ∀ x : Engine Bool,
      Flashing (sectorBase s.par sec) (sectorBase s.par sec + s.par.sector) x
        { s with scratch := s.mem.read (sectorBase s.par sec) s.par.sector } →
      After x { s with scratch := s.mem.read (sectorBase s.par sec) s.par.sector }
        (fun _ t => FlashStep (sectorBase s.par sec) (sectorBase s.par sec + s.par.sector) s t)
        fun t => ∃ u ram, FlashStep (sectorBase s.par sec) (sectorBase s.par sec + s.par.sector) s u ∧
          t = u.afterReset ram := fun x hx =>
    After.mono hx (fun _ _ ht => h1.trans ht) fun _ ⟨u, ram, hu, e⟩ => ⟨u, ram, h1.trans hu, e⟩
  rw [after_ite]
  split
  · exact lift _ (eraseMergeProgram_flashing (s := { s with scratch := s.mem.read (sectorBase s.par sec) s.par.sector }) h hp sec (by simp) hoff)
  · refine lift _ (masked_flashing (s := { s with scratch := s.mem.read (sectorBase s.par sec) s.par.sector }) h fun t ht => ?_)
    refine (noCheck_flashing ht.wf (ht.par ▸ hp) _ _).mono (show sectorBase s.par sec ≤
      sectorBase s.par sec + 2 * off by omega) ?_
    rw [ht.par]
    obtain ⟨j, hj⟩ := hal
    have := ceilDiv_mul_le (x := 2 * seg.length) (y := s.par.sector - 2 * off) hp.granule_pos (by omega)
      (Nat.dvd_sub hp.granule_dvd ⟨j, hj⟩)
    show sectorBase s.par sec + 2 * off + ceilDiv (2 * seg.length) s.par.granule * s.par.granule ≤ _
    omega

/-- Where the writer's next turn stands: the sector of `a` and the halfword offset in it (44_flash.md R271). -/
theorem Config.Sound.turn {p : Config} (hp : p.Sound) {a : Nat} (ha : p.flashBase ≤ a)
    (hal : p.granule ∣ a - p.flashBase) :
    sectorBase p (sectorOf p a) ≤ a ∧ a < sectorBase p (sectorOf p a) + p.sector
      ∧ p.granule ∣ 2 * ((a - sectorBase p (sectorOf p a)) / 2)
      ∧ 2 * ((a - sectorBase p (sectorOf p a)) / 2) = a - sectorBase p (sectorOf p a) := by
  have h1 := Nat.div_add_mod (a - p.flashBase) p.sector
  have h2 := Nat.mod_lt (a - p.flashBase) hp.sector_pos
  have e : a - sectorBase p (sectorOf p a) = (a - p.flashBase) % p.sector := by
    rw [sectorBase, sectorOf, Nat.mul_comm]; omega
  have hg : p.granule ∣ a - sectorBase p (sectorOf p a) := by
    rw [e]
    exact (Nat.dvd_mod_iff hp.granule_dvd).2 hal
  have h3 : 2 * ((a - sectorBase p (sectorOf p a)) / 2) = a - sectorBase p (sectorOf p a) :=
    Nat.mul_div_cancel' (hp.granule_even.trans hg)
  refine ⟨?_, ?_, by rwa [h3], h3⟩
  · rw [sectorBase, sectorOf, Nat.mul_comm]; omega
  · rw [sectorBase, sectorOf, Nat.mul_comm]; omega

theorem Config.Sound.sector_even {p : Config} (hp : p.Sound) : 2 ∣ p.sector :=
  hp.granule_even.trans hp.granule_dvd

/-- The writer changes only the sectors its target lies in, whatever the collaborator answers. -/
theorem writeLoop_flashing {turns i j : Nat} {s : State} {a : Nat} {hw : List Half} (h : Memory.Wf s.mem)
    (hp : s.par.Sound) (ha : sectorBase s.par i ≤ a)
    (hal : hw ≠ [] → s.par.granule ∣ a - s.par.flashBase)
    (hj : hw ≠ [] → a + 2 * hw.length ≤ sectorBase s.par j) :
    Flashing (sectorBase s.par i) (sectorBase s.par j) (writeLoop turns a hw) s := by
  induction turns generalizing s a hw with
  | zero => exact Flashing.pure h
  | succ turns ih =>
    rw [writeLoop, Flashing, after_ite]
    split
    · exact Flashing.pure h
    · next hne =>
      rw [after_bind, after_getState]
      have hne : hw ≠ [] := by simpa using hne
      have hj := hj hne
      have hal := hal hne
      have hbase : s.par.flashBase ≤ a := by unfold sectorBase at ha; omega
      obtain ⟨t1, t2, t3, t4⟩ := Config.Sound.turn hp hbase hal
      obtain ⟨e, he⟩ := Config.Sound.sector_even hp
      have hn : 0 < hw.length := List.length_pos_iff.2 hne
      have hlo : sectorBase s.par i ≤ sectorBase s.par (sectorOf s.par a) := by
        have : i < sectorOf s.par a + 1 := Nat.lt_of_mul_lt_mul_right (a := s.par.sector) (by
          unfold sectorBase at ha t2; rw [Nat.succ_mul]; omega)
        unfold sectorBase
        exact Nat.add_le_add_left (Nat.mul_le_mul_right _ (by omega)) _
      have hhi : sectorBase s.par (sectorOf s.par a) + s.par.sector ≤ sectorBase s.par j := by
        have : sectorOf s.par a < j := Nat.lt_of_mul_lt_mul_right (a := s.par.sector) (by
          unfold sectorBase at hj t1; omega)
        have := Nat.mul_le_mul_right s.par.sector (show sectorOf s.par a + 1 ≤ j from this)
        rw [Nat.succ_mul] at this
        unfold sectorBase; omega
      have hk : 2 * ((a - sectorBase s.par (sectorOf s.par a)) / 2)
          + 2 * (hw.take (min (s.par.sector / 2 - (a - sectorBase s.par (sectorOf s.par a)) / 2)
            hw.length)).length ≤ s.par.sector := by
        rw [List.length_take]; omega
      refine Flashing.bind ((writeSector_flashing h hp _ hk t3).mono hlo hhi) fun r t ht => ?_
      rw [Flashing, after_ite]
      split
      · have hpar := ht.par
        have := ih (s := t) (a := a + 2 * min (s.par.sector / 2 -
            (a - sectorBase s.par (sectorOf s.par a)) / 2) hw.length)
          (hw := hw.drop (min (s.par.sector / 2 - (a - sectorBase s.par (sectorOf s.par a)) / 2) hw.length))
          ht.wf (hpar ▸ hp) (by rw [hpar]; omega) ?_ ?_
        · rwa [hpar] at this
        · intro hrest
          rw [hpar]
          rcases Nat.le_total (s.par.sector / 2 - (a - sectorBase s.par (sectorOf s.par a)) / 2)
            hw.length with hle | hle
          · rw [Nat.min_eq_left hle]
            have : a + 2 * (s.par.sector / 2 - (a - sectorBase s.par (sectorOf s.par a)) / 2)
                - s.par.flashBase = (sectorOf s.par a + 1) * s.par.sector := by
              have hx : sectorBase s.par (sectorOf s.par a)
                = s.par.flashBase + sectorOf s.par a * s.par.sector := rfl
              rw [show (sectorOf s.par a + 1) * s.par.sector
                = sectorOf s.par a * s.par.sector + s.par.sector from Nat.succ_mul _ _]
              clear hk hlo hhi
              generalize sectorBase s.par (sectorOf s.par a) = x at *
              generalize sectorOf s.par a * s.par.sector = y at *
              omega
            rw [this]
            exact Dvd.dvd.mul_left hp.granule_dvd _
          · rw [Nat.min_eq_right hle, List.drop_length] at hrest
            exact absurd rfl hrest
        · intro _
          rw [hpar, List.length_drop]; omega
      · exact Flashing.pure ht.wf

end Sys2Proof.Machine
end

