-- ==== Sys2Proof/Laws/FlashOk.lean ====
section
/-! SUPPORT. What flash holds after the flash operations when no call fails (20_memory.md R98): the erase, a run
of granule programs, the program primitive, the persist of a record, and the erase of a region. -/

namespace Sys2Proof.Machine

theorem FlashCalls.refl (e : Env) : FlashCalls e e 0 0 := by simp [FlashCalls]

theorem FlashCalls.trans {e f g : Env} {a b c d : Nat} (h : FlashCalls e f a b) (k : FlashCalls f g c d) :
    FlashCalls e g (a + c) (b + d) := by
  unfold FlashCalls at h k ⊢
  rw [k, h]
  simp only [List.drop_drop, Env.mk.injEq, true_and, and_true]
  refine ⟨?_, by omega, by omega⟩
  congr 1; omega

/-- `s` has become `t` by `e` erases and `p` programs, none of which failed; memory is now `m`. -/
def FlashDone (s t : State) (m : Memory) (e p : Nat) : Prop :=
  t = { s with mem := m, env := t.env } ∧ FlashCalls s.env t.env e p ∧ t.flashOk = true

theorem FlashDone.refl {s : State} (h : s.flashOk = true) : FlashDone s s s.mem 0 0 :=
  ⟨rfl, .refl _, h⟩

theorem FlashDone.trans {s t u : State} {m n : Memory} {a b c d : Nat} (h : FlashDone s t m a b)
    (k : FlashDone t u n c d) : FlashDone s u n (a + c) (b + d) :=
  ⟨by rw [k.1, h.1], h.2.1.trans k.2.1, k.2.2⟩

theorem FlashDone.mem {s t : State} {m : Memory} {a b : Nat} (h : FlashDone s t m a b) : t.mem = m := by
  rw [h.1]

theorem FlashDone.par {s t : State} {m : Memory} {a b : Nat} (h : FlashDone s t m a b) : t.par = s.par := by
  rw [h.1]

/-- The next answer is ok. -/
theorem flashOk_answer {s : State} (h : s.flashOk = true) : s.flashAnswer.outcome = .ok := by
  unfold State.flashOk at h
  unfold State.flashAnswer
  rcases hl : s.env.flashAnswers with _ | ⟨a, l⟩ <;> rw [hl] at h
  · rcases hr : s.env.flashRest with _ | a <;> rw [hr] at h
    · simp at h
    · simpa using h
  · simp at h ⊢
    exact h.1.1

theorem flashOk_tail {s t : State} (h : s.flashOk = true)
    (ht : t.env.flashAnswers = s.env.flashAnswers.tail) (hr : t.env.flashRest = s.env.flashRest) :
    t.flashOk = true := by
  unfold State.flashOk at h ⊢
  rw [ht, hr]
  simp only [Bool.and_eq_true, List.all_eq_true] at h ⊢
  exact ⟨fun a ha => h.1 a (List.mem_of_mem_tail ha), h.2⟩

theorem flashErase_done {s : State} (h : s.flashOk = true) (sec : Nat) :
    ∃ t, flashErase sec s = .ok true t
      ∧ FlashDone s t (s.mem.eraseSpan (s.par.flashBase + sec * s.par.sector) s.par.sector) 1 0 :=
  ⟨_, flashErase_ok (flashOk_answer h) sec, rfl, by simp [FlashCalls, Env.drawFlash, List.drop_one],
    flashOk_tail h rfl rfl⟩

theorem programmed_erased {o : OverNonErased} {m : Memory} {a n : Nat} {g : List Byte}
    (h : ∀ b, a ≤ b → b < a + n → m.get b = erasedByte) : programmed o (m.read a n) g = some g := by
  unfold programmed
  rw [if_pos]
  simp only [Memory.read, List.all_map, List.all_eq_true, Function.comp, beq_iff_eq]
  intro i hi
  have := List.mem_range.1 hi
  exact h _ (by omega) (by omega)

theorem flashProgram_done {s : State} (h : s.flashOk = true) {addr : Nat} {g : List Byte}
    (he : ∀ b, addr ≤ b → b < addr + s.par.granule → s.mem.get b = erasedByte) :
    ∃ t, flashProgram addr g s = .ok true t ∧ FlashDone s t (s.mem.store addr g) 0 1 :=
  ⟨_, flashProgram_ok (flashOk_answer h) (programmed_erased he), rfl,
    by simp [FlashCalls, Env.drawFlash, List.drop_one], flashOk_tail h rfl rfl⟩

theorem Memory.store_append (m : Memory) (a : Nat) (l k : List Byte) :
    m.store a (l ++ k) = (m.store a l).store (a + l.length) k := by
  induction l generalizing m a with
  | nil => simp [Memory.store]
  | cons b l ih =>
    rw [List.cons_append, Memory.store, ih, Memory.store, List.length_cons]
    congr 1; omega

/-- Programs over erased granules write their bytes (44_flash.md R276). -/
theorem programGranules_done {s : State} (hm : Memory.Wf s.mem) (h : s.flashOk = true) {addr : Nat}
    {gs : List (List Byte)} (hg : ∀ g ∈ gs, g.length = s.par.granule)
    (he : ∀ b, addr ≤ b → b < addr + gs.length * s.par.granule → s.mem.get b = erasedByte) :
    ∃ t, programGranules addr gs s = .ok true t
      ∧ FlashDone s t (s.mem.store addr gs.flatten) 0 gs.length := by
  induction gs generalizing addr s with
  | nil => exact ⟨s, rfl, .refl h⟩
  | cons g gs ih =>
    have hl : (g :: gs).length * s.par.granule = s.par.granule + gs.length * s.par.granule := by
      rw [List.length_cons, Nat.succ_mul, Nat.add_comm]
    have hg0 := hg g (by simp)
    obtain ⟨t, ht, hd⟩ := flashProgram_done h (addr := addr) (g := g) fun b h1 h2 => he b h1 (by omega)
    have hmem := hd.mem
    obtain ⟨u, hu, hdu⟩ := ih (s := t) (addr := addr + s.par.granule) (by rw [hmem]; exact Memory.store_wf hm _ _)
      hd.2.2 (fun g' hg' => by rw [hd.par]; exact hg g' (by simp [hg'])) fun b h1 h2 => by
        rw [hmem, Memory.get_store_outside hm (by omega)]
        rw [hd.par] at h2
        exact he b (by omega) (by omega)
    refine ⟨u, ?_, ?_⟩
    · rw [programGranules, Engine.getState_bind, Engine.bind_run_ok ht]
      exact hu
    · have := hd.trans hdu
      rw [hmem] at this
      rw [List.flatten_cons, Memory.store_append, hg0, List.length_cons, Nat.add_comm gs.length]
      exact this

/-- A masked operation that has its effect leaves interrupts unmasked (44_flash.md R274). -/
theorem masked_done {s t : State} {op : Engine Bool} {m : Memory} {e p : Nat} {r : Bool}
    (hi : s.irqMasked = false) (ht : op { s with irqMasked := true } = .ok r t)
    (hd : FlashDone { s with irqMasked := true } t m e p) :
    ∃ u, masked op s = .ok r u ∧ FlashDone s u m e p := by
  refine ⟨{ t with irqMasked := false }, ?_, ?_, hd.2.1, hd.2.2⟩
  · rw [masked, Engine.update_bind, Engine.bind_run_ok ht]; rfl
  · rw [hd.1, ← hi]

/-- `NoCheck` over erased granules (44_flash.md R276, R277): the bytes, padded with 0xFF. -/
theorem noCheck_done {s : State} (hm : Memory.Wf s.mem) (hp : s.par.Sound) (h : s.flashOk = true) {a : Nat}
    {hw : List Half} (he : ∀ b, a ≤ b →
      b < a + ceilDiv (2 * hw.length) s.par.granule * s.par.granule → s.mem.get b = erasedByte) :
    ∃ t, noCheck a hw s = .ok true t ∧ FlashDone s t
      (s.mem.store a (padTo (ceilDiv (2 * hw.length) s.par.granule * s.par.granule) erasedByte (halfBytes hw)))
      0 (ceilDiv (2 * hw.length) s.par.granule) := by
  have hl := le_ceilDiv_mul (2 * hw.length) hp.granule_pos
  have hlen : (padTo (ceilDiv (2 * hw.length) s.par.granule * s.par.granule) erasedByte
      (halfBytes hw)).length = ceilDiv (2 * hw.length) s.par.granule * s.par.granule := by
    rw [padTo_length, halfBytes_length]; omega
  obtain ⟨t, ht, hd⟩ := programGranules_done hm h (addr := a)
    (gs := pieces s.par.granule (ceilDiv (2 * hw.length) s.par.granule)
      (padTo (ceilDiv (2 * hw.length) s.par.granule * s.par.granule) erasedByte (halfBytes hw)))
    (pieces_all (by rw [hlen])) (by rw [pieces_length]; exact he)
  rw [pieces_flatten, pieces_length, List.take_of_length_le (by rw [hlen])] at hd
  exact ⟨t, ht, hd⟩

/-- Erasing sectors one by one erases their span (44_flash.md R280). -/
theorem eraseSectors_done {s : State} (hm : Memory.Wf s.mem) (hi : s.irqMasked = false)
    (h : s.flashOk = true) (sec n : Nat) :
    ∃ t, eraseSectors sec n s = .ok true t
      ∧ FlashDone s t (s.mem.eraseSpan (sectorBase s.par sec) (n * s.par.sector)) n 0 := by
  induction n generalizing s sec with
  | zero =>
    refine ⟨s, rfl, ?_⟩
    have : s.mem.eraseSpan (sectorBase s.par sec) (0 * s.par.sector) = s.mem :=
      Memory.ext_get (Memory.eraseSpan_wf hm _ _) hm fun a => by
        rw [Memory.get_eraseSpan, if_neg (by omega)]
    rw [this]
    exact .refl h
  | succ n ih =>
    obtain ⟨t, ht, hd⟩ := flashErase_done (s := { s with irqMasked := true }) h sec
    obtain ⟨u, hu, hdu⟩ := masked_done hi ht hd
    have hmem := hdu.mem
    obtain ⟨v, hv, hdv⟩ := ih (s := u) (by rw [hmem]; exact Memory.eraseSpan_wf hm _ _)
      (by rw [hdu.1]; exact hi) hdu.2.2 (sec + 1)
    refine ⟨v, ?_, ?_⟩
    · rw [eraseSectors, Engine.bind_run_ok hu]
      exact hv
    · have := hdu.trans hdv
      rw [hmem, hdu.par] at this
      have e : (s.mem.eraseSpan (s.par.flashBase + sec * s.par.sector) s.par.sector).eraseSpan
          (sectorBase s.par (sec + 1)) (n * s.par.sector)
          = s.mem.eraseSpan (sectorBase s.par sec) ((n + 1) * s.par.sector) :=
        Memory.ext_get (Memory.eraseSpan_wf (Memory.eraseSpan_wf hm _ _) _ _)
          (Memory.eraseSpan_wf hm _ _) fun a => by
            simp only [Memory.get_eraseSpan, sectorBase, Nat.succ_mul]
            by_cases h1 : s.par.flashBase + sec * s.par.sector ≤ a ∧
                a < s.par.flashBase + sec * s.par.sector + s.par.sector
            · rw [if_pos h1, ite_self, if_pos (by omega)]
            · rw [if_neg h1]
              exact if_congr (by omega) rfl rfl
      rw [← e, Nat.add_comm n]
      exact this

end Sys2Proof.Machine
end

