-- ==== Sys2Proof/Laws/PerInstr.lean ====
section
/-! SUPPORT. One statement per command: its word is legal, that is, its opcode is in the table of
30_encoding.md R125 and every reserved-zero bit of its format is 0 (R120, R126). -/

namespace Sys2Proof.Laws.EncodedForm

open Sys2Proof Sys2Proof.Machine

/-- Every word of the command `i` is legal, whatever its immediates. -/
def Statement (i : Instr) : Prop := legalWord (encode i) = true

theorem of_row {w : Word} {row : Byte × Word} (h : row ∈ opcodeTable) (ho : w.extractLsb' 0 8 = row.1)
    (hm : w &&& row.2 = 0) : legalWord w = true := by
  simp only [legalWord, List.any_eq_true, Bool.and_eq_true, beq_iff_eq]
  exact ⟨row, h, ho, hm⟩

theorem crcInit : Statement .crcInit := by unfold Statement; decide
theorem crcUpdate : Statement .crcUpdate := by unfold Statement; decide
theorem crcUpdateByte (imm8 : Byte) : Statement (.crcUpdateByte imm8) :=
  (by decide +kernel : ∀ b : Byte, legalWord (encode (.crcUpdateByte b)) = true) imm8
theorem crcFinal : Statement .crcFinal := by unfold Statement; decide
theorem crcCompute : Statement .crcCompute := by unfold Statement; decide
theorem escape : Statement .escape := by unfold Statement; decide
theorem unescape : Statement .unescape := by unfold Statement; decide
theorem frameBuild (version receiver sender : Byte) : Statement (.frameBuild version receiver sender) := by
  refine of_row (row := (0x12, 0x00000000)) (by decide) ?_ BitVec.and_zero
  refine BitVec.eq_of_getLsbD_eq fun k hk => ?_
  rw [BitVec.getLsbD_extractLsb', Nat.zero_add]
  change (decide (k < 8) && ((sender ++ receiver ++ version) ++ (0x12 : Byte)).getLsbD k) = _
  rw [BitVec.getLsbD_append]
  simp [hk]
theorem sessBegin : Statement .sessBegin := by unfold Statement; decide
theorem sessPoll : Statement .sessPoll := by unfold Statement; decide
theorem sessProgress : Statement .sessProgress := by unfold Statement; decide
theorem flWrite : Statement .flWrite := by unfold Statement; decide
theorem flWriteNocheck : Statement .flWriteNocheck := by unfold Statement; decide
theorem flRead : Statement .flRead := by unfold Statement; decide
theorem flEraseSector : Statement .flEraseSector := by unfold Statement; decide
theorem cfgRead : Statement .cfgRead := by unfold Statement; decide
theorem cfgWrite : Statement .cfgWrite := by unfold Statement; decide
theorem cfgInit : Statement .cfgInit := by unfold Statement; decide
theorem imgCrc : Statement .imgCrc := by unfold Statement; decide
theorem imgVerify (role : Role) : Statement (.imgVerify role) := by cases role <;> (unfold Statement; decide)
theorem bootSelect : Statement .bootSelect := by unfold Statement; decide
theorem updTarget : Statement .updTarget := by unfold Statement; decide
theorem updStart (role : Role) : Statement (.updStart role) := by cases role <;> (unfold Statement; decide)
theorem updComplete (role : Role) : Statement (.updComplete role) := by cases role <;> (unfold Statement; decide)
theorem updFailed : Statement .updFailed := by unfold Statement; decide
theorem bootConfirm : Statement .bootConfirm := by unfold Statement; decide
theorem requestUpdate : Statement .requestUpdate := by unfold Statement; decide
theorem cfgGet : Statement .cfgGet := by unfold Statement; decide
theorem runApp : Statement .runApp := by unfold Statement; decide
theorem startUpdate : Statement .startUpdate := by unfold Statement; decide
theorem erase : Statement .erase := by unfold Statement; decide

end Sys2Proof.Laws.EncodedForm
end

