-- ==== Sys2Proof/Laws/WriterOk.lean ====
section
/-! SUPPORT. The sector-aware writer when no call fails: writer sector safety (44_flash.md R281) for one turn
and for the whole loop. -/

namespace Sys2Proof.Machine

/-- `s` has become `t` by flash calls none of which failed; memory is now `m`, and the scratch buffer is any. -/
def WriteDone (s t : State) (m : Memory) : Prop :=
  t = { s with mem := m, scratch := t.scratch, env := t.env } ∧ OnlyFlashCalls s.env t.env
    ∧ t.flashOk = true

theorem OnlyFlashCalls.refl (e : Env) : OnlyFlashCalls e e := ⟨0, 0, .refl e⟩

theorem OnlyFlashCalls.trans {e f g : Env} (h : OnlyFlashCalls e f) (k : OnlyFlashCalls f g) :
    OnlyFlashCalls e g := by
  obtain ⟨a, b, h⟩ := h
  obtain ⟨c, d, k⟩ := k
  exact ⟨_, _, h.trans k⟩

theorem WriteDone.trans {s t u : State} {m n : Memory} (h : WriteDone s t m) (k : WriteDone t u n) :
    WriteDone s u n := ⟨by rw [k.1, h.1], h.2.1.trans k.2.1, k.2.2⟩

theorem WriteDone.mem {s t : State} {m : Memory} (h : WriteDone s t m) : t.mem = m := by rw [h.1]

theorem WriteDone.par {s t : State} {m : Memory} (h : WriteDone s t m) : t.par = s.par := by rw [h.1]

theorem WriteDone.irq {s t : State} {m : Memory} (h : WriteDone s t m) : t.irqMasked = s.irqMasked := by
  rw [h.1]

/-! ### Byte lists -/

theorem splice_getD {l seg : List Byte} {off i : Nat} (h : off + seg.length ≤ l.length) :
    (splice l off seg).getD i 0 =
      if off ≤ i ∧ i < off + seg.length then seg.getD (i - off) 0 else l.getD i 0 := by
  simp only [splice, List.getD_eq_getElem?_getD]
  by_cases h1 : i < off
  · rw [if_neg (by omega), List.append_assoc, List.getElem?_append_left (by simp; omega),
      List.getElem?_take_of_lt h1]
  · by_cases h2 : i < off + seg.length
    · rw [if_pos ⟨by omega, h2⟩, List.append_assoc, List.getElem?_append_right (by simp; omega),
        List.getElem?_append_left (by simp; omega)]
      congr 2; rw [List.length_take]; omega
    · rw [if_neg (by omega), List.append_assoc, List.getElem?_append_right (by simp; omega),
        List.getElem?_append_right (by simp; omega), List.getElem?_drop]
      congr 2; rw [List.length_take]; omega

theorem padTo_getD {n i : Nat} {b : Byte} {l : List Byte} (h : i < max l.length n) :
    (padTo n b l).getD i 0 = if i < l.length then l.getD i 0 else b := by
  simp only [padTo, List.getD_eq_getElem?_getD]
  split
  · rw [List.getElem?_append_left (by assumption)]
  · rw [List.getElem?_append_right (by omega), List.getElem?_replicate, if_pos (by omega)]
    rfl

theorem halfBytes_erased (hs : List Half) (h : ∀ x ∈ hs, x = 0xFFFF) :
    halfBytes hs = List.replicate (2 * hs.length) erasedByte := by
  induction hs with
  | nil => rfl
  | cons x hs ih =>
    rw [halfBytes_cons, ih fun y hy => h y (by simp [hy]), h x (by simp), List.length_cons, Nat.mul_succ,
      Nat.add_comm, List.replicate_add]
    rfl

/-- Where the writer finds no data, every byte is erased (44_flash.md R273). -/
theorem holdsData_false {m : Memory} {sb n off hi i : Nat} (h : holdsData (m.read sb n) off hi = false)
    (hn : 2 * hi ≤ n) (h1 : 2 * off ≤ i) (h2 : i < 2 * hi) : m.get (sb + i) = erasedByte := by
  unfold holdsData at h
  rw [List.any_eq_false] at h
  have hall : ∀ x ∈ halves (((m.read sb n).drop (2 * off)).take (2 * (hi - off))), x = (0xFFFF : Half) :=
    fun x hx => by simpa using h x hx
  have hlen : (((m.read sb n).drop (2 * off)).take (2 * (hi - off))).length = 2 * (hi - off) := by
    simp; omega
  have hb := halfBytes_erased _ hall
  rw [halfBytes_halves _ (by rw [hlen]; omega), halves_length, hlen] at hb
  have hi' := Memory.read_getD m sb n i (by omega) 0
  rw [← hi', List.getD_eq_getElem?_getD]
  have e : (m.read sb n)[i]? = (((m.read sb n).drop (2 * off)).take (2 * (hi - off)))[i - 2 * off]? := by
    rw [List.getElem?_take_of_lt (by omega), List.getElem?_drop]
    congr 1; omega
  rw [e, hb, List.getElem?_replicate, if_pos (by omega)]
  rfl

theorem roundUp_half {off k g : Nat} (hg : 0 < g) (he : 2 ∣ g) (hoff : g ∣ 2 * off) :
    2 * roundUp (off + k) (g / 2) = 2 * off + ceilDiv (2 * k) g * g := by
  obtain ⟨c, rfl⟩ := he
  obtain ⟨j, hj⟩ := hoff
  have hc : 0 < c := by omega
  have hj' : off = c * j := by
    have : 2 * off = 2 * (c * j) := by rw [hj, Nat.mul_assoc]
    omega
  have e2 : 2 * c / 2 = c := by omega
  have e3 : (2 * k + 2 * c - 1) / (2 * c) = (k + c - 1) / c := by
    rw [← Nat.div_div_eq_div_mul]
    congr 1; omega
  rw [roundUp, ceilDiv, ceilDiv, e2, e3, hj',
    show c * j + k + c - 1 = k + c - 1 + c * j by omega, Nat.add_mul_div_left _ _ hc, Nat.add_mul]
  ring

/-! ### One turn -/

/-- The erase path (44_flash.md R271, R281 a): the sector's other bytes come back from the scratch buffer. -/
theorem eraseMergeProgram_done {s : State} (hm : Memory.Wf s.mem) (hp : s.par.Sound)
    (hi : s.irqMasked = false) (h : s.flashOk = true) {sec off : Nat} {seg : List Half}
    (hs : s.scratch = s.mem.read (sectorBase s.par sec) s.par.sector)
    (hoff : 2 * off + 2 * seg.length ≤ s.par.sector) :
    ∃ t m, eraseMergeProgram sec off seg s = .ok true t ∧ WriteDone s t m ∧ Memory.Wf m
      ∧ StoredAt s.mem m (sectorBase s.par sec + 2 * off) (halfBytes seg)
      ∧ FlashCalls s.env t.env 1 (s.par.sector / s.par.granule) := by
  obtain ⟨k, hk⟩ := hp.granule_dvd
  have hdiv : s.par.sector / s.par.granule * s.par.granule = s.par.sector := by
    rw [hk, Nat.mul_div_cancel_left _ hp.granule_pos, Nat.mul_comm]
  have hsl : s.scratch.length = s.par.sector := by simp [hs]
  have hlen : (splice s.scratch (2 * off) (halfBytes seg)).length = s.par.sector := by
    rw [splice_length] <;> simp [hsl]; omega
  obtain ⟨t, ht, hd⟩ := flashErase_done (s := { s with irqMasked := true }) h sec
  have hmem := hd.mem
  have hpar := hd.par
  have hscr : t.scratch = s.scratch := by rw [hd.1]
  obtain ⟨u, hu, hdu⟩ := programGranules_done
    (s := { t with scratch := splice t.scratch (2 * off) (halfBytes seg) })
    (addr := sectorBase s.par sec)
    (gs := pieces s.par.granule (s.par.sector / s.par.granule) (splice s.scratch (2 * off) (halfBytes seg)))
    (by simp only [hmem]; exact Memory.eraseSpan_wf hm _ _) hd.2.2
    (by simp only [hpar]; exact pieces_all (by rw [hlen, hdiv]))
    (fun b h1 h2 => by
      simp only [hmem, hpar, pieces_length, hdiv] at h2 ⊢
      rw [Memory.get_eraseSpan, if_pos ⟨h1, h2⟩])
  rw [pieces_flatten, pieces_length, hdiv, List.take_of_length_le (by rw [hlen])] at hdu
  simp only [hmem] at hdu
  have hcalls := hd.2.1.trans hdu.2.1
  have hrun : (do
      if ← flashErase sec then do
        update fun s => { s with scratch := splice s.scratch (2 * off) (halfBytes seg) }
        let s ← getState
        programGranules (sectorBase s.par sec)
          (pieces s.par.granule (s.par.sector / s.par.granule) s.scratch)
      else pure false : Engine Bool) { s with irqMasked := true } = .ok true u := by
    rw [Engine.bind_run_ok ht, if_pos rfl, Engine.update_bind, Engine.getState_bind]
    simp only [hpar, hscr] at hu ⊢
    exact hu
  refine ⟨{ u with irqMasked := false }, (s.mem.eraseSpan (s.par.flashBase + sec * s.par.sector)
    s.par.sector).store (sectorBase s.par sec) (splice s.scratch (2 * off) (halfBytes seg)), ?_, ?_,
    Memory.store_wf (Memory.eraseSpan_wf hm _ _) _ _, ?_, ?_⟩
  · rw [eraseMergeProgram, masked, Engine.update_bind, Engine.bind_run_ok hrun]; rfl
  · refine ⟨?_, ⟨_, _, hcalls⟩, hdu.2.2⟩
    have e1 := hdu.1
    have e2 := hd.1
    clear hd hdu hu ht hrun hcalls hmem hpar hscr
    generalize u.env = ue at e1
    generalize t.env = te at e2
    subst e1 e2
    exact (congrArg (fun b => ({ s with mem := _, scratch := _, irqMasked := b, env := _ } : State)) hi).symm
  · have hget : ∀ b, ((s.mem.eraseSpan (s.par.flashBase + sec * s.par.sector) s.par.sector).store
        (sectorBase s.par sec) (splice s.scratch (2 * off) (halfBytes seg))).get b
        = if sectorBase s.par sec + 2 * off ≤ b ∧ b < sectorBase s.par sec + 2 * off + 2 * seg.length then
            (halfBytes seg).getD (b - (sectorBase s.par sec + 2 * off)) 0 else s.mem.get b := by
      intro b
      rw [Memory.get_store (Memory.eraseSpan_wf hm _ _), hlen]
      by_cases hb : sectorBase s.par sec ≤ b ∧ b < sectorBase s.par sec + s.par.sector
      · rw [if_pos hb, splice_getD (by simp [hsl]; omega), halfBytes_length]
        by_cases hc : 2 * off ≤ b - sectorBase s.par sec ∧ b - sectorBase s.par sec < 2 * off + 2 * seg.length
        · rw [if_pos hc, if_pos (by omega)]
          congr 1; omega
        · rw [if_neg hc, if_neg (by omega), hs, Memory.read_getD _ _ _ _ (by omega)]
          congr 1; omega
      · rw [if_neg hb, if_neg (by omega), Memory.get_eraseSpan, if_neg (by unfold sectorBase at hb; omega)]
    refine ⟨fun i hi => ?_, fun b hb => ?_⟩
    · rw [halfBytes_length] at hi
      rw [hget, if_pos (by omega)]
      congr 1; omega
    · rw [halfBytes_length] at hb
      rw [hget, if_neg (by omega)]
  · simpa using hcalls

/-- One turn of the writer (44_flash.md R281 a): the halfwords are there, every other byte is as before. It
erases nothing where the granules it touches are erased (R281 b). -/
theorem writeSector_done {s : State} (hm : Memory.Wf s.mem) (hp : s.par.Sound)
    (hi : s.irqMasked = false) (h : s.flashOk = true) {sec off : Nat} {seg : List Half}
    (hoff : 2 * off + 2 * seg.length ≤ s.par.sector) (hal : s.par.granule ∣ 2 * off) :
    ∃ t m, writeSector sec off seg s = .ok true t ∧ WriteDone s t m ∧ Memory.Wf m
      ∧ StoredAt s.mem m (sectorBase s.par sec + 2 * off) (halfBytes seg) := by
  have hround := roundUp_half (k := seg.length) hp.granule_pos hp.granule_even hal
  obtain ⟨j, hj⟩ := hal
  have hfit := ceilDiv_mul_le (x := 2 * seg.length) (y := s.par.sector - 2 * off) hp.granule_pos (by omega)
    (Nat.dvd_sub hp.granule_dvd ⟨j, hj⟩)
  rw [writeSector]
  simp only [Engine.update_bind, Engine.getState_bind, Engine.ite_run]
  split
  · obtain ⟨t, m, ht, hd, hw, hst, -⟩ := eraseMergeProgram_done
      (s := { s with scratch := s.mem.read (sectorBase s.par sec) s.par.sector }) (sec := sec) (off := off)
      (seg := seg) hm hp hi h rfl hoff
    exact ⟨t, m, ht, ⟨by rw [hd.1], hd.2.1, hd.2.2⟩, hw, hst⟩
  · next hno =>
    have hno := Bool.eq_false_iff.2 hno
    have her : ∀ b, sectorBase s.par sec + 2 * off ≤ b → b < sectorBase s.par sec + 2 * off
        + ceilDiv (2 * seg.length) s.par.granule * s.par.granule → s.mem.get b = erasedByte := by
      intro b h1 h2
      have := holdsData_false hno (by omega) (i := b - sectorBase s.par sec) (by omega) (by omega)
      rwa [show sectorBase s.par sec + (b - sectorBase s.par sec) = b by omega] at this
    obtain ⟨t, ht, hd⟩ := noCheck_done
      (s := { s with scratch := s.mem.read (sectorBase s.par sec) s.par.sector, irqMasked := true })
      (a := sectorBase s.par sec + 2 * off) (hw := seg) hm hp h her
    obtain ⟨u, hu, hdu⟩ := masked_done
      (s := { s with scratch := s.mem.read (sectorBase s.par sec) s.par.sector }) hi ht hd
    refine ⟨u, _, hu, ⟨by rw [hdu.1], ⟨_, _, hdu.2.1⟩, hdu.2.2⟩, Memory.store_wf hm _ _, ?_⟩
    have hl := le_ceilDiv_mul (2 * seg.length) hp.granule_pos
    have hget : ∀ b, (s.mem.store (sectorBase s.par sec + 2 * off)
        (padTo (ceilDiv (2 * seg.length) s.par.granule * s.par.granule) erasedByte (halfBytes seg))).get b
        = if sectorBase s.par sec + 2 * off ≤ b ∧ b < sectorBase s.par sec + 2 * off + 2 * seg.length then
            (halfBytes seg).getD (b - (sectorBase s.par sec + 2 * off)) 0 else s.mem.get b := by
      intro b
      rw [Memory.get_store hm, padTo_length, halfBytes_length]
      by_cases hb : sectorBase s.par sec + 2 * off ≤ b ∧ b < sectorBase s.par sec + 2 * off
          + max (2 * seg.length) (ceilDiv (2 * seg.length) s.par.granule * s.par.granule)
      · rw [if_pos hb, padTo_getD (by rw [halfBytes_length]; omega), halfBytes_length]
        by_cases hc : b - (sectorBase s.par sec + 2 * off) < 2 * seg.length
        · rw [if_pos hc, if_pos (by omega)]
        · rw [if_neg hc, if_neg (by omega), her b (by omega) (by omega)]
      · rw [if_neg hb, if_neg (by omega)]
    refine ⟨fun i hi => ?_, fun b hb => ?_⟩
    · rw [halfBytes_length] at hi
      show Memory.get _ _ = _
      rw [hget, if_pos (by omega)]
      congr 1; omega
    · rw [halfBytes_length] at hb
      show Memory.get _ _ = _
      rw [hget, if_neg (by omega)]

/-! ### The whole write -/

theorem StoredAt.refl (m : Memory) (a : Nat) : StoredAt m m a [] := ⟨by simp, fun _ _ => rfl⟩

theorem StoredAt.append {m m1 m2 : Memory} {a b : Nat} {l k : List Byte} (h : StoredAt m m1 a l)
    (h2 : StoredAt m1 m2 b k) (hb : b = a + l.length) : StoredAt m m2 a (l ++ k) := by
  subst hb
  refine ⟨fun i hi => ?_, fun x hx => ?_⟩
  · rw [List.length_append] at hi
    by_cases h' : i < l.length
    · rw [h2.2 _ (by omega), h.1 i h']
      simp [List.getD_eq_getElem?_getD, List.getElem?_append_left h']
    · have := h2.1 (i - l.length) (by omega)
      rw [show a + l.length + (i - l.length) = a + i by omega] at this
      rw [this]
      simp [List.getD_eq_getElem?_getD, List.getElem?_append_right (Nat.le_of_not_lt h')]
  · rw [List.length_append] at hx
    rw [h2.2 _ (by omega), h.2 _ (by omega)]

/-- The writer (44_flash.md R271, R281 a): the halfwords are there, and every other byte is as before. -/
theorem writeLoop_done {turns : Nat} {s : State} {a : Nat} {hw : List Half} (hm : Memory.Wf s.mem)
    (hp : s.par.Sound) (hi : s.irqMasked = false) (h : s.flashOk = true) (ht : hw.length ≤ turns)
    (ha : s.par.flashBase ≤ a) (hal : hw ≠ [] → s.par.granule ∣ a - s.par.flashBase) :
    ∃ t m, writeLoop turns a hw s = .ok true t ∧ WriteDone s t m ∧ Memory.Wf m
      ∧ StoredAt s.mem m a (halfBytes hw) := by
  induction turns generalizing s a hw with
  | zero =>
    obtain rfl : hw = [] := List.length_eq_zero_iff.1 (by omega)
    exact ⟨s, s.mem, rfl, ⟨rfl, .refl _, h⟩, hm, .refl _ _⟩
  | succ turns ih =>
    rw [writeLoop, Engine.ite_run]
    split
    · next he =>
      obtain rfl : hw = [] := by simpa using he
      exact ⟨s, s.mem, rfl, ⟨rfl, .refl _, h⟩, hm, .refl _ _⟩
    · next he =>
      have hne : hw ≠ [] := by simpa using he
      have hal := hal hne
      have hn : 0 < hw.length := List.length_pos_iff.2 hne
      obtain ⟨t1, t2, t3, t4⟩ := Config.Sound.turn hp ha hal
      obtain ⟨e, he⟩ := Config.Sound.sector_even hp
      have hx : sectorBase s.par (sectorOf s.par a)
          = s.par.flashBase + sectorOf s.par a * s.par.sector := rfl
      rw [Engine.getState_bind]
      have hk : 0 < min (s.par.sector / 2 - (a - sectorBase s.par (sectorOf s.par a)) / 2) hw.length := by
        omega
      obtain ⟨t, m, hr, hd, hw1, hst⟩ := writeSector_done hm hp hi h (sec := sectorOf s.par a)
        (off := (a - sectorBase s.par (sectorOf s.par a)) / 2)
        (seg := hw.take (min (s.par.sector / 2 - (a - sectorBase s.par (sectorOf s.par a)) / 2) hw.length))
        (by rw [List.length_take]; omega) t3
      have hpar := hd.par
      have hmem := hd.mem
      obtain ⟨u, n, hr2, hd2, hw2, hst2⟩ := ih (s := t)
        (a := a + 2 * min (s.par.sector / 2 - (a - sectorBase s.par (sectorOf s.par a)) / 2) hw.length)
        (hw := hw.drop (min (s.par.sector / 2 - (a - sectorBase s.par (sectorOf s.par a)) / 2) hw.length))
        (hmem ▸ hw1) (hpar ▸ hp) (by rw [hd.irq]; exact hi) hd.2.2
        (by rw [List.length_drop]; omega) (by rw [hpar]; omega) (by
          intro hrest
          rw [hpar]
          rcases Nat.le_total (s.par.sector / 2 - (a - sectorBase s.par (sectorOf s.par a)) / 2)
            hw.length with hle | hle
          · rw [Nat.min_eq_left hle]
            have : a + 2 * (s.par.sector / 2 - (a - sectorBase s.par (sectorOf s.par a)) / 2)
                - s.par.flashBase = (sectorOf s.par a + 1) * s.par.sector := by
              rw [show (sectorOf s.par a + 1) * s.par.sector
                = sectorOf s.par a * s.par.sector + s.par.sector from Nat.succ_mul _ _]
              clear hk hst hr
              generalize sectorBase s.par (sectorOf s.par a) = x at *
              generalize sectorOf s.par a * s.par.sector = y at *
              omega
            rw [this]
            exact Dvd.dvd.mul_left hp.granule_dvd _
          · rw [Nat.min_eq_right hle, List.drop_length] at hrest
            exact absurd rfl hrest)
      refine ⟨u, n, ?_, hd.trans hd2, hw2, ?_⟩
      · rw [Engine.bind_run_ok hr, if_pos rfl]
        exact hr2
      · rw [t4, show sectorBase s.par (sectorOf s.par a) + (a - sectorBase s.par (sectorOf s.par a)) = a by
          omega] at hst
        have := hst.append (hmem ▸ hst2) (by rw [halfBytes_length, List.length_take]; omega)
        rwa [← halfBytes_append, List.take_append_drop] at this

/-- `Write` (44_flash.md R271, R281 a). -/
theorem writeFlash_done {s : State} {a : Nat} {hw : List Half} (hm : Memory.Wf s.mem) (hp : s.par.Sound)
    (hi : s.irqMasked = false) (h : s.flashOk = true) (ha : s.par.flashBase ≤ a)
    (hal : s.par.granule ∣ a - s.par.flashBase) :
    ∃ t m, writeFlash a hw s = .ok true t ∧ WriteDone s t m ∧ Memory.Wf m
      ∧ StoredAt s.mem m a (halfBytes hw) :=
  writeLoop_done hm hp hi h le_rfl ha fun _ => hal

/-- `MergeWrite` (43_protocol.md R237): the bytes below `c` keep their values. -/
theorem mergeWrite_done {s : State} {c : Nat} {hws : List Half} (hm : Memory.Wf s.mem) (hp : s.par.Sound)
    (hi : s.irqMasked = false) (h : s.flashOk = true) (hc : s.par.flashBase ≤ c)
    (he : (c - s.par.flashBase) % 2 = 0) :
    ∃ t m, mergeWrite c hws s = .ok true t ∧ WriteDone s t m ∧ Memory.Wf m
      ∧ StoredAt s.mem m c (halfBytes hws) := by
  have hmod := Nat.mod_le (c - s.par.flashBase) s.par.granule
  have hdm := Nat.div_add_mod (c - s.par.flashBase) s.par.granule
  have h2 : (c - s.par.flashBase) % s.par.granule % 2 = 0 := by
    rw [Nat.mod_mod_of_dvd _ hp.granule_even]; exact he
  obtain ⟨t, m, ht, hd, hw, hst⟩ := writeFlash_done (a := c - (c - s.par.flashBase) % s.par.granule)
    (hw := s.mem.halfBuffer (c - (c - s.par.flashBase) % s.par.granule)
      ((c - (c - (c - s.par.flashBase) % s.par.granule)) / 2) ++ hws) hm hp hi h (by omega)
    ⟨(c - s.par.flashBase) / s.par.granule, by
      generalize s.par.granule * ((c - s.par.flashBase) / s.par.granule) = q at *; omega⟩
  refine ⟨t, m, ht, hd, hw, ?_⟩
  have hpre : halfBytes (s.mem.halfBuffer (c - (c - s.par.flashBase) % s.par.granule)
      ((c - (c - (c - s.par.flashBase) % s.par.granule)) / 2))
      = s.mem.read (c - (c - s.par.flashBase) % s.par.granule) ((c - s.par.flashBase) % s.par.granule) := by
    rw [Memory.halfBuffer, halfBytes_halves _ (by simp)]
    congr 1; omega
  rw [halfBytes_append, hpre] at hst
  refine ⟨fun i hi => ?_, fun x hx => ?_⟩
  · have := hst.1 ((c - s.par.flashBase) % s.par.granule + i) (by simp at hi ⊢; omega)
    rw [show c - (c - s.par.flashBase) % s.par.granule + ((c - s.par.flashBase) % s.par.granule + i)
      = c + i by omega] at this
    rw [this, List.getD_eq_getElem?_getD, List.getElem?_append_right (by simp)]
    simp [List.getD_eq_getElem?_getD]
  · by_cases hin : c - (c - s.par.flashBase) % s.par.granule ≤ x ∧ x < c
    · have := hst.1 (x - (c - (c - s.par.flashBase) % s.par.granule)) (by simp; omega)
      rw [show c - (c - s.par.flashBase) % s.par.granule + (x - (c - (c - s.par.flashBase) % s.par.granule))
        = x by omega] at this
      rw [this, List.getD_eq_getElem?_getD, List.getElem?_append_left (by simp; omega),
        ← List.getD_eq_getElem?_getD, Memory.read_getD _ _ _ _ (by omega)]
      congr 1; omega
    · exact hst.2 x (by simp at hx ⊢; omega)

end Sys2Proof.Machine
end

