-- ==== Sys2Proof/Laws/Record.lean ====
section
/-! SUPPORT. The config record: its bytes, and what `CfgPersist` and `EraseRegion` leave when no call fails
(45_config.md R303, 44_flash.md R280). -/

namespace Sys2Proof.Machine

/-! ### Bytes of a word -/

@[simp] theorem le32_length (w : Word) : (le32 w).length = 4 := rfl

theorem u32_le32 (w : Word) (l : List Byte) : u32 (le32 w ++ l) = w := by
  have h : u32 (le32 w ++ l) = w.extractLsb' 24 8 ++ w.extractLsb' 16 8 ++ w.extractLsb' 8 8
      ++ w.extractLsb' 0 8 := rfl
  rw [h]
  refine BitVec.eq_of_getLsbD_eq fun i hi => ?_
  have bit : ∀ (a b c d : Byte) (i : Nat), (a ++ b ++ c ++ d : Word).getLsbD i =
      if i < 8 then d.getLsbD i else if i < 16 then c.getLsbD (i - 8) else
        if i < 24 then b.getLsbD (i - 16) else a.getLsbD (i - 24) := by
    intro a b c d i
    have e1 : (a ++ b ++ c ++ d : Word).getLsbD i = if i < 8 then d.getLsbD i else
        ((a ++ b ++ c : BitVec 24)).getLsbD (i - 8) := BitVec.getLsbD_append
    have e2 : (a ++ b ++ c : BitVec 24).getLsbD (i - 8) = if i - 8 < 8 then c.getLsbD (i - 8) else
        (a ++ b : BitVec 16).getLsbD (i - 8 - 8) := BitVec.getLsbD_append
    have e3 : (a ++ b : BitVec 16).getLsbD (i - 8 - 8) = if i - 8 - 8 < 8 then b.getLsbD (i - 8 - 8) else
        a.getLsbD (i - 8 - 8 - 8) := BitVec.getLsbD_append
    rw [e1, e2, e3]
    by_cases h1 : i < 8
    · simp [h1]
    · by_cases h2 : i < 16
      · rw [if_neg h1, if_neg h1, if_pos (by omega), if_pos h2]
      · by_cases h3 : i < 24
        · rw [if_neg h1, if_neg h1, if_neg (by omega), if_neg h2, if_pos (by omega), if_pos h3]
          congr 1
        · rw [if_neg h1, if_neg h1, if_neg (by omega), if_neg h2, if_neg (by omega), if_neg h3]
          congr 1
  rw [bit]
  simp only [BitVec.getLsbD_extractLsb']
  split
  · rename_i h; simp [h]
  · split
    · rename_i h1 h2
      rw [show 8 + (i - 8) = i by omega]; simp; omega
    · split
      · rename_i h1 h2 h3
        rw [show 16 + (i - 16) = i by omega]; simp; omega
      · rename_i h1 h2 h3
        rw [show 24 + (i - 24) = i by omega]; simp; omega

@[simp] theorem serializeAb_length (c : AbRecord) : (serializeAb c).length = 32 := rfl

@[simp] theorem serializeSr_length (c : SrRecord) : (serializeSr c).length = 16 := rfl

/-! ### Persist and region erase -/

theorem sectorOf_cfgAddr {p : Config} (hp : p.Sound) : sectorBase p (sectorOf p p.cfgAddr) = p.cfgAddr := by
  obtain ⟨k, hk, -⟩ := hp.cfgAddr_eq
  rw [sectorBase, sectorOf, hk, Nat.add_sub_cancel_left, Nat.mul_div_cancel _ hp.sector_pos]

/-- What the sequence of `CfgPersist` leaves (45_config.md R303, 30_encoding.md R163). -/
theorem record_sequence_done {s : State} {l : List Byte} (hm : Memory.Wf s.mem) (hp : s.par.Sound)
    (hi : s.irqMasked = false) (h : s.flashOk = true) (hl : l.length = s.par.recSize) :
    ∃ t m, (masked do
        if ← flashErase (sectorOf s.par s.par.cfgAddr) then
          programGranules s.par.cfgAddr (pieces s.par.granule (recordPrograms s.par)
            (padTo (recordPrograms s.par * s.par.granule) erasedByte l))
        else pure false) s = .ok true t
      ∧ FlashDone s t m 1 (recordPrograms s.par) ∧ Memory.Wf m ∧ RecordStored s.par s.mem m l := by
  have hsb := sectorOf_cfgAddr hp
  have hge := le_ceilDiv_mul s.par.recSize hp.granule_pos
  have hle := ceilDiv_mul_le hp.granule_pos hp.rec_le hp.granule_dvd
  rw [show ceilDiv s.par.recSize s.par.granule = recordPrograms s.par from rfl] at hge hle
  have hlen : (padTo (recordPrograms s.par * s.par.granule) erasedByte l).length
      = recordPrograms s.par * s.par.granule := by rw [padTo_length]; omega
  obtain ⟨t, ht, hd⟩ := flashErase_done (s := { s with irqMasked := true }) h
    (sectorOf s.par s.par.cfgAddr)
  have hmem := hd.mem
  have hpar := hd.par
  rw [show s.par.flashBase + sectorOf s.par s.par.cfgAddr * s.par.sector = s.par.cfgAddr from hsb] at hd hmem
  obtain ⟨u, hu, hdu⟩ := programGranules_done (s := t) (addr := s.par.cfgAddr)
    (gs := pieces s.par.granule (recordPrograms s.par)
      (padTo (recordPrograms s.par * s.par.granule) erasedByte l))
    (by rw [hmem]; exact Memory.eraseSpan_wf hm _ _) hd.2.2
    (by simp only [hpar]; exact pieces_all (by rw [hlen]))
    (fun b h1 h2 => by
      simp only [hpar, pieces_length] at h2
      rw [hmem, Memory.get_eraseSpan]
      exact if_pos ⟨h1, by show b < s.par.cfgAddr + s.par.sector; omega⟩)
  rw [pieces_flatten, pieces_length, List.take_of_length_le (by rw [hlen]), hmem] at hdu
  have hd2 := hd.trans hdu
  obtain ⟨v, hv, hdv⟩ := masked_done (op := do
        if ← flashErase (sectorOf s.par s.par.cfgAddr) then
          programGranules s.par.cfgAddr (pieces s.par.granule (recordPrograms s.par)
            (padTo (recordPrograms s.par * s.par.granule) erasedByte l))
        else pure false) hi (by rw [Engine.bind_run_ok ht, if_pos rfl]; exact hu) hd2
  have hw1 : Memory.Wf (s.mem.eraseSpan s.par.cfgAddr s.par.sector) := Memory.eraseSpan_wf hm _ _
  have hrec := hp.rec_le
  have hpl : (padTo s.par.sector erasedByte l).length = s.par.sector := by rw [padTo_length]; omega
  refine ⟨v, _, hv, by simpa using hdv, Memory.store_wf hw1 _ _, ?_⟩
  have hget : ∀ b, ((s.mem.eraseSpan s.par.cfgAddr s.par.sector).store s.par.cfgAddr
      (padTo (recordPrograms s.par * s.par.granule) erasedByte l)).get b
      = if s.par.cfgAddr ≤ b ∧ b < s.par.cfgAddr + s.par.sector then
          (padTo s.par.sector erasedByte l).getD (b - s.par.cfgAddr) 0 else s.mem.get b := by
    intro b
    rw [Memory.get_store hw1, hlen, Memory.get_eraseSpan]
    by_cases hb : s.par.cfgAddr ≤ b ∧ b < s.par.cfgAddr + s.par.sector
    · rw [if_pos hb, if_pos hb]
      have e2 := padTo_getD (n := s.par.sector) (b := erasedByte) (l := l) (i := b - s.par.cfgAddr)
        (lt_max_of_lt_right (by omega))
      by_cases hc : b < s.par.cfgAddr + recordPrograms s.par * s.par.granule
      · have e1 := padTo_getD (n := recordPrograms s.par * s.par.granule) (b := erasedByte) (l := l)
          (i := b - s.par.cfgAddr) (lt_max_of_lt_right (by omega))
        rw [if_pos ⟨hb.1, hc⟩, e1, e2]
      · rw [if_neg (by omega), e2, if_neg (by omega)]
    · rw [if_neg (by omega), if_neg hb, if_neg hb]
  refine ⟨fun i hi => ?_, fun b hb => ?_⟩
  · rw [hget, if_pos (by omega)]
    congr 1; omega
  · rw [hget, if_neg (by omega)]

theorem abCache_run {s : State} {c : AbRecord} (h : s.cacheAb = some c) : abCache s = .ok c s :=
  Engine.valueOf_run h

theorem srCache_run {s : State} {c : SrRecord} (h : s.cacheSr = some c) : srCache s = .ok c s :=
  Engine.valueOf_run h

/-- `CfgPersist` of an AB record when no call fails (45_config.md R303). -/
theorem cfgPersist_ab {s : State} {c : AbRecord} (hm : Memory.Wf s.mem) (hp : s.par.Sound)
    (hi : s.irqMasked = false) (h : s.flashOk = true) (ht : s.par.topology = .ab)
    (hc : s.cacheAb = some c) :
    ∃ t, cfgPersist s = .ok true t ∧ PersistedAb 1 s t c ∧ Memory.Wf t.mem ∧ t.flashOk = true
      ∧ t.res0 = s.res0 ∧ t.res1 = s.res1 ∧ t.result = s.result := by
  obtain ⟨t, m, hr, hd, hw, hst⟩ := record_sequence_done (l := serializeAb c) hm hp hi h
    (by simp [Config.recSize, ht])
  have hser : serializeCache s = .ok (serializeAb c) s := by
    rw [serializeCache, Engine.getState_bind, ht]
    exact (Engine.bind_run_ok (abCache_run hc)).trans rfl
  refine ⟨{ t with cfgDirty := false }, ?_, ⟨?_, ?_, ?_⟩, ?_, hd.2.2, ?_, ?_, ?_⟩
  · rw [cfgPersist, Engine.bind_run_ok hser, Engine.getState_bind]
    exact (Engine.bind_run_ok hr).trans rfl
  · have := hd.1
    generalize t.env = te at this
    subst this
    exact congrArg (fun b => ({ s with mem := _, cacheAb := b, cfgDirty := _, env := _ } : State)) hc
  · show RecordStored s.par s.mem t.mem _
    rw [hd.mem]; exact hst
  · simpa using hd.2.1
  · show Memory.Wf t.mem
    rw [hd.mem]; exact hw
  all_goals show _ = _; rw [hd.1]

/-- `CfgPersist` of an SR record when no call fails (45_config.md R303). -/
theorem cfgPersist_sr {s : State} {c : SrRecord} (hm : Memory.Wf s.mem) (hp : s.par.Sound)
    (hi : s.irqMasked = false) (h : s.flashOk = true) (ht : s.par.topology = .sr)
    (hc : s.cacheSr = some c) :
    ∃ t, cfgPersist s = .ok true t ∧ PersistedSr 1 s t c ∧ Memory.Wf t.mem ∧ t.flashOk = true
      ∧ t.res0 = s.res0 ∧ t.res1 = s.res1 ∧ t.result = s.result := by
  obtain ⟨t, m, hr, hd, hw, hst⟩ := record_sequence_done (l := serializeSr c) hm hp hi h
    (by simp [Config.recSize, ht])
  have hser : serializeCache s = .ok (serializeSr c) s := by
    rw [serializeCache, Engine.getState_bind, ht]
    exact (Engine.bind_run_ok (srCache_run hc)).trans rfl
  refine ⟨{ t with cfgDirty := false }, ?_, ⟨?_, ?_, ?_⟩, ?_, hd.2.2, ?_, ?_, ?_⟩
  · rw [cfgPersist, Engine.bind_run_ok hser, Engine.getState_bind]
    exact (Engine.bind_run_ok hr).trans rfl
  · have := hd.1
    generalize t.env = te at this
    subst this
    exact congrArg (fun b => ({ s with mem := _, cacheSr := b, cfgDirty := _, env := _ } : State)) hc
  · show RecordStored s.par s.mem t.mem _
    rw [hd.mem]; exact hst
  · simpa using hd.2.1
  · show Memory.Wf t.mem
    rw [hd.mem]; exact hw
  all_goals show _ = _; rw [hd.1]

/-- `EraseRegion` of a region when no call fails (44_flash.md R280, R282). -/
theorem eraseRegion_done {s : State} (hm : Memory.Wf s.mem) (hp : s.par.Sound) (hi : s.irqMasked = false)
    (h : s.flashOk = true) (r : Role) :
    ∃ t, eraseRegion (regionBase s.par r) s.par.regionSize s = .ok true t
      ∧ FlashDone s t (s.mem.eraseSpan (regionBase s.par r) s.par.regionSize)
          (s.par.regionSize / s.par.sector) 0 := by
  obtain ⟨h1, -, k, hk⟩ := Config.regionOk_iff.1 (hp.regionBase_ok r)
  obtain ⟨j, hj⟩ := hp.region_dvd
  have hs : sectorBase s.par (sectorOf s.par (regionBase s.par r)) = regionBase s.par r := by
    rw [sectorBase, sectorOf, hk, Nat.mul_div_cancel_left _ hp.sector_pos, Nat.mul_comm, ← hk]
    omega
  have hn : s.par.regionSize / s.par.sector * s.par.sector = s.par.regionSize := by
    rw [hj, Nat.mul_div_cancel_left _ hp.sector_pos, Nat.mul_comm]
  obtain ⟨t, ht, hd⟩ := eraseSectors_done hm hi h (sectorOf s.par (regionBase s.par r))
    (s.par.regionSize / s.par.sector)
  rw [hs, hn] at hd
  exact ⟨t, ht, hd⟩

end Sys2Proof.Machine
end

