-- ==== Sys2Proof/Laws/Session.lean ====
section
/-! SUPPORT. What the shared operations of the boot and protocol units can do, whatever the environment answers:
`CfgPersist`, `RxArm`, `StartSession`, the read of a frame's body, `FrameError`, and a chunk fed in pieces. -/

namespace Sys2Proof.Machine

/-! ### Persisting -/

/-- The bytes of a cache that holds a record (30_encoding.md R162). -/
theorem serializeCache_run {s : State} (h : s.hasRecord = true) :
    ∃ l, serializeCache s = .ok l s ∧ l.length = s.par.recSize := by
  unfold State.hasRecord at h
  rcases ht : s.par.topology <;> rw [ht] at h
  · obtain ⟨c, hc⟩ := Option.isSome_iff_exists.1 h
    refine ⟨serializeAb c, ?_, by simp [Config.recSize, ht]⟩
    rw [serializeCache, Engine.getState_bind, ht]
    exact (Engine.bind_run_ok (abCache_run hc)).trans rfl
  · obtain ⟨c, hc⟩ := Option.isSome_iff_exists.1 h
    refine ⟨serializeSr c, ?_, by simp [Config.recSize, ht]⟩
    rw [serializeCache, Engine.getState_bind, ht]
    exact (Engine.bind_run_ok (srCache_run hc)).trans rfl

/-- `CfgPersist`, whatever the collaborator answers (45_config.md R303): only the config sector is touched, and
`cfg_dirty` says whether it failed. -/
theorem cfgPersist_flashing {s : State} (hm : Memory.Wf s.mem) (hp : s.par.Sound)
    (h : s.hasRecord = true) :
    After cfgPersist s
      (fun r t => FlashStep s.par.cfgAddr (s.par.cfgAddr + s.par.sector) { s with cfgDirty := !r } t)
      fun t => ∃ u ram, FlashStep s.par.cfgAddr (s.par.cfgAddr + s.par.sector) s u ∧ t = u.afterReset ram := by
  obtain ⟨l, hl, hlen⟩ := serializeCache_run h
  have hsb := sectorOf_cfgAddr hp
  have hge := le_ceilDiv_mul s.par.recSize hp.granule_pos
  have hle := ceilDiv_mul_le hp.granule_pos hp.rec_le hp.granule_dvd
  have hseq : Flashing s.par.cfgAddr (s.par.cfgAddr + s.par.sector) (masked do
      if ← flashErase (sectorOf s.par s.par.cfgAddr) then
        programGranules s.par.cfgAddr (pieces s.par.granule (ceilDiv s.par.recSize s.par.granule)
          (padTo (ceilDiv s.par.recSize s.par.granule * s.par.granule) erasedByte l))
      else pure false) s := by
    refine masked_flashing hm fun t ht => Flashing.bind ?_ fun ok u hu => ?_
    · have := flashErase_flashing ht.wf (sectorOf s.par s.par.cfgAddr)
      rw [ht.par, show s.par.flashBase + sectorOf s.par s.par.cfgAddr * s.par.sector = s.par.cfgAddr
        from hsb] at this
      exact this
    · cases ok
      · exact Flashing.pure hu.wf
      · have hpar : u.par = s.par := hu.par.trans ht.par
        have := programGranules_flashing hu.wf s.par.cfgAddr
          (gs := pieces s.par.granule (ceilDiv s.par.recSize s.par.granule)
            (padTo (ceilDiv s.par.recSize s.par.granule * s.par.granule) erasedByte l))
          (by rw [hpar]; exact pieces_all (by rw [padTo_length]; omega))
        rw [hpar, pieces_length] at this
        exact this.mono (Nat.le_refl _) (by omega)
  rw [cfgPersist, after_bind]
  refine .of_ok hl ?_
  rw [after_bind, after_getState, after_bind]
  refine After.mono hseq (fun r t ht => ?_) fun t h => h
  rw [after_bind, after_update, after_pure]
  exact ⟨congrArg (fun u : State => ({ u with cfgDirty := !r } : State)) ht.rest, ht.env, ht.wf, ht.outside⟩

/-! ### The receive channel and the session -/

/-- `RxArm` when the agent answers ok (43_protocol.md R220). -/
theorem rxArm_ok {s : State} (h : s.armAnswer = true) :
    rxArm s = .ok true { armRefused s with rx := { armed := true, ready := false, buf := [], line := [] } } := by
  rw [rxArm, if_pos h]
  rfl

/-- `RxArm` when the agent refuses: nothing of the engine changes (43_protocol.md R220). -/
theorem rxArm_refused {s : State} (h : s.armAnswer = false) : rxArm s = .ok false (armRefused s) := by
  rw [rxArm, if_neg (by rw [h]; decide)]
  rfl

/-- `StartSession` when the channel arms (43_protocol.md R220). -/
theorem startSession_ok {s : State} (h : s.armAnswer = true) (base limit : Nat) (kind : SessKind)
    (ret : RetState) : startSession base limit kind ret s
      = .ok true (sessionOpened s (BitVec.ofNat 32 base) (BitVec.ofNat 32 limit) kind ret) :=
  (Engine.bind_run_ok (rxArm_ok h)).trans rfl

/-- `StartSession` when it does not (43_protocol.md R220). -/
theorem startSession_refused {s : State} (h : s.armAnswer = false) (base limit : Nat) (kind : SessKind)
    (ret : RetState) : startSession base limit kind ret s = .ok false (armRefused s) :=
  (Engine.bind_run_ok (rxArm_refused h)).trans rfl

/-! ### The parser -/

/-- Reading the body of a frame whose bytes have all been gathered (43_protocol.md R227). -/
theorem wholeBody_ok {s : State} (h : s.parser.body.length = s.parser.lenAcc.toNat) :
    wholeBody s = .ok s.parser.body s := by
  simp [wholeBody, valueOf, Parser.wholeBody, ← h]

/-- Reading a body of which a byte holds no value (10_state.md R55). -/
theorem wholeBody_fault {s : State} (h : s.parser.body.length < s.parser.lenAcc.toNat) :
    wholeBody s = .error (.fault (.noValue .frameBody)) s := by
  simp [wholeBody, valueOf, Parser.wholeBody, Nat.not_le.2 h]

/-- `FrameError(kind, next)` (43_protocol.md R238). -/
theorem State.frameError_eq (s : State) (k : FrameErrorKind) (next : PState) :
    s.frameError k next = s.afterFrameError (errorTag k s.parser) next := rfl

/-- Feeding a list in two pieces is feeding it whole, where the session does not end in the first: how the host's
bytes are cut into chunks does not matter to the parser (43_protocol.md R240). -/
theorem feedAll_append {s t : State} {l : List Byte} (r : List Byte) (h : feedAll l s = .ok none t) :
    feedAll (l ++ r) s = feedAll r t := by
  induction l generalizing s with
  | nil => cases h; rfl
  | cons c l ih =>
    rw [feedAll, Engine.bind_run] at h
    rw [List.cons_append, feedAll, Engine.bind_run]
    rcases hf : feed c s with ⟨_ | code, u⟩ | ⟨e, u⟩ <;> rw [hf] at h
    · exact ih h
    · cases h
    · cases h

/-- Where the session ends in the first piece, the rest is dropped (43_protocol.md R240). -/
theorem feedAll_append_ended {s t : State} {l : List Byte} {code : Code} (r : List Byte)
    (h : feedAll l s = .ok (some code) t) : feedAll (l ++ r) s = .ok (some code) t := by
  induction l generalizing s with
  | nil => cases h
  | cons c l ih =>
    rw [feedAll, Engine.bind_run] at h
    rw [List.cons_append, feedAll, Engine.bind_run]
    rcases hf : feed c s with ⟨_ | d, u⟩ | ⟨e, u⟩ <;> rw [hf] at h
    · exact ih h
    · exact h
    · cases h

end Sys2Proof.Machine
end

