-- ==== Sys2Proof/Tests/Slice0.lean ====
section
/-! SUPPORT. Tests: the checks of WellFormed, every command's word, one small step of every command, and a
concrete state for the hypotheses of every obligation. Expected values are the spec's own examples and the
vectors of 95_test_vectors.md, or worked out by hand from the rules. -/

namespace Sys2Proof.Tests

open Sys2Proof Sys2Proof.Machine

set_option Elab.async false

/-! ### WellFormed: the reference parameters pass, and each check refuses something (00_scope.md R11) -/

/-- The checks that refuse a choice of parameters, by position. -/
def refusedBy (p : Config) : List Nat :=
  (p.checks.zipIdx.filter fun c => !c.1).map (·.2)

theorem test_reference_wellFormed : Config.reference.wellFormed = true := by decide +kernel

theorem test_flash_base_refused :
    refusedBy { Config.reference with flashBase := 0x08000400 } = [0, 6, 7] := by decide +kernel

theorem test_ram_base_refused : refusedBy { Config.reference with ramBase := 0x0801FFFF } = [1] := by
  decide +kernel

theorem test_sector_refused : (2 : Nat) ∈ refusedBy { Config.reference with sector := 3072 } := by
  decide +kernel

theorem test_granule_refused : refusedBy { Config.reference with granule := 1 } = [3] := by decide +kernel

theorem test_boot_size_refused : refusedBy { Config.reference with bootSize := 0x3C00 } = [4] := by
  decide +kernel

theorem test_region_size_refused : refusedBy { Config.reference with regionSize := 0 } = [5] := by
  decide +kernel

theorem test_regions_overlap_refused :
    refusedBy { Config.reference with bBase := 0x08011800 } = [6] := by decide +kernel

theorem test_run_region_refused : refusedBy { Config.reference with runBase := 0x08012800 } = [7] := by
  decide +kernel

theorem test_max_len_refused : refusedBy { Config.reference with maxLen := 2 } = [8] := by decide +kernel

theorem test_rx_cap_refused : refusedBy { Config.reference with rxCap := 0 } = [9] := by decide +kernel

theorem test_attempts_refused : refusedBy { Config.reference with maxBootAttempts := 256 } = [10] := by
  decide +kernel

theorem test_timeout_refused : refusedBy { Config.reference with sessionTimeout := 0 } = [11] := by
  decide +kernel

theorem test_magic_refused : refusedBy { Config.reference with cfgMagic := 0xFFFFFFFF } = [12] := by
  decide +kernel

theorem test_idle_limit_refused : refusedBy { Config.reference with idleEndLimit := 2 ^ 32 } = [13] := by
  decide +kernel

theorem test_blk_base_refused : refusedBy { Config.reference with blkBase := 2 } = [14] := by decide +kernel

theorem test_window_top_refused : refusedBy { Config.reference with ramBase := 0xFFFF8000 } = [15] := by
  decide +kernel

theorem test_record_size_refused :
    refusedBy { Config.reference with sector := 16, granule := 16 } = [16] := by decide +kernel

/-! ### Decode: every command's word, written out from 30_encoding.md R120 and R125 -/

theorem test_decode_crc_and_codec :
    decode 0x00000001 = .ok .crcInit ∧ decode 0x00000002 = .ok .crcUpdate
      ∧ decode 0x00003103 = .ok (.crcUpdateByte 0x31) ∧ decode 0x00000004 = .ok .crcFinal
      ∧ decode 0x00000005 = .ok .crcCompute ∧ decode 0x00000010 = .ok .escape
      ∧ decode 0x00000011 = .ok .unescape ∧ decode 0x03020112 = .ok (.frameBuild 0x01 0x02 0x03) := by
  decide

theorem test_decode_protocol_and_flash :
    decode 0x00000020 = .ok .sessBegin ∧ decode 0x00000021 = .ok .sessPoll
      ∧ decode 0x00000022 = .ok .sessProgress ∧ decode 0x00000030 = .ok .flWrite
      ∧ decode 0x00000031 = .ok .flWriteNocheck ∧ decode 0x00000032 = .ok .flRead
      ∧ decode 0x00000033 = .ok .flEraseSector := by decide

theorem test_decode_boot :
    decode 0x00000040 = .ok .cfgRead ∧ decode 0x00000041 = .ok .cfgWrite ∧ decode 0x00000042 = .ok .cfgInit
      ∧ decode 0x00000043 = .ok .imgCrc ∧ decode 0x00000144 = .ok (.imgVerify .b)
      ∧ decode 0x00000045 = .ok .bootSelect ∧ decode 0x00000046 = .ok .updTarget
      ∧ decode 0x00000247 = .ok (.updStart .staging) ∧ decode 0x00000348 = .ok (.updComplete .run)
      ∧ decode 0x00000049 = .ok .updFailed ∧ decode 0x0000004A = .ok .bootConfirm
      ∧ decode 0x0000004B = .ok .requestUpdate ∧ decode 0x0000004C = .ok .cfgGet := by decide

theorem test_decode_dispatcher :
    decode 0x00000050 = .ok .runApp ∧ decode 0x00000051 = .ok .startUpdate
      ∧ decode 0x00000052 = .ok .erase := by decide

/-- Illegal words (30_encoding.md R126): opcode 0, an opcode in a gap, and one reserved bit in each format. -/
theorem test_decode_illegal :
    decode 0x00000000 = .error .unknownOpcode ∧ decode 0x00000060 = .error .unknownOpcode
      ∧ decode 0x00000101 = .error .reservedBit ∧ decode 0x00010003 = .error .reservedBit
      ∧ decode 0x00000444 = .error .reservedBit ∧ decode 0x80000021 = .error .reservedBit := by decide

theorem test_decodeTableWord :
    decodeTableWord 32 0x03020112 = some (.frameBuild 0x01 0x02 0x03)
      ∧ decodeTableWord 32 0x00010003 = none := by decide

/-! ### Small states -/

/-- Every flash call answers ok, and the channel arms. -/
def env : Env :=
  { Env.init with
    flashRest := some { outcome := .ok, elapsed := 0, junk := [], ram := [] },
    armAnswers := [true, true] }

/-- Flash calls answer as given, and then ok. -/
def answers (l : List FlashOutcome) : Env :=
  { env with flashAnswers := l.map fun o => { outcome := o, elapsed := 0, junk := [], ram := [] } }

/-- Some bytes at an address. -/
def bytesAt (a : Nat) (l : List Nat) : Memory := Memory.store [] a (l.map (BitVec.ofNat 8))

/-- The AB record of 95_test_vectors.md: image A of 12 bytes, image B of 15. -/
def record : AbRecord :=
  { magic := 0x424F4F54, active := 0, updating := 0, bootCount := 0, updateReq := 0, sizeA := 12,
    crcA := 0x1185697A, sizeB := 15, crcB := 0xE54C9E0B }

/-- The record's bytes and both images in flash. -/
def images : Memory :=
  ((bytesAt 0x08003800 ((serializeAb record).map BitVec.toNat)).store 0x08004000
    [0x00, 0x80, 0x00, 0x20, 0x09, 0x40, 0x00, 0x08, 0x41, 0x50, 0x50, 0x41]).store 0x08012000
    [0x00, 0x7F, 0x00, 0x20, 0x09, 0x20, 0x01, 0x08, 0x41, 0x50, 0x50, 0x42, 0x2D, 0x76, 0x32]

/-- NOIMAGE under AB, with a valid record in the cache. -/
def idle (m : Memory) : State :=
  { State.initial Config.reference m env with
    dstate := .noImage, cacheAb := some record, cfgValid := true }

/-- NOIMAGE under SR: the run region holds image B, staging image A. -/
def idleSr : State :=
  { State.initial { Config.reference with topology := .sr } images env with
    dstate := .noImage, cfgValid := true,
    cacheSr := some { magic := 0x424F4F54, pageCount := 0, runSize := 15, runCrc := 0xE54C9E0B } }

/-- Parameters with small regions: sectors of 256 bytes, the config sector at 0x08000100, regions of 512 bytes at
0x08000200 and 0x08000400. -/
def small : Config :=
  { Config.reference with
    sector := 256, bootSize := 512, regionSize := 512, aBase := 0x08000200, bBase := 0x08000400,
    stagingBase := 0x08000200, runBase := 0x08000400 }

theorem test_small_wellFormed : small.wellFormed = true := by decide +kernel

/-- NOIMAGE under SR and `small`: staging holds image A, and the run region is erased. -/
def smallSr : State :=
  { State.initial { small with topology := .sr }
      (bytesAt 0x08000200 [0x00, 0x80, 0x00, 0x20, 0x09, 0x40, 0x00, 0x08, 0x41, 0x50, 0x50, 0x41]) env with
    dstate := .noImage, cfgValid := true,
    cacheSr := some { magic := 0x424F4F54, pageCount := 0, runSize := 0, runCrc := 0 } }

/-- A RAW session over region B, as SESS_BEGIN opens it. -/
def rawSession : State :=
  { sessionOpened (idle images) 0x08012000 0x08020000 .raw .noImage with
    arg0 := 0x08012000, arg1 := 0x08020000 }

/-- A flow session over region B. -/
def flowSession : State :=
  { sessionOpened (idle []) 0x08012000 0x08020000 .flow .jump with flowTarget := some .b }

/-- The operand registers set. -/
def withArgs (s : State) (a b c d : Nat) : State :=
  { s with arg0 := BitVec.ofNat 32 a, arg1 := BitVec.ofNat 32 b, arg2 := BitVec.ofNat 32 c,
           arg3 := BitVec.ofNat 32 d }

/-- A chunk waits to be parsed. -/
def withChunk (s : State) (l : List Nat) : State :=
  { s with rx := { armed := false, ready := true, buf := l.map (BitVec.ofNat 8), line := [] } }

/-- The state after a command; the state itself where the command does not answer one. -/
def after (i : Instr) (s : State) : State :=
  match exec i s with
  | .next t => t
  | _ => s

/-- Some bytes of memory, as numbers. -/
def readNat (s : State) (a n : Nat) : List Nat := (s.mem.read a n).map BitVec.toNat

/-! ### One step of each command -/

theorem test_crcInit : (after .crcInit { idle [] with crcState := 5 }).crcState = 0xFFFFFFFF := by
  decide +kernel

-- 41_crc.md R176, R178, R179: "123456789"
theorem test_crcUpdate :
    (after .crcUpdate (withArgs (idle (bytesAt 0x20000000 [0x31, 0x32, 0x33, 0x34, 0x35, 0x36, 0x37, 0x38, 0x39]))
      0x20000000 9 0 0)).crcState = 0x340BC6D9 := by decide +kernel

theorem test_crcUpdate_badSpan :
    (after .crcUpdate (withArgs (idle []) 0x2000_7FFF 2 0 0)).result = 0xFFFFFFEE := by decide +kernel

theorem test_crcUpdateByte : (after (.crcUpdateByte 0x61) (idle [])).crcState = 0x174841BC := by
  decide +kernel

theorem test_crcFinal : (after .crcFinal { idle [] with crcState := 0x340BC6D9 }).res0 = 0xCBF43926 := by
  decide +kernel

theorem test_crcCompute :
    (after .crcCompute (withArgs (idle (bytesAt 0x20000000 [0x31, 0x32, 0x33, 0x34, 0x35, 0x36, 0x37, 0x38, 0x39]))
      0x20000000 9 0 0)).res0 = 0xCBF43926 := by decide +kernel

-- 42_codec.md R196
theorem test_escape :
    let t := after .escape (withArgs (idle (bytesAt 0x20000000 [0x7E, 0x06, 0, 0, 0, 1, 2, 3, 0x7E, 0x41, 0x7A,
      0x26, 0x94, 0x60, 0x4A, 0x7E])) 0x20000000 16 0x20000100 64)
    t.res0 = 18 ∧ readNat t 0x20000100 18 = [0x7E, 0x06, 0, 0, 0, 1, 2, 3, 0x7A, 0x55, 0x41, 0x7A, 0xAA, 0x26,
      0x94, 0x60, 0x4A, 0x7E] := by decide +kernel

theorem test_escape_cap :
    (after .escape (withArgs (idle (bytesAt 0x20000000 [0x7E])) 0x20000000 1 0x20000100 0)).result
      = 0xFFFFFFEA := by decide +kernel

-- 42_codec.md R197
theorem test_unescape_anomaly :
    let t := after .unescape (withArgs (idle (bytesAt 0x20000000 [0x7E, 0x03, 0, 0, 0, 0x7A, 0x11, 2, 3, 1, 2, 3,
      4, 0x7E])) 0x20000000 14 0x20000100 64)
    t.result = 0xFFFFFFE9 ∧ t.res0 = 0 ∧ t.res1 = 5 := by decide +kernel

theorem test_unescape :
    let t := after .unescape (withArgs (idle (bytesAt 0x20000000 [1, 2, 3, 4, 5, 0x7A, 0x55, 6, 7, 8, 9, 10]))
      0x20000000 12 0x20000100 64)
    t.res0 = 11 ∧ t.res1 = 0xFFFFFFFF ∧ readNat t 0x20000105 2 = [0x7E, 6] := by decide +kernel

-- 42_codec.md R198
theorem test_frameBuild :
    let t := after (.frameBuild 1 2 3) (withArgs (idle (bytesAt 0x20000000 [0x7E, 0x41, 0x7A]))
      0x20000000 3 0x20000100 64)
    t.res0 = 18 ∧ t.res1 = 0x4A609426 ∧ readNat t 0x20000107 6 = [3, 0x7A, 0x55, 0x41, 0x7A, 0xAA] := by
  decide +kernel

-- 43_protocol.md R221
theorem test_sessBegin :
    let t := after .sessBegin (withArgs (idle []) 0x08012000 0x08020000 0 0)
    t.sess.cursor = 0x08012000 ∧ t.dstate = .update ∧ t.rx.armed = true := by decide +kernel

theorem test_sessBegin_align :
    (after .sessBegin (withArgs (idle []) 0x08012008 0x08020000 0 0)).result = 0xFFFFFFED := by
  decide +kernel

-- 43_protocol.md R240: the wire frame F1 in one chunk
theorem test_sessPoll :
    let t := after .sessPoll (withChunk { rawSession with mem := [] } [0x7E, 0x06, 0, 0, 0, 1, 2, 3, 0x7A, 0x55,
      0x41, 0x7A, 0xAA, 0x26, 0x94, 0x60, 0x4A, 0x7E])
    readNat t 0x08012000 2 = [0x7E, 0x41] ∧ t.sess.pendByte = 0x7A ∧ t.sess.written = 2 ∧ t.framesOk = 1
      ∧ t.tx.map (·.map BitVec.toNat) = [[0x7E, 0x0B, 0, 0, 0, 1, 1, 2, 0x26, 0x94, 0x60, 0x4A, 0, 0, 0, 0, 0x2D,
        0x4F, 0xB4, 0x37, 0x7E]] := by decide +kernel

theorem test_sessPoll_noData :
    let t := after .sessPoll (withChunk rawSession [0xFF])
    t.res0 = 1 ∧ t.result = 0xFFFFFFFB ∧ t.dstate = .noImage := by decide +kernel

theorem test_sessProgress :
    let t := after .sessProgress { rawSession with framesOk := 2, sess := { rawSession.sess with written := 5 } }
    t.res0 = 5 ∧ t.res1 = 2 := by decide +kernel

-- 95_test_vectors.md T-FLASH-1: one program over erased flash
theorem test_flWrite :
    let t := after .flWrite (withArgs (idle (bytesAt 0x20000000 [0x11, 0x11, 0x22, 0x22, 0x33, 0x33, 0x44, 0x44]))
      0x08012000 0x20000000 4 0)
    readNat t 0x08012000 9 = [0x11, 0x11, 0x22, 0x22, 0x33, 0x33, 0x44, 0x44, 0xFF]
      ∧ t.env.eraseCalls = 0 ∧ t.env.programCalls = 1 := by decide +kernel

theorem test_flWrite_range :
    (after .flWrite (withArgs (idle []) 0x0801FFF0 0x20000000 16 0)).result = 0xFFFFFFEC := by decide +kernel

-- 44_flash.md R277
theorem test_flWriteNocheck :
    let t := after .flWriteNocheck (withArgs (idle (bytesAt 0x20000000 [0x11, 0x11, 0x22, 0x22, 0x33, 0x33]))
      0x08012000 0x20000000 3 0)
    readNat t 0x08012000 8 = [0x11, 0x11, 0x22, 0x22, 0x33, 0x33, 0xFF, 0xFF] ∧ t.env.programCalls = 1 := by
  decide +kernel

theorem test_flWriteNocheck_nonErased :
    (after .flWriteNocheck (withArgs (idle (bytesAt 0x08012000 [0])) 0x08012000 0x20000000 1 0)).result
      = 0xFFFFFFEB := by decide +kernel

-- 44_flash.md R278
theorem test_flRead :
    readNat (after .flRead (withArgs (idle (bytesAt 0x08012000 [0x11, 0x22, 0x33, 0x44]))
      0x08012001 0x20000000 1 0)) 0x20000000 3 = [0x22, 0x33, 0xFF] := by decide +kernel

-- 44_flash.md R279
theorem test_flEraseSector :
    let t := after .flEraseSector (withArgs (idle images) 36 0 0 0)
    readNat t 0x08012000 3 = [0xFF, 0xFF, 0xFF] ∧ readNat t 0x08004000 2 = [0, 0x80] ∧ t.result = 0 := by
  decide +kernel

theorem test_flEraseSector_range :
    (after .flEraseSector (withArgs (idle []) 6 0 0 0)).result = 0xFFFFFFEC := by decide +kernel

-- 45_config.md R300: an erased config sector
theorem test_cfgRead :
    let t := after .cfgRead (idle [])
    t.res0 = 0 ∧ t.cfgValid = false ∧ t.result = 0 := by decide +kernel

-- 45_config.md R303: the persist fails
theorem test_cfgWrite :
    let t := after .cfgWrite { idle [] with env := answers [.fail] }
    t.result = 0xFFFFFFEB ∧ t.cfgDirty = true := by decide +kernel

theorem test_cfgWrite_invalid :
    (after .cfgWrite { idle [] with cfgValid := false }).result = 0xFFFFFFE8 := by decide +kernel

-- 45_config.md R302
theorem test_cfgInit :
    let t := after .cfgInit (idle (bytesAt 0x08003900 [1]))
    readNat t 0x08003800 9 = [0x54, 0x4F, 0x4F, 0x42, 0, 0, 0, 0, 0]
      ∧ readNat t 0x08003817 2 = [0, 0xFF] ∧ readNat t 0x08003900 1 = [0xFF] ∧ t.env.programCalls = 2 := by
  decide +kernel

-- 45_config.md R305
theorem test_imgCrc :
    (after .imgCrc (withArgs (idle (bytesAt 0x08012000 [0x31, 0x32, 0x33, 0x34, 0x35, 0x36, 0x37, 0x38, 0x39]))
      0x08012000 9 0 0)).res0 = 0xCBF43926 := by decide +kernel

theorem test_imgCrc_rejected :
    (after .imgCrc (withArgs (idle []) 0x08012000 0xE001 0 0)).res0 = 0 := by decide +kernel

-- 95_test_vectors.md T-BOOT-1
theorem test_imgVerify : (after (.imgVerify .b) (idle images)).res0 = 1 := by decide +kernel

theorem test_imgVerify_badRole : (after (.imgVerify .run) (idle images)).result = 0xFFFFFFE5 := by
  decide +kernel

-- 95_test_vectors.md T-BOOT-2: rollback after three attempts
theorem test_bootSelect :
    let t := after .bootSelect { idle images with cacheAb := some { record with bootCount := 3 } }
    t.res0 = 0x08012000 ∧ t.res1 = 1 ∧ readNat t 0x08003804 4 = [1, 0, 1, 0] ∧ t.env.eraseCalls = 2 := by
  decide +kernel

-- 95_test_vectors.md T-BOOT-3: crash recovery
theorem test_bootSelect_recovery :
    let t := after .bootSelect { idle images with cacheAb := some { record with updating := 1, bootCount := 2 } }
    t.res1 = 0 ∧ readNat t 0x08003804 4 = [0, 0, 1, 0] ∧ readNat t 0x08003810 4 = [0, 0, 0, 0] := by
  decide +kernel

theorem test_updTarget : (after .updTarget (idle [])).res0 = 1 := by decide +kernel

theorem test_updStart :
    readNat (after (.updStart .b) { idle [] with cacheAb := some { record with updateReq := 1 } }) 0x08003804 4
      = [0, 1, 0, 0] := by decide +kernel

theorem test_updStart_active : (after (.updStart .a) (idle [])).result = 0xFFFFFFE5 := by decide +kernel

-- 45_config.md R313
theorem test_updComplete :
    let t := after (.updComplete .b) (withArgs (idle []) 5 0x372C4E64 0 0)
    readNat t 0x08003804 4 = [1, 0, 0, 0] ∧ readNat t 0x08003810 8 = [5, 0, 0, 0, 0x64, 0x4E, 0x2C, 0x37] := by
  decide +kernel

theorem test_updComplete_copy :
    let t := after (.updComplete .staging) (withArgs smallSr 12 0x1185697A 0 0)
    t.result = 0 ∧ readNat t 0x08000408 4 = [0x41, 0x50, 0x50, 0x41] := by decide +kernel

theorem test_updFailed :
    readNat (after .updFailed { idle [] with cacheAb := some { record with updating := 1 } }) 0x08003804 8
      = [0, 0, 0, 0, 12, 0, 0, 0] := by decide +kernel

-- 45_config.md R316: a count of 0 makes no flash call
theorem test_bootConfirm :
    let t := after .bootConfirm { idle images with dstate := .handedOff }
    t.result = 0 ∧ t.env.eraseCalls = 0 := by decide +kernel

theorem test_bootConfirm_invalid :
    (after .bootConfirm { idle [] with dstate := .handedOff }).result = 0xFFFFFFE8 := by decide +kernel

theorem test_requestUpdate : readNat (after .requestUpdate (idle images)) 0x08003804 4 = [0, 0, 0, 1] := by
  decide +kernel

theorem test_cfgGet :
    let t := after .cfgGet (withArgs (idle []) 0x20000000 0 0 0)
    t.res0 = 32 ∧ t.res1 = 1 ∧ readNat t 0x20000000 10 = [0x54, 0x4F, 0x4F, 0x42, 0, 0, 0, 0, 12, 0] := by
  decide +kernel

-- 46_dispatch.md R355, R357
theorem test_runApp :
    let t := after .runApp (idle images)
    t.dstate = .handedOff
      ∧ t.handOff = some { vtor := 0x08004000, sp := 0x20008000, entry := 0x08004009 } := by decide +kernel

theorem test_runApp_noImage :
    let t := after .runApp (idle [])
    t.result = 0xFFFFFFF7 ∧ t.res0 = 0xFFFFFFFF ∧ t.env.eraseCalls = 0 := by decide +kernel

-- 46_dispatch.md R352: 28 erases of region B and one of the config sector
theorem test_startUpdate :
    let t := after .startUpdate (idle images)
    t.dstate = .update ∧ t.env.eraseCalls = 29 ∧ t.sess.limit = 0x08020000
      ∧ readNat t 0x08012000 2 = [0xFF, 0xFF] ∧ readNat t 0x08004000 2 = [0, 0x80] := by decide +kernel

theorem test_erase :
    let t := after .erase (idle images)
    readNat t 0x08012000 2 = [0xFF, 0xFF] ∧ readNat t 0x08003800 1 = [0x54] ∧ t.env.eraseCalls = 28 := by
  decide +kernel

/-! ### Steps of the other agents -/

/-- A power loss inside an erase leaves the reset state (20_memory.md R104). -/
theorem test_powerLoss :
    (after .flEraseSector (withArgs { idle images with env := answers [.lostDuring] } 36 0 0 0)).AtReset := by
  decide +kernel

theorem test_withFetchWord :
    (match step (State.reset.withFetchWord 32 0x00006103) with
      | .next t => t.crcState
      | _ => 0) = 0x174841BC := by decide +kernel

/-! ### States that meet the hypotheses of the obligations

One theorem for each obligation with hypotheses: a concrete state and operands for every clause, at the ends of
the ranges. -/

/-- `State.Inv`, to be evaluated. -/
def invHolds (s : State) : Bool :=
  s.par.wellFormed && !s.irqMasked && decide s.MemoryOk && decide s.RecordOk && decide s.SessionOk
    && decide s.FlowOk && decide s.ParserOk && decide s.ChannelOk && decide s.HandOffOk

theorem inv_iff (s : State) : s.Inv ↔ invHolds s = true := by
  have both : ∀ {b c : Bool}, (b && c) = true ↔ b = true ∧ c = true := by decide
  unfold invHolds
  rw [both, both, both, both, both, both, both, both]
  constructor
  · exact fun h => ⟨⟨⟨⟨⟨⟨⟨⟨h.1, h.2.1 ▸ rfl⟩, decide_eq_true h.2.2.1⟩, decide_eq_true h.2.2.2.1⟩,
      decide_eq_true h.2.2.2.2.1⟩, decide_eq_true h.2.2.2.2.2.1⟩, decide_eq_true h.2.2.2.2.2.2.1⟩,
      decide_eq_true h.2.2.2.2.2.2.2.1⟩, decide_eq_true h.2.2.2.2.2.2.2.2⟩
  · rintro ⟨⟨⟨⟨⟨⟨⟨⟨h0, h1⟩, h2⟩, h3⟩, h4⟩, h5⟩, h6⟩, h7⟩, h8⟩
    exact ⟨h0, by rwa [Bool.not_eq_true'] at h1, of_decide_eq_true h2, of_decide_eq_true h3,
      of_decide_eq_true h4, of_decide_eq_true h5, of_decide_eq_true h6, of_decide_eq_true h7,
      of_decide_eq_true h8⟩

/-- A step answers a next state. -/
def answersNext (o : Host.Outcome State Fault Refusal) : Bool :=
  match o with
  | .next _ => true
  | _ => false

/-- The first state, before CHECK, with some memory. -/
def atCheck (m : Memory) : State := State.initial Config.reference m env

/-- HANDED_OFF to image A. -/
def handedOff (m : Memory) : State := handedOffAt (idle m) 0x08004000

/-- The parser set. -/
def withParser (s : State) (ps : PState) (pcount : Nat) (len : Word) (body : List Byte) (esc : Bool) : State :=
  { s with parser := { s.parser with pstate := ps, pcount := pcount, lenAcc := len, body := body,
                                     escPend := esc } }

/-- A RAW session over two halfwords, one of them written. -/
def shortSession : State :=
  let s := sessionOpened (idle []) 0x08012000 0x08012004 .raw .noImage
  { s with sess := { s.sess with cursor := 0x08012002, written := 2 } }

/-- A carry byte is in hand. -/
def withCarry (s : State) (b : Byte) : State :=
  { s with sess := { s.sess with pendValid := true, pendByte := b } }

/-- A parameter set changed. -/
def withPar (s : State) (f : Config → Config) : State := { s with par := f s.par }

/-- The clock set. -/
def atTick (s : State) (n : Word) : State := { s with env := { s.env with clock := n } }

/-- The inputs set. -/
def given (s : State) (l : List Input) : State := s.withInputs l

theorem witness_DecodeReadsBackEncode :
    (Instr.frameBuild 0xFF 0x00 0x80).wellFormed = true ∧ (Instr.updStart .run).wellFormed = true := by decide

theorem witness_EncodeReadsBackDecode :
    decode 0x00000348 = .ok (.updComplete .run) ∧ decode 0x0000FF03 = .ok (.crcUpdateByte 0xFF) := by decide

theorem witness_IllegalWordRaises :
    legalWord 0x00000348 = true ∧ legalWord 0xFFFFFF12 = true ∧ legalWord 0x00000448 = false
      ∧ legalWord 0x00000000 = false ∧ legalWord 0x00000053 = false := by decide

theorem witness_StepRunsDecodedCommand :
    (given (idle []) [.portWrite 0 4 0x00006103]).env.inputs
        = .portWrite (given (idle []) [.portWrite 0 4 0x00006103]).par.blkBase 4 0x00006103 :: []
      ∧ decode 0x00006103 = .ok (.crcUpdateByte 0x61)
      ∧ decodeTableWord 32 0x00000144 = some (.imgVerify .b) := by decide +kernel

theorem witness_RefusedByDispatcherState :
    (atCheck []).dstate = .check ∧ { idle [] with dstate := .jump }.dstate = .jump
      ∧ (idle []).takeFatal.dstate = .fault ∧ rawSession.dstate = .update ∧ classOf .sessBegin = .sessBegin
      ∧ classOf .erase = .write ∧ classOf .bootConfirm = .app ∧ (idle []).dstate = .noImage
      ∧ classOf .sessPoll = .sessPoll ∧ (handedOff []).dstate = .handedOff := by decide +kernel

theorem witness_ResetLeavesResetValues : (handedOff images).Inv ∧ flowSession.Inv := by
  simp only [inv_iff]; decide +kernel

theorem witness_RegisterWindow :
    (0x38 : Word).toNat % 4 = 0 ∧ (0x14 : Word).toNat % 4 = 0 ∧ 0x10 < (0x14 : Word).toNat
      ∧ 0x38 < (0x39 : Word).toNat ∧ ((2 : Nat) ≠ 4 ∨ (0x04 : Word).toNat % 4 ≠ 0)
      ∧ ((4 : Nat) ≠ 4 ∨ (0x05 : Word).toNat % 4 ≠ 0) := by decide

theorem witness_CrcRegisterCommands :
    (idle []).AcceptsPure ∧ rawSession.AcceptsPure ∧ (handedOff []).AcceptsPure := by decide +kernel

theorem witness_CrcSpanCommands :
    (idle []).AcceptsPure ∧ SpanReadable (idle []).par 0 0 ∧ SpanReadable (idle []).par 0x20007FFF 1
      ∧ SpanReadable (idle []).par 0x08000000 0x20000 ∧ ¬ SpanReadable (idle []).par 0x20007FFF 2
      ∧ ¬ SpanReadable (idle []).par 0x07FFFFFF 1 := by decide +kernel

/-- Seven bytes in RAM, with escapes, as raw bytes of a frame's middle. -/
def sevenBytes : Memory := bytesAt 0x20000000 [1, 2, 3, 4, 5, 0x7A, 0x55, 6, 7, 8, 9, 10]

theorem witness_EscapeLaws :
    unescape .window5 [0x7E, 1, 0, 0, 0, 0x7A, 0x55, 9, 8, 7, 6, 0x7E] = .ok [0x7E, 1, 0, 0, 0, 0x7E, 9, 8, 7, 6, 0x7E]
      ∧ unescape .full [0x7E, 0x7A, 0xAA, 0x7E] = .ok [0x7E, 0x7A, 0x7E]
      ∧ (escape .full [0x7E, 0x7A, 0x7E])[0]? = some 0x7E ∧ (escape .full [0x7E, 0x7A, 0x7E])[3]? = some 0x7E
      ∧ 10 ≤ ([0x7E, 1, 0, 0, 0, 0x7E, 9, 8, 7, 6, 0x7E] : List Byte).length
      ∧ (escape .window5 [0x7E, 1, 0, 0, 0, 0x7E, 9, 8, 7, 6, 0x7E]).length = 12 ∧ 5 ≤ 6 ∧ 6 + 5 < 12 := by
  decide +kernel

theorem witness_EscapeCommand :
    (idle sevenBytes).AcceptsPure ∧ Memory.Wf sevenBytes
      ∧ SpanReadable (idle sevenBytes).par 0x20000000 12
      ∧ (escape (idle sevenBytes).par.escMode (sevenBytes.read 0x20000000 12)).length = 13
      ∧ SpanWritable (idle sevenBytes).par 0x20007FF3 13 ∧ SpanWritable (idle sevenBytes).par 0x20007FF4 12
      ∧ ¬ SpanWritable (idle sevenBytes).par 0x20007FF4 13 := by decide +kernel

theorem witness_UnescapeCommand :
    (idle sevenBytes).AcceptsPure ∧ Memory.Wf sevenBytes
      ∧ SpanReadable (idle sevenBytes).par 0x20000000 12
      ∧ unescape (idle sevenBytes).par.escMode (sevenBytes.read 0x20000000 12)
          = .ok [1, 2, 3, 4, 5, 0x7E, 6, 7, 8, 9, 10]
      ∧ unescape (idle sevenBytes).par.escMode (sevenBytes.read 0x20000001 11) = .ok [2, 3, 4, 5, 0x7A, 0x55, 6, 7, 8, 9, 10]
      ∧ unescape .full (sevenBytes.read 0x20000000 6 ++ [0x11, 9]) = .anomaly 5
      ∧ SpanWritable (idle sevenBytes).par 0x20007FF5 11 ∧ SpanWritable (idle sevenBytes).par 0x20007FF6 10
      ∧ ¬ SpanWritable (idle sevenBytes).par 0x20007FF6 11 := by decide +kernel

theorem witness_FrameBuildCommand :
    (idle sevenBytes).AcceptsPure ∧ Memory.Wf sevenBytes ∧ (idle sevenBytes).par.maxLen - 3 < 1025
      ∧ 1024 ≤ (idle sevenBytes).par.maxLen - 3 ∧ SpanReadable (idle sevenBytes).par 0x20000005 2
      ∧ (wireFrame .window5 1 2 3 (sevenBytes.read 0x20000005 2)).length = 16
      ∧ SpanWritable (idle sevenBytes).par 0x20007FF0 16 ∧ SpanWritable (idle sevenBytes).par 0x20007FF1 15
      ∧ ¬ SpanReadable (idle sevenBytes).par 0x20007FFF 2 := by decide +kernel

theorem witness_SessBeginCommand :
    (idle []).AcceptsWrite ∧ (0x08012000 : Word).toNat ≤ (0x08012000 : Word).toNat
      ∧ ¬ Aligned (idle []).par 0x08012008 ∧ ¬ Aligned (idle []).par 0x07FFFFF8
      ∧ Aligned (idle []).par 0x080037F0 ∧ ¬ InManaged (idle []).par 0x080037F0 0x08020000
      ∧ Aligned (idle []).par 0x08003800 ∧ InManaged (idle []).par 0x08003800 0x08020000
      ∧ ¬ InManaged (idle []).par 0x08003800 0x08020001 ∧ (idle []).armAnswer = true
      ∧ { idle [] with env := { env with armAnswers := [false] } }.armAnswer = false := by decide +kernel

theorem witness_SessProgressCommand : rawSession.AcceptsPure := by decide +kernel

theorem witness_SessPollCommand_idle :
    (atTick rawSession 29999).dstate = .update ∧ (atTick rawSession 29999).sessKind = some .raw
      ∧ (atTick rawSession 29999).retState = some .noImage ∧ (atTick rawSession 29999).rx.ready = false
      ∧ ¬ (atTick rawSession 29999).IdleEnds ∧ ¬ (atTick rawSession 29999).TimedOut
      ∧ ¬ (atTick rawSession 30000).IdleEnds ∧ (atTick rawSession 30000).TimedOut
      ∧ (withPar rawSession fun p => { p with idleEndLimit := 1 }).IdleEnds
      ∧ ¬ (withPar rawSession fun p => { p with idleEndLimit := 2 }).IdleEnds
      ∧ ¬ (withPar rawSession fun p => { p with idleEndLimit := 1 }).DataSeen
      ∧ (withPar shortSession fun p => { p with idleEndLimit := 1 }).IdleEnds
      ∧ shortSession.dstate = .update ∧ shortSession.sessKind = some .raw
      ∧ shortSession.retState = some .noImage ∧ shortSession.sess.written ≠ 0
      ∧ shortSession.sess.pendValid = false := by decide +kernel

theorem witness_SessPollCommand_idleCarry :
    (withPar (withCarry shortSession 7) fun p => { p with idleEndLimit := 1 }).IdleEnds
      ∧ (withPar (withCarry shortSession 7) fun p => { p with idleEndLimit := 1 }).Inv
      ∧ (withCarry shortSession 7).dstate = .update ∧ (withCarry shortSession 7).sessKind = some .raw
      ∧ (withCarry shortSession 7).retState = some .noImage ∧ (withCarry shortSession 7).rx.ready = false
      ∧ (withCarry shortSession 7).sess.pendValid = true ∧ (withCarry shortSession 7).flashOk = true
      ∧ (withCarry shortSession 7).sess.cursor.toNat + 2 = (withCarry shortSession 7).sess.limit.toNat
      ∧ { shortSession.sess with limit := 0x08012003 }.limit.toNat < shortSession.sess.cursor.toNat + 2 := by
  simp only [inv_iff]; decide +kernel

theorem witness_SessPollCommand_marker :
    (withChunk rawSession [0xFF]).MarkerReady ∧ ¬ (withChunk rawSession [0xFF]).DataSeen
      ∧ (withChunk shortSession [0xFF]).MarkerReady ∧ (withChunk shortSession [0xFF]).sess.written ≠ 0
      ∧ (withChunk (withCarry shortSession 7) [0xFF]).MarkerReady
      ∧ (withCarry shortSession 7).sess.pendValid = true
      ∧ (withCarry shortSession 7).sess.cursor.toNat + 2 = (withCarry shortSession 7).sess.limit.toNat
      ∧ (withChunk (withCarry shortSession 7) [0xFF]).Inv
      ∧ (withChunk (withCarry shortSession 7) [0xFF]).flashOk = true
      ∧ { shortSession.sess with limit := 0x08012003 }.limit.toNat < shortSession.sess.cursor.toNat + 2 := by
  simp only [inv_iff]; decide +kernel

theorem witness_SessPollReportsTheSession :
    (withChunk flowSession [0x7E, 0x03, 0xFF]).Inv
      ∧ (withChunk flowSession [0x7E, 0x03, 0xFF]).dstate = .update := by
  simp only [inv_iff]; decide +kernel

theorem witness_ReceiveByteRules :
    (rawSession.parser.pstate = .waitStart)
      ∧ (let s := withParser rawSession .readBody 0 4 [1] false
         escapedState s.par.escMode s.parser.pstate = true ∧ s.parser.escPend = false
           ∧ s.parser.body.length + 1 ≠ s.parser.lenAcc.toNat)
      ∧ (let s := withParser rawSession .readBody 0 4 [1, 2, 3] true
         escapedState s.par.escMode s.parser.pstate = true ∧ s.parser.escPend = true
           ∧ s.parser.body.length + 1 = s.parser.lenAcc.toNat)
      ∧ (let s := withParser rawSession .readLength 2 0 [] false
         escapedState s.par.escMode s.parser.pstate = false ∧ s.parser.pcount < 3)
      ∧ (let s := withParser rawSession .readLength 3 3 [] false
         s.parser.pcount = 3 ∧ 3 ≤ (s.parser.lenAcc ||| ((0 : Byte).setWidth 32 <<< 24)).toNat)
      ∧ (let s := withParser rawSession .readLength 3 1027 [] false
         (s.parser.lenAcc ||| ((0 : Byte).setWidth 32 <<< 24)).toNat ≤ s.par.maxLen)
      ∧ (let s := withParser rawSession .readCrc 2 3 [1, 2, 3] false
         escapedState s.par.escMode s.parser.pstate = false ∧ s.parser.pcount < 3)
      ∧ (let s := withParser rawSession .readCrc 3 3 [1, 2, 3] false
         s.parser.pstate = .readCrc ∧ s.parser.pcount = 3) := by decide +kernel

theorem witness_FrameErrorKinds :
    (let s := withParser rawSession .readLength 3 2 [] false
     s.parser.pstate = .readLength ∧ s.parser.pcount = 3
       ∧ escapedState s.par.escMode s.parser.pstate = false
       ∧ ¬ (3 ≤ (s.parser.lenAcc ||| ((0 : Byte).setWidth 32 <<< 24)).toNat
         ∧ (s.parser.lenAcc ||| ((0 : Byte).setWidth 32 <<< 24)).toNat ≤ s.par.maxLen))
      ∧ (let s := withParser rawSession .readLength 3 1028 [] false
         ¬ (3 ≤ (s.parser.lenAcc ||| ((0 : Byte).setWidth 32 <<< 24)).toNat
           ∧ (s.parser.lenAcc ||| ((0 : Byte).setWidth 32 <<< 24)).toNat ≤ s.par.maxLen))
      ∧ (let s := withParser (withPar rawSession fun p => { p with escMode := .full }) .readLength 3 3 [] true
         escapedState s.par.escMode s.parser.pstate = true ∧ s.parser.escPend = true
           ∧ ¬ (s.parser.lenAcc ||| ((0x7E : Byte).setWidth 32 <<< 24)).toNat ≤ s.par.maxLen)
      ∧ (let s := withParser rawSession .readBody 0 4 [1] true
         escapedState s.par.escMode s.parser.pstate = true ∧ s.parser.escPend = true
           ∧ (0x7E : Byte) ≠ 0x55 ∧ (0x7E : Byte) ≠ 0xAA)
      ∧ (let s := withParser rawSession .readBody 0 4 [1] false
         escapedState s.par.escMode s.parser.pstate = true ∧ s.parser.escPend = false)
      ∧ (let s := withParser rawSession .waitEnd 0 3 [1, 2, 3] false
         s.parser.pstate = .waitEnd ∧ s.parser.body.length = s.parser.lenAcc.toNat
           ∧ crc32 (le32 s.parser.lenAcc ++ s.parser.body) ≠ s.parser.crcAcc ∧ (0x7D : Byte) ≠ 0x7E) := by
  decide +kernel

theorem witness_WireFrameAccepted :
    (withCarry shortSession 9).Inv ∧ (withCarry shortSession 9).dstate = .update
      ∧ (withCarry shortSession 9).parser.pstate = .waitStart ∧ (withCarry shortSession 9).flashOk = true
      ∧ ([0x7E, 0x7A] : List Byte).length + 3 ≤ (withCarry shortSession 9).par.maxLen
      ∧ (withCarry shortSession 9).sess.cursor.toNat
          + 2 * (((withCarry shortSession 9).carry ++ [0x7E, 0x7A]).length / 2)
          = (withCarry shortSession 9).sess.limit.toNat := by
  simp only [inv_iff]; decide +kernel

/-- FL_WRITE of 8 halfwords to the last granule of flash. -/
def lastGranule (m : Memory) : State := withArgs (idle m) 0x0801FFF0 0x20007FF0 8 0

theorem witness_FlWriteWritesExactly :
    (lastGranule images).Inv ∧ (lastGranule images).AcceptsWrite ∧ (lastGranule images).flashOk = true
      ∧ SpanReadable (lastGranule images).par 0x20007FF0 (2 * 8) ∧ Aligned (lastGranule images).par 0x0801FFF0
      ∧ InManaged (lastGranule images).par 0x0801FFF0 (0x0801FFF0 + 2 * 8) := by
  simp only [inv_iff]; decide +kernel

theorem witness_FlWriteCallCounts :
    (lastGranule []).Inv ∧ 0 < (lastGranule []).arg2.toNat
      ∧ ((lastGranule []).arg0.toNat - 0x08000000) / 2048
          = ((lastGranule []).arg0.toNat + 2 * (lastGranule []).arg2.toNat - 1 - 0x08000000) / 2048
      ∧ ceilDiv (2 * (lastGranule []).arg2.toNat) (lastGranule []).par.granule = 1
      ∧ (∀ a, (lastGranule []).arg0.toNat ≤ a → a < (lastGranule []).arg0.toNat + 1 * 16 →
          (lastGranule []).mem.get a = 0xFF)
      ∧ (lastGranule (bytesAt 0x0801FFFF [0])).Inv
      ∧ ∃ a, (lastGranule []).arg0.toNat ≤ a ∧ a < (lastGranule []).arg0.toNat + 1 * 16
          ∧ (lastGranule (bytesAt 0x0801FFFF [0])).mem.get a ≠ 0xFF := by
  simp only [inv_iff]
  and_intros
  all_goals first
    | decide +kernel
    | exact fun _ _ _ => rfl
    | exact ⟨0x0801FFFF, by decide +kernel⟩

theorem witness_FlashWritesRefused :
    (idle []).AcceptsWrite ∧ ¬ SpanReadable (idle []).par 0x20007FFF (2 * 1)
      ∧ SpanReadable (idle []).par 0x20007FFE (2 * 1) ∧ ¬ Aligned (idle []).par 0x08012002
      ∧ Aligned (idle []).par 0x0801FFF0 ∧ ¬ InManaged (idle []).par 0x0801FFF0 (0x0801FFF0 + 2 * 9)
      ∧ ¬ InManaged (idle []).par 0x08003000 (0x08003000 + 16 * ceilDiv (2 * 1) 16) := by decide +kernel

theorem witness_FlWriteNocheckCommand :
    (lastGranule []).Inv ∧ (lastGranule []).AcceptsWrite ∧ (lastGranule []).flashOk = true
      ∧ SpanReadable (lastGranule []).par (lastGranule []).arg1.toNat (2 * (lastGranule []).arg2.toNat)
      ∧ Aligned (lastGranule []).par (lastGranule []).arg0.toNat
      ∧ InManaged (lastGranule []).par (lastGranule []).arg0.toNat ((lastGranule []).arg0.toNat + 1 * 16)
      ∧ (∀ a, (lastGranule []).arg0.toNat ≤ a → a < (lastGranule []).arg0.toNat + 1 * 16 →
          (lastGranule []).mem.get a = 0xFF)
      ∧ (lastGranule (bytesAt 0x0801FFF0 [0])).Inv
      ∧ (lastGranule (bytesAt 0x0801FFF0 [0])).par.overNonErased = .failAny
      ∧ (withPar (lastGranule (bytesAt 0x0801FFF0 [0])) fun p => { p with overNonErased := .andBits }).Inv
      ∧ ∃ a, (lastGranule []).arg0.toNat ≤ a ∧ a < (lastGranule []).arg0.toNat + 16
          ∧ (lastGranule (bytesAt 0x0801FFF0 [0])).mem.get a ≠ 0xFF := by
  simp only [inv_iff]
  and_intros
  all_goals first
    | decide +kernel
    | exact fun _ _ _ => rfl
    | exact ⟨0x0801FFF0, by decide +kernel⟩

theorem witness_FlReadCommand :
    (idle images).AcceptsPure ∧ Memory.Wf images ∧ SpanReadable (idle images).par 0x0801FFFE (2 * 1)
      ∧ SpanWritable (idle images).par 0x20007FFE (2 * 1) ∧ ¬ SpanReadable (idle images).par 0x0801FFFF (2 * 1)
      ∧ ¬ SpanWritable (idle images).par 0x08012000 (2 * 1) := by decide +kernel

theorem witness_FlEraseSectorCommand :
    (idle images).Inv ∧ (idle images).AcceptsWrite ∧ flashSize / (idle images).par.sector = 64
      ∧ (idle images).par.flashBase + 6 * (idle images).par.sector < (idle images).par.wrLo
      ∧ (idle images).par.wrLo = (idle images).par.flashBase + 7 * (idle images).par.sector
      ∧ (idle images).flashAnswer.outcome = .ok
      ∧ { idle images with env := answers [.fail] }.Inv
      ∧ { idle images with env := answers [.fail] }.flashAnswer.outcome = .fail
      ∧ { idle images with env := answers [.lostBefore] }.flashAnswer.outcome = .lostBefore
      ∧ { idle images with env := answers [.lostDuring] }.flashAnswer.outcome = .lostDuring := by
  simp only [inv_iff]; decide +kernel

/-- A valid AB record at every upper bound. -/
def fullRecord : AbRecord :=
  { magic := 0x424F4F54, active := 1, updating := 1, bootCount := 3, updateReq := 1, sizeA := 0xE000,
    crcA := 0, sizeB := 0xE000, crcB := 0 }

/-- A record's bytes in the config sector. -/
def stored (c : AbRecord) : Memory := bytesAt 0x08003800 ((serializeAb c).map BitVec.toNat)

/-- SR: a record's bytes in the config sector. -/
def storedSr (size : Word) : Memory :=
  bytesAt 0x08003800 ((serializeSr { magic := 0x424F4F54, pageCount := 7, runSize := size, runCrc := 0 }).map
    BitVec.toNat)

/-- NOIMAGE under SR, with some memory. -/
def idleSrWith (m : Memory) : State := { idleSr with mem := m }

theorem witness_CfgReadCommand :
    (idle (stored fullRecord)).AcceptsWrite
      ∧ deserializeAb ((idle (stored fullRecord)).mem.read (idle (stored fullRecord)).par.cfgAddr 32) = fullRecord
      ∧ fullRecord.magic = Config.reference.cfgMagic ∧ fullRecord.active.toNat ≤ 1
      ∧ fullRecord.updating.toNat ≤ 1 ∧ fullRecord.bootCount.toNat ≤ Config.reference.maxBootAttempts
      ∧ fullRecord.updateReq.toNat ≤ 1 ∧ fullRecord.sizeA.toNat ≤ Config.reference.regionSize
      ∧ fullRecord.sizeB.toNat ≤ Config.reference.regionSize
      ∧ ¬ { fullRecord with bootCount := 4 }.bootCount.toNat ≤ Config.reference.maxBootAttempts
      ∧ (idleSrWith []).AcceptsWrite ∧ (idleSrWith []).par.topology = .sr
      ∧ (deserializeSr ((idleSrWith (storedSr 0xE000)).mem.read Config.reference.cfgAddr 16)).runSize.toNat
          ≤ Config.reference.regionSize
      ∧ ¬ (deserializeSr ((idleSrWith (storedSr 0xE001)).mem.read Config.reference.cfgAddr 16)).runSize.toNat
          ≤ Config.reference.regionSize := by decide +kernel

theorem witness_CfgWriteReadsBack :
    (idle images).Inv ∧ (idle images).AcceptsWrite ∧ (idle images).cfgValid = true
      ∧ (idle images).flashOk = true ∧ (idle images).par.topology = .ab ∧ (idle images).cacheAb = some record
      ∧ idleSr.Inv ∧ idleSr.AcceptsWrite ∧ idleSr.cfgValid = true ∧ idleSr.flashOk = true
      ∧ idleSr.par.topology = .sr ∧ idleSr.cacheSr.isSome = true := by
  simp only [inv_iff]; decide +kernel

theorem witness_CfgWriteEraseFails :
    { idle images with env := answers [.fail] }.Inv ∧ { idle images with env := answers [.fail] }.AcceptsWrite
      ∧ { idle images with env := answers [.fail] }.cfgValid = true
      ∧ { idle images with env := answers [.fail] }.flashAnswer.outcome = .fail := by
  simp only [inv_iff]; decide +kernel

/-- The factory probe on, under `small`: a plausible image in the probe region, whose last byte that is not 0xFF
is at offset `n`. -/
def factory (t : Topology) (base n : Nat) : State :=
  { State.initial { small with topology := t, probeFactory := true }
      ((bytesAt base [0x00, 0x80, 0x00, 0x20, 0x09, base / 256 % 256, 0x00, 0x08]).set (base + n) 0) env with
    dstate := .noImage, cacheAb := if t = .ab then some record else none,
    cacheSr := if t = .sr then some { magic := 0, pageCount := 0, runSize := 0, runCrc := 0 } else none }

theorem witness_CfgInitCommand_ab :
    (idle images).Inv ∧ (idle images).par.topology = .ab ∧ (idle images).par.probeFactory = false
      ∧ (factory .ab 0x08000200 511).Inv ∧ (factory .ab 0x08000200 511).AcceptsWrite
      ∧ (factory .ab 0x08000200 511).flashOk = true ∧ (factory .ab 0x08000200 511).par.topology = .ab
      ∧ (factory .ab 0x08000200 511).par.probeFactory = true
      ∧ (factory .ab 0x08000200 511).par.ramBase < ((factory .ab 0x08000200 511).mem.word 0x08000200).toNat
      ∧ ((factory .ab 0x08000200 511).mem.word 0x08000200).toNat = (factory .ab 0x08000200 511).par.ramEnd
      ∧ 0x08000200 ≤ ((factory .ab 0x08000200 511).mem.word (0x08000200 + 4)).toNat
      ∧ ((factory .ab 0x08000200 511).mem.word (0x08000200 + 4)).toNat < 0x08000200 + 512
      ∧ (factory .ab 0x08000200 511).mem.get (0x08000200 + 511) ≠ 0xFF
      ∧ (∀ q, 511 < q → q < 512 → (factory .ab 0x08000200 511).mem.get (0x08000200 + q) = 0xFF)
      ∧ (factory .ab 0x08000400 511).Inv
      ∧ ¬ ((factory .ab 0x08000400 511).mem.word 0x08000200).toNat ≤ (factory .ab 0x08000400 511).par.ramEnd := by
  simp only [inv_iff]
  and_intros
  all_goals first
    | exact fun q h g => absurd g (by omega)
    | decide +kernel

theorem witness_CfgInitCommand_sr :
    idleSr.Inv ∧ idleSr.par.probeFactory = false ∧ (factory .sr 0x08000400 12).Inv
      ∧ (factory .sr 0x08000400 12).AcceptsWrite ∧ (factory .sr 0x08000400 12).flashOk = true
      ∧ (factory .sr 0x08000400 12).par.topology = .sr ∧ (factory .sr 0x08000400 12).par.probeFactory = true
      ∧ (factory .sr 0x08000400 12).par.ramBase < ((factory .sr 0x08000400 12).mem.word 0x08000400).toNat
      ∧ ((factory .sr 0x08000400 12).mem.word 0x08000400).toNat ≤ (factory .sr 0x08000400 12).par.ramEnd
      ∧ 0x08000400 ≤ ((factory .sr 0x08000400 12).mem.word (0x08000400 + 4)).toNat
      ∧ ((factory .sr 0x08000400 12).mem.word (0x08000400 + 4)).toNat < 0x08000400 + 512
      ∧ (factory .sr 0x08000400 12).mem.get (0x08000400 + 12) ≠ 0xFF
      ∧ ∀ q, 12 < q → q < 512 → (factory .sr 0x08000400 12).mem.get (0x08000400 + q) = 0xFF := by
  simp only [inv_iff]
  have erasedTail : ∀ q < 512, 12 < q → (factory .sr 0x08000400 12).mem.get (0x08000400 + q) = 0xFF := by
    decide +kernel
  and_intros
  all_goals first
    | exact fun q h g => erasedTail q g h
    | decide +kernel

theorem witness_ImgCrcCommand :
    (idle images).AcceptsPure ∧ (idle images).par.regionSize < (0xE001 : Word).toNat
      ∧ (0xE000 : Word).toNat ≤ (idle images).par.regionSize
      ∧ SpanReadable (idle images).par 0x08012000 0xE000 ∧ ¬ SpanReadable (idle images).par 0x08012001 0xE000 := by
  decide +kernel

theorem witness_ImgVerifyCommand :
    (idle images).AcceptsPure ∧ (idle images).par.topology = .ab ∧ (idle images).cfgValid = true
      ∧ (idle images).cacheAb = some record ∧ RoleGood (idle images).par images record .a
      ∧ ¬ RoleGood (idle images).par images { record with crcB := 0 } .b
      ∧ { idle images with cfgValid := false }.cfgValid = false ∧ idleSr.AcceptsPure
      ∧ idleSr.par.topology = .sr ∧ idleSr.cfgValid = true
      ∧ idleSr.cacheSr = some { magic := 0x424F4F54, pageCount := 0, runSize := 15, runCrc := 0xE54C9E0B }
      ∧ ImageGood idleSr.par idleSr.mem idleSr.par.runBase 15 0xE54C9E0B := by decide +kernel

/-- NOIMAGE under AB with the given record cached. -/
def caching (c : AbRecord) (m : Memory) : State := { idle m with cacheAb := some c }

theorem witness_BootSelectCommand :
    (caching { record with bootCount := 2 } images).Inv
      ∧ (caching { record with bootCount := 2 } images).AcceptsWrite
      ∧ (caching { record with bootCount := 2 } images).cfgValid = true
      ∧ (caching { record with bootCount := 2 } images).flashOk = true
      ∧ earlyPersists Config.reference { record with bootCount := 2 } = 0
      ∧ RoleGood Config.reference images (failedOver Config.reference (recovered { record with bootCount := 2 })) .a
      ∧ (caching { record with bootCount := 3 } images).Inv
      ∧ earlyPersists Config.reference { record with bootCount := 3 } = 1
      ∧ RoleGood Config.reference images (failedOver Config.reference (recovered { record with bootCount := 3 })) .b
      ∧ (caching { record with sizeA := 0 } images).Inv ∧ ¬ RoleGood Config.reference images { record with sizeA := 0 } .a
      ∧ RoleGood Config.reference images { record with sizeA := 0 } .b
      ∧ (idle []).Inv ∧ ¬ RoleGood Config.reference [] record .a ∧ ¬ RoleGood Config.reference [] record .b
      ∧ (caching { record with updating := 1 } []).Inv
      ∧ earlyPersists Config.reference { record with updating := 1 } = 1
      ∧ idleSr.Inv ∧ idleSr.AcceptsWrite ∧ idleSr.cfgValid = true ∧ idleSr.flashOk = true
      ∧ ImageGood idleSr.par idleSr.mem idleSr.par.runBase 15 0xE54C9E0B
      ∧ (idleSrWith []).Inv ∧ ¬ ImageGood idleSr.par [] idleSr.par.runBase 15 0xE54C9E0B := by
  simp only [inv_iff]; decide +kernel

theorem witness_UpdTargetCommand :
    (idle []).Inv ∧ (idle []).AcceptsPure ∧ (idle []).cfgValid = true ∧ (idle []).cacheAb = some record
      ∧ { idle [] with cfgValid := false }.Inv ∧ idleSr.Inv ∧ idleSr.AcceptsPure ∧ idleSr.cfgValid = true := by
  simp only [inv_iff]; decide +kernel

theorem witness_UpdStartAndFailed :
    (idle []).Inv ∧ (idle []).AcceptsWrite ∧ (idle []).cfgValid = true ∧ (idle []).target ≠ some .a
      ∧ (idle []).target = some .b ∧ (idle []).flashOk = true ∧ (idle []).cacheAb = some record
      ∧ idleSr.Inv ∧ idleSr.AcceptsWrite ∧ idleSr.target = some .staging ∧ idleSr.flashOk = true
      ∧ idleSr.cacheSr.isSome = true := by
  simp only [inv_iff]; decide +kernel

theorem witness_UpdCompleteAb :
    (withArgs (idle []) 0xE000 1 0 0).Inv ∧ (withArgs (idle []) 0xE000 1 0 0).AcceptsWrite
      ∧ (withArgs (idle []) 0xE000 1 0 0).par.topology = .ab
      ∧ (withArgs (idle []) 0xE000 1 0 0).cacheAb = some record
      ∧ (withArgs (idle []) 0xE000 1 0 0).cfgValid = true ∧ (withArgs (idle []) 0xE000 1 0 0).target = some .b
      ∧ (withArgs (idle []) 0xE000 1 0 0).arg0 ≠ 0
      ∧ (withArgs (idle []) 0xE000 1 0 0).arg0.toNat ≤ Config.reference.regionSize
      ∧ (withArgs (idle []) 0xE000 1 0 0).flashOk = true
      ∧ (withArgs (idle []) 0xE000 1 0 0).target ≠ some .a ∧ (withArgs (idle []) 0 1 0 0).arg0 = 0
      ∧ Config.reference.regionSize < (withArgs (idle []) 0xE001 1 0 0).arg0.toNat := by
  simp only [inv_iff]; decide +kernel

theorem witness_UpdCompleteSr :
    (withArgs smallSr 12 0x1185697A 0 0).Inv ∧ (withArgs smallSr 12 0x1185697A 0 0).AcceptsWrite
      ∧ (withArgs smallSr 12 0x1185697A 0 0).par.topology = .sr ∧ smallSr.cacheSr.isSome = true
      ∧ (withArgs smallSr 12 0x1185697A 0 0).cfgValid = true
      ∧ (withArgs smallSr 12 0x1185697A 0 0).flashOk = true
      ∧ crc32 (smallSr.mem.read smallSr.par.stagingBase 12) = (withArgs smallSr 12 0x1185697A 0 0).arg1
      ∧ (withArgs smallSr 1 0 0 0).Inv
      ∧ crc32 (smallSr.mem.read smallSr.par.stagingBase 1) ≠ (withArgs smallSr 1 0 0 0).arg1
      ∧ (withArgs smallSr 512 0 0 0).arg0.toNat ≤ smallSr.par.regionSize
      ∧ (withArgs smallSr 513 0 0 0).Inv ∧ smallSr.par.regionSize < (withArgs smallSr 513 0 0 0).arg0.toNat
      ∧ (withArgs smallSr 0 0 0 0).Inv ∧ (withArgs smallSr 0 0 0 0).arg0.toNat = 0 ∧ Role.run ≠ .staging := by
  simp only [inv_iff]; decide +kernel

theorem witness_BootConfirmCommand :
    (handedOff (stored fullRecord)).Inv ∧ (handedOff (stored fullRecord)).AcceptsApp
      ∧ validAb Config.reference (deserializeAb ((stored fullRecord).read Config.reference.cfgAddr 32)) = true
      ∧ fullRecord.bootCount ≠ 0 ∧ (handedOff (stored fullRecord)).flashOk = true
      ∧ (idle (stored record)).Inv ∧ (idle (stored record)).AcceptsApp
      ∧ validAb Config.reference (deserializeAb ((stored record).read Config.reference.cfgAddr 32)) = true
      ∧ (deserializeAb ((stored record).read Config.reference.cfgAddr 32)).bootCount = 0
      ∧ validAb Config.reference (deserializeAb (Memory.read [] Config.reference.cfgAddr 32)) = false
      ∧ (idleSrWith (storedSr 0xE000)).Inv ∧ (idleSrWith (storedSr 0xE000)).AcceptsApp
      ∧ validSr idleSr.par (deserializeSr ((storedSr 0xE000).read Config.reference.cfgAddr 16)) = true
      ∧ validSr idleSr.par (deserializeSr ((storedSr 0xE001).read Config.reference.cfgAddr 16)) = false := by
  simp only [inv_iff]; decide +kernel

theorem witness_RequestUpdateCommand :
    (handedOff (stored fullRecord)).Inv ∧ (handedOff (stored fullRecord)).AcceptsApp
      ∧ validAb Config.reference (deserializeAb ((stored fullRecord).read Config.reference.cfgAddr 32)) = true
      ∧ (handedOff (stored fullRecord)).flashOk = true
      ∧ validAb Config.reference (deserializeAb (Memory.read [] Config.reference.cfgAddr 32)) = false
      ∧ (idleSrWith (storedSr 0xE000)).Inv ∧ (idleSrWith (storedSr 0xE000)).flashOk = true
      ∧ validSr idleSr.par (deserializeSr ((storedSr 0xE000).read Config.reference.cfgAddr 16)) = true
      ∧ validSr idleSr.par (deserializeSr ((storedSr 0xE001).read Config.reference.cfgAddr 16)) = false := by
  simp only [inv_iff]; decide +kernel

theorem witness_CfgGetCommand :
    (idle images).AcceptsPure ∧ Memory.Wf images ∧ SpanWritable (idle images).par 0x20007FE0 32
      ∧ ¬ SpanWritable (idle images).par 0x20007FE1 32 ∧ (idle images).par.recSize = 32
      ∧ (idle images).cacheAb = some record ∧ idleSr.AcceptsPure ∧ SpanWritable idleSr.par 0x20007FF0 16
      ∧ ¬ SpanWritable idleSr.par 0x20007FF1 16 ∧ idleSr.par.recSize = 16 ∧ idleSr.cacheSr.isSome = true := by
  decide +kernel

theorem witness_NeedsValidRecord :
    (withArgs { idle [] with cfgValid := false } 0xE000 0 0 0).Inv
      ∧ (withArgs { idle [] with cfgValid := false } 0xE000 0 0 0).AcceptsWrite
      ∧ (withArgs { idle [] with cfgValid := false } 0xE000 0 0 0).cfgValid = false
      ∧ hasRole Config.reference .a = true ∧ hasRole Config.reference .b = true
      ∧ (withArgs { idle [] with cfgValid := false } 0xE000 0 0 0).target = some .b
      ∧ (withArgs { idle [] with cfgValid := false } 0xE000 0 0 0).arg0 ≠ 0
      ∧ (withArgs { idle [] with cfgValid := false } 0xE000 0 0 0).arg0.toNat ≤ Config.reference.regionSize
      ∧ { idleSr with cfgValid := false }.Inv ∧ { idleSr with cfgValid := false }.target = some .staging := by
  simp only [inv_iff]; decide +kernel

theorem witness_RunAppCommand :
    (caching { record with bootCount := 2 } images).Inv
      ∧ (caching { record with bootCount := 2 } images).AcceptsWrite
      ∧ (caching { record with bootCount := 2 } images).cfgValid = true
      ∧ (caching { record with bootCount := 2 } images).flashOk = true
      ∧ earlyPersists Config.reference { record with bootCount := 2 } = 0
      ∧ RoleGood Config.reference images (failedOver Config.reference (recovered { record with bootCount := 2 })) .a
      ∧ (caching { record with bootCount := 3 } images).Inv
      ∧ earlyPersists Config.reference { record with bootCount := 3 } = 1
      ∧ RoleGood Config.reference images (failedOver Config.reference (recovered { record with bootCount := 3 })) .b
      ∧ (caching { record with sizeA := 0 } images).Inv
      ∧ failedOver Config.reference (recovered { record with sizeA := 0 }) = { record with sizeA := 0 }
      ∧ ¬ RoleGood Config.reference images { record with sizeA := 0 } .a
      ∧ RoleGood Config.reference images { record with sizeA := 0 } .b
      ∧ (idle []).Inv ∧ ¬ RoleGood Config.reference [] record .a ∧ ¬ RoleGood Config.reference [] record .b
      ∧ (caching { record with updating := 1 } []).Inv
      ∧ earlyPersists Config.reference { record with updating := 1 } = 1
      ∧ idleSr.Inv ∧ idleSr.AcceptsWrite ∧ idleSr.cfgValid = true ∧ idleSr.flashOk = true
      ∧ ImageGood idleSr.par idleSr.mem idleSr.par.runBase 15 0xE54C9E0B
      ∧ (idleSrWith []).Inv ∧ ¬ ImageGood idleSr.par [] idleSr.par.runBase 15 0xE54C9E0B := by
  simp only [inv_iff]; decide +kernel

/-- The channel cannot be armed. -/
def unarmable (s : State) : State := { s with env := { s.env with armAnswers := [false] } }

theorem witness_StartUpdateCommand :
    (idle images).Inv ∧ (idle images).AcceptsWrite ∧ (idle images).cfgValid = true
      ∧ (idle images).flashOk = true ∧ (idle images).target = some .b ∧ (idle images).cacheAb = some record
      ∧ (idle images).armAnswer = true ∧ (unarmable (idle images)).Inv
      ∧ (unarmable (idle images)).armAnswer = false ∧ (unarmable (idle images)).flashOk = true
      ∧ idleSr.Inv ∧ idleSr.AcceptsWrite ∧ idleSr.cfgValid = true ∧ idleSr.flashOk = true
      ∧ idleSr.target = some .staging ∧ idleSr.cacheSr.isSome = true ∧ idleSr.armAnswer = true
      ∧ (unarmable idleSr).Inv ∧ (unarmable idleSr).armAnswer = false ∧ (unarmable idleSr).flashOk = true := by
  simp only [inv_iff]; decide +kernel

theorem witness_EraseCommand :
    (idle images).Inv ∧ (idle images).AcceptsWrite ∧ (idle images).cfgValid = true
      ∧ (idle images).target = some .b ∧ (idle images).flashOk = true
      ∧ { idle images with env := answers [.fail] }.Inv
      ∧ { idle images with env := answers [.fail] }.flashAnswer.outcome = .fail := by
  simp only [inv_iff]; decide +kernel

/-- JUMP under AB with the given record cached. -/
def jumping (c : AbRecord) (m : Memory) : State := { caching c m with dstate := .jump }

/-- CHECK under SR with a valid record and a run image that verifies. -/
def checkSr : State :=
  State.initial idleSr.par (idleSr.mem.store 0x08003800 (serializeSr
    { magic := 0x424F4F54, pageCount := 0, runSize := 15, runCrc := 0xE54C9E0B })) env

theorem witness_CheckAndJumpSteps_check :
    (atCheck images).Inv ∧ (atCheck images).flashOk = true ∧ (atCheck images).par.topology = .ab
      ∧ (atCheck images).dstate = .check
      ∧ record = deserializeAb ((atCheck images).mem.read (atCheck images).par.cfgAddr 32)
      ∧ validAb (atCheck images).par record = true ∧ record.updating = 0 ∧ record.updateReq = 0
      ∧ RoleGood Config.reference images (recovered record) .a
      ∧ (atCheck (images.set 0x08003805 1)).Inv
      ∧ { record with updating := 1 }
          = deserializeAb ((images.set 0x08003805 1).read (atCheck images).par.cfgAddr 32)
      ∧ validAb (atCheck images).par { record with updating := 1 } = true
      ∧ RoleGood Config.reference (images.set 0x08003805 1) (recovered { record with updating := 1 }) .a
      ∧ checkSr.Inv ∧ checkSr.flashOk = true ∧ checkSr.par.topology = .sr ∧ checkSr.dstate = .check
      ∧ validSr checkSr.par (deserializeSr (checkSr.mem.read checkSr.par.cfgAddr 16)) = true
      ∧ (deserializeSr (checkSr.mem.read checkSr.par.cfgAddr 16)).pageCount = 0
      ∧ ImageGood checkSr.par checkSr.mem checkSr.par.runBase 15 0xE54C9E0B := by
  simp only [inv_iff]; decide +kernel

theorem witness_CheckAndJumpSteps_jump :
    (jumping record images).Inv ∧ (jumping record images).flashOk = true
      ∧ RoleGood Config.reference images (failedOver Config.reference (recovered record)) .a
      ∧ activeRole record.active = .a ∧ (jumping { record with sizeA := 0 } images).Inv
      ∧ failedOver Config.reference (recovered { record with sizeA := 0 }) = { record with sizeA := 0 }
      ∧ ¬ RoleGood Config.reference images { record with sizeA := 0 } .a
      ∧ RoleGood Config.reference images { record with sizeA := 0 } .b
      ∧ (jumping { record with bootCount := 3 } images).Inv
      ∧ earlyPersists Config.reference { record with bootCount := 3 } = 1
      ∧ (jumping record []).Inv ∧ ¬ RoleGood Config.reference [] record .a
      ∧ ¬ RoleGood Config.reference [] record .b
      ∧ { idleSr with dstate := .jump }.Inv ∧ { idleSr with dstate := .jump }.flashOk = true
      ∧ ImageGood idleSr.par idleSr.mem idleSr.par.runBase 15 0xE54C9E0B
      ∧ { idleSrWith [] with dstate := .jump }.Inv
      ∧ ¬ ImageGood idleSr.par [] idleSr.par.runBase 15 0xE54C9E0B := by
  simp only [inv_iff]; decide +kernel

theorem witness_FirstBootOpensAnUpdate :
    (atCheck []).Inv ∧ (atCheck []).dstate = .check ∧ (atCheck []).par.topology = .ab
      ∧ (atCheck []).par.probeFactory = false
      ∧ validAb (atCheck []).par (deserializeAb ((atCheck []).mem.read (atCheck []).par.cfgAddr 32)) = false
      ∧ (atCheck []).flashOk = true ∧ (atCheck []).armAnswer = true := by
  simp only [inv_iff]; decide +kernel

/-- A flow session in which four bytes have been written. -/
def flowData : State :=
  { flowSession with sess := { flowSession.sess with cursor := 0x08012004, written := 4 } }

/-- A flow session with one halfword left. -/
def flowFull : State :=
  { flowSession with sess := { flowSession.sess with cursor := 0x0801FFFE, written := 0xDFFE } }

theorem witness_UpdateFlowEnds_ab :
    (withChunk flowData [0xFF]).Inv ∧ (withChunk flowData [0xFF]).dstate = .update
      ∧ (withChunk flowData [0xFF]).par.topology = .ab ∧ (withChunk flowData [0xFF]).sessKind = some .flow
      ∧ (withChunk flowData [0xFF]).cacheAb = some record ∧ (withChunk flowData [0xFF]).flowTarget = some .b
      ∧ (withChunk flowData [0xFF]).retState = some .jump ∧ (withChunk flowData [0xFF]).flashOk = true
      ∧ (withChunk flowData [0xFF]).MarkerReady ∧ (withChunk flowData [0xFF]).DataSeen
      ∧ (withChunk (withCarry flowFull 7) [0xFF]).Inv ∧ (withChunk (withCarry flowFull 7) [0xFF]).MarkerReady
      ∧ flowFull.sess.cursor.toNat + 2 = flowFull.sess.limit.toNat
      ∧ (atTick flowData 30000).Inv ∧ (atTick flowData 30000).rx.ready = false
      ∧ ¬ (atTick flowData 30000).IdleEnds ∧ (atTick flowData 30000).TimedOut
      ∧ (atTick flowSession 30000).Inv ∧ ¬ (atTick flowSession 30000).DataSeen := by
  simp only [inv_iff]; decide +kernel

/-- A flow session under SR, over the small geometry, in which four bytes have been written. -/
def flowSr : State :=
  let s := sessionOpened { smallSr with flowTarget := some .staging } 0x08000200 0x08000400 .flow .noImage
  { s with sess := { s.sess with cursor := 0x08000204, written := 4 } }

theorem witness_UpdateFlowEnds_sr :
    (withChunk flowSr [0xFF]).Inv ∧ flowSr.dstate = .update ∧ flowSr.par.topology = .sr
      ∧ flowSr.sessKind = some .flow ∧ flowSr.cacheSr.isSome = true ∧ flowSr.flowTarget = some .staging
      ∧ flowSr.retState = some .noImage ∧ flowSr.flashOk = true ∧ (withChunk flowSr [0xFF]).MarkerReady
      ∧ flowSr.DataSeen ∧ (withChunk (withCarry flowSr 7) [0xFF]).Inv
      ∧ (withChunk (withCarry flowSr 7) [0xFF]).MarkerReady
      ∧ (withCarry flowSr 7).sess.cursor.toNat + 2 ≤ (withCarry flowSr 7).sess.limit.toNat
      ∧ (atTick flowSr 30000).Inv ∧ ¬ (atTick flowSr 30000).IdleEnds ∧ (atTick flowSr 30000).TimedOut
      ∧ flowSr.rx.ready = false := by
  simp only [inv_iff]; decide +kernel

theorem witness_FatalSignalEntersFault :
    rawSession.dstate ≠ .fault ∧ rawSession.takeFatal.dstate = .fault := by decide +kernel

/-- An armed channel on whose line two bytes wait. -/
def twoOnLine : State := { rawSession with rx := { rawSession.rx with line := [0x7E, 3] } }

theorem witness_ChunkDelivery :
    twoOnLine.rx.armed = true ∧ twoOnLine.rx.ready = false ∧ twoOnLine.irqMasked = false
      ∧ 2 ≤ twoOnLine.par.rxCap ∧ 2 ≤ twoOnLine.rx.line.length ∧ twoOnLine.rx.line.length < 3
      ∧ twoOnLine.par.rxCap < 2065 ∧ (idle []).rx.armed = false
      ∧ (withChunk rawSession [1]).rx.ready = true := by decide +kernel

/-- Whole-machine statements: a state that meets the invariant and takes a step, for each kind of step. -/
theorem witness_InvariantKept :
    (given (idle []) [.portWrite 0 4 0x00000001]).Inv
      ∧ answersNext (step (given (idle []) [.portWrite 0 4 0x00000001])) = true
      ∧ (withChunk flowSession [0x7E]).Inv ∧ answersNext (step (withChunk flowSession [0x7E])) = true
      ∧ (atCheck images).Inv ∧ answersNext (step (atCheck images)) = true := by
  simp only [inv_iff]; decide +kernel

theorem witness_NoStepFaults :
    (given (idle []) [.portRead 0x02 4]).Inv
      ∧ step (given (idle []) [.portRead 0x02 4]) = .refused .portAccess
      ∧ (given (idle []) [.portWrite 0 2 1]).Inv
      ∧ step (given (idle []) [.portWrite 0 2 1]) = .refused .portAccess
      ∧ (withParser rawSession .waitEnd 0 4 [1, 2, 3] false).parser.pstate = .waitEnd
      ∧ (withParser rawSession .waitEnd 0 4 [1, 2, 3] false).parser.body.length
          < (withParser rawSession .waitEnd 0 4 [1, 2, 3] false).parser.lenAcc.toNat
      ∧ { idle [] with cacheAb := none }.AcceptsPure ∧ { idle [] with cacheAb := none }.cfgValid = true
      ∧ { idle [] with cacheAb := none }.par.topology = .ab ∧ { idle [] with cacheAb := none }.cacheAb = none := by
  simp only [inv_iff]
  and_intros
  all_goals first
    | decide +kernel
    | rfl

/-- 10_state.md R55: a WAIT_END that would read past `body_n` faults. -/
theorem test_short_body_faults :
    (match feed 0x7E (withParser rawSession .waitEnd 0 4 [1, 2, 3] false) with
      | .error (.fault f) _ => f == .noValue .frameBody
      | _ => false) = true := by decide +kernel

theorem witness_BootloaderNeverWritten :
    (given (lastGranule []) [.portWrite 0 4 0x00000031]).Inv
      ∧ answersNext (step (given (lastGranule []) [.portWrite 0 4 0x00000031])) = true
      ∧ (lastGranule []).par.flashBase ≤ 0x080037FF ∧ 0x080037FF < (lastGranule []).par.cfgAddr := by
  simp only [inv_iff]; decide +kernel

theorem witness_ActiveRegionNotWrittenByFlow :
    (withChunk flowSession [0x7E]).Inv ∧ (withChunk flowSession [0x7E]).par.topology = .ab
      ∧ (withChunk flowSession [0x7E]).dstate = .update ∧ (withChunk flowSession [0x7E]).sessKind = some .flow
      ∧ (withChunk flowSession [0x7E]).cacheAb = some record
      ∧ answersNext (step (withChunk flowSession [0x7E])) = true
      ∧ regionBase (withChunk flowSession [0x7E]).par (activeRole record.active) = 0x08004000 := by
  simp only [inv_iff]; decide +kernel

theorem witness_CanonicalMemoryKept :
    Memory.Wf (lastGranule sevenBytes).mem
      ∧ answersNext (step (given (lastGranule sevenBytes) [.portWrite 0 4 0x00000031])) = true := by
  decide +kernel

theorem witness_WhatCommandsNeverWrite :
    answersNext (exec (.crcUpdateByte 1) (idle [])) = true ∧ answersNext (exec .sessProgress (idle [])) = true
      ∧ Instr.sessProgress ≠ .crcInit ∧ Instr.sessProgress ≠ .crcUpdate
      ∧ (∀ b, Instr.sessProgress ≠ .crcUpdateByte b) ∧ classOf .sessProgress = .pure ∧ (idle []).Inv := by
  simp only [inv_iff]
  exact ⟨by decide +kernel, by decide +kernel, by decide, by decide, fun _ => nofun, rfl,
    by decide +kernel⟩

end Sys2Proof.Tests
end

section
/-! SUPPORT. What the invariant asks of memory and of the parameters, and what flash calls, fills and a reset keep
of it (20_memory.md R80, R81, R96, R97). -/

namespace Sys2Proof.Machine

-- Elaborated one after another: threads that wait on the kernel use up the memory limit.
set_option Elab.async false

/-- What every internal step of the engine keeps, also inside a command or a session: the parameters meet their
constraints, interrupts are unmasked, and memory is canonical and inside the windows. -/
structure State.Sane (s : State) : Prop where
  wellFormed : s.par.wellFormed = true
  unmasked : s.irqMasked = false
  memory : s.MemoryOk

theorem State.Sane.sound {s : State} (h : s.Sane) : s.par.Sound := Config.sound h.wellFormed

/-! ### Memory inside the windows -/

/-- Memory that differs only inside flash stays inside the windows. -/
theorem State.memoryOk_of_flash {s t : State} (h : s.MemoryOk) (hp : t.par = s.par) (hw : Memory.Wf t.mem)
    (ho : ∀ a, a < s.par.flashBase ∨ s.par.flashEnd ≤ a → t.mem.get a = s.mem.get a) : t.MemoryOk := by
  refine ⟨hw, fun c hc => ?_⟩
  rw [hp]
  by_cases hin : s.par.flashBase ≤ c.1 ∧ c.1 < s.par.flashEnd
  · exact (readable_one _ _).2 (.inl hin)
  · obtain ⟨hne, hget⟩ := (Memory.mem_iff hw c.1 c.2).1 hc
    rw [ho c.1 (by omega)] at hget
    exact h.2 c ((Memory.mem_iff h.1 c.1 c.2).2 ⟨hne, hget⟩)

/-- A store into a span of RAM stays inside the windows (20_memory.md R83). -/
theorem State.memoryOk_store_ram {s : State} (h : s.MemoryOk) {a n : Nat} {l : List Byte}
    (hr : inRam s.par a n = true) (hl : l.length ≤ n) :
    State.MemoryOk { s with mem := s.mem.store a l } := by
  refine ⟨Memory.store_wf h.1 a l, fun c hc => ?_⟩
  rcases Memory.mem_store h.1 a l hc with hc | ⟨hlo, hhi⟩
  · exact h.2 c hc
  · simp only [inRam, inWindow, Bool.or_eq_true, Bool.and_eq_true, decide_eq_true_eq, beq_iff_eq] at hr
    exact (readable_one s.par _).2 (.inr ⟨by omega, by omega⟩)

/-- A store into a span of RAM leaves flash alone: the windows are disjoint (00_scope.md R11). -/
theorem store_ram_flash {s : State} (hp : s.par.Sound) (hm : Memory.Wf s.mem) {a n x : Nat} {l : List Byte}
    (hr : inRam s.par a n = true) (hl : l.length ≤ n) (hlo : s.par.flashBase ≤ x)
    (hhi : x < s.par.flashEnd) : (s.mem.store a l).get x = s.mem.get x := by
  have := hp.windows
  simp only [inRam, inWindow, Bool.or_eq_true, Bool.and_eq_true, decide_eq_true_eq, beq_iff_eq] at hr
  exact Memory.get_store_outside hm (by omega)

/-- What a reset leaves in RAM lies in RAM (10_state.md R55). -/
theorem reset_ram_in (p : Config) : inRam p p.ramBase ramSize = true := by
  simp [inRam, inWindow, Config.ramEnd]

theorem reset_ram_length (ram : List Byte) : (ram.take ramSize).length ≤ ramSize := by simp

/-! ### Reset -/

/-- The fields of `STATUS` at reset (10_state.md R56). -/
theorem State.initial_status (p : Config) (m : Memory) (e : Env) : (State.initial p m e).status = 0 := by
  have h : (State.initial p m e).status = (State.initial Config.reference [] Env.init).status := rfl
  rw [h]
  decide

/-- Every element is at its reset value, so `STATUS` reads 0 (10_state.md R35, R56). -/
theorem State.initial_atReset (p : Config) (m : Memory) (e : Env) : (State.initial p m e).AtReset :=
  ⟨rfl, rfl, rfl, rfl, rfl, rfl, rfl, rfl, rfl, rfl, rfl, rfl, rfl, rfl,
    rfl, rfl, rfl, rfl, rfl, rfl, rfl, rfl, rfl, rfl, rfl, rfl, rfl, State.initial_status p m e⟩

theorem State.afterReset_atReset (s : State) (ram : List Byte) : (s.afterReset ram).AtReset :=
  State.initial_atReset _ _ _

/-- A state at its reset values meets the invariant where its parameters and memory do. -/
theorem State.initial_inv {p : Config} {m : Memory} {e : Env} (hp : p.wellFormed = true)
    (hm : (State.initial p m e).MemoryOk) : (State.initial p m e).Inv := by
  refine ⟨hp, rfl, hm, ?record, ?session, ?flow, ?parser, ?channel, ?handOff⟩
  case record => simp [State.RecordOk]
  case session => simp [State.SessionOk, Session.init]
  case flow => exact nofun
  case parser => simp [State.ParserOk, Parser.cleared]
  case channel => simp [State.ChannelOk, RxChannel.init]
  case handOff => simp [State.HandOffOk]

theorem State.afterReset_memory {s : State} (h : s.MemoryOk) (ram : List Byte) :
    (s.afterReset ram).MemoryOk :=
  State.memoryOk_store_ram h (reset_ram_in s.par) (reset_ram_length ram)

/-- A reset leaves the invariant, whatever else the state held (10_state.md R55). -/
theorem State.afterReset_inv {s : State} (hp : s.par.wellFormed = true) (hm : s.MemoryOk)
    (ram : List Byte) : (s.afterReset ram).Inv :=
  State.initial_inv hp (State.afterReset_memory hm ram)

/-! ### Flash calls -/

/-- `t` is `s` after flash calls: flash, the scratch buffer, the environment and `cfg_dirty` may differ. -/
structure Flashed (s t : State) : Prop where
  rest : t = { s with mem := t.mem, scratch := t.scratch, env := t.env, cfgDirty := t.cfgDirty }
  memory : t.MemoryOk

theorem FlashStep.memory {lo hi : Nat} {s t : State} (h : FlashStep lo hi s t) (hm : s.MemoryOk)
    (hlo : s.par.flashBase ≤ lo) (hhi : hi ≤ s.par.flashEnd) : t.MemoryOk :=
  State.memoryOk_of_flash hm h.par h.wf fun a ha => h.outside a (by omega)

/-- Flash calls inside flash keep what the engine's internal steps keep; a power loss inside one leaves a state
that meets the invariant (20_memory.md R104). -/
theorem Flashing.flashed {α : Type} {lo hi : Nat} {x : Engine α} {s : State} (h : Flashing lo hi x s)
    (hs : s.Sane) (hlo : s.par.flashBase ≤ lo) (hhi : hi ≤ s.par.flashEnd)
    (hirq : ∀ a t, x s = .ok a t → t.irqMasked = false) :
    After x s (fun _ t => Flashed s t) State.Inv := by
  unfold Flashing After at h
  unfold After
  rcases hx : x s with ⟨a, t⟩ | ⟨_ | f, t⟩ <;> rw [hx] at h
  · refine ⟨?_, FlashStep.memory h hs.memory hlo hhi⟩
    have e := h.rest
    rw [hirq a t hx, ← hs.unmasked] at e
    exact e.trans (by rw [e])
  · obtain ⟨u, ram, hu, rfl⟩ := h
    exact State.afterReset_inv (hu.par ▸ hs.wellFormed) (FlashStep.memory hu hs.memory hlo hhi) ram
  · exact h.elim

end Sys2Proof.Machine
end

section
/-! SUPPORT. The flash writer, the region erase and the persist of a record, whatever the collaborator answers: each
leaves interrupts unmasked and memory inside the windows (44_flash.md R271 to R280, 45_config.md R303). -/

namespace Sys2Proof.Machine

-- Elaborated one after another: threads that wait on the kernel use up the memory limit.
set_option Elab.async false

/-! ### Interrupts are unmasked after every sector operation (44_flash.md R274) -/

theorem writeSector_irq {sec off : Nat} {seg : List Half} {s t : State} {r : Bool}
    (h : writeSector sec off seg s = .ok r t) : t.irqMasked = false := by
  rw [writeSector, Engine.update_bind, Engine.getState_bind, Engine.ite_run] at h
  split at h
  · exact masked_irq h
  · exact masked_irq h

theorem writeLoop_irq {turns a : Nat} {hw : List Half} {s t : State} {r : Bool}
    (hs : s.irqMasked = false) (h : writeLoop turns a hw s = .ok r t) : t.irqMasked = false := by
  induction turns generalizing a hw s with
  | zero => cases h; exact hs
  | succ turns ih =>
    rw [writeLoop, Engine.ite_run] at h
    split at h
    · cases h; exact hs
    · rw [Engine.getState_bind, Engine.bind_run] at h
      split at h
      · next hw' =>
        rw [Engine.ite_run] at h
        split at h
        · exact ih (writeSector_irq hw') h
        · cases h; exact writeSector_irq hw'
      · cases h

theorem eraseSectors_irq {sec n : Nat} {s t : State} {r : Bool} (hs : s.irqMasked = false)
    (h : eraseSectors sec n s = .ok r t) : t.irqMasked = false := by
  induction n generalizing sec s with
  | zero => cases h; exact hs
  | succ n ih =>
    rw [eraseSectors, Engine.bind_run] at h
    split at h
    · next he =>
      rw [Engine.ite_run] at h
      split at h
      · exact ih (masked_irq he) h
      · cases h; exact masked_irq he
    · cases h

theorem cfgPersist_irq {s t : State} {r : Bool} (h : cfgPersist s = .ok r t) : t.irqMasked = false := by
  rw [cfgPersist, Engine.bind_run] at h
  split at h
  · rw [Engine.getState_bind, Engine.bind_run] at h
    split at h
    · next hm =>
      have hu := masked_irq hm
      cases h
      exact hu
    · cases h
  · cases h

/-! ### Where the regions and the config sector lie -/

theorem Config.Sound.region {p : Config} (hp : p.Sound) (r : Role) :
    p.flashBase + p.bootSize ≤ regionBase p r ∧ regionBase p r + p.regionSize ≤ p.flashEnd
      ∧ p.sector ∣ regionBase p r - p.flashBase := Config.regionOk_iff.1 (hp.regionBase_ok r)

theorem Config.Sound.cfgAddr_bounds {p : Config} (hp : p.Sound) :
    p.flashBase ≤ p.cfgAddr ∧ p.cfgAddr + p.sector = p.flashBase + p.bootSize
      ∧ p.flashBase + p.bootSize ≤ p.flashEnd := by
  have h1 := hp.boot_ge
  have h2 := Config.Sound.region hp .a
  unfold Config.cfgAddr
  omega

theorem sectorBase_nsect {p : Config} (hp : p.Sound) : sectorBase p p.nsect = p.flashEnd := by
  rw [sectorBase, Config.nsect, Nat.div_mul_cancel hp.sector_dvd, Config.flashEnd]

/-- A granule-aligned address from flash on lies a whole number of granules above its base (20_memory.md R87). -/
theorem granuleAligned_dvd {p : Config} {a : Nat} (h : granuleAligned p a = true) (ha : p.flashBase ≤ a) :
    p.granule ∣ a - p.flashBase := by
  simp only [granuleAligned, beq_iff_eq] at h
  have := Int.dvd_of_emod_eq_zero h
  rw [← Nat.cast_sub ha] at this
  exact Int.natCast_dvd_natCast.1 this

theorem granuleAligned_of_dvd {p : Config} {a : Nat} (h : p.granule ∣ a - p.flashBase)
    (ha : p.flashBase ≤ a) : granuleAligned p a = true := by
  simp only [granuleAligned, beq_iff_eq]
  rw [← Nat.cast_sub ha]
  exact Int.emod_eq_zero_of_dvd (Int.natCast_dvd_natCast.2 h)

/-! ### What the flash operations keep -/

theorem writeFlash_flashed {s : State} (hs : s.Sane) {a : Nat} {hw : List Half} (ha : s.par.flashBase ≤ a)
    (hal : hw ≠ [] → s.par.granule ∣ a - s.par.flashBase)
    (hend : hw ≠ [] → a + 2 * hw.length ≤ s.par.flashEnd) :
    After (writeFlash a hw) s (fun _ t => Flashed s t) State.Inv := by
  have hf : Flashing (sectorBase s.par 0) (sectorBase s.par s.par.nsect) (writeFlash a hw) s :=
    writeLoop_flashing hs.memory.1 hs.sound (by simpa [sectorBase] using ha) hal
      (by rwa [sectorBase_nsect hs.sound])
  exact Flashing.flashed hf hs (by simp [sectorBase]) (sectorBase_nsect hs.sound).le
    fun _ _ => writeLoop_irq hs.unmasked

/-- `MergeWrite` of halfwords that end inside flash (43_protocol.md R237). -/
theorem mergeWrite_flashed {s : State} (hs : s.Sane) {c : Nat} {hws : List Half} (hc : s.par.flashBase ≤ c)
    (hend : c + 2 * hws.length ≤ s.par.flashEnd) :
    After (mergeWrite c hws) s (fun _ t => Flashed s t) State.Inv := by
  rw [mergeWrite, after_bind, after_getState]
  have hmod := Nat.mod_le (c - s.par.flashBase) s.par.granule
  refine writeFlash_flashed hs (by omega) (fun _ => ?_) fun _ => ?_
  · have e : c - (c - s.par.flashBase) % s.par.granule - s.par.flashBase
        = (c - s.par.flashBase) - (c - s.par.flashBase) % s.par.granule := by omega
    rw [e]
    exact Nat.dvd_sub_mod _
  · rw [List.length_append, Memory.halfBuffer, halves_length, Memory.read_length]
    omega

theorem noCheck_flashed {s : State} (hs : s.Sane) {a : Nat} {hw : List Half} (ha : s.par.flashBase ≤ a)
    (hend : a + ceilDiv (2 * hw.length) s.par.granule * s.par.granule ≤ s.par.flashEnd) :
    After (masked (noCheck a hw)) s (fun _ t => Flashed s t) State.Inv := by
  refine Flashing.flashed (masked_flashing hs.memory.1 fun t ht => ?_) hs ha hend fun _ _ => masked_irq
  have := noCheck_flashing ht.wf (ht.par ▸ hs.sound) a hw
  rwa [ht.par] at this

theorem masked_flashErase_flashing {s : State} (h : Memory.Wf s.mem) (sec : Nat) :
    Flashing (sectorBase s.par sec) (sectorBase s.par sec + s.par.sector) (masked (flashErase sec)) s := by
  refine masked_flashing h fun t ht => ?_
  have := flashErase_flashing ht.wf sec
  rwa [ht.par] at this

theorem sector_in_flash {p : Config} {sec : Nat} (h : sec < p.nsect) (hp : p.Sound) :
    sectorBase p sec + p.sector ≤ p.flashEnd := by
  rw [← sectorBase_nsect hp, sectorBase, sectorBase, Nat.add_assoc, ← Nat.succ_mul]
  exact Nat.add_le_add_left (Nat.mul_le_mul_right _ h) _

theorem flashErase_flashed {s : State} (hs : s.Sane) {sec : Nat} (h : sec < s.par.nsect) :
    After (masked (flashErase sec)) s (fun _ t => Flashed s t) State.Inv :=
  (masked_flashErase_flashing hs.memory.1 sec).flashed hs (Nat.le_add_right _ _)
    (sector_in_flash h hs.sound) fun _ _ => masked_irq

/-- Erasing sectors one after another changes those sectors only (44_flash.md R280). -/
theorem eraseSectors_flashing {s : State} (h : Memory.Wf s.mem) (sec n : Nat) :
    Flashing (sectorBase s.par sec) (sectorBase s.par (sec + n)) (eraseSectors sec n) s := by
  induction n generalizing sec s with
  | zero => exact Flashing.pure h
  | succ n ih =>
    have e : sectorBase s.par sec + s.par.sector = sectorBase s.par (sec + 1) := by
      rw [sectorBase, sectorBase, Nat.succ_mul, Nat.add_assoc]
    have hle : sectorBase s.par (sec + 1) ≤ sectorBase s.par (sec + (n + 1)) :=
      Nat.add_le_add_left (Nat.mul_le_mul_right _ (by omega)) _
    rw [eraseSectors]
    refine Flashing.bind ((masked_flashErase_flashing h sec).mono le_rfl (e ▸ hle)) fun r t ht => ?_
    rw [Flashing, after_ite]
    split
    · have := ih ht.wf (sec + 1)
      rw [ht.par, Nat.add_right_comm] at this
      exact this.mono (by omega) le_rfl
    · exact Flashing.pure ht.wf

/-- Erasing the region of a role (44_flash.md R280). -/
theorem eraseRegion_flashed {s : State} (hs : s.Sane) (r : Role) :
    After (eraseRegion (regionBase s.par r) s.par.regionSize) s (fun _ t => Flashed s t) State.Inv := by
  obtain ⟨hlo, hhi, hdvd⟩ := Config.Sound.region hs.sound r
  have hbase : sectorBase s.par (sectorOf s.par (regionBase s.par r)) = regionBase s.par r := by
    rw [sectorBase, sectorOf, Nat.div_mul_cancel hdvd]; omega
  have hend : sectorBase s.par (sectorOf s.par (regionBase s.par r) + s.par.regionSize / s.par.sector)
      = regionBase s.par r + s.par.regionSize := by
    rw [sectorBase, Nat.add_mul, Nat.div_mul_cancel hs.sound.region_dvd, ← Nat.add_assoc]
    exact congrArg (· + _) hbase
  rw [eraseRegion, after_bind, after_getState]
  exact (eraseSectors_flashing hs.memory.1 _ _).flashed hs (Nat.le_add_right _ _) (hend ▸ hhi)
    fun _ _ => eraseSectors_irq hs.unmasked

/-- `CfgPersist` of a cache that holds a record (45_config.md R303). -/
theorem cfgPersist_flashed {s : State} (hs : s.Sane) (h : s.hasRecord = true) :
    After cfgPersist s (fun _ t => Flashed s t) State.Inv := by
  obtain ⟨hlo, hend, hhi⟩ := Config.Sound.cfgAddr_bounds hs.sound
  have hin : s.par.cfgAddr + s.par.sector ≤ s.par.flashEnd := by omega
  have hc := cfgPersist_flashing hs.memory.1 hs.sound h
  unfold After at hc ⊢
  rcases hx : cfgPersist s with ⟨r, t⟩ | ⟨_ | f, t⟩ <;> rw [hx] at hc
  · refine ⟨?_, FlashStep.memory hc hs.memory hlo hin⟩
    have e := hc.rest
    rw [cfgPersist_irq hx, ← hs.unmasked] at e
    exact e.trans (by rw [e])
  · obtain ⟨u, ram, hu, rfl⟩ := hc
    exact State.afterReset_inv (hu.par ▸ hs.wellFormed) (FlashStep.memory hu hs.memory hlo hin) ram
  · exact hc.elim

end Sys2Proof.Machine
end

section
/-! SUPPORT. The boot unit's internal steps, whatever the collaborator answers: each keeps the record valid and
changes nothing but memory, the cache and the environment (45_config.md R300 to R315). -/

namespace Sys2Proof.Machine

-- Elaborated one after another: threads that wait on the kernel use up the memory limit.
set_option Elab.async false

/-! ### The record -/

/-- The cache holds a valid record: where the boot unit may run a transition (45_config.md R300). -/
structure State.Ready (s : State) : Prop extends State.Sane s where
  cfgValid : s.cfgValid = true
  recordValid : s.recordValid = true

/-- `t` is `s` after steps of the boot unit: memory, the scratch buffer, the environment and the cache may
differ. -/
structure Booted (s t : State) : Prop where
  rest : t = { s with mem := t.mem, scratch := t.scratch, env := t.env, cacheAb := t.cacheAb,
                      cacheSr := t.cacheSr, cfgValid := t.cfgValid, cfgDirty := t.cfgDirty }
  memory : t.MemoryOk

theorem Booted.refl {s : State} (h : s.MemoryOk) : Booted s s := ⟨rfl, h⟩

theorem Booted.trans {s t u : State} (h : Booted s t) (k : Booted t u) : Booted s u :=
  ⟨k.rest.trans (by rw [h.rest]), k.memory⟩

theorem Booted.par {s t : State} (h : Booted s t) : t.par = s.par := by rw [h.rest]

theorem Booted.sane {s t : State} (h : Booted s t) (hs : s.Sane) : t.Sane :=
  ⟨h.par ▸ hs.wellFormed, by rw [h.rest]; exact hs.unmasked, h.memory⟩

theorem Flashed.par {s t : State} (h : Flashed s t) : t.par = s.par := by rw [h.rest]

theorem Flashed.cacheAb {s t : State} (h : Flashed s t) : t.cacheAb = s.cacheAb := by rw [h.rest]

theorem Flashed.cacheSr {s t : State} (h : Flashed s t) : t.cacheSr = s.cacheSr := by rw [h.rest]

theorem Flashed.booted {s t : State} (h : Flashed s t) : Booted s t := ⟨h.rest.trans (by rw [h.rest]), h.memory⟩

theorem Flashed.sane {s t : State} (h : Flashed s t) (hs : s.Sane) : t.Sane := h.booted.sane hs

theorem Flashed.ready {s t : State} (h : Flashed s t) (hs : s.Ready) : t.Ready where
  toSane := h.sane hs.toSane
  cfgValid := by rw [h.rest]; exact hs.cfgValid
  recordValid := by rw [h.rest]; exact hs.recordValid

theorem recordValid_ab {s : State} (h : s.par.topology = .ab) :
    s.recordValid = true ↔ ∃ c, s.cacheAb = some c ∧ validAb s.par c = true := by
  rw [State.recordValid, h]
  cases s.cacheAb <;> simp

theorem recordValid_sr {s : State} (h : s.par.topology = .sr) :
    s.recordValid = true ↔ ∃ c, s.cacheSr = some c ∧ validSr s.par c = true := by
  rw [State.recordValid, h]
  cases s.cacheSr <;> simp

theorem hasRecord_of_recordValid {s : State} (h : s.recordValid = true) : s.hasRecord = true := by
  cases ht : s.par.topology
  · obtain ⟨c, hc, -⟩ := (recordValid_ab ht).1 h
    simp [State.hasRecord, ht, hc]
  · obtain ⟨c, hc, -⟩ := (recordValid_sr ht).1 h
    simp [State.hasRecord, ht, hc]

theorem State.Ready.hasRecord {s : State} (h : s.Ready) : s.hasRecord = true :=
  hasRecord_of_recordValid h.recordValid

theorem hasRecord_ab {s : State} (h : s.par.topology = .ab) :
    s.hasRecord = true ↔ ∃ c, s.cacheAb = some c := by
  rw [State.hasRecord, h, Option.isSome_iff_exists]

theorem hasRecord_sr {s : State} (h : s.par.topology = .sr) :
    s.hasRecord = true ↔ ∃ c, s.cacheSr = some c := by
  rw [State.hasRecord, h, Option.isSome_iff_exists]

/-! ### Valid records (45_config.md R301) -/

theorem validAb_iff {p : Config} {c : AbRecord} : validAb p c = true ↔
    c.magic = p.cfgMagic ∧ c.active.toNat ≤ 1 ∧ c.updating.toNat ≤ 1
      ∧ c.bootCount.toNat ≤ p.maxBootAttempts ∧ c.updateReq.toNat ≤ 1
      ∧ c.sizeA.toNat ≤ p.regionSize ∧ c.sizeB.toNat ≤ p.regionSize := by
  simp only [validAb, Bool.and_eq_true, decide_eq_true_eq, beq_iff_eq, and_assoc]

theorem validSr_iff {p : Config} {c : SrRecord} : validSr p c = true ↔
    c.magic = p.cfgMagic ∧ c.runSize.toNat ≤ p.regionSize := by
  simp only [validSr, Bool.and_eq_true, decide_eq_true_eq, beq_iff_eq]

theorem activeByte_le (r : Role) : (activeByte r).toNat ≤ 1 := by cases r <;> decide

theorem setImage_valid {p : Config} {c : AbRecord} (h : validAb p c = true) (r : Role) {size : Word}
    (hsize : size.toNat ≤ p.regionSize) (crc : Word) : validAb p (c.setImage r size crc) = true := by
  rw [validAb_iff] at h ⊢
  obtain ⟨hm, ha, hu, hb, hr, hsa, hsb⟩ := h
  cases r
  · exact ⟨hm, ha, hu, hb, hr, hsize, hsb⟩
  · exact ⟨hm, ha, hu, hb, hr, hsa, hsize⟩
  · exact ⟨hm, ha, hu, hb, hr, hsa, hsb⟩
  · exact ⟨hm, ha, hu, hb, hr, hsa, hsb⟩

/-- Changing the flag bytes of a valid record to valid values keeps it valid. -/
theorem flags_valid {p : Config} {c : AbRecord} (h : validAb p c = true) {active updating count req : Byte}
    (ha : active.toNat ≤ 1) (hu : updating.toNat ≤ 1) (hb : count.toNat ≤ p.maxBootAttempts)
    (hr : req.toNat ≤ 1) :
    validAb p { c with active := active, updating := updating, bootCount := count, updateReq := req }
      = true := by
  rw [validAb_iff] at h ⊢
  obtain ⟨hm, -, -, -, -, hsa, hsb⟩ := h
  exact ⟨hm, ha, hu, hb, hr, hsa, hsb⟩

theorem byte_zero_le (n : Nat) : (0 : Byte).toNat ≤ n := Nat.zero_le n

theorem byte_one_le : (1 : Byte).toNat ≤ 1 := le_rfl

/-! ### Changing the cache and persisting it -/

theorem after_updateAb {s : State} {c : AbRecord} {f : AbRecord → AbRecord} {Q : Unit → State → Prop}
    {L : State → Prop} (h : s.cacheAb = some c) :
    After (updateAb f) s Q L ↔ Q () { s with cacheAb := some (f c) } := by
  rw [updateAb, after_bind, abCache, after_valueOf h, after_update]

theorem after_updateSr {s : State} {c : SrRecord} {f : SrRecord → SrRecord} {Q : Unit → State → Prop}
    {L : State → Prop} (h : s.cacheSr = some c) :
    After (updateSr f) s Q L ↔ Q () { s with cacheSr := some (f c) } := by
  rw [updateSr, after_bind, srCache, after_valueOf h, after_update]

theorem Booted.setAb {s : State} (h : s.MemoryOk) (c : AbRecord) : Booted s { s with cacheAb := some c } :=
  ⟨rfl, h⟩

theorem Booted.setSr {s : State} (h : s.MemoryOk) (c : SrRecord) : Booted s { s with cacheSr := some c } :=
  ⟨rfl, h⟩

theorem State.Ready.setAb {s : State} (hs : s.Ready) (ht : s.par.topology = .ab) {c : AbRecord}
    (hv : validAb s.par c = true) : State.Ready { s with cacheAb := some c } :=
  ⟨⟨hs.wellFormed, hs.unmasked, hs.memory⟩, hs.cfgValid,
    (recordValid_ab (s := { s with cacheAb := some c }) ht).2 ⟨c, rfl, hv⟩⟩

theorem State.Ready.setSr {s : State} (hs : s.Ready) (ht : s.par.topology = .sr) {c : SrRecord}
    (hv : validSr s.par c = true) : State.Ready { s with cacheSr := some c } :=
  ⟨⟨hs.wellFormed, hs.unmasked, hs.memory⟩, hs.cfgValid,
    (recordValid_sr (s := { s with cacheSr := some c }) ht).2 ⟨c, rfl, hv⟩⟩

/-- The persist of a valid record keeps it (45_config.md R303). -/
theorem cfgPersist_ready {s : State} (hs : s.Ready) :
    After cfgPersist s (fun _ t => Flashed s t ∧ t.Ready) State.Inv :=
  (cfgPersist_flashed hs.toSane hs.hasRecord).mono (fun _ _ h => ⟨h, h.ready hs⟩) fun _ h => h

/-- Every transition under AB that changes the record: the new record is persisted, and is valid if it was
chosen so. -/
theorem after_changeAb {s : State} (hs : s.Ready) (ht : s.par.topology = .ab) {c : AbRecord}
    (hc : s.cacheAb = some c) {f : AbRecord → AbRecord} (hv : validAb s.par (f c) = true)
    {Q : Bool → State → Prop} (hQ : ∀ r t, Booted s t → t.Ready → t.cacheAb = some (f c) → Q r t) :
    After (updateAb f) s (fun _ t => After cfgPersist t Q State.Inv) State.Inv :=
  (after_updateAb hc).2 <| (cfgPersist_ready (hs.setAb ht hv)).mono
    (fun r _ ⟨hf, hr⟩ => hQ r _ ((Booted.setAb hs.memory _).trans hf.booted) hr hf.cacheAb) fun _ h => h

theorem after_changeSr {s : State} (hs : s.Ready) (ht : s.par.topology = .sr) {c : SrRecord}
    (hc : s.cacheSr = some c) {f : SrRecord → SrRecord} (hv : validSr s.par (f c) = true)
    {Q : Bool → State → Prop} (hQ : ∀ r t, Booted s t → t.Ready → Q r t) :
    After (updateSr f) s (fun _ t => After cfgPersist t Q State.Inv) State.Inv :=
  (after_updateSr hc).2 <| (cfgPersist_ready (hs.setSr ht hv)).mono
    (fun r _ ⟨hf, hr⟩ => hQ r _ ((Booted.setSr hs.memory _).trans hf.booted) hr) fun _ h => h

/-- A transition of the boot unit: it starts from a valid record and leaves one. -/
abbrev Transition {α : Type} (x : Engine α) (s : State) : Prop :=
  After x s (fun _ t => Booted s t ∧ t.Ready) State.Inv

theorem Transition.bind {α β : Type} {x : Engine α} {f : α → Engine β} {s : State} (hx : Transition x s)
    (hf : ∀ a t, Booted s t → t.Ready → Transition (f a) t) : Transition (x >>= f) s := by
  rw [Transition, after_bind]
  refine hx.mono (fun a t ⟨hb, hr⟩ => ?_) fun _ h => h
  exact (hf a t hb hr).mono (fun _ _ ⟨kb, kr⟩ => ⟨hb.trans kb, kr⟩) fun _ h => h

theorem Transition.pure {α : Type} {a : α} {s : State} (hs : s.Ready) : Transition (pure a) s :=
  ⟨.refl hs.memory, hs⟩

theorem cfgPersist_transition {s : State} (hs : s.Ready) : Transition cfgPersist s :=
  (cfgPersist_ready hs).mono (fun _ _ ⟨hf, hr⟩ => ⟨hf.booted, hr⟩) fun _ h => h

theorem State.Ready.ab {s : State} (hs : s.Ready) (ht : s.par.topology = .ab) :
    ∃ c, s.cacheAb = some c ∧ validAb s.par c = true := (recordValid_ab ht).1 hs.recordValid

theorem State.Ready.sr {s : State} (hs : s.Ready) (ht : s.par.topology = .sr) :
    ∃ c, s.cacheSr = some c ∧ validSr s.par c = true := (recordValid_sr ht).1 hs.recordValid

/-! ### Load and initialise -/

theorem cfgLoad_run (s : State) : cfgLoad s = .ok s.loadRecord.cfgValid s.loadRecord := rfl

theorem loadRecord_booted {s : State} (h : s.MemoryOk) : Booted s s.loadRecord := by
  refine ⟨?_, by simpa [State.MemoryOk] using h⟩
  unfold State.loadRecord
  dsimp only
  split <;> rfl

theorem loadRecord_hasRecord (s : State) : s.loadRecord.hasRecord = true := by
  cases ht : s.par.topology
  · exact (hasRecord_ab (by rwa [State.loadRecord_par])).2 ⟨_, s.loadRecord_cacheAb ht⟩
  · exact (hasRecord_sr (by rwa [State.loadRecord_par])).2 ⟨_, s.loadRecord_cacheSr ht⟩

/-- `cfg_valid` after a load is the validity of the loaded record (45_config.md R300). -/
theorem loadRecord_recordValid (s : State) : s.loadRecord.recordValid = s.loadRecord.cfgValid := by
  unfold State.loadRecord State.recordValid
  cases ht : s.par.topology <;> simp [ht]

theorem loadRecord_ready {s : State} (hs : s.Sane) (h : s.loadRecord.cfgValid = true) :
    s.loadRecord.Ready :=
  ⟨(loadRecord_booted hs.memory).sane hs, h, (loadRecord_recordValid s).trans h⟩

theorem defaultRecord_booted {s : State} (h : s.MemoryOk) : Booted s s.defaultRecord := by
  refine ⟨?_, by simpa [State.MemoryOk] using h⟩
  unfold State.defaultRecord
  split <;> rfl

theorem defaultRecord_ready {s : State} (hs : s.Sane) : s.defaultRecord.Ready := by
  refine ⟨(defaultRecord_booted hs.memory).sane hs, ?_, ?_⟩
  · unfold State.defaultRecord; split <;> rfl
  · unfold State.defaultRecord State.recordValid
    cases ht : s.par.topology
    · simp [ht, validAb_iff, defaultAb]
    · simp [ht, validSr_iff, defaultSr]

theorem measuredSize_le (l : List Byte) : measuredSize l ≤ l.length := by
  rw [← List.length_reverse (as := l)]
  exact (List.dropWhile_suffix _).length_le

/-- The size a probe measures fits the region (45_config.md R304). -/
theorem probeImage_size {p : Config} {m : Memory} {b : Nat} {size crc : Word}
    (h : probeImage p m b = some (size, crc)) : size.toNat ≤ p.regionSize := by
  have hle := measuredSize_le (m.read b p.regionSize)
  rw [Memory.read_length] at hle
  simp only [probeImage] at h
  split at h
  · cases h
    rw [BitVec.toNat_ofNat]
    exact (Nat.mod_le _ _).trans hle
  · cases h

theorem probe_ready {s : State} (hs : s.Ready) : Transition probe s := by
  rw [probe, Transition, after_bind, after_getState]
  cases ht : s.par.topology
  · obtain ⟨c, hc, hv⟩ := hs.ab ht
    cases hp : probeImage s.par s.mem s.par.aBase with
    | none => exact Transition.pure hs
    | some sc =>
      obtain ⟨size, crc⟩ := sc
      have hvalid : validAb s.par { c with sizeA := size, crcA := crc, active := 0 } = true := by
        rw [validAb_iff] at hv ⊢
        obtain ⟨hm, -, hu, hb, hr, -, hsb⟩ := hv
        exact ⟨hm, byte_zero_le 1, hu, hb, hr, probeImage_size hp, hsb⟩
      exact (after_updateAb hc).2 ⟨.setAb hs.memory _, hs.setAb ht hvalid⟩
  · obtain ⟨c, hc, hv⟩ := hs.sr ht
    cases hp : probeImage s.par s.mem s.par.runBase with
    | none => exact Transition.pure hs
    | some sc =>
      obtain ⟨size, crc⟩ := sc
      have hvalid : validSr s.par { c with runSize := size, runCrc := crc } = true :=
        validSr_iff.2 ⟨(validSr_iff.1 hv).1, probeImage_size hp⟩
      exact (after_updateSr hc).2 ⟨.setSr hs.memory _, hs.setSr ht hvalid⟩

/-- `CfgInit` leaves a valid record, from any cache (45_config.md R302). -/
theorem cfgInit_ready {s : State} (hs : s.Sane) : Transition cfgInit s := by
  have hr := defaultRecord_ready hs
  have hrest : Transition (do
      let s ← getState
      if s.par.probeFactory then probe else pure ()
      cfgPersist) s.defaultRecord := by
    rw [Transition, after_bind, after_getState]
    dsimp only
    rw [after_ite]
    split
    · exact Transition.bind (probe_ready hr) fun _ _ _ ht => cfgPersist_transition ht
    · exact cfgPersist_transition hr
  rw [cfgInit, Transition, after_bind, after_update]
  exact hrest.mono (fun _ _ ⟨hb, hr⟩ => ⟨(defaultRecord_booted hs.memory).trans hb, hr⟩) fun _ h => h

/-! ### Verification -/

theorem activeRole_cases (b : Byte) : activeRole b = .a ∨ activeRole b = .b := by
  unfold activeRole
  split
  · exact .inl rfl
  · split
    · exact .inr rfl
    · split
      · exact .inr rfl
      · exact .inl rfl

theorem hasRole_activeRole {p : Config} (h : p.topology = .ab) (b : Byte) :
    hasRole p (activeRole b) = true ∧ hasRole p (otherRole (activeRole b)) = true := by
  rcases activeRole_cases b with e | e <;> simp [hasRole, h, e, otherRole]

theorem recorded_run {s : State} (h : s.hasRecord = true) {r : Role} (hr : hasRole s.par r = true) :
    ∃ v, recorded r s = .ok v s := by
  cases ht : s.par.topology
  · obtain ⟨c, hc⟩ := (hasRecord_ab ht).1 h
    cases r <;> simp [hasRole, ht] at hr
    · exact ⟨_, Engine.bind_run_ok (abCache_run hc)⟩
    · exact ⟨_, Engine.bind_run_ok (abCache_run hc)⟩
  · obtain ⟨c, hc⟩ := (hasRecord_sr ht).1 h
    cases r <;> simp [hasRole, ht] at hr
    · exact ⟨_, rfl⟩
    · exact ⟨_, Engine.bind_run_ok (srCache_run hc)⟩

/-- `Verify` of a role of the topology only reads (45_config.md R306). -/
theorem verify_run {s : State} (h : s.hasRecord = true) {r : Role} (hr : hasRole s.par r = true) :
    ∃ v, verify r s = .ok v s := by
  obtain ⟨v, hv⟩ := recorded_run h hr
  exact ⟨_, (Engine.bind_run_ok (x := recorded r) hv).trans rfl⟩

theorem after_verify {s : State} (h : s.hasRecord = true) {r : Role} (hr : hasRole s.par r = true)
    {Q : Bool → State → Prop} {L : State → Prop} (hQ : ∀ v, Q v s) : After (verify r) s Q L := by
  obtain ⟨v, hv⟩ := verify_run h hr
  exact .of_ok hv (hQ v)

/-! ### Boot selection (45_config.md R308 to R310) -/

theorem crashRecovery_ready {s : State} (hs : s.Ready) (ht : s.par.topology = .ab) :
    Transition crashRecovery s := by
  obtain ⟨c, hc, hv⟩ := hs.ab ht
  have hvi := setImage_valid hv (otherRole (activeRole c.active)) (size := 0) (Nat.zero_le _) 0
  obtain ⟨-, ha, -, -, hr, -, -⟩ := validAb_iff.1 hvi
  rw [crashRecovery, Transition, after_bind]
  refine after_changeAb hs ht hc ?_ fun _ _ hb hr _ => ⟨hb, hr⟩
  exact flags_valid hvi ha (byte_zero_le 1) (byte_zero_le _) hr

/-- The attempt is counted only below the limit, so that the count stays in range (45_config.md R309, R319). -/
theorem attemptBoot_ready {s : State} (hs : s.Ready) (ht : s.par.topology = .ab) {c : AbRecord}
    (hc : s.cacheAb = some c) (hcount : c.bootCount.toNat < s.par.maxBootAttempts) (cand : Role) (pf : Bool) :
    Transition (attemptBoot cand pf) s := by
  obtain ⟨c', hc', hv⟩ := hs.ab ht
  obtain rfl : c = c' := Option.some.inj (hc ▸ hc')
  obtain ⟨-, ha, hu, -, hr, -, -⟩ := validAb_iff.1 hv
  have hle := hs.sound.attempts_le
  have hnext : (c.bootCount + 1).toNat ≤ s.par.maxBootAttempts := by
    rw [BitVec.toNat_add]
    have : (1 : Byte).toNat = 1 := rfl
    omega
  have hactive : (if cand = activeRole c.active then c.active else activeByte cand).toNat ≤ 1 := by
    split
    · exact ha
    · exact activeByte_le cand
  simp only [attemptBoot, Transition, after_bind]
  refine after_changeAb hs ht hc ?_ fun r t hb hr _ => ?_
  · exact flags_valid hv hactive hu hnext hr
  · rw [after_pure]
    exact ⟨hb, hr⟩

/-- Step 3 of `BootSelect()` under AB (45_config.md R309): the active role, else the other one. -/
def selectVerified (pf : Bool) : Engine (Option Role × Bool) := do
  let c ← abCache
  if ← verify (activeRole c.active) then attemptBoot (activeRole c.active) pf
  else if ← verify (otherRole (activeRole c.active)) then attemptBoot (otherRole (activeRole c.active)) pf
  else pure (none, pf)

/-- Steps 2 and 3 of `BootSelect()` under AB (45_config.md R309). -/
def failOverAndSelect (limit : Nat) (pf : Bool) : Engine (Option Role × Bool) := do
  let c ← abCache
  if limit ≤ c.bootCount.toNat then do
    updateAb fun c => { c with active := activeByte (otherRole (activeRole c.active)), bootCount := 0 }
    let r ← cfgPersist
    selectVerified (pf && r)
  else selectVerified pf

theorem bootSelectAb_eq : bootSelectAb = (do
    let s ← getState
    let c ← abCache
    if c.updating = 1 then do
      let pf ← crashRecovery
      failOverAndSelect s.par.maxBootAttempts pf
    else failOverAndSelect s.par.maxBootAttempts true) := rfl

theorem selectVerified_ready {s : State} (hs : s.Ready) (ht : s.par.topology = .ab) {c : AbRecord}
    (hc : s.cacheAb = some c) (hcount : c.bootCount.toNat < s.par.maxBootAttempts) (pf : Bool) :
    Transition (selectVerified pf) s := by
  obtain ⟨hfirst, hother⟩ := hasRole_activeRole ht c.active
  rw [selectVerified, Transition, after_bind, abCache, after_valueOf hc, after_bind]
  refine after_verify hs.hasRecord hfirst fun v => ?_
  rw [after_ite]
  split
  · exact attemptBoot_ready hs ht hc hcount _ pf
  · rw [after_bind]
    refine after_verify hs.hasRecord hother fun v => ?_
    rw [after_ite]
    split
    · exact attemptBoot_ready hs ht hc hcount _ pf
    · exact Transition.pure hs

theorem failOverAndSelect_ready {s : State} (hs : s.Ready) (ht : s.par.topology = .ab) (pf : Bool) :
    Transition (failOverAndSelect s.par.maxBootAttempts pf) s := by
  obtain ⟨c, hc, hv⟩ := hs.ab ht
  rw [failOverAndSelect, Transition, after_bind, abCache, after_valueOf hc, after_ite]
  split
  · obtain ⟨-, -, hu, -, hr, -, -⟩ := validAb_iff.1 hv
    have hpos := hs.sound.attempts_pos
    simp only [after_bind]
    refine after_changeAb hs ht hc ?_ fun r t hb hr hct => ?_
    · exact flags_valid hv (activeByte_le _) hu (byte_zero_le _) hr
    · have htt : t.par.topology = .ab := hb.par ▸ ht
      exact (selectVerified_ready hr htt hct (by rw [hb.par]; exact hpos) (pf && r)).mono
        (fun _ _ ⟨kb, kr⟩ => ⟨hb.trans kb, kr⟩) fun _ h => h
  · exact selectVerified_ready hs ht hc (by omega) pf

/-- `BootSelect` keeps the record valid (45_config.md R309, R310). -/
theorem bootSelect_ready {s : State} (hs : s.Ready) : Transition bootSelect s := by
  rw [bootSelect, Transition, after_bind, after_getState]
  cases ht : s.par.topology
  · obtain ⟨c, hc, -⟩ := hs.ab ht
    show After bootSelectAb s _ _
    rw [bootSelectAb_eq, after_bind, after_getState, after_bind, abCache, after_valueOf hc, after_ite]
    split
    · refine Transition.bind (crashRecovery_ready hs ht) fun pf t hb hr => ?_
      exact hb.par ▸ failOverAndSelect_ready hr (hb.par ▸ ht) pf
    · exact failOverAndSelect_ready hs ht true
  · show After bootSelectSr s _ _
    rw [bootSelectSr, after_bind]
    refine after_verify hs.hasRecord (by simp [hasRole, ht]) fun v => ?_
    rw [after_ite]
    split <;> exact Transition.pure hs

/-! ### The update lifecycle (45_config.md R311 to R315) -/

/-- `UpdTarget` only reads (45_config.md R311). -/
theorem updTarget_run {s : State} (h : s.hasRecord = true) :
    ∃ r, updTarget s = .ok r s ∧ s.target = some r := by
  cases ht : s.par.topology
  · obtain ⟨c, hc⟩ := (hasRecord_ab ht).1 h
    refine ⟨otherRole (activeRole c.active), ?_, by simp [State.target, ht, hc]⟩
    rw [updTarget, Engine.getState_bind, ht]
    exact Engine.bind_run_ok (abCache_run hc)
  · refine ⟨.staging, ?_, by simp [State.target, ht]⟩
    rw [updTarget, Engine.getState_bind, ht]
    rfl

theorem after_updTarget {s : State} (h : s.hasRecord = true) {Q : Role → State → Prop} {L : State → Prop}
    (hQ : ∀ r, s.target = some r → Q r s) : After updTarget s Q L := by
  obtain ⟨r, hr, ht⟩ := updTarget_run h
  exact .of_ok hr (hQ r ht)

/-- `UpdStart` marks the record and leaves the update target where it was (45_config.md R312). -/
theorem updStart_ready {s : State} (hs : s.Ready) :
    After updStart s (fun _ t => Booted s t ∧ t.Ready ∧ t.target = s.target) State.Inv := by
  rw [updStart, after_bind, after_getState]
  cases ht : s.par.topology
  · obtain ⟨c, hc, hv⟩ := hs.ab ht
    obtain ⟨-, ha, -, hb, -, -, -⟩ := validAb_iff.1 hv
    dsimp only
    rw [after_bind]
    refine after_changeAb hs ht hc ?_ fun _ t hb hr hct => ⟨hb, hr, ?_⟩
    · exact flags_valid hv ha byte_one_le hb (byte_zero_le 1)
    · simp [State.target, hb.par, ht, hc, hct]
  · obtain ⟨c, hc, hv⟩ := hs.sr ht
    dsimp only
    rw [after_bind]
    refine after_changeSr hs ht hc ?_ fun _ t hb hr => ⟨hb, hr, ?_⟩
    · exact validSr_iff.2 (validSr_iff.1 hv)
    · simp [State.target, hb.par, ht]

theorem updFailed_ready {s : State} (hs : s.Ready) : Transition updFailed s := by
  rw [updFailed, Transition, after_bind, after_getState]
  cases ht : s.par.topology
  · obtain ⟨c, hc, hv⟩ := hs.ab ht
    obtain ⟨-, ha, -, hb, hr, -, -⟩ := validAb_iff.1 hv
    dsimp only
    rw [after_bind]
    refine after_changeAb hs ht hc ?_ fun _ _ hb hr _ => ⟨hb, hr⟩
    exact flags_valid hv ha (byte_zero_le 1) hb hr
  · obtain ⟨c, hc, hv⟩ := hs.sr ht
    dsimp only
    rw [after_bind]
    refine after_changeSr hs ht hc ?_ fun _ _ hb hr => ⟨hb, hr⟩
    exact validSr_iff.2 (validSr_iff.1 hv)

theorem updCompleteAb_ready {s : State} (hs : s.Ready) (ht : s.par.topology = .ab) (r : Role) {size : Word}
    (hsize : size.toNat ≤ s.par.regionSize) (crc : Word) : Transition (updCompleteAb r size crc) s := by
  obtain ⟨c, hc, hv⟩ := hs.ab ht
  have hvi := setImage_valid hv r hsize crc
  obtain ⟨-, -, -, -, hr, -, -⟩ := validAb_iff.1 hvi
  simp only [updCompleteAb, Transition, after_bind]
  refine after_changeAb hs ht hc ?_ fun _ _ hb hr _ => ?_
  · exact flags_valid hvi (activeByte_le r) (byte_zero_le 1) (byte_zero_le _) hr
  · rw [after_pure]
    exact ⟨hb, hr⟩

/-- The copy of an image that fits its region stays inside flash (45_config.md R314). -/
theorem copyToRun_flashed {s : State} (hs : s.Sane) {size : Nat} (hsize : size ≤ s.par.regionSize) (src : Nat) :
    After (writeFlash s.par.runBase (s.mem.halfBuffer src (ceilDiv size 2))) s
      (fun _ t => Flashed s t) State.Inv := by
  obtain ⟨hlo, hhi, hdvd⟩ := Config.Sound.region hs.sound .run
  have hlo : s.par.flashBase + s.par.bootSize ≤ s.par.runBase := hlo
  have hhi : s.par.runBase + s.par.regionSize ≤ s.par.flashEnd := hhi
  have heven : 2 ∣ s.par.regionSize := (Config.Sound.sector_even hs.sound).trans hs.sound.region_dvd
  have hround := ceilDiv_mul_le (by decide : 0 < 2) hsize heven
  refine writeFlash_flashed hs (by omega) (fun _ => hs.sound.granule_dvd.trans hdvd) fun _ => ?_
  rw [Memory.halfBuffer, halves_length, Memory.read_length]
  omega

theorem updCompleteSr_ready {s : State} (hs : s.Ready) (ht : s.par.topology = .sr) {size : Word}
    (hsize : size.toNat ≤ s.par.regionSize) (crc : Word) : Transition (updCompleteSr size crc) s := by
  have hcopied : Transition (writeFlash s.par.runBase
      (s.mem.halfBuffer s.par.stagingBase (ceilDiv size.toNat 2))) s :=
    (copyToRun_flashed hs.toSane hsize _).mono (fun _ _ h => ⟨h.booted, h.ready hs⟩) fun _ h => h
  rw [updCompleteSr, Transition, after_bind, after_getState]
  refine Transition.bind hcopied fun w t hb hr => ?_
  have htt : t.par.topology = .sr := hb.par ▸ ht
  obtain ⟨c, hc, hv⟩ := hr.sr htt
  rw [Transition, after_bind, after_getState, after_ite]
  split
  · simp only [after_bind]
    refine after_changeSr hr htt hc ?_ fun _ u kb kr => ?_
    · exact validSr_iff.2 ⟨(validSr_iff.1 hv).1, hb.par ▸ hsize⟩
    · rw [after_pure]
      exact ⟨kb, kr⟩
  · simp only [after_bind]
    refine after_changeSr hr htt hc ?_ fun _ u kb kr => ?_
    · exact validSr_iff.2 (validSr_iff.1 hv)
    · rw [after_pure]
      exact ⟨kb, kr⟩

/-- `UpdComplete` with a size that fits the region keeps the record valid (45_config.md R313, R314). -/
theorem updComplete_ready {s : State} (hs : s.Ready) (r : Role) {size : Word}
    (hsize : size.toNat ≤ s.par.regionSize) (crc : Word) : Transition (updComplete r size crc) s := by
  rw [updComplete, Transition, after_bind, after_getState]
  cases ht : s.par.topology
  · exact updCompleteAb_ready hs ht r hsize crc
  · exact updCompleteSr_ready hs ht hsize crc

end Sys2Proof.Machine
end

section
/-! SUPPORT. The protocol unit and the update flow, whatever the environment answers: an open session stays in range
byte by byte, and its end leaves a state that meets the invariant (43_protocol.md R220 to R247, 46_dispatch.md
R350 to R357). -/

namespace Sys2Proof.Machine

-- Elaborated one after another: threads that wait on the kernel use up the memory limit.
set_option Elab.async false

/-! ### Parts of the invariant -/

theorem State.Inv.sane {s : State} (h : s.Inv) : s.Sane := by
  obtain ⟨hw, hirq, hm, -⟩ := h
  exact ⟨hw, hirq, hm⟩

theorem State.Inv.recordOk {s : State} (h : s.Inv) : s.RecordOk := by
  obtain ⟨-, -, -, hr, -⟩ := h
  exact hr

theorem State.Inv.hasRecord {s : State} (h : s.Inv) (h1 : s.dstate ≠ .check) (h2 : s.dstate ≠ .fault) :
    s.hasRecord = true := by
  obtain ⟨hr, -, -⟩ := h.recordOk
  exact hr h1 h2

/-- Where `cfg_valid` is 1 the boot unit may run a transition. -/
theorem State.Inv.ready {s : State} (h : s.Inv) (hv : s.cfgValid = true) : s.Ready := by
  obtain ⟨-, hr, -⟩ := h.recordOk
  exact ⟨h.sane, hv, hr hv⟩

theorem State.Ready.recordOk {s : State} (h : s.Ready) : s.RecordOk :=
  ⟨fun _ _ => h.hasRecord, fun _ => h.recordValid, fun _ => h.cfgValid⟩

/-- Flash calls keep the invariant. -/
theorem Flashed.inv {s t : State} (h : Flashed s t) (hs : s.Inv) : t.Inv := by
  obtain ⟨hw, hirq, -, hrest⟩ := hs
  rw [h.rest]
  exact ⟨hw, hirq, h.rest ▸ h.memory, hrest⟩

/-- Outside a session, steps of the boot unit keep the invariant where they leave a good record. -/
theorem Booted.inv {s t : State} (h : Booted s t) (hs : s.Inv) (hd : s.dstate ≠ .update) (hr : t.RecordOk) :
    t.Inv := by
  obtain ⟨hw, hirq, -, -, hsess, -, hpar, hch, hho⟩ := hs
  have hm := h.memory
  have e := h.rest
  rw [e] at hm hr ⊢
  exact ⟨hw, hirq, hm, hr, ⟨hsess.1, fun h' => absurd h' hd⟩, fun h' => absurd h' hd, hpar, hch, hho⟩

theorem Booted.dstate {s t : State} (h : Booted s t) : t.dstate = s.dstate := by rw [h.rest]

theorem Flashed.dstate {s t : State} (h : Flashed s t) : t.dstate = s.dstate := by rw [h.rest]

/-- Between CHECK, JUMP and NOIMAGE the dispatcher moves on with a valid record (10_state.md R42). -/
theorem State.Inv.setDstate {s : State} (hs : s.Inv) (hr : s.Ready)
    (h : s.dstate = .check ∨ s.dstate = .jump ∨ s.dstate = .noImage) {d : DState}
    (hd : d = .jump ∨ d = .noImage) (code : Word) :
    State.Inv { s with lastUpdate := code, dstate := d } := by
  obtain ⟨hw, hirq, hm, -, ⟨hact, -⟩, -, hpar, ⟨hch, hch'⟩, -, hho⟩ := hs
  have hnot : s.dstate ≠ .update := by rcases h with h | h | h <;> rw [h] <;> decide
  have hd' : d ≠ .update := by rcases hd with rfl | rfl <;> decide
  refine ⟨hw, hirq, hm, ⟨fun _ _ => hr.hasRecord, fun _ => hr.recordValid, fun _ => hr.cfgValid⟩,
    ⟨⟨fun ha => absurd (hact.1 ha) hnot, fun e => absurd e hd'⟩, fun e => absurd e hd'⟩,
    fun e => absurd e hd', hpar, ⟨⟨fun ha => absurd (hch.1 ha) hnot, fun e => absurd e hd'⟩, hch'⟩,
    fun e => ?_, fun hsome => ?_⟩
  · rcases hd with rfl | rfl <;> cases e
  · rcases h with h | h | h <;> exact absurd (hho hsome) (by rw [h]; decide)

/-! ### An open session -/

/-- The invariant of UPDATE but for the receive channel, which a poll leaves disarmed while it works
(43_protocol.md R240). -/
structure State.InSession (s : State) : Prop extends State.Sane s where
  update : s.dstate = .update
  hasRecord : s.hasRecord = true
  recordValid : s.cfgValid = true → s.recordValid = true
  active : s.sess.active = true
  ret : s.retState.isSome = true
  kind : s.sessKind.isSome = true
  aligned : granuleAligned s.par s.sess.base.toNat = true
  base_ge : s.par.wrLo ≤ s.sess.base.toNat
  cursor_le : s.sess.cursor.toNat ≤ s.sess.limit.toNat
  limit_le : s.sess.limit.toNat ≤ s.par.wrHi
  cursor_eq : s.sess.cursor.toNat = s.sess.base.toNat + s.sess.written.toNat
  written_even : s.sess.written.toNat % 2 = 0
  jump_flow : s.retState = some .jump → s.sessKind = some .flow
  flow : s.sessKind = some .flow → s.cfgValid = true ∧ s.flowTarget = s.target
    ∧ (∀ t ∈ s.flowTarget, s.sess.base.toNat = regionBase s.par t)
    ∧ s.sess.limit.toNat = s.sess.base.toNat + s.par.regionSize
  parser : s.ParserOk
  buffer : s.rx.buf.length ≤ s.par.rxCap
  handOff : s.handOff.isSome = false

theorem State.Inv.inSession {s : State} (hs : s.Inv) (hd : s.dstate = .update) : s.InSession := by
  obtain ⟨hw, hirq, hm, ⟨hrec, hval, -⟩, ⟨hact, hsess⟩, hflow, hpar, ⟨-, -, hbuf, -⟩, -, hho⟩ := hs
  obtain ⟨hret, hkind, hal, hbase, hcur, hlim, hcureq, heven⟩ := hsess hd
  obtain ⟨hjump, hfl⟩ := hflow hd
  refine ⟨⟨hw, hirq, hm⟩, hd, hrec ?_ ?_, hval, hact.2 hd, hret, hkind, hal, hbase, hcur, hlim, hcureq, heven,
    hjump, hfl, hpar, hbuf, ?_⟩
  · rw [hd]; decide
  · rw [hd]; decide
  · cases h : s.handOff.isSome
    · rfl
    · rcases hho h with e | e <;> exact absurd (hd.symm.trans e) (by decide)

theorem State.InSession.inv {s : State} (h : s.InSession) (hc : s.ChannelOk) : s.Inv := by
  refine ⟨h.wellFormed, h.unmasked, h.memory, ⟨fun _ _ => h.hasRecord, h.recordValid, fun e => ?_⟩,
    ⟨⟨fun _ => h.update, fun _ => h.active⟩, fun _ => ⟨h.ret, h.kind, h.aligned, h.base_ge, h.cursor_le,
      h.limit_le, h.cursor_eq, h.written_even⟩⟩, fun _ => ⟨h.jump_flow, h.flow⟩, h.parser, hc, fun e => ?_,
    fun e => ?_⟩
  · exact absurd (h.update.symm.trans e) (by decide)
  · exact absurd (h.update.symm.trans e) (by decide)
  · exact absurd (h.handOff.symm.trans e) (by decide)

/-- The state but for the parser and the frame counters, which the parser's steps write. -/
def SameSession (s t : State) : Prop :=
  t = { s with parser := t.parser, framesOk := t.framesOk, framesBad := t.framesBad, tx := t.tx,
               frameBuf := t.frameBuf }

theorem State.InSession.ofParser {s t : State} (hs : s.InSession) (h : SameSession s t) (hp : t.ParserOk) :
    t.InSession := by
  rw [h] at hp ⊢
  exact { hs with parser := hp }

/-- The region of an open flow session has a target (46_dispatch.md R351). -/
theorem target_isSome {s : State} (h : s.hasRecord = true) : s.target.isSome = true := by
  obtain ⟨r, -, hr⟩ := updTarget_run h
  rw [hr]
  rfl

/-! ### The parser (43_protocol.md R222 to R229) -/

theorem parserOk_cleared {s : State} {ps : PState} (hps : ps = .waitStart ∨ ps = .readLength)
    (h : s.parser = Parser.cleared ps) : s.ParserOk := by
  rcases hps with rfl | rfl <;> simp [State.ParserOk, h, Parser.cleared]

theorem frameError_inSession {s : State} (hs : s.InSession) (k : FrameErrorKind) {next : PState}
    (hn : next = .waitStart ∨ next = .readLength) : (s.frameError k next).InSession :=
  hs.ofParser rfl (parserOk_cleared hn rfl)

theorem fieldStart_inSession {s : State} (hs : s.InSession) (d : Byte) : (s.fieldStart d).InSession := by
  unfold State.fieldStart
  split
  · exact hs.ofParser rfl (parserOk_cleared (.inr rfl) rfl)
  · exact hs

theorem fieldLength_inSession {s : State} (hs : s.InSession) (he : s.parser.escPend = false)
    (hp : s.parser.pstate = .readLength) (d : Byte) : (s.fieldLength d).InSession := by
  obtain ⟨hcount, hraw, hbody, -, -, -⟩ := hs.parser
  unfold State.fieldLength
  dsimp only
  split
  · split
    · next hlen =>
      obtain ⟨hmin, hmax⟩ := hlen
      have : 0 < (accumulate s.parser.lenAcc d s.parser.pcount).toNat := Nat.lt_of_lt_of_le (by decide) hmin
      refine hs.ofParser rfl ⟨?_, hraw, ?_, fun _ => ⟨hmin, hmax, this⟩, ?_, ?_⟩ <;> simp [he]
    · exact frameError_inSession hs _ (.inl rfl)
  · refine hs.ofParser rfl ⟨?_, hraw, hbody, ?_, ?_, ?_⟩ <;> simp [he, hp]
    omega

theorem fieldBody_inSession {s : State} (hs : s.InSession) (he : s.parser.escPend = false)
    (hp : s.parser.pstate = .readBody) (d : Byte) : (s.fieldBody d).InSession := by
  obtain ⟨hcount, hraw, -, hread, -, -⟩ := hs.parser
  obtain ⟨hmin, hmax, hlt⟩ := hread hp
  have hlen : (s.parser.body ++ [d]).length = s.parser.body.length + 1 := by simp
  have hle : (s.parser.body ++ [d]).length ≤ s.par.maxLen := by omega
  unfold State.fieldBody
  dsimp only
  split
  · next h => refine hs.ofParser rfl ⟨?_, hraw, hle, ?_, fun _ => ⟨hmin, h⟩, ?_⟩ <;> simp [he]
  · refine hs.ofParser rfl ⟨hcount, hraw, hle, fun _ => ⟨hmin, hmax, ?_⟩, ?_, ?_⟩
    · dsimp only; omega
    · simp [hp]
    · simp [he]

theorem fieldCrc_inSession {s : State} (hs : s.InSession) (he : s.parser.escPend = false)
    (hp : s.parser.pstate = .readCrc) (d : Byte) : (s.fieldCrc d).InSession := by
  obtain ⟨hcount, hraw, hbody, -, hcrc, -⟩ := hs.parser
  have hwhole := hcrc (.inl hp)
  unfold State.fieldCrc
  dsimp only
  split
  · refine hs.ofParser rfl ⟨?_, ?_, hbody, ?_, fun _ => hwhole, ?_⟩ <;> simp [he, hraw]
  · refine hs.ofParser rfl ⟨?_, ?_, hbody, ?_, fun _ => hwhole, ?_⟩ <;> simp [he, hp, hraw]
    omega

/-! ### The end of a session (43_protocol.md R244) -/

/-- What is left of an open session once its end has begun: enough to end it. -/
structure State.Closing (s : State) : Prop extends State.Sane s where
  update : s.dstate = .update
  hasRecord : s.hasRecord = true
  recordValid : s.cfgValid = true → s.recordValid = true
  ret : s.retState.isSome = true
  kind : s.sessKind.isSome = true
  jump_flow : s.retState = some .jump → s.sessKind = some .flow
  flow : s.sessKind = some .flow →
    s.cfgValid = true ∧ s.flowTarget.isSome = true ∧ s.sess.written.toNat ≤ s.par.regionSize
  buffer : s.rx.buf.length ≤ s.par.rxCap
  handOff : s.handOff.isSome = false

/-- The channel is stopped, the session closed and the parser cleared (43_protocol.md R244). -/
structure State.Closed (s : State) : Prop extends State.Closing s where
  inactive : s.sess.active = false
  parser : s.parser = Parser.cleared .waitStart
  disarmed : s.rx.armed = false
  unready : s.rx.ready = false
  line : s.rx.line = []

theorem State.InSession.closing {s : State} (h : s.InSession) : s.Closing :=
  { h with
    flow := fun hk => by
      obtain ⟨hv, ht, -, hlim⟩ := h.flow hk
      have := h.cursor_le
      have := h.cursor_eq
      exact ⟨hv, ht ▸ target_isSome h.hasRecord, by omega⟩ }

theorem State.Closing.close {s : State} (h : s.Closing) (code : Code) : (s.closeSession code).Closed :=
  { h with inactive := rfl, parser := rfl, disarmed := rfl, unready := rfl, line := rfl }

theorem Flashed.inSession {s t : State} (h : Flashed s t) (hs : s.InSession) : t.InSession := by
  have hm := h.memory
  have e := h.rest
  rw [e] at hm ⊢
  exact { hs with memory := hm }

theorem wrLo_ge {p : Config} (hp : p.Sound) : p.flashBase ≤ p.wrLo := (Config.Sound.cfgAddr_bounds hp).1

/-- The writer at the cursor of a session stays inside flash, since the session's limit does. -/
theorem mergeWrite_inSession {s : State} (hs : s.InSession) {hws : List Half}
    (h : s.sess.cursor.toNat + 2 * hws.length ≤ s.sess.limit.toNat) :
    After (mergeWrite s.sess.cursor.toNat hws) s (fun _ t => Flashed s t) State.Inv := by
  have h1 := wrLo_ge hs.sound
  have h2 := hs.base_ge
  have h3 := hs.cursor_eq
  have h4 : s.sess.limit.toNat ≤ s.par.flashEnd := hs.limit_le
  exact mergeWrite_flashed hs.toSane (by omega) (by omega)

theorem flush_closing {s : State} (hs : s.InSession) : After flush s (fun _ t => t.Closing) State.Inv := by
  rw [flush, after_bind, after_getState, after_ite]
  split
  · exact hs.closing
  · rw [after_ite]
    split
    · exact hs.closing
    · next hroom =>
      rw [after_bind]
      refine (mergeWrite_inSession hs (by simpa using hroom)).mono (fun ok t ht => ?_) fun _ h => h
      have hc := (ht.inSession hs).closing
      rw [after_ite]
      split
      · rw [after_bind, after_update, after_pure]
        have e := ht.rest
        rw [e] at hc ⊢
        refine { hc with flow := fun hk => ?_ }
        obtain ⟨hv, hsome, -⟩ := hc.flow hk
        obtain ⟨-, -, -, hlim⟩ := hs.flow hk
        have := hs.cursor_eq
        have := Nat.mod_le (s.sess.written.toNat + 1) (2 ^ 32)
        refine ⟨hv, hsome, ?_⟩
        show (s.sess.written + 1).toNat ≤ s.par.regionSize
        rw [BitVec.toNat_add]
        have : (1 : Word).toNat = 1 := rfl
        omega
      · exact hc

/-- `DSTATE` takes the state the session was opened to return to (43_protocol.md R244, 46_dispatch.md R353). -/
theorem returnState_inv {s : State} (h : s.Closed) :
    After returnState s (fun _ t => t.Inv ∧ t.parser = Parser.cleared .waitStart) State.Inv := by
  obtain ⟨r, hr⟩ := Option.isSome_iff_exists.1 h.ret
  have hr' : r.dstate = .jump ∨ r.dstate = .noImage := by cases r <;> simp [RetState.dstate]
  have hnot : r.dstate ≠ .update := by cases r <;> decide
  have hho : ¬ s.handOff.isSome = true := by simp [h.handOff]
  rw [returnState, after_bind, after_valueOf hr, after_update]
  refine ⟨⟨h.wellFormed, h.unmasked, h.memory, ⟨fun _ _ => h.hasRecord, h.recordValid, fun hj => ?_⟩,
    ⟨by simp [h.inactive, hnot], fun e => absurd e hnot⟩, fun e => absurd e hnot,
    parserOk_cleared (.inl rfl) h.parser, ⟨by simp [h.disarmed, h.unready, hnot], by simp [h.disarmed], h.buffer,
      by simp [h.unready], fun _ => h.line⟩, fun e => ?_, fun e => absurd e hho⟩, h.parser⟩
  · have hrj : r = .jump := by cases r <;> simp_all [RetState.dstate]
    exact (h.flow (h.jump_flow (hrj ▸ hr))).1
  · rcases hr' with e' | e' <;> exact absurd (e'.symm.trans e) (by decide)

theorem Booted.closed {s t : State} (h : Booted s t) (hs : s.Closed) (hr : t.Ready) : t.Closed := by
  have hrec := hr.hasRecord
  have hval := hr.recordValid
  have hcfg := hr.cfgValid
  have hm := h.memory
  have e := h.rest
  rw [e] at hrec hval hcfg hm ⊢
  exact { hs with
    memory := hm
    hasRecord := hrec
    recordValid := fun _ => hval
    flow := fun hk => ⟨hcfg, (hs.flow hk).2⟩ }

/-- `FlowEnd` (46_dispatch.md R353). -/
theorem flowEnd_inv {s : State} (h : s.Closed) (hk : s.sessKind = some .flow) (code : Code) :
    After (flowEnd code) s (fun _ t => t.Inv ∧ t.parser = Parser.cleared .waitStart) State.Inv := by
  obtain ⟨hv, hsome, hsize⟩ := h.flow hk
  have hr : s.Ready := ⟨h.toSane, hv, h.recordValid hv⟩
  obtain ⟨r, ht⟩ := Option.isSome_iff_exists.1 hsome
  have hlast : ∀ (t : State) (w : Word), Booted s t → t.Ready → After returnState { t with lastUpdate := w }
      (fun _ t => t.Inv ∧ t.parser = Parser.cleared .waitStart) State.Inv := fun t w hb hrt =>
    returnState_inv (s := { t with lastUpdate := w }) { hb.closed h hrt with }
  rw [flowEnd]
  dsimp only
  rw [after_ite]
  split
  · rw [after_bind, after_getState, after_bind, after_valueOf ht, after_bind]
    refine (updComplete_ready hr r hsize _).mono (fun c t ⟨hb, hrt⟩ => ?_) fun _ h => h
    rw [after_bind, after_update]
    exact hlast t _ hb hrt
  · rw [after_bind]
    refine (updFailed_ready hr).mono (fun c t ⟨hb, hrt⟩ => ?_) fun _ h => h
    rw [after_bind, after_update]
    exact hlast t _ hb hrt

/-- `EndSession` after the flush (43_protocol.md R244). -/
def closeAndReturn (code : Code) : Engine Code := do
  update fun s => s.closeSession code
  match ← valueOf .sessKind State.sessKind with
  | .flow => flowEnd code
  | .raw => returnState
  pure code

theorem endSession_eq (code : Code) : endSession code = (do
    if code = .ok then do
      let c ← flush
      closeAndReturn c
    else closeAndReturn code) := rfl

theorem closeAndReturn_inv {s : State} (h : s.Closing) (code : Code) :
    After (closeAndReturn code) s (fun _ t => t.Inv ∧ t.parser = Parser.cleared .waitStart) State.Inv := by
  have hc := h.close code
  obtain ⟨k, hk⟩ := Option.isSome_iff_exists.1 hc.kind
  rw [closeAndReturn, after_bind, after_update, after_bind, after_valueOf hk]
  cases k
  · dsimp only
    rw [after_bind]
    exact (flowEnd_inv hc hk code).mono (fun _ _ h => h) fun _ h => h
  · dsimp only
    rw [after_bind]
    exact (returnState_inv hc).mono (fun _ _ h => h) fun _ h => h

/-- The end of a session leaves the invariant, whatever code ends it (43_protocol.md R244). -/
theorem endSession_inv {s : State} (hs : s.InSession) (code : Code) :
    After (endSession code) s (fun _ t => t.Inv ∧ t.parser = Parser.cleared .waitStart) State.Inv := by
  rw [endSession_eq, after_ite]
  split
  · rw [after_bind]
    exact (flush_closing hs).mono (fun c _ hc => closeAndReturn_inv hc c) fun _ h => h
  · exact closeAndReturn_inv hs.closing code

/-! ### Bytes and polls -/

/-- What a step of an open session leaves: the session goes on in a state that meets `P`, or it ended in a state
that meets the invariant. -/
def SessionStep (P : State → Prop) (r : Option Code) (t : State) : Prop :=
  match r with
  | none => P t
  | some _ => t.Inv ∧ t.parser = Parser.cleared .waitStart

/-- A computation that leaves the session open with `P`, or ends it. -/
abbrev KeepsSession (P : State → Prop) (x : Engine (Option Code)) (s : State) : Prop :=
  After x s (SessionStep P) State.Inv

theorem goesOn_keeps {P : State → Prop} {s : State} (h : P s) : KeepsSession P goesOn s := h

theorem ended_keeps {P : State → Prop} {s : State} (hs : s.InSession) (code : Code) :
    KeepsSession P (ended code) s := by
  rw [ended, KeepsSession, after_bind]
  exact endSession_inv hs code

theorem endTransfer_keeps {P : State → Prop} {s : State} (hs : s.InSession) :
    KeepsSession P endTransfer s := by
  rw [endTransfer, KeepsSession, after_bind, after_getState]
  exact ended_keeps hs _

theorem checkTimeout_keeps {P : State → Prop} {s : State} (hs : s.InSession) (h : P s) (now : Word) :
    KeepsSession P (checkTimeout now) s := by
  rw [checkTimeout, KeepsSession, after_bind, after_getState, after_ite]
  split
  · exact ended_keeps hs _
  · exact goesOn_keeps h

theorem sendStatus_inSession {s : State} (hs : s.InSession) (tag : List Byte) (st : Word) :
    (s.sendStatus tag st).InSession := hs.ofParser rfl hs.parser

theorem keepCarry_inSession {s : State} (hs : s.InSession) (l : List Byte) :
    State.InSession { s with sess := s.sess.keepCarry l } := by
  unfold Session.keepCarry
  split
  · exact { hs with }
  · exact { hs with }

/-- An open session whose parser still holds the frame being accepted. -/
abbrev State.Accepting (p : Parser) (t : State) : Prop := t.InSession ∧ t.parser = p

theorem acceptDone_keeps {s : State} (hs : s.InSession) {p : Parser} (hp : s.parser = p) (tag l : List Byte) :
    KeepsSession (State.Accepting p) (acceptDone tag l) s := by
  rw [acceptDone, KeepsSession, after_bind, after_update]
  exact goesOn_keeps ⟨sendStatus_inSession (keepCarry_inSession hs l) tag 0, hp⟩

theorem acceptFailed_keeps {P : State → Prop} {s : State} (hs : s.InSession) (tag : List Byte) (code : Code) :
    KeepsSession P (acceptFailed tag code) s := by
  rw [acceptFailed, KeepsSession, after_bind, after_update]
  exact ended_keeps (sendStatus_inSession hs tag 1) code

/-- The cursor moves by the halfwords written, and stays inside the session's limit (43_protocol.md R236). -/
theorem advance_inSession {s : State} (hs : s.InSession) {n : Nat}
    (h : s.sess.cursor.toNat + 2 * n ≤ s.sess.limit.toNat) :
    State.InSession { s with sess := { s.sess with cursor := s.sess.cursor + BitVec.ofNat 32 (2 * n)
                                                   written := s.sess.written + BitVec.ofNat 32 (2 * n) } } := by
  have hlt := s.sess.limit.isLt
  have hc := hs.cursor_eq
  have hcur : (s.sess.cursor + BitVec.ofNat 32 (2 * n)).toNat = s.sess.cursor.toNat + 2 * n := by
    rw [BitVec.toNat_add, BitVec.toNat_ofNat, Nat.add_mod_mod, Nat.mod_eq_of_lt (by omega)]
  have hwr : (s.sess.written + BitVec.ofNat 32 (2 * n)).toNat = s.sess.written.toNat + 2 * n := by
    rw [BitVec.toNat_add, BitVec.toNat_ofNat, Nat.add_mod_mod, Nat.mod_eq_of_lt (by omega)]
  have heven := hs.written_even
  exact { hs with
    cursor_le := by simp only [hcur]; exact h
    cursor_eq := by simp only [hcur, hwr]; omega
    written_even := by simp only [hwr]; omega }

/-- `Accept` of a frame whose body is whole (43_protocol.md R236). -/
theorem accept_keeps {s : State} (hs : s.InSession) (hb : s.parser.body.length = s.parser.lenAcc.toNat) :
    KeepsSession (State.Accepting s.parser) accept s := by
  rw [accept, KeepsSession, after_bind, after_update]
  have hs' : State.InSession { s with framesOk := s.framesOk + 1 } := hs.ofParser rfl hs.parser
  rw [after_bind, after_getState, after_bind]
  refine .of_ok (wholeBody_ok (s := { s with framesOk := s.framesOk + 1 }) hb) ?_
  dsimp only
  rw [after_ite]
  split
  · exact acceptDone_keeps hs' rfl _ _
  · rw [after_ite]
    split
    · exact acceptFailed_keeps hs' _ _
    · next hroom =>
      rw [after_bind]
      refine (mergeWrite_inSession hs' (Nat.not_lt.1 hroom)).mono (fun ok t ht => ?_) fun _ h => h
      have hst := ht.inSession hs'
      rw [after_ite]
      split
      · rw [after_bind, after_update]
        have hsess : t.sess = s.sess := by rw [ht.rest]
        have hparser : t.parser = s.parser := by rw [ht.rest]
        refine acceptDone_keeps (advance_inSession hst ?_) hparser _ _
        rw [hsess]
        exact Nat.not_lt.1 hroom
      · exact acceptFailed_keeps hst _ _

/-- After a frame the parser waits for the next one (43_protocol.md R227). -/
theorem waitStart_inSession {s : State} (hs : s.InSession) (he : s.parser.escPend = false) :
    State.InSession { s with parser := { s.parser with pstate := .waitStart } } := by
  obtain ⟨hcount, hraw, hbody, -, -, -⟩ := hs.parser
  refine hs.ofParser rfl ⟨hcount, hraw, hbody, ?_, ?_, ?_⟩ <;> simp [he]

/-- WAIT_END on a byte (43_protocol.md R227). -/
theorem fieldEnd_keeps {s : State} (hs : s.InSession) (he : s.parser.escPend = false)
    (hp : s.parser.pstate = .waitEnd) (c : Byte) : KeepsSession State.InSession (fieldEnd c) s := by
  obtain ⟨-, -, -, -, hwhole, -⟩ := hs.parser
  obtain ⟨-, hlen⟩ := hwhole (.inr hp)
  rw [fieldEnd, KeepsSession, after_bind, after_getState, after_ite]
  split
  · rw [after_bind]
    refine .of_ok (wholeBody_ok hlen) ?_
    rw [after_ite]
    split
    · rw [after_bind]
      refine (accept_keeps hs hlen).mono (fun r t ht => ?_) fun _ h => h
      rw [after_bind, after_update, after_pure]
      cases r with
      | none =>
        obtain ⟨hst, hparser⟩ := ht
        exact waitStart_inSession hst (hparser ▸ he)
      | some code =>
        obtain ⟨hinv, hparser⟩ := ht
        have e : ({ t with parser := { t.parser with pstate := .waitStart } } : State) = t := by
          rw [hparser]
          exact congrArg (fun p => ({ t with parser := p } : State)) hparser.symm
        show SessionStep _ (some code) _
        rw [e]
        exact ⟨hinv, hparser⟩
    · rw [after_bind, after_update]
      exact goesOn_keeps (frameError_inSession hs _ (.inl rfl))
  · rw [after_bind, after_update]
    exact goesOn_keeps (frameError_inSession hs _ (.inl rfl))

theorem field_keeps {s : State} (hs : s.InSession) (he : s.parser.escPend = false) (d : Byte) :
    KeepsSession State.InSession (field d) s := by
  rw [field, KeepsSession, after_bind, after_getState]
  cases hp : s.parser.pstate
  · exact fieldStart_inSession hs d
  · exact fieldLength_inSession hs he hp d
  · exact fieldBody_inSession hs he hp d
  · exact fieldCrc_inSession hs he hp d
  · exact fieldEnd_keeps hs he hp d

/-- `esc_pend` may be set and cleared in an escaped field (43_protocol.md R222). -/
theorem escPend_inSession {s : State} (hs : s.InSession) {b : Bool}
    (h : b = true → escapedState s.par.escMode s.parser.pstate = true) :
    State.InSession { s with parser := { s.parser with escPend := b } } := by
  obtain ⟨hcount, hraw, hbody, hread, hwhole, -⟩ := hs.parser
  exact hs.ofParser rfl ⟨hcount, hraw, hbody, hread, hwhole, h⟩

/-- `Feed` of one byte keeps the session in range or ends it (43_protocol.md R222). -/
theorem feed_keeps {s : State} (hs : s.InSession) (c : Byte) : KeepsSession State.InSession (feed c) s := by
  obtain ⟨-, -, -, -, -, hesc⟩ := hs.parser
  rw [feed, KeepsSession, after_bind, after_getState, after_ite]
  split
  · next hin =>
    rw [after_ite]
    split
    · have hcleared : State.InSession { s with parser := { s.parser with escPend := false } } :=
        escPend_inSession hs nofun
      rw [after_bind, after_update, after_ite]
      split
      · exact field_keeps hcleared rfl _
      · rw [after_ite]
        split
        · exact field_keeps hcleared rfl _
        · rw [after_bind, after_update]
          refine goesOn_keeps (frameError_inSession hcleared _ ?_)
          split
          · exact .inr rfl
          · exact .inl rfl
    · next hno =>
      rw [after_ite]
      split
      · rw [after_bind, after_update]
        exact goesOn_keeps (escPend_inSession hs fun _ => hin)
      · rw [after_ite]
        split
        · rw [after_bind, after_update]
          exact goesOn_keeps (frameError_inSession hs _ (.inr rfl))
        · exact field_keeps hs (by simpa using hno) c
  · next hout =>
    have he : s.parser.escPend = false := by
      cases h : s.parser.escPend
      · rfl
      · exact absurd (hesc h) hout
    exact field_keeps hs he c

theorem feedAll_keeps {s : State} (hs : s.InSession) (l : List Byte) :
    KeepsSession State.InSession (feedAll l) s := by
  induction l generalizing s with
  | nil => exact goesOn_keeps hs
  | cons c l ih =>
    rw [feedAll, KeepsSession, after_bind]
    refine (feed_keeps hs c).mono (fun r t ht => ?_) fun _ h => h
    cases r with
    | none => exact ih ht
    | some code => exact ht

theorem armed_channelOk {s : State} (h : s.dstate = .update) :
    State.ChannelOk { s with rx := { armed := true, ready := false, buf := [], line := [] } } := by
  simp [State.ChannelOk, h]

/-- Arming the channel again restores the whole invariant of an open session (43_protocol.md R240). -/
theorem keeps_rearm {s : State} (hs : s.InSession) (now : Word) : KeepsSession State.Inv (do
    if ← rxArm then checkTimeout now else ended .eRxStart) s := by
  rw [KeepsSession, after_bind]
  cases ha : s.armAnswer
  · refine .of_ok (rxArm_refused ha) ?_
    rw [after_ite, if_neg (by decide)]
    exact ended_keeps (s := armRefused s) { hs with } _
  · refine .of_ok (rxArm_ok ha) ?_
    rw [after_ite, if_pos rfl]
    have hin : State.InSession
        { armRefused s with rx := { armed := true, ready := false, buf := [], line := [] } } :=
      { hs with buffer := Nat.zero_le _ }
    exact checkTimeout_keeps hin (hin.inv (armed_channelOk (s := armRefused s) hs.update)) _

/-- `Poll()` (43_protocol.md R240). -/
theorem poll_inv {s : State} (hs : s.Inv) (hd : s.dstate = .update) :
    After poll s (fun _ t => t.Inv) State.Inv := by
  have hin := hs.inSession hd
  have hend : ∀ r t, SessionStep State.Inv r t → t.Inv := fun r t h => by
    cases r with
    | none => exact h
    | some code => exact h.1
  refine After.mono (Q := SessionStep State.Inv) (L := State.Inv) ?_ hend fun _ h => h
  rw [poll, after_bind, after_getState]
  dsimp only
  rw [after_ite]
  split
  · have hread : State.InSession { s with rx := { s.rx with ready := false } } := { hin with }
    rw [after_bind, after_update, after_ite]
    split
    · exact endTransfer_keeps hread
    · have hread0 : State.InSession
          { s with rx := { s.rx with ready := false }, sess := { s.sess with idleCount := 0 } } := { hread with }
      rw [after_bind, after_update, after_bind]
      refine (feedAll_keeps hread0 s.rx.buf).mono (fun r t ht => ?_) fun _ h => h
      cases r with
      | none => exact keeps_rearm ht _
      | some code => exact ht
  · have hidle : State.InSession { s with sess := s.sess.idle } := { hin with }
    obtain ⟨-, -, -, -, -, -, -, hch, -⟩ := hs
    rw [after_bind, after_update, after_bind, after_getState, after_ite]
    split
    · exact endTransfer_keeps hidle
    · exact checkTimeout_keeps hidle (hidle.inv hch) _

/-! ### Opening a session (43_protocol.md R220, R221; 46_dispatch.md R351) -/

/-- A session opened in CHECK or NOIMAGE inside the managed range meets the invariant. -/
theorem sessionOpened_inv {s : State} (hs : s.Inv) (hrec : s.hasRecord = true)
    (hd : s.dstate = .check ∨ s.dstate = .noImage) {base limit : Word} {kind : SessKind} {ret : RetState}
    (hal : granuleAligned s.par base.toNat = true) (hlo : s.par.wrLo ≤ base.toNat)
    (hle : base.toNat ≤ limit.toNat) (hhi : limit.toNat ≤ s.par.wrHi) (hret : ret = .jump → kind = .flow)
    (hflow : kind = .flow → s.cfgValid = true ∧ s.flowTarget = s.target
      ∧ (∀ t ∈ s.flowTarget, base.toNat = regionBase s.par t)
      ∧ limit.toNat = base.toNat + s.par.regionSize) :
    (sessionOpened s base limit kind ret).Inv := by
  obtain ⟨hw, hirq, hm, ⟨-, hval, -⟩, -, -, -, -, -, hho⟩ := hs
  have hnone : s.handOff.isSome = false := by
    cases h : s.handOff.isSome
    · rfl
    · rcases hd with e | e <;> exact absurd (hho h) (by rw [e]; decide)
  have hin : (sessionOpened s base limit kind ret).InSession :=
    { wellFormed := hw, unmasked := hirq, memory := hm, update := rfl, hasRecord := hrec, recordValid := hval,
      active := rfl, ret := rfl, kind := rfl, aligned := hal, base_ge := hlo, cursor_le := hle, limit_le := hhi,
      cursor_eq := rfl, written_even := rfl,
      jump_flow := fun e => by
        obtain rfl : ret = .jump := Option.some.inj e
        exact congrArg some (hret rfl)
      flow := fun e => hflow (Option.some.inj e)
      parser := parserOk_cleared (.inl rfl) rfl, buffer := Nat.zero_le _, handOff := hnone }
  exact hin.inv (armed_channelOk (s := sessionOpened s base limit kind ret) rfl)

theorem State.Inv.armRefused {s : State} (hs : s.Inv) : (armRefused s).Inv := hs

/-- A flow that could not start (46_dispatch.md R351). -/
theorem flowFailed_inv {s : State} (hs : s.Inv) (hr : s.Ready) (hd : s.dstate = .check ∨ s.dstate = .noImage)
    (code : Code) (ret : RetState) : After (flowFailed code ret) s (fun _ t => t.Inv) State.Inv := by
  have hnot : s.dstate ≠ .update := by rcases hd with h | h <;> rw [h] <;> decide
  rw [flowFailed, after_bind]
  refine (updFailed_ready hr).mono (fun _ t ⟨hb, hrt⟩ => ?_) fun _ h => h
  rw [after_bind, after_update, after_pure]
  refine (hb.inv hs hnot hrt.recordOk).setDstate hrt ?_ ?_ _
  · rw [hb.dstate]; exact hd.imp_right .inr
  · cases ret
    · exact .inl rfl
    · exact .inr rfl

/-- The session of a flow: it writes the region of the update target (46_dispatch.md R351). -/
theorem flowSession_inv {s : State} (hs : s.Inv) (hr : s.Ready) (hd : s.dstate = .check ∨ s.dstate = .noImage)
    {r : Role} (hflow : s.flowTarget = some r) (ht : s.target = some r) (ret : RetState) :
    (sessionOpened s (BitVec.ofNat 32 (regionBase s.par r))
      (BitVec.ofNat 32 (regionBase s.par r + s.par.regionSize)) .flow ret).Inv := by
  obtain ⟨hlo, hhi, hdvd⟩ := Config.Sound.region hr.sound r
  obtain ⟨-, hcfg, -⟩ := Config.Sound.cfgAddr_bounds hr.sound
  have hlt := hr.sound.flash_lt
  have hwr : s.par.wrLo = s.par.cfgAddr := rfl
  have hb : (BitVec.ofNat 32 (regionBase s.par r)).toNat = regionBase s.par r := by
    rw [BitVec.toNat_ofNat, Nat.mod_eq_of_lt (by omega)]
  have hl : (BitVec.ofNat 32 (regionBase s.par r + s.par.regionSize)).toNat
      = regionBase s.par r + s.par.regionSize := by
    rw [BitVec.toNat_ofNat, Nat.mod_eq_of_lt (by omega)]
  refine sessionOpened_inv hs hr.hasRecord hd ?_ (by omega) (by omega) (by rw [hl]; exact hhi) (fun _ => rfl)
    fun _ => ⟨hr.cfgValid, hflow.trans ht.symm, fun t hin => ?_, by rw [hb, hl]⟩
  · rw [hb]
    exact granuleAligned_of_dvd (hr.sound.granule_dvd.trans hdvd) (by omega)
  · rw [hflow] at hin
    obtain rfl := Option.some.inj hin
    exact hb

/-- `RunFlow` (46_dispatch.md R351). -/
theorem runFlow_inv {s : State} (hs : s.Inv) (hr : s.Ready) (hd : s.dstate = .check ∨ s.dstate = .noImage)
    (ret : RetState) : After (runFlow ret) s (fun _ t => t.Inv) State.Inv := by
  have hnot : s.dstate ≠ .update := by rcases hd with h | h <;> rw [h] <;> decide
  rw [runFlow, after_bind]
  refine after_updTarget hr.hasRecord fun r ht => ?_
  rw [after_bind, after_getState]
  dsimp only
  rw [after_bind]
  refine (updStart_ready hr).mono (fun _ t ⟨hb, hrt, htt⟩ => ?_) fun _ h => h
  have hmark : State.Inv { t with flowTarget := some r } := by
    obtain ⟨hw, hirq, hm, hrec, hsess, -, hrest⟩ := hb.inv hs hnot hrt.recordOk
    exact ⟨hw, hirq, hm, hrec, hsess, fun e => absurd (hb.dstate.symm.trans e) hnot, hrest⟩
  have hrmark : State.Ready { t with flowTarget := some r } := { hrt with }
  rw [after_bind, after_update, after_bind, ← hb.par]
  refine (eraseRegion_flashed hrmark.toSane r).mono (fun ok u hu => ?_) fun _ h => h
  have hinv := hu.inv hmark
  have hru := hu.ready hrmark
  have hdu : u.dstate = .check ∨ u.dstate = .noImage := by rw [hu.dstate]; exact hb.dstate ▸ hd
  rw [after_ite]
  split
  · rw [after_bind]
    have hpar : u.par = t.par := hu.par
    have hflow : u.flowTarget = some r := by rw [hu.rest]
    have htarget : u.target = some r := by
      rw [hu.rest]
      exact htt.trans ht
    cases ha : u.armAnswer
    · refine .of_ok (startSession_refused ha _ _ _ _) ?_
      rw [after_ite, if_neg (by decide)]
      exact flowFailed_inv (s := armRefused u) hinv { hru with } hdu _ _
    · refine .of_ok (startSession_ok ha _ _ _ _) ?_
      rw [after_ite, if_pos rfl, after_pure, ← hpar]
      exact flowSession_inv hinv hru hdu hflow htarget ret
  · exact flowFailed_inv hinv hru hdu _ _

/-! ### CHECK and JUMP (46_dispatch.md R350, R354) -/

/-- What is left of `Check()` once the record is loaded or made (46_dispatch.md R350). -/
def checkRecorded : Engine Unit := do
  recoverIfUpdating
  let marked ← updateMarked
  let none ← noneVerifies
  if marked || none then do
    let _ ← runFlow .jump
    pure ()
  else update fun s => { s with dstate := .jump }

theorem check_eq : check = (do
    if ← cfgLoad then checkRecorded
    else do
      let _ ← cfgInit
      checkRecorded) := rfl

theorem recoverIfUpdating_ready {s : State} (hs : s.Ready) : Transition recoverIfUpdating s := by
  rw [recoverIfUpdating, Transition, after_bind, after_getState]
  cases ht : s.par.topology
  · obtain ⟨c, hc, -⟩ := hs.ab ht
    dsimp only
    rw [after_bind, abCache, after_valueOf hc, after_ite]
    split
    · exact Transition.bind (crashRecovery_ready hs ht) fun _ t _ hr => Transition.pure hr
    · exact Transition.pure hs
  · exact Transition.pure hs

theorem after_updateMarked {s : State} (h : s.hasRecord = true) {Q : Bool → State → Prop} {L : State → Prop}
    (hQ : ∀ v, Q v s) : After updateMarked s Q L := by
  rw [updateMarked, after_bind, after_getState]
  cases ht : s.par.topology
  · obtain ⟨c, hc⟩ := (hasRecord_ab ht).1 h
    dsimp only
    rw [after_bind, abCache, after_valueOf hc, after_pure]
    exact hQ _
  · obtain ⟨c, hc⟩ := (hasRecord_sr ht).1 h
    dsimp only
    rw [after_bind, srCache, after_valueOf hc, after_pure]
    exact hQ _

theorem after_noneVerifies {s : State} (h : s.hasRecord = true) {Q : Bool → State → Prop} {L : State → Prop}
    (hQ : ∀ v, Q v s) : After noneVerifies s Q L := by
  rw [noneVerifies, after_bind, after_getState]
  cases ht : s.par.topology
  · dsimp only
    rw [after_bind]
    refine after_verify h (by simp [hasRole, ht]) fun a => ?_
    rw [after_bind]
    refine after_verify h (by simp [hasRole, ht]) fun b => ?_
    rw [after_pure]
    exact hQ _
  · dsimp only
    rw [after_bind]
    refine after_verify h (by simp [hasRole, ht]) fun r => ?_
    rw [after_pure]
    exact hQ _

theorem checkRecorded_inv {s : State} (hs : s.Inv) (hr : s.Ready) (hd : s.dstate = .check) :
    After checkRecorded s (fun _ t => t.Inv) State.Inv := by
  have hnot : s.dstate ≠ .update := by rw [hd]; decide
  rw [checkRecorded, after_bind]
  refine (recoverIfUpdating_ready hr).mono (fun _ t ⟨hb, hrt⟩ => ?_) fun _ h => h
  have hinv := hb.inv hs hnot hrt.recordOk
  have hdt : t.dstate = .check := hb.dstate.trans hd
  rw [after_bind]
  refine after_updateMarked hrt.hasRecord fun marked => ?_
  rw [after_bind]
  refine after_noneVerifies hrt.hasRecord fun none => ?_
  rw [after_ite]
  split
  · rw [after_bind]
    exact (runFlow_inv hinv hrt (.inl hdt) .jump).mono (fun _ _ h => h) fun _ h => h
  · rw [after_update]
    exact hinv.setDstate hrt (.inl hdt) (.inl rfl) t.lastUpdate

/-- `Check()` (46_dispatch.md R350). -/
theorem check_inv {s : State} (hs : s.Inv) (hd : s.dstate = .check) :
    After check s (fun _ t => t.Inv) State.Inv := by
  have hnot : s.dstate ≠ .update := by rw [hd]; decide
  have hload := loadRecord_booted hs.sane.memory
  have hstart : ∀ t, Booted s t → t.Ready → After checkRecorded t (fun _ t => t.Inv) State.Inv :=
    fun t hb hr => checkRecorded_inv (hb.inv hs hnot hr.recordOk) hr (hb.dstate.trans hd)
  rw [check_eq, after_bind]
  refine .of_ok (cfgLoad_run s) ?_
  rw [after_ite]
  split
  · next hv => exact hstart _ hload (loadRecord_ready hs.sane hv)
  · rw [after_bind]
    exact (cfgInit_ready (hload.sane hs.sane)).mono (fun _ t ⟨hb, hr⟩ => hstart t (hload.trans hb) hr)
      fun _ h => h

/-- `HandOff` from JUMP or NOIMAGE (46_dispatch.md R357). -/
theorem handOffTo_inv {s : State} (hs : s.Inv) (hr : s.Ready) (hd : s.dstate ≠ .update) (b : Nat) :
    (s.handOffTo b).Inv := by
  obtain ⟨hw, hirq, hm, -, ⟨hact, -⟩, -, hpar, ⟨-, -, hbuf, -, -⟩, -⟩ := hs
  refine ⟨hw, hirq, hm, ⟨fun _ _ => hr.hasRecord, fun _ => hr.recordValid, nofun⟩,
    ⟨⟨fun ha => absurd (hact.1 ha) hd, nofun⟩, nofun⟩, nofun, hpar, ⟨?_, nofun, hbuf, nofun, fun _ => rfl⟩,
    fun _ => rfl, fun _ => .inl rfl⟩
  simp [RxChannel.stop]

/-- `Jump()` (46_dispatch.md R354). -/
theorem jump_inv {s : State} (hs : s.Inv) (hd : s.dstate = .jump) :
    After jump s (fun _ t => t.Inv) State.Inv := by
  obtain ⟨-, -, hvalid⟩ := hs.recordOk
  have hnot : s.dstate ≠ .update := by rw [hd]; decide
  rw [jump, after_bind]
  refine (bootSelect_ready (hs.ready (hvalid hd))).mono (fun ⟨sel, pf⟩ t ⟨hb, hrt⟩ => ?_) fun _ h => h
  have hinv := hb.inv hs hnot hrt.recordOk
  have hdt : t.dstate = .jump := hb.dstate.trans hd
  cases sel with
  | some r => exact handOffTo_inv hinv hrt (by rw [hdt]; decide) _
  | none => exact hinv.setDstate hrt (.inr (.inl hdt)) (.inr rfl) t.lastUpdate

end Sys2Proof.Machine
end

section
/-! SUPPORT. What each command leaves: class P writes RAM, CRC_STATE and the result registers only (30_encoding.md
R127), and every command keeps the invariant. -/

namespace Sys2Proof.Machine

-- Elaborated one after another: threads that wait on the kernel use up the memory limit.
set_option Elab.async false

/-! ### Outcomes -/

/-- The outcome is a next state that meets the invariant, or the port's refusal. -/
def KeepsInv (o : Host.Outcome State Fault Refusal) : Prop :=
  match o with
  | .next t => t.Inv
  | .fault _ => False
  | .refused _ => True

theorem accepted_pure {d : DState} (h : refusalCode .pure d = none) : d ≠ .check ∧ d ≠ .fault := by
  cases d <;> simp_all [refusalCode]

theorem accepted_write {d : DState} (h : refusalCode .write d = none) : d = .noImage := by
  cases d <;> simp_all [refusalCode]

theorem accepted_sessBegin {d : DState} (h : refusalCode .sessBegin d = none) : d = .noImage := by
  cases d <;> simp_all [refusalCode]

theorem accepted_sessPoll {d : DState} (h : refusalCode .sessPoll d = none) : d = .update := by
  cases d <;> simp_all [refusalCode]

theorem accepted_app {d : DState} (h : refusalCode .app d = none) : d = .noImage ∨ d = .handedOff := by
  cases d <;> simp_all [refusalCode]

/-- Writing RESULT keeps the invariant. -/
theorem State.Inv.finish {s : State} (h : s.Inv) (c : Code) : (s.finish c).Inv := h

theorem settle_keeps {x : Engine Unit} {s : State} (h : After x s (fun _ t => t.Inv) State.Inv) :
    KeepsInv (settle (x s)) := by
  unfold After at h
  rcases hx : x s with ⟨a, t⟩ | ⟨_ | g, t⟩ <;> rw [hx] at h <;> exact h

/-- A command keeps the invariant where its body does once it is accepted. -/
theorem runCommand_keeps {k : CmdClass} {body : Engine Code} {s : State} (hs : s.Inv)
    (h : refusalCode k s.dstate = none → After body s (fun _ t => t.Inv) State.Inv) :
    KeepsInv (runCommand k body s) := by
  cases hc : refusalCode k s.dstate with
  | some c => rw [runCommand_refused hc]; exact hs.finish c
  | none =>
    rw [runCommand, hc]
    refine settle_keeps ?_
    rw [after_bind]
    exact (h hc).mono (fun c _ ht => ht.finish c) fun _ h => h

theorem runCommand_not_refused (k : CmdClass) (body : Engine Code) (s : State) (r : Refusal) :
    runCommand k body s ≠ .refused r := by
  unfold runCommand settle
  split
  · nofun
  · split <;> nofun

/-- Every command is its class's acceptance test and a body (30_encoding.md R127). -/
theorem exec_eq_runCommand (i : Instr) : ∃ body : Engine Code, ∀ s, exec i s = runCommand (classOf i) body s := by
  cases i <;> exact ⟨_, fun _ => rfl⟩

theorem exec_not_refused (i : Instr) (s : State) (r : Refusal) : exec i s ≠ .refused r := by
  obtain ⟨body, h⟩ := exec_eq_runCommand i
  rw [h]
  exact runCommand_not_refused _ _ s r

/-! ### Class P -/

/-- What a class P command may write: RAM, CRC_STATE and the result registers (30_encoding.md R127). -/
structure PureStep (s t : State) : Prop where
  rest : t = { s with mem := t.mem, crcState := t.crcState, res0 := t.res0, res1 := t.res1,
                      result := t.result }
  memory : t.MemoryOk
  flash : ∀ a, s.par.flashBase ≤ a → a < s.par.flashEnd → t.mem.get a = s.mem.get a

theorem PureStep.inv {s t : State} (h : PureStep s t) (hs : s.Inv) : t.Inv := by
  obtain ⟨hw, hirq, -, hrest⟩ := hs
  have hm := h.memory
  have e := h.rest
  rw [e] at hm ⊢
  exact ⟨hw, hirq, hm, hrest⟩

theorem PureStep.refl {s : State} (h : s.MemoryOk) : PureStep s s := ⟨rfl, h, fun _ _ _ => rfl⟩

/-- Writing registers only. -/
theorem PureStep.registers {s : State} (h : s.MemoryOk) (crc r0 r1 result : Word) :
    PureStep s { s with crcState := crc, res0 := r0, res1 := r1, result := result } :=
  ⟨rfl, h, fun _ _ _ => rfl⟩

/-- Writing a span of RAM and registers. -/
theorem PureStep.ram {s : State} (hs : s.Sane) {a n : Nat} {l : List Byte} (hr : inRam s.par a n = true)
    (hl : l.length ≤ n) (r0 r1 : Word) :
    PureStep s { s with mem := s.mem.store a l, res0 := r0, res1 := r1 } :=
  ⟨rfl, State.memoryOk_store_ram hs.memory hr hl,
    fun _ hlo hhi => store_ram_flash hs.sound hs.memory.1 hr hl hlo hhi⟩

theorem PureStep.finish {s t : State} (h : PureStep s t) (c : Code) : PureStep s (t.finish c) :=
  ⟨congrArg (fun u : State => u.finish c) h.rest, h.memory, h.flash⟩

/-- The body of a class P command: no flash call, so power is not lost in it. -/
abbrev RunsPure (body : Engine Code) (s : State) : Prop :=
  After body s (fun _ t => PureStep s t) fun _ => False

/-- The outcome of a class P command. -/
def PureOutcome (s : State) (o : Host.Outcome State Fault Refusal) : Prop := ∃ t, o = .next t ∧ PureStep s t

theorem runCommand_pure {body : Engine Code} {s : State} (hs : s.Sane)
    (h : s.dstate ≠ .check → s.dstate ≠ .fault → RunsPure body s) :
    PureOutcome s (runCommand .pure body s) := by
  cases hc : refusalCode .pure s.dstate with
  | some c => exact ⟨_, runCommand_refused hc, (PureStep.registers hs.memory _ _ _ _).finish c⟩
  | none =>
    obtain ⟨h1, h2⟩ := accepted_pure hc
    obtain ⟨c, t, hb, ht⟩ := (h h1 h2).ok
    exact ⟨_, runCommand_ok hc hb, ht.finish c⟩

theorem PureOutcome.keepsInv {s : State} {o : Host.Outcome State Fault Refusal} (h : PureOutcome s o)
    (hs : s.Inv) : KeepsInv o := by
  obtain ⟨t, rfl, ht⟩ := h
  exact ht.inv hs

theorem raise_pure {s : State} (hs : s.Sane) (c : Code) : RunsPure (raise c) s :=
  PureStep.refl hs.memory

theorem after_requireValid {body : Engine Code} {s : State} {Q : Code → State → Prop} {L : State → Prop}
    (hno : Q .eCfgInvalid s) (h : s.cfgValid = true → After body s Q L) : After (requireValid body) s Q L := by
  rw [requireValid, after_bind, after_getState, after_ite]
  split
  · exact h ‹_›
  · exact hno

theorem execCrcInit_pure {s : State} (hs : s.Sane) : PureOutcome s (execCrcInit s) :=
  runCommand_pure hs fun _ _ => PureStep.registers hs.memory _ _ _ _

theorem execCrcUpdate_pure {s : State} (hs : s.Sane) : PureOutcome s (execCrcUpdate s) :=
  runCommand_pure hs fun _ _ => by
    rw [RunsPure, after_bind, after_getState, after_ite]
    split
    · exact PureStep.registers hs.memory _ _ _ _
    · exact raise_pure hs _

theorem execCrcUpdateByte_pure {s : State} (hs : s.Sane) (b : Byte) : PureOutcome s (execCrcUpdateByte b s) :=
  runCommand_pure hs fun _ _ => PureStep.registers hs.memory _ _ _ _

theorem execCrcFinal_pure {s : State} (hs : s.Sane) : PureOutcome s (execCrcFinal s) :=
  runCommand_pure hs fun _ _ => PureStep.registers hs.memory _ _ _ _

theorem execCrcCompute_pure {s : State} (hs : s.Sane) : PureOutcome s (execCrcCompute s) :=
  runCommand_pure hs fun _ _ => by
    rw [RunsPure, after_bind, after_getState, after_ite]
    split
    · exact PureStep.registers hs.memory _ _ _ _
    · exact raise_pure hs _

/-- Writing an output list that fits its RAM buffer (42_codec.md R196). -/
theorem emit_pure {s : State} (hs : s.Sane) (hspan : codecSpansOk s = true) (out : List Byte)
    (res1 : State → Word) : RunsPure (emit out res1) s := by
  rw [codecSpansOk, Bool.and_eq_true] at hspan
  obtain ⟨-, hdst⟩ := hspan
  rw [emit, RunsPure, after_bind, after_getState, after_ite]
  split
  · exact raise_pure hs _
  · next hfit => exact PureStep.ram hs hdst (Nat.not_lt.1 hfit) _ _

theorem execEscape_pure {s : State} (hs : s.Sane) : PureOutcome s (execEscape s) :=
  runCommand_pure hs fun _ _ => by
    rw [RunsPure, after_bind, after_getState, after_ite]
    split
    · exact emit_pure hs ‹_› _ _
    · exact raise_pure hs _

theorem execUnescape_pure {s : State} (hs : s.Sane) : PureOutcome s (execUnescape s) :=
  runCommand_pure hs fun _ _ => by
    rw [RunsPure, after_bind, after_getState, after_ite]
    split
    · cases unescape s.par.escMode (s.mem.read s.operand0 s.operand1) with
      | anomaly i => exact PureStep.registers hs.memory _ _ _ _
      | ok out => exact emit_pure hs ‹_› _ _
    · exact raise_pure hs _

theorem execFrameBuild_pure {s : State} (hs : s.Sane) (v r sd : Byte) :
    PureOutcome s (execFrameBuild v r sd s) :=
  runCommand_pure hs fun _ _ => by
    rw [RunsPure, after_bind, after_getState, after_ite]
    split
    · exact raise_pure hs _
    · rw [after_ite]
      split
      · exact emit_pure hs ‹_› _ _
      · exact raise_pure hs _

theorem execSessProgress_pure {s : State} (hs : s.Sane) : PureOutcome s (execSessProgress s) :=
  runCommand_pure hs fun _ _ => PureStep.registers hs.memory _ _ _ _

theorem execFlRead_pure {s : State} (hs : s.Sane) : PureOutcome s (execFlRead s) :=
  runCommand_pure hs fun _ _ => by
    rw [RunsPure, after_bind, after_getState, after_ite]
    split
    · next hspan =>
      rw [Bool.and_eq_true] at hspan
      obtain ⟨-, hdst⟩ := hspan
      exact PureStep.ram hs hdst (Memory.read_length _ _ _).le _ _
    · exact raise_pure hs _

theorem execImgCrc_pure {s : State} (hs : s.Sane) : PureOutcome s (execImgCrc s) :=
  runCommand_pure hs fun _ _ => by
    rw [RunsPure, after_bind, after_getState, after_ite]
    split
    · exact raise_pure hs _
    · exact PureStep.registers hs.memory _ _ _ _

theorem execImgVerify_pure {s : State} (hs : s.Inv) (role : Role) : PureOutcome s (execImgVerify role s) :=
  runCommand_pure hs.sane fun h1 h2 => by
    rw [RunsPure, after_bind, after_getState, after_ite]
    split
    · exact raise_pure hs.sane _
    · next hrole =>
      refine after_requireValid (.refl hs.sane.memory) fun _ => ?_
      rw [after_bind]
      exact after_verify (hs.hasRecord h1 h2) (by simpa using hrole) fun v =>
        PureStep.registers hs.sane.memory _ _ _ _

theorem execUpdTarget_pure {s : State} (hs : s.Inv) : PureOutcome s (execUpdTarget s) :=
  runCommand_pure hs.sane fun h1 h2 => by
    refine after_requireValid (.refl hs.sane.memory) fun _ => ?_
    rw [after_bind]
    exact after_updTarget (hs.hasRecord h1 h2) fun r _ => PureStep.registers hs.sane.memory _ _ _ _

theorem execCfgGet_pure {s : State} (hs : s.Inv) : PureOutcome s (execCfgGet s) :=
  runCommand_pure hs.sane fun h1 h2 => by
    rw [RunsPure, after_bind, after_getState, after_ite]
    split
    · next hspan =>
      obtain ⟨l, hl, hlen⟩ := serializeCache_run (hs.hasRecord h1 h2)
      rw [after_bind]
      exact .of_ok hl (PureStep.ram hs.sane hspan hlen.le _ _)
    · exact raise_pure hs.sane _

/-- Every class P command, from every state that meets the invariant (30_encoding.md R127). -/
theorem exec_pure {s : State} (hs : s.Inv) {i : Instr} (hi : classOf i = .pure) :
    PureOutcome s (exec i s) := by
  have h := hs.sane
  cases i with
  | crcInit => exact execCrcInit_pure h
  | crcUpdate => exact execCrcUpdate_pure h
  | crcUpdateByte b => exact execCrcUpdateByte_pure h b
  | crcFinal => exact execCrcFinal_pure h
  | crcCompute => exact execCrcCompute_pure h
  | escape => exact execEscape_pure h
  | unescape => exact execUnescape_pure h
  | frameBuild v r sd => exact execFrameBuild_pure h v r sd
  | sessProgress => exact execSessProgress_pure h
  | flRead => exact execFlRead_pure h
  | imgCrc => exact execImgCrc_pure h
  | imgVerify role => exact execImgVerify_pure hs role
  | updTarget => exact execUpdTarget_pure hs
  | cfgGet => exact execCfgGet_pure hs
  | _ => cases hi

/-! ### Commands that write flash or the record -/

/-- A command's body that ends with a code after a transition of the boot unit. -/
theorem Transition.ends {α : Type} {x : Engine α} {f : α → Code} {s : State} (hx : Transition x s)
    (hs : s.Inv) (hd : s.dstate ≠ .update) :
    After (do let r ← x; raise (f r)) s (fun _ t => t.Inv) State.Inv := by
  rw [after_bind]
  exact hx.mono (fun _ _ ⟨hb, hr⟩ => hb.inv hs hd hr.recordOk) fun _ h => h

theorem after_flashCode {r : Bool} {s : State} {L : State → Prop} (h : s.Inv) :
    After (flashCode r) s (fun _ t => t.Inv) L := by
  rw [flashCode, after_ite]
  split <;> exact h

/-- A command's body that ends with a code after flash calls. -/
theorem flashed_ends {x : Engine Bool} {s : State} (hx : After x s (fun _ t => Flashed s t) State.Inv)
    (hs : s.Inv) : After (do let r ← x; flashCode r) s (fun _ t => t.Inv) State.Inv := by
  rw [after_bind]
  exact hx.mono (fun _ _ h => after_flashCode (h.inv hs)) fun _ h => h

theorem managed_iff {p : Config} {lo hi : Nat} : managed p lo hi = true ↔ p.wrLo ≤ lo ∧ hi ≤ p.flashEnd := by
  rw [managed, Bool.and_eq_true, decide_eq_true_eq, decide_eq_true_eq]
  rfl

theorem execFlWrite_keeps {s : State} (hs : s.Inv) : KeepsInv (execFlWrite s) :=
  runCommand_keeps hs fun _ => by
    rw [after_bind, after_getState, after_ite]
    split
    · exact hs
    · rw [after_ite]
      split
      · exact hs
      · next hal =>
        rw [after_ite]
        split
        · exact hs
        · next hman =>
          rw [Bool.not_eq_true', Bool.not_eq_false, managed_iff] at hman
          rw [Bool.not_eq_true', Bool.not_eq_false] at hal
          obtain ⟨hlo, hhi⟩ := hman
          have hbase := (wrLo_ge hs.sane.sound).trans hlo
          refine flashed_ends (writeFlash_flashed hs.sane hbase (fun _ => granuleAligned_dvd hal hbase)
            fun _ => ?_) hs
          rw [Memory.halfBuffer, halves_length, Memory.read_length]
          omega

theorem execFlWriteNocheck_keeps {s : State} (hs : s.Inv) : KeepsInv (execFlWriteNocheck s) :=
  runCommand_keeps hs fun _ => by
    rw [after_bind, after_getState, after_ite]
    split
    · exact hs
    · rw [after_ite]
      split
      · exact hs
      · rw [after_ite]
        split
        · exact hs
        · next hman =>
          rw [Bool.not_eq_true', Bool.not_eq_false, managed_iff] at hman
          obtain ⟨hlo, hhi⟩ := hman
          refine flashed_ends (noCheck_flashed hs.sane ((wrLo_ge hs.sane.sound).trans hlo) ?_) hs
          rw [Memory.halfBuffer, halves_length, Memory.read_length, Nat.mul_div_cancel_left _ (by decide),
            Nat.mul_comm _ s.par.granule]
          exact hhi

theorem execFlEraseSector_keeps {s : State} (hs : s.Inv) : KeepsInv (execFlEraseSector s) :=
  runCommand_keeps hs fun _ => by
    rw [after_bind, after_getState, after_ite]
    split
    · exact hs
    · next hsec =>
      rw [after_ite]
      split
      · exact hs
      · exact flashed_ends (flashErase_flashed hs.sane (Nat.not_le.1 hsec)) hs

theorem execCfgRead_keeps {s : State} (hs : s.Inv) : KeepsInv (execCfgRead s) :=
  runCommand_keeps hs fun hacc => by
    have hd := accepted_write hacc
    have hinv : s.loadRecord.Inv := (loadRecord_booted hs.sane.memory).inv hs (by rw [hd]; decide)
      ⟨fun _ _ => loadRecord_hasRecord s, fun h => (loadRecord_recordValid s).trans h, fun e => by
        rw [State.loadRecord_dstate, hd] at e
        cases e⟩
    rw [after_bind]
    exact .of_ok (cfgLoad_run s) hinv

theorem execCfgWrite_keeps {s : State} (hs : s.Inv) : KeepsInv (execCfgWrite s) :=
  runCommand_keeps hs fun hacc => after_requireValid hs fun hv =>
    (cfgPersist_transition (hs.ready hv)).ends hs (by rw [accepted_write hacc]; decide)

theorem execCfgInit_keeps {s : State} (hs : s.Inv) : KeepsInv (execCfgInit s) :=
  runCommand_keeps hs fun hacc =>
    (cfgInit_ready hs.sane).ends hs (by rw [accepted_write hacc]; decide)

theorem State.Inv.setSelection {s : State} (hs : s.Inv) (sel : Option Role) : (s.setSelection sel).Inv := by
  cases sel <;> exact hs

theorem execBootSelect_keeps {s : State} (hs : s.Inv) : KeepsInv (execBootSelect s) :=
  runCommand_keeps hs fun hacc => after_requireValid hs fun hv => by
    rw [after_bind]
    refine (bootSelect_ready (hs.ready hv)).mono (fun ⟨sel, pf⟩ t ⟨hb, hr⟩ => ?_) fun _ h => h
    exact (hb.inv hs (by rw [accepted_write hacc]; decide) hr.recordOk).setSelection sel

theorem execUpdStart_keeps {s : State} (hs : s.Inv) (role : Role) : KeepsInv (execUpdStart role s) :=
  runCommand_keeps hs fun hacc => by
    rw [after_bind, after_getState, after_ite]
    split
    · exact hs
    · refine after_requireValid hs fun hv => ?_
      have hr := hs.ready hv
      rw [after_bind]
      refine after_updTarget hr.hasRecord fun t _ => ?_
      rw [after_ite]
      split
      · exact hs
      · refine Transition.ends (x := updStart) ?_ hs (by rw [accepted_write hacc]; decide)
        exact (updStart_ready hr).mono (fun _ _ ⟨hb, hrt, _⟩ => ⟨hb, hrt⟩) fun _ h => h

theorem execUpdComplete_keeps {s : State} (hs : s.Inv) (role : Role) : KeepsInv (execUpdComplete role s) :=
  runCommand_keeps hs fun hacc => by
    have hd := accepted_write hacc
    rw [after_bind, after_getState, after_ite]
    split
    · exact hs
    · next hargs =>
      have hsize : s.arg0.toNat ≤ s.par.regionSize :=
        Nat.not_lt.1 fun hlt => hargs (.inr (.inr hlt))
      rw [after_bind]
      refine after_updTarget (hs.hasRecord (by rw [hd]; decide) (by rw [hd]; decide)) fun t _ => ?_
      rw [after_ite]
      split
      · exact hs
      · exact after_requireValid hs fun hv =>
          (updComplete_ready (hs.ready hv) role hsize s.arg1).ends hs (by rw [hd]; decide)

theorem execUpdFailed_keeps {s : State} (hs : s.Inv) : KeepsInv (execUpdFailed s) :=
  runCommand_keeps hs fun hacc => after_requireValid hs fun hv =>
    (updFailed_ready (hs.ready hv)).ends hs (by rw [accepted_write hacc]; decide)

/-- A class A command whose body needs the record reloaded (45_config.md R316, R317). -/
theorem reload_keeps {body : Engine Code} {s : State} (hs : s.Inv)
    (h : ∀ t, t.Ready → Transition body t) :
    KeepsInv (runCommand .app (do if ← cfgLoad then body else raise .eCfgInvalid) s) :=
  runCommand_keeps hs fun hacc => by
    have hd : s.dstate ≠ .update ∧ s.dstate ≠ .jump := by
      rcases accepted_app hacc with e | e <;> rw [e] <;> decide
    have hb := loadRecord_booted hs.sane.memory
    rw [after_bind]
    refine .of_ok (cfgLoad_run s) ?_
    rw [after_ite]
    split
    · next hv =>
      exact (h _ (loadRecord_ready hs.sane hv)).mono
        (fun _ t ⟨kb, kr⟩ => (hb.trans kb).inv hs hd.1 kr.recordOk) fun _ h => h
    · exact hb.inv hs hd.1 ⟨fun _ _ => loadRecord_hasRecord s,
        fun h => (loadRecord_recordValid s).trans h, fun e =>
        absurd ((State.loadRecord_dstate s).symm.trans e) hd.2⟩

theorem execBootConfirm_keeps {s : State} (hs : s.Inv) : KeepsInv (execBootConfirm s) :=
  reload_keeps hs fun t ht => by
    rw [Transition, after_bind, after_getState]
    cases htop : t.par.topology
    · obtain ⟨c, hc, hv⟩ := ht.ab htop
      obtain ⟨-, ha, hu, -, hr, -, -⟩ := validAb_iff.1 hv
      dsimp only
      rw [after_bind, abCache, after_valueOf hc, after_ite]
      split
      · simp only [after_bind]
        refine after_changeAb ht htop hc ?_ fun _ u kb kr _ => ⟨kb, kr⟩
        exact flags_valid hv ha hu (byte_zero_le _) hr
      · exact ⟨.refl ht.memory, ht⟩
    · exact ⟨.refl ht.memory, ht⟩

theorem execRequestUpdate_keeps {s : State} (hs : s.Inv) : KeepsInv (execRequestUpdate s) :=
  reload_keeps hs fun t ht => by
    rw [Transition, after_bind, after_getState]
    cases htop : t.par.topology
    · obtain ⟨c, hc, hv⟩ := ht.ab htop
      obtain ⟨-, ha, hu, hb, -, -, -⟩ := validAb_iff.1 hv
      simp only [after_bind]
      refine after_changeAb ht htop hc ?_ fun _ u kb kr _ => ⟨kb, kr⟩
      exact flags_valid hv ha hu hb byte_one_le
    · obtain ⟨c, hc, hv⟩ := ht.sr htop
      simp only [after_bind]
      refine after_changeSr ht htop hc ?_ fun _ u kb kr => ⟨kb, kr⟩
      exact validSr_iff.2 (validSr_iff.1 hv)

/-! ### Commands of the dispatcher and of the protocol unit -/

theorem execRunApp_keeps {s : State} (hs : s.Inv) : KeepsInv (execRunApp s) :=
  runCommand_keeps hs fun hacc => after_requireValid hs fun hv => by
    have hd := accepted_write hacc
    rw [after_bind]
    refine (bootSelect_ready (hs.ready hv)).mono (fun ⟨sel, pf⟩ t ⟨hb, hr⟩ => ?_) fun _ h => h
    have hinv := hb.inv hs (by rw [hd]; decide) hr.recordOk
    cases sel with
    | some r => exact handOffTo_inv hinv hr (by rw [hb.dstate, hd]; decide) _
    | none => exact hinv

theorem execStartUpdate_keeps {s : State} (hs : s.Inv) : KeepsInv (execStartUpdate s) :=
  runCommand_keeps hs fun hacc => after_requireValid hs fun hv => by
    rw [after_bind]
    exact (runFlow_inv hs (hs.ready hv) (.inr (accepted_write hacc)) .noImage).mono (fun _ _ h => h)
      fun _ h => h

theorem execErase_keeps {s : State} (hs : s.Inv) : KeepsInv (execErase s) :=
  runCommand_keeps hs fun _ => after_requireValid hs fun hv => by
    rw [after_bind]
    refine after_updTarget (hs.ready hv).hasRecord fun r _ => ?_
    rw [after_bind, after_getState, after_bind]
    exact (eraseRegion_flashed hs.sane r).mono (fun _ _ h => h.inv hs) fun _ h => h

theorem execSessBegin_keeps {s : State} (hs : s.Inv) : KeepsInv (execSessBegin s) :=
  runCommand_keeps hs fun hacc => by
    have hd := accepted_sessBegin hacc
    rw [after_bind, after_getState, after_ite]
    split
    · exact hs
    · next hord =>
      rw [after_ite]
      split
      · exact hs
      · next hal =>
        rw [after_ite]
        split
        · exact hs
        · next hman =>
          rw [Bool.not_eq_true', Bool.not_eq_false] at hal hman
          obtain ⟨hlo, hhi⟩ := managed_iff.1 hman
          rw [after_bind]
          cases ha : s.armAnswer
          · exact .of_ok (startSession_refused ha _ _ _ _) hs
          · refine .of_ok (startSession_ok ha _ _ _ _) ?_
            have h0 : BitVec.ofNat 32 s.operand0 = s.arg0 := by simp [State.operand0]
            have h1 : BitVec.ofNat 32 s.operand1 = s.arg1 := by simp [State.operand1]
            rw [h0, h1]
            exact sessionOpened_inv hs (hs.hasRecord (by rw [hd]; decide) (by rw [hd]; decide)) (.inr hd) hal
              hlo (Nat.not_lt.1 hord) hhi nofun nofun

theorem execSessPoll_keeps {s : State} (hs : s.Inv) : KeepsInv (execSessPoll s) :=
  runCommand_keeps hs fun hacc => by
    rw [after_bind]
    refine (poll_inv hs (accepted_sessPoll hacc)).mono (fun r t ht => ?_) fun _ h => h
    cases r <;> exact ht

/-- Every command keeps the invariant and reads no element that holds no value. -/
theorem exec_keeps {s : State} (hs : s.Inv) (i : Instr) : KeepsInv (exec i s) := by
  cases i with
  | sessBegin => exact execSessBegin_keeps hs
  | sessPoll => exact execSessPoll_keeps hs
  | flWrite => exact execFlWrite_keeps hs
  | flWriteNocheck => exact execFlWriteNocheck_keeps hs
  | flEraseSector => exact execFlEraseSector_keeps hs
  | cfgRead => exact execCfgRead_keeps hs
  | cfgWrite => exact execCfgWrite_keeps hs
  | cfgInit => exact execCfgInit_keeps hs
  | bootSelect => exact execBootSelect_keeps hs
  | updStart role => exact execUpdStart_keeps hs role
  | updComplete role => exact execUpdComplete_keeps hs role
  | updFailed => exact execUpdFailed_keeps hs
  | bootConfirm => exact execBootConfirm_keeps hs
  | requestUpdate => exact execRequestUpdate_keeps hs
  | runApp => exact execRunApp_keeps hs
  | startUpdate => exact execStartUpdate_keeps hs
  | erase => exact execErase_keeps hs
  | _ => exact (exec_pure hs rfl).keepsInv hs

end Sys2Proof.Machine
end

section
/-! SUPPORT. Every step keeps the invariant and reads no element that holds no value; what a step refuses. -/

namespace Sys2Proof.Machine

-- Elaborated one after another: threads that wait on the kernel use up the memory limit.
set_option Elab.async false

/-! ### The inputs of the environment -/

theorem State.Inv.withInputs {s : State} (h : s.Inv) (l : List Input) : (s.withInputs l).Inv := h

theorem State.Inv.writeRegister {s : State} (h : s.Inv) (off : Nat) (v : Word) :
    (s.writeRegister off v).Inv := by
  unfold State.writeRegister
  split <;> exact h

theorem State.Inv.fillRam {s : State} (h : s.Inv) (addr : Word) (bytes : List Byte) :
    (s.fillRam addr bytes).Inv := by
  unfold State.fillRam
  split
  · next hr =>
    obtain ⟨hw, hirq, hm, hrest⟩ := h
    exact ⟨hw, hirq, State.memoryOk_store_ram hm hr le_rfl, hrest⟩
  · exact h

/-- Bytes on the line belong to an armed channel (60_exceptions.md R384). -/
theorem State.Inv.receiveLine {s : State} (h : s.Inv) (bytes : List Byte) : (s.receiveLine bytes).Inv := by
  unfold State.receiveLine
  split
  · next ha =>
    obtain ⟨hw, hirq, hm, hrec, hsess, hflow, hpar, ⟨hopen, hone, hbuf, hne, -⟩, hho⟩ := h
    exact ⟨hw, hirq, hm, hrec, hsess, hflow, hpar,
      ⟨hopen, hone, hbuf, hne, fun e => absurd (ha.symm.trans e) (by decide)⟩, hho⟩
  · exact h

/-- A chunk disarms the channel and makes it ready, with 1 to `RX_CAP` bytes (60_exceptions.md R384). -/
theorem State.Inv.deliverChunk {s : State} (h : s.Inv) (m : Nat) : (s.deliverChunk m).Inv := by
  unfold State.deliverChunk
  split
  · next hc =>
    simp only [State.canDeliver, Bool.and_eq_true, decide_eq_true_eq] at hc
    obtain ⟨⟨⟨⟨harmed, -⟩, -⟩, hpos, hcap⟩, hline⟩ := hc
    obtain ⟨hw, hirq, hm, hrec, hsess, hflow, hpar, ⟨hopen, -⟩, hho⟩ := h
    refine ⟨hw, hirq, hm, hrec, hsess, hflow, hpar,
      ⟨⟨fun _ => hopen.1 (.inl harmed), fun _ => .inr rfl⟩, nofun, ?_, fun _ => ?_, fun _ => rfl⟩, hho⟩
    · exact (List.length_take_le m _).trans hcap
    · intro e
      have := congrArg List.length e
      simp only [List.length_take, List.length_nil] at this
      omega
  · exact h

/-- FAULT closes the session and stops the channel (46_dispatch.md R360). -/
theorem State.Inv.takeFatal {s : State} (h : s.Inv) : s.takeFatal.Inv := by
  unfold State.takeFatal
  split
  · exact h
  · obtain ⟨hw, hirq, hm, ⟨-, hval, -⟩, -, -, hpar, ⟨-, -, hbuf, -, -⟩, -⟩ := h
    refine ⟨hw, hirq, hm, ⟨fun _ e => absurd rfl e, hval, nofun⟩, ⟨⟨nofun, nofun⟩, nofun⟩, nofun, hpar,
      ⟨⟨?_, nofun⟩, nofun, hbuf, nofun, fun _ => rfl⟩, nofun, fun _ => .inr rfl⟩
    simp [RxChannel.stop]

/-! ### One step -/

theorem foregroundStep_keeps {s : State} (hs : s.Inv) : KeepsInv (foregroundStep s) := by
  unfold foregroundStep
  cases hd : s.dstate
  case check => exact settle_keeps (check_inv hs hd)
  case jump => exact settle_keeps (jump_inv hs hd)
  case update =>
    obtain ⟨k, hk⟩ := Option.isSome_iff_exists.1 (hs.inSession hd).kind
    cases k
    · simp only [hk]
      refine settle_keeps ?_
      rw [after_bind]
      exact (poll_inv hs hd).mono (fun _ _ h => h) fun _ h => h
    · simp only [hk]
      exact hs
  case noImage => exact hs
  case handedOff => exact hs
  case fault => exact hs

theorem issue_keeps {s : State} (hs : s.Inv) (w : Word) : KeepsInv (issue w s) := by
  unfold issue
  split
  · exact exec_keeps hs _
  · exact hs

theorem portWrite_keeps {s : State} (hs : s.Inv) (addr : Word) (size : Nat) (v : Word) :
    KeepsInv (portWrite addr size v s) := by
  unfold portWrite
  dsimp only
  split
  · split
    · exact issue_keeps hs v
    · exact hs.writeRegister _ v
  · trivial

theorem portRead_keeps {s : State} (hs : s.Inv) (addr : Word) (size : Nat) :
    KeepsInv (portRead addr size s) := by
  unfold portRead
  dsimp only
  split
  · exact hs
  · trivial

theorem takeInput_keeps {s : State} (hs : s.Inv) (i : Input) : KeepsInv (takeInput i s) := by
  cases i with
  | foreground => exact foregroundStep_keeps hs
  | portWrite addr size v => exact portWrite_keeps hs addr size v
  | portRead addr size => exact portRead_keeps hs addr size
  | ramWrite addr bytes => exact hs.fillRam addr bytes
  | hostSend bytes => exact hs.receiveLine bytes
  | deliver m => exact hs.deliverChunk m
  | clockAdvance ticks => exact hs
  | fatalIn => exact hs.takeFatal
  | reset ram => exact State.afterReset_inv hs.sane.wellFormed hs.sane.memory ram

theorem step_keeps {s : State} (hs : s.Inv) : KeepsInv (step s) := by
  unfold step
  split
  · exact foregroundStep_keeps hs
  · exact takeInput_keeps (hs.withInputs _) _

/-! ### What a step refuses -/

theorem portAligned_iff {off size : Nat} : portAligned off size = true ↔ size = 4 ∧ off % 4 = 0 := by
  rw [portAligned, Bool.and_eq_true, beq_iff_eq, beq_iff_eq]

theorem portAligned_false_iff {off size : Nat} :
    ¬ portAligned off size = true ↔ size ≠ 4 ∨ off % 4 ≠ 0 := by
  rw [portAligned_iff]
  omega

theorem foregroundStep_not_refused (s : State) (r : Refusal) : foregroundStep s ≠ .refused r := by
  have hsettle : ∀ x, settle x ≠ .refused r := fun x => by unfold settle; split <;> nofun
  unfold foregroundStep
  split
  · exact hsettle _
  · exact hsettle _
  · split
    · exact hsettle _
    · nofun
    · nofun
  · nofun
  · nofun
  · nofun

theorem issue_not_refused (w : Word) (s : State) (r : Refusal) : issue w s ≠ .refused r := by
  unfold issue
  split
  · exact exec_not_refused _ s r
  · nofun

theorem portWrite_refused {addr v : Word} {size : Nat} {s : State} {r : Refusal}
    (h : portWrite addr size v s = .refused r) :
    r = .portAccess ∧ (size ≠ 4 ∨ s.portOffset addr % 4 ≠ 0) := by
  unfold portWrite at h
  dsimp only at h
  split at h
  · split at h
    · exact absurd h (issue_not_refused v s r)
    · cases h
  · next hal =>
    cases h
    exact ⟨rfl, portAligned_false_iff.1 hal⟩

theorem portRead_refused {addr : Word} {size : Nat} {s : State} {r : Refusal}
    (h : portRead addr size s = .refused r) :
    r = .portAccess ∧ (size ≠ 4 ∨ s.portOffset addr % 4 ≠ 0) := by
  unfold portRead at h
  dsimp only at h
  split at h
  · cases h
  · next hal =>
    cases h
    exact ⟨rfl, portAligned_false_iff.1 hal⟩

/-- The only step refused is a register-window access that is not an aligned 32-bit one (10_state.md R31). -/
theorem step_refused {s : State} {r : Refusal} (h : step s = .refused r) :
    r = .portAccess ∧ ∃ (addr : Word) (size : Nat) (rest : List Input),
      (size ≠ 4 ∨ (addr - s.par.blkBase).toNat % 4 ≠ 0)
        ∧ (s.env.inputs = .portRead addr size :: rest
            ∨ ∃ v, s.env.inputs = .portWrite addr size v :: rest) := by
  unfold step at h
  split at h
  · exact absurd h (foregroundStep_not_refused s r)
  · next i rest hi =>
    cases i with
    | foreground => exact absurd h (foregroundStep_not_refused _ r)
    | portWrite addr size v =>
      obtain ⟨hr, hal⟩ := portWrite_refused h
      exact ⟨hr, addr, size, rest, hal, .inr ⟨v, hi⟩⟩
    | portRead addr size =>
      obtain ⟨hr, hal⟩ := portRead_refused h
      exact ⟨hr, addr, size, rest, hal, .inl hi⟩
    | ramWrite => cases h
    | hostSend => cases h
    | deliver => cases h
    | clockAdvance => cases h
    | fatalIn => cases h
    | reset => cases h

/-! ### Where an element that holds no value would be read -/

/-- WAIT_END reads `body[0..len_acc)`, and faults where it is longer than what was gathered (10_state.md R48, R55). -/
theorem feed_shortBody {s : State} (hp : s.parser.pstate = .waitEnd)
    (h : s.parser.body.length < s.parser.lenAcc.toNat) :
    feed flagByte s = .error (.fault (.noValue .frameBody)) s := by
  have hesc : escapedState s.par.escMode s.parser.pstate = false := by
    rw [hp]; cases s.par.escMode <;> rfl
  rw [feed, Engine.getState_bind, hesc, if_neg (by decide), field, Engine.getState_bind, hp]
  show fieldEnd flagByte s = _
  rw [fieldEnd, Engine.getState_bind, if_pos rfl]
  exact Engine.bind_run_error (wholeBody_fault h)

/-- UPD_TARGET reads the cache, and faults where it was never loaded (10_state.md R44, R55). -/
theorem updTarget_noCache {s : State} (hacc : s.AcceptsPure) (hv : s.cfgValid = true)
    (ht : s.par.topology = .ab) (hc : s.cacheAb = none) :
    exec .updTarget s = .fault (.noValue .configCache) := by
  have hread : abCache s = .error (.fault (.noValue .configCache)) s := by
    rw [abCache, valueOf, hc]
  have hupd : updTarget s = .error (.fault (.noValue .configCache)) s := by
    rw [updTarget, Engine.getState_bind, ht]
    exact Engine.bind_run_error hread
  show execUpdTarget s = _
  rw [execUpdTarget, runCommand_accepted (refusalCode_pure hacc), requireValid, Engine.getState_bind,
    if_pos hv, Engine.bind_run_error hupd]

/-! ### The statements -/

/-- Settles O54: the first state is the initial state of the reference parameters, which are well formed. -/
theorem invariantAtReset : Obligations.InvariantAtReset :=
  State.initial_inv Config.reference_wellFormed ⟨Memory.wf_nil, nofun⟩

/-- Settles O55, from `step_keeps`: the foreground step and the step that takes an input keep the invariant. -/
theorem invariantKept : Obligations.InvariantKept := by
  intro s t hs h
  have hk := step_keeps hs
  rw [h] at hk
  exact hk

/-- Settles O56, from `step_keeps` and `step_refused`; the two added clauses run the model to the fault. -/
theorem noStepFaults : Obligations.NoStepFaults := by
  refine ⟨fun s hs => ⟨fun f h => ?_, fun r h => step_refused h⟩, fun s hp h => feed_shortBody hp h,
    fun s hacc hv ht hc => updTarget_noCache hacc hv ht hc⟩
  have hk := step_keeps hs
  rw [h] at hk
  exact hk

end Sys2Proof.Machine
end

section
/-! SUPPORT. What no command writes, from any state at all: the ARG registers and, but for three CRC commands,
CRC_STATE (10_state.md R32, R36); a power loss inside a command is a reset (20_memory.md R104). -/

namespace Sys2Proof.Machine

-- Elaborated one after another: threads that wait on the kernel use up the memory limit.
set_option Elab.async false

/-- ARG0 to ARG3 and CRC_STATE, as one value. -/
def State.operands (s : State) : Word × Word × Word × Word × Word :=
  (s.arg0, s.arg1, s.arg2, s.arg3, s.crcState)

/-- From every state, `x` leaves the operand registers and CRC_STATE alone, or loses power and leaves the reset
values. (Nothing is said where `x` faults: `NoStepFaults` says when it does not.) -/
def Spares {α : Type} (x : Engine α) : Prop :=
  ∀ s, match x s with
    | .ok _ t => t.operands = s.operands
    | .error .powerLost t => t.AtReset
    | .error (.fault _) _ => True

namespace Spares

variable {α β : Type}

/-! ### The primitives -/

theorem pure (a : α) : Spares (pure a : Engine α) := fun _ => rfl

theorem raise (c : Code) : Spares (raise c) := fun _ => rfl

theorem getState : Spares getState := fun _ => rfl

theorem update {f : State → State} (h : ∀ s, (f s).operands = s.operands) : Spares (update f) := h

theorem bind {x : Engine α} {f : α → Engine β} (hx : Spares x) (hf : ∀ a, Spares (f a)) : Spares (x >>= f) := by
  intro s
  have h := hx s
  rw [Engine.bind_run]
  rcases hxs : x s with ⟨a, t⟩ | ⟨_ | g, t⟩ <;> rw [hxs] at h
  · have k := hf a t
    dsimp only at h ⊢
    rcases hft : f a t with ⟨b, u⟩ | ⟨_ | g, u⟩ <;> rw [hft] at k
    · exact k.trans h
    · exact k
    · trivial
  · exact h
  · trivial

theorem ite {c : Prop} [Decidable c] {x y : Engine α} (hx : Spares x) (hy : Spares y) :
    Spares (if c then x else y) := by
  split
  · exact hx
  · exact hy

theorem valueOf (e : Element) (v : State → Option α) : Spares (valueOf e v) := by
  intro s
  unfold Machine.valueOf
  cases v s
  · trivial
  · rfl

/-! ### The flash unit -/

theorem flashErase (sec : Nat) : Spares (flashErase sec) := by
  intro s
  cases ho : s.flashAnswer.outcome
  · rw [flashErase_ok ho]; rfl
  · rw [flashErase_fail ho]; rfl
  · rw [flashErase_lostBefore ho]; exact State.afterReset_atReset _ _
  · rw [flashErase_lostDuring ho]; exact State.afterReset_atReset _ _

theorem flashProgram (addr : Nat) (g : List Byte) : Spares (flashProgram addr g) := by
  intro s
  cases ho : s.flashAnswer.outcome
  · cases hp : programmed s.par.overNonErased (s.mem.read addr s.par.granule) g
    · rw [flashProgram_refused ho hp]; rfl
    · rw [flashProgram_ok ho hp]; rfl
  · rw [flashProgram_fail ho]; rfl
  · rw [flashProgram_lostBefore ho]; exact State.afterReset_atReset _ _
  · rw [flashProgram_lostDuring ho]; exact State.afterReset_atReset _ _

theorem programGranules (addr : Nat) (gs : List (List Byte)) : Spares (programGranules addr gs) := by
  induction gs generalizing addr with
  | nil => exact pure true
  | cons g gs ih => exact bind getState fun s => bind (flashProgram addr g) fun r => ite (ih _) (pure false)

theorem masked {op : Engine Bool} (h : Spares op) : Spares (masked op) :=
  bind (update fun _ => rfl) fun _ => bind h fun r => bind (update fun _ => rfl) fun _ => pure r

theorem noCheck (a : Nat) (hw : List Half) : Spares (noCheck a hw) :=
  bind getState fun _ => programGranules _ _

theorem eraseMergeProgram (sec off : Nat) (seg : List Half) : Spares (eraseMergeProgram sec off seg) :=
  masked <| bind (flashErase sec) fun _ =>
    ite (bind (update fun _ => rfl) fun _ => bind getState fun _ => programGranules _ _) (pure false)

theorem writeSector (sec off : Nat) (seg : List Half) : Spares (writeSector sec off seg) :=
  bind (update fun _ => rfl) fun _ => bind getState fun _ =>
    ite (eraseMergeProgram sec off seg) (masked (noCheck _ seg))

theorem writeLoop (turns a : Nat) (hw : List Half) : Spares (writeLoop turns a hw) := by
  induction turns generalizing a hw with
  | zero => exact pure true
  | succ turns ih =>
    exact ite (pure true) <| bind getState fun s => bind (writeSector _ _ _) fun r => ite (ih _ _) (pure false)

theorem writeFlash (a : Nat) (hw : List Half) : Spares (writeFlash a hw) := writeLoop _ a hw

theorem mergeWrite (c : Nat) (hws : List Half) : Spares (mergeWrite c hws) :=
  bind getState fun _ => writeFlash _ _

theorem eraseSectors (sec n : Nat) : Spares (eraseSectors sec n) := by
  induction n generalizing sec with
  | zero => exact pure true
  | succ n ih => exact bind (masked (flashErase sec)) fun r => ite (ih _) (pure false)

theorem eraseRegion (base size : Nat) : Spares (eraseRegion base size) :=
  bind getState fun _ => eraseSectors _ _

theorem flashCode (r : Bool) : Spares (flashCode r) := ite (raise _) (raise _)

/-! ### The boot unit -/

theorem abCache : Spares abCache := valueOf _ _

theorem srCache : Spares srCache := valueOf _ _

theorem updateAb (f : AbRecord → AbRecord) : Spares (updateAb f) :=
  bind abCache fun _ => update fun _ => rfl

theorem updateSr (f : SrRecord → SrRecord) : Spares (updateSr f) :=
  bind srCache fun _ => update fun _ => rfl

theorem serializeCache : Spares serializeCache := bind getState fun s => by
  cases s.par.topology
  · exact bind abCache fun _ => pure _
  · exact bind srCache fun _ => pure _

theorem cfgLoad : Spares cfgLoad :=
  bind (update fun s => by simp [State.operands]) fun _ => bind getState fun _ => pure _

theorem cfgPersist : Spares cfgPersist :=
  bind serializeCache fun _ => bind getState fun _ =>
    bind (masked <| bind (flashErase _) fun _ => ite (programGranules _ _) (pure false)) fun _ =>
      bind (update fun _ => rfl) fun _ => pure _

theorem probe : Spares probe := bind getState fun s => by
  cases s.par.topology
  · cases probeImage s.par s.mem s.par.aBase
    · exact pure ()
    · exact updateAb _
  · cases probeImage s.par s.mem s.par.runBase
    · exact pure ()
    · exact updateSr _

theorem cfgInit : Spares cfgInit :=
  bind (update fun s => by simp [State.operands]) fun _ =>
    bind getState fun _ => ite (bind probe fun _ => cfgPersist) cfgPersist

theorem recorded (r : Role) : Spares (recorded r) := by
  cases r
  · exact bind abCache fun _ => pure _
  · exact bind abCache fun _ => pure _
  · exact pure _
  · exact bind srCache fun _ => pure _

theorem verify (r : Role) : Spares (verify r) :=
  bind getState fun _ => bind (recorded r) fun _ => pure _

theorem crashRecovery : Spares crashRecovery := bind (updateAb _) fun _ => cfgPersist

theorem attemptBoot (cand : Role) (pf : Bool) : Spares (attemptBoot cand pf) :=
  bind (updateAb _) fun _ => bind cfgPersist fun _ => pure _

theorem selectVerified (pf : Bool) : Spares (selectVerified pf) :=
  bind abCache fun _ => bind (verify _) fun _ => ite (attemptBoot _ _) <|
    bind (verify _) fun _ => ite (attemptBoot _ _) (pure _)

theorem failOverAndSelect (limit : Nat) (pf : Bool) : Spares (failOverAndSelect limit pf) :=
  bind abCache fun _ => ite
    (bind (updateAb _) fun _ => bind cfgPersist fun _ => selectVerified _) (selectVerified _)

theorem bootSelectAb : Spares bootSelectAb := by
  rw [bootSelectAb_eq]
  exact bind getState fun _ => bind abCache fun _ =>
    ite (bind crashRecovery fun _ => failOverAndSelect _ _) (failOverAndSelect _ _)

theorem bootSelectSr : Spares bootSelectSr := bind (verify _) fun _ => ite (pure _) (pure _)

theorem bootSelect : Spares bootSelect := bind getState fun s => by
  cases s.par.topology
  · exact bootSelectAb
  · exact bootSelectSr

theorem updTarget : Spares updTarget := bind getState fun s => by
  cases s.par.topology
  · exact bind abCache fun _ => pure _
  · exact pure _

theorem updStart : Spares updStart := bind getState fun s => by
  cases s.par.topology
  · exact bind (updateAb _) fun _ => cfgPersist
  · exact bind (updateSr _) fun _ => cfgPersist

theorem updFailed : Spares updFailed := bind getState fun s => by
  cases s.par.topology
  · exact bind (updateAb _) fun _ => cfgPersist
  · exact bind (updateSr _) fun _ => cfgPersist

theorem updCompleteAb (r : Role) (size crc : Word) : Spares (updCompleteAb r size crc) :=
  bind (updateAb _) fun _ => bind cfgPersist fun _ => pure _

theorem updCompleteSr (size crc : Word) : Spares (updCompleteSr size crc) :=
  bind getState fun _ => bind (writeFlash _ _) fun _ => bind getState fun _ => ite
    (bind (updateSr _) fun _ => bind cfgPersist fun _ => pure _)
    (bind (updateSr _) fun _ => bind cfgPersist fun _ => pure _)

theorem updComplete (r : Role) (size crc : Word) : Spares (updComplete r size crc) := bind getState fun s => by
  cases s.par.topology
  · exact updCompleteAb r size crc
  · exact updCompleteSr size crc

theorem requireValid {body : Engine Code} (h : Spares body) : Spares (requireValid body) :=
  bind getState fun _ => ite h (raise _)

/-! ### The protocol unit -/

theorem rxArm : Spares rxArm := by
  intro s
  cases ha : s.armAnswer
  · rw [rxArm_refused ha]; rfl
  · rw [rxArm_ok ha]; rfl

theorem startSession (base limit : Nat) (kind : SessKind) (ret : RetState) :
    Spares (startSession base limit kind ret) :=
  bind rxArm fun _ => ite (bind (update fun _ => rfl) fun _ => pure _) (pure _)

theorem returnState : Spares returnState := bind (valueOf _ _) fun _ => update fun _ => rfl

theorem flush : Spares flush :=
  bind getState fun _ => ite (pure _) <| ite (pure _) <| bind (mergeWrite _ _) fun _ =>
    ite (bind (update fun _ => rfl) fun _ => pure _) (pure _)

theorem flowEnd (code : Code) : Spares (flowEnd code) :=
  ite
    (bind getState fun _ => bind (valueOf _ _) fun _ => bind (updComplete _ _ _) fun _ =>
      bind (update fun _ => rfl) fun _ => returnState)
    (bind updFailed fun _ => bind (update fun _ => rfl) fun _ => returnState)

theorem closeAndReturn (code : Code) : Spares (closeAndReturn code) :=
  bind (update fun _ => rfl) fun _ => bind (valueOf _ _) fun k => by
    cases k
    · exact bind (flowEnd code) fun _ => pure _
    · exact bind returnState fun _ => pure _

theorem endSession (code : Code) : Spares (endSession code) := by
  rw [endSession_eq]
  exact ite (bind flush fun c => closeAndReturn c) (closeAndReturn code)

theorem ended (code : Code) : Spares (ended code) := bind (endSession code) fun _ => pure _

theorem goesOn : Spares goesOn := pure _

theorem endTransfer : Spares endTransfer := bind getState fun _ => ended _

theorem frameError (k : FrameErrorKind) (next : PState) :
    Spares (do Machine.update fun s => s.frameError k next; Machine.goesOn) :=
  bind (update fun _ => rfl) fun _ => goesOn

theorem acceptDone (tag l : List Byte) : Spares (acceptDone tag l) :=
  bind (update fun _ => rfl) fun _ => goesOn

theorem acceptFailed (tag : List Byte) (code : Code) : Spares (acceptFailed tag code) :=
  bind (update fun _ => rfl) fun _ => ended code

theorem accept : Spares accept :=
  bind (update fun _ => rfl) fun _ => bind getState fun _ => bind (valueOf _ _) fun _ =>
    ite (acceptDone _ _) <| ite (acceptFailed _ _) <| bind (mergeWrite _ _) fun _ =>
      ite (bind (update fun _ => rfl) fun _ => acceptDone _ _) (acceptFailed _ _)

theorem fieldEnd (c : Byte) : Spares (fieldEnd c) :=
  bind getState fun _ => ite
    (bind (valueOf _ _) fun _ => ite
      (bind accept fun _ => bind (update fun _ => rfl) fun _ => pure _) (frameError _ _))
    (frameError _ _)

theorem fieldStart_kept (s : State) (d : Byte) : (s.fieldStart d).operands = s.operands := by
  unfold State.fieldStart
  split <;> rfl

theorem fieldLength_kept (s : State) (d : Byte) : (s.fieldLength d).operands = s.operands := by
  unfold State.fieldLength
  dsimp only
  split
  · split <;> rfl
  · rfl

theorem fieldBody_kept (s : State) (d : Byte) : (s.fieldBody d).operands = s.operands := by
  unfold State.fieldBody
  dsimp only
  split <;> rfl

theorem fieldCrc_kept (s : State) (d : Byte) : (s.fieldCrc d).operands = s.operands := by
  unfold State.fieldCrc
  dsimp only
  split <;> rfl

theorem field (d : Byte) : Spares (field d) := bind getState fun s => by
  cases s.parser.pstate
  · exact bind (update fun s => fieldStart_kept s d) fun _ => goesOn
  · exact bind (update fun s => fieldLength_kept s d) fun _ => goesOn
  · exact bind (update fun s => fieldBody_kept s d) fun _ => goesOn
  · exact bind (update fun s => fieldCrc_kept s d) fun _ => goesOn
  · exact fieldEnd d

theorem feed (c : Byte) : Spares (feed c) :=
  bind getState fun _ => ite
    (ite
      (bind (update fun _ => rfl) fun _ => ite (field _) <| ite (field _) (frameError _ _))
      (ite (bind (update fun _ => rfl) fun _ => goesOn) <| ite (frameError _ _) (field c)))
    (field c)

theorem feedAll (l : List Byte) : Spares (feedAll l) := by
  induction l with
  | nil => exact goesOn
  | cons c l ih =>
    exact bind (feed c) fun r => by
      cases r
      · exact ih
      · exact pure _

theorem checkTimeout (now : Word) : Spares (checkTimeout now) :=
  bind getState fun _ => ite (ended _) goesOn

theorem poll : Spares poll :=
  bind getState fun s => ite
    (bind (update fun _ => rfl) fun _ => ite endTransfer <|
      bind (update fun _ => rfl) fun _ => bind (feedAll _) fun r => by
        cases r
        · exact bind rxArm fun _ => ite (checkTimeout _) (ended _)
        · exact pure _)
    (bind (update fun _ => rfl) fun _ => bind getState fun _ => ite endTransfer (checkTimeout _))

theorem flowFailed (code : Code) (ret : RetState) : Spares (flowFailed code ret) :=
  bind updFailed fun _ => bind (update fun _ => rfl) fun _ => pure _

theorem runFlow (ret : RetState) : Spares (runFlow ret) :=
  bind updTarget fun _ => bind getState fun _ => bind updStart fun _ =>
    bind (update fun _ => rfl) fun _ => bind (eraseRegion _ _) fun _ => ite
      (bind (startSession _ _ _ _) fun _ => ite (pure _) (flowFailed _ _)) (flowFailed _ _)

/-! ### The commands -/

theorem emit (out : List Byte) (res1 : State → Word) : Spares (emit out res1) :=
  bind getState fun _ => ite (raise _) (bind (update fun _ => rfl) fun _ => raise _)

/-- What a command leaves where its body spares the operand registers. -/
theorem command {k : CmdClass} {body : Engine Code} (h : Spares body) {s t : State}
    (ht : runCommand k body s = .next t) : t.AtReset ∨ t.operands = s.operands := by
  cases hc : refusalCode k s.dstate with
  | some c =>
    rw [runCommand_refused hc] at ht
    cases ht
    exact .inr rfl
  | none =>
    have hb := h s
    rw [runCommand_accepted hc] at ht
    rcases hx : body s with ⟨c, u⟩ | ⟨_ | f, u⟩ <;> rw [hx] at hb ht
    · cases ht
      exact .inr hb
    · cases ht
      exact .inl hb
    · cases ht

/-- Every command but the three that fold bytes into CRC_STATE (10_state.md R32, R36). -/
theorem exec_operands {i : Instr} (h1 : i ≠ .crcInit) (h2 : i ≠ .crcUpdate) (h3 : ∀ b, i ≠ .crcUpdateByte b)
    {s t : State} (h : exec i s = .next t) : t.AtReset ∨ t.operands = s.operands := by
  cases i with
  | crcInit => exact absurd rfl h1
  | crcUpdate => exact absurd rfl h2
  | crcUpdateByte b => exact absurd rfl (h3 b)
  | crcFinal =>
    refine command ?_ h
    exact bind (update fun _ => rfl) fun _ => raise _
  | crcCompute =>
    refine command ?_ h
    exact bind getState fun _ =>
      ite (bind (update fun _ => rfl) fun _ => raise _) (raise _)
  | escape =>
    refine command ?_ h
    exact bind getState fun _ => ite (emit _ _) (raise _)
  | unescape =>
    refine command ?_ h
    refine bind getState fun s => ite ?_ (raise _)
    cases Machine.unescape s.par.escMode (s.mem.read s.operand0 s.operand1)
    · exact emit _ _
    · exact bind (update fun _ => rfl) fun _ => raise _
  | frameBuild v r sd =>
    refine command ?_ h
    exact bind getState fun _ => ite (raise _) (ite (emit _ _) (raise _))
  | sessBegin =>
    refine command ?_ h
    exact bind getState fun _ => ite (raise _) <| ite (raise _) <| ite (raise _) <|
      bind (startSession _ _ _ _) fun _ => ite (raise _) (raise _)
  | sessPoll =>
    refine command ?_ h
    refine bind poll fun r => ?_
    cases r
    · exact bind (update fun _ => rfl) fun _ => raise _
    · exact bind (update fun _ => rfl) fun _ => raise _
  | sessProgress =>
    refine command ?_ h
    exact bind (update fun _ => rfl) fun _ => raise _
  | flWrite =>
    refine command ?_ h
    exact bind getState fun _ => ite (raise _) <| ite (raise _) <| ite (raise _) <|
      bind (writeFlash _ _) fun _ => flashCode _
  | flWriteNocheck =>
    refine command ?_ h
    exact bind getState fun _ => ite (raise _) <| ite (raise _) <| ite (raise _) <|
      bind (masked (noCheck _ _)) fun _ => flashCode _
  | flRead =>
    refine command ?_ h
    exact bind getState fun _ =>
      ite (bind (update fun _ => rfl) fun _ => raise _) (raise _)
  | flEraseSector =>
    refine command ?_ h
    exact bind getState fun _ => ite (raise _) <| ite (raise _) <|
      bind (masked (flashErase _)) fun _ => flashCode _
  | cfgRead =>
    refine command ?_ h
    exact bind cfgLoad fun _ => bind (update fun _ => rfl) fun _ => raise _
  | cfgWrite =>
    refine command ?_ h
    exact requireValid <| bind cfgPersist fun _ => raise _
  | cfgInit =>
    refine command ?_ h
    exact bind cfgInit fun _ => raise _
  | imgCrc =>
    refine command ?_ h
    exact bind getState fun _ =>
      ite (raise _) (bind (update fun _ => rfl) fun _ => raise _)
  | imgVerify role =>
    refine command ?_ h
    exact bind getState fun _ => ite (raise _) <| requireValid <|
      bind (verify role) fun _ => bind (update fun _ => rfl) fun _ => raise _
  | bootSelect =>
    refine command ?_ h
    refine requireValid <| bind bootSelect fun ⟨sel, _⟩ =>
      bind (update fun _ => ?_) fun _ => raise _
    cases sel <;> rfl
  | updTarget =>
    refine command ?_ h
    exact requireValid <| bind updTarget fun _ =>
      bind (update fun _ => rfl) fun _ => raise _
  | updStart role =>
    refine command ?_ h
    exact bind getState fun _ => ite (raise _) <| requireValid <|
      bind updTarget fun _ => ite (raise _) <| bind updStart fun _ => raise _
  | updComplete role =>
    refine command ?_ h
    exact bind getState fun _ => ite (raise _) <| bind updTarget fun _ =>
      ite (raise _) <| requireValid <| bind (updComplete _ _ _) fun _ => raise _
  | updFailed =>
    refine command ?_ h
    exact requireValid <| bind updFailed fun _ => raise _
  | bootConfirm =>
    refine command ?_ h
    refine bind cfgLoad fun _ => ite (bind getState fun s => ?_) (raise _)
    cases s.par.topology
    · exact bind abCache fun _ =>
        ite (bind (updateAb _) fun _ => bind cfgPersist fun _ => raise _) (raise _)
    · exact raise _
  | requestUpdate =>
    refine command ?_ h
    refine bind cfgLoad fun _ => ite (bind getState fun s => ?_) (raise _)
    cases s.par.topology
    · exact bind (updateAb _) fun _ => bind cfgPersist fun _ => raise _
    · exact bind (updateSr _) fun _ => bind cfgPersist fun _ => raise _
  | cfgGet =>
    refine command ?_ h
    exact bind getState fun _ => ite
      (bind serializeCache fun _ => bind (update fun _ => rfl) fun _ => raise _) (raise _)
  | runApp =>
    refine command ?_ h
    refine requireValid <| bind bootSelect fun ⟨sel, _⟩ => ?_
    cases sel
    · exact bind (update fun _ => rfl) fun _ => raise _
    · exact bind (update fun _ => rfl) fun _ => raise _
  | startUpdate =>
    refine command ?_ h
    exact requireValid <| bind (runFlow _) fun _ => raise _
  | erase =>
    refine command ?_ h
    exact requireValid <| bind updTarget fun _ => bind getState fun _ =>
      bind (eraseRegion _ _) fun _ => raise _

end Spares

/-- A command whose body ends without a power loss leaves the body's state or, where it is refused, its own, with
RESULT written. -/
theorem runCommand_next {k : CmdClass} {body : Engine Code} {s t u : State} {c : Code} (hb : body s = .ok c u)
    (h : runCommand k body s = .next t) : ∃ c', t = s.finish c' ∨ t = u.finish c' := by
  cases hc : refusalCode k s.dstate with
  | some d =>
    rw [runCommand_refused hc] at h
    exact ⟨d, .inl (by cases h; rfl)⟩
  | none =>
    rw [runCommand_ok hc hb] at h
    exact ⟨c, .inr (by cases h; rfl)⟩

/-- The ARG registers are as before. -/
abbrev ArgsKept (s t : State) : Prop :=
  t.arg0 = s.arg0 ∧ t.arg1 = s.arg1 ∧ t.arg2 = s.arg2 ∧ t.arg3 = s.arg3

/-- The three commands that write CRC_STATE leave the ARG registers alone too (41_crc.md R175 to R177). -/
theorem exec_crc_args {i : Instr} (hi : i = .crcInit ∨ i = .crcUpdate ∨ ∃ b, i = .crcUpdateByte b) {s t : State}
    (h : exec i s = .next t) : ArgsKept s t := by
  have hend : ∀ {k : CmdClass} {body : Engine Code} {c : Code} {w : Word},
      body s = .ok c { s with crcState := w } → runCommand k body s = .next t → ArgsKept s t := by
    intro k body c w hb ht
    obtain ⟨c', rfl | rfl⟩ := runCommand_next hb ht
    · exact ⟨rfl, rfl, rfl, rfl⟩
    · exact ⟨rfl, rfl, rfl, rfl⟩
  rcases hi with rfl | rfl | ⟨b, rfl⟩
  · exact hend (w := 0xFFFFFFFF) rfl h
  · by_cases hr : readable s.par s.operand0 s.operand1 = true
    · refine hend (c := .ok) (w := crcUpdate s.crcState (s.mem.read s.operand0 s.operand1)) ?_ h
      rw [Engine.getState_bind, if_pos hr]
      rfl
    · refine hend (c := .eBadSpan) (w := s.crcState) ?_ h
      rw [Engine.getState_bind, if_neg hr]
      rfl
  · exact hend (w := crcStep s.crcState b) rfl h

theorem argsKept_of_operands {s t : State} (h : t.operands = s.operands) : ArgsKept s t := by
  simp only [State.operands, Prod.mk.injEq] at h
  obtain ⟨h0, h1, h2, h3, -⟩ := h
  exact ⟨h0, h1, h2, h3⟩

/-- Settles O60, from the frames of the command bodies: `Spares` for every class, `exec_pure` for class P. -/
theorem whatCommandsNeverWrite : Obligations.WhatCommandsNeverWrite := by
  intro i s t h
  refine ⟨?_, fun h1 h2 h3 => ?_, fun hi hs => ?_⟩
  · by_cases hcrc : i = .crcInit ∨ i = .crcUpdate ∨ ∃ b, i = .crcUpdateByte b
    · exact .inr (exec_crc_args hcrc h)
    · simp only [not_or, not_exists] at hcrc
      obtain ⟨h1, h2, h3⟩ := hcrc
      exact (Spares.exec_operands h1 h2 h3 h).imp_right argsKept_of_operands
  · refine (Spares.exec_operands h1 h2 h3 h).imp_right fun hop => ?_
    simp only [State.operands, Prod.mk.injEq] at hop
    obtain ⟨-, -, -, -, hcrc⟩ := hop
    exact hcrc
  · obtain ⟨u, hu, hpure⟩ := exec_pure hs hi
    obtain rfl : u = t := by
      rw [hu] at h
      injection h
    exact ⟨hpure.rest, hpure.flash⟩

end Sys2Proof.Machine
end

section
/-! SUPPORT. How a command word reaches the machine, what a reset leaves, the register window and the fields of
STATUS (10_state.md R31, R35, R56). -/

namespace Sys2Proof.Machine

-- Elaborated one after another: threads that wait on the kernel use up the memory limit.
set_option Elab.async false

/-! ### The port -/

@[simp] theorem State.portOffset_add (s : State) (off : Word) :
    s.portOffset (s.par.blkBase + off) = off.toNat := by
  rw [State.portOffset, BitVec.add_comm, BitVec.add_sub_cancel]

@[simp] theorem State.portOffset_base (s : State) : s.portOffset s.par.blkBase = 0 := by
  rw [State.portOffset, BitVec.sub_self]
  rfl

theorem portWrite_cmd (s : State) (v : Word) : portWrite s.par.blkBase 4 v s = issue v s := by
  rw [portWrite, s.portOffset_base, if_pos (portAligned_iff.2 ⟨rfl, rfl⟩), if_pos rfl]

/-- A write to any register but CMD. -/
theorem portWrite_register {s : State} {off : Word} (hal : off.toNat % 4 = 0) (hne : off.toNat ≠ 0) (v : Word) :
    portWrite (s.par.blkBase + off) 4 v s = .next (s.writeRegister off.toNat v) := by
  rw [portWrite, s.portOffset_add, if_pos (portAligned_iff.2 ⟨rfl, hal⟩), if_neg hne]

theorem portRead_register {s : State} {off : Word} (hal : off.toNat % 4 = 0) :
    portRead (s.par.blkBase + off) 4 s
      = .next { s with env := { s.env with readData := s.readRegister off.toNat } } := by
  rw [portRead, s.portOffset_add, if_pos (portAligned_iff.2 ⟨rfl, hal⟩)]

theorem port_refused {s : State} {off : Word} {size : Nat} (h : size ≠ 4 ∨ off.toNat % 4 ≠ 0) (v : Word) :
    portRead (s.par.blkBase + off) size s = .refused .portAccess
      ∧ portWrite (s.par.blkBase + off) size v s = .refused .portAccess := by
  have hal := portAligned_false_iff.2 h
  constructor
  · rw [portRead, s.portOffset_add, if_neg hal]
  · rw [portWrite, s.portOffset_add, if_neg hal]

/-- The registers end at 0x38 (10_state.md R31). -/
theorem readRegister_above {s : State} {off : Nat} (h : 0x38 < off) : s.readRegister off = 0 := by
  unfold State.readRegister
  split <;> first | omega | rfl

/-- Only ARG0 to ARG3 take a write (10_state.md R32). -/
theorem writeRegister_above {s : State} {off : Nat} (h : 0x10 < off) (v : Word) : s.writeRegister off v = s := by
  unfold State.writeRegister
  split <;> first | omega | rfl

theorem State.afterReset_status (s : State) (ram : List Byte) : (s.afterReset ram).status = 0 :=
  State.initial_status _ _ _

/-- Every register reads 0 after a reset but CRC_STATE (10_state.md R31, R56). -/
theorem readRegister_afterReset (s : State) (ram : List Byte) (off : Nat) :
    (s.afterReset ram).readRegister off = if off = 0x24 then 0xFFFFFFFF else 0 := by
  have hst := s.afterReset_status ram
  unfold State.readRegister
  split <;> simp_all [Session.init]

/-! ### Commands -/

theorem issue_decoded {w : Word} {i : Instr} (h : decode w = .ok i) (s : State) : issue w s = exec i s := by
  rw [issue, h]

theorem State.awaitingCommand_withInputs (s : State) :
    s.awaitingCommand.withInputs s.awaitingCommand.env.inputs = s.awaitingCommand := rfl

/-- Settles O5: the word goes through the port's CMD register and the decoder to `exec`. -/
theorem stepRunsDecodedCommand : Obligations.StepRunsDecodedCommand := by
  have hwrite : ∀ (s : State) (w : Word) (i : Instr) (rest : List Input),
      s.env.inputs = .portWrite s.par.blkBase 4 w :: rest → decode w = .ok i →
      step s = exec i (s.withInputs rest) := by
    intro s w i rest hin hdec
    rw [step, hin]
    show portWrite (s.withInputs rest).par.blkBase 4 w (s.withInputs rest) = _
    rw [portWrite_cmd, issue_decoded hdec]
  refine ⟨hwrite, fun s nbits w i h => ?_⟩
  have hdec : decode (BitVec.ofNat 32 (w % 2 ^ nbits)) = .ok i := by
    unfold decodeTableWord at h
    cases hd : decode (BitVec.ofNat 32 (w % 2 ^ nbits)) with
    | ok j => rw [hd] at h; cases h; rfl
    | error e => rw [hd] at h; cases h
  exact hwrite (s.withFetchWord nbits w) _ i s.awaitingCommand.env.inputs rfl hdec

/-! ### Reset -/

/-- A reset keeps flash: RAM's new bytes lie outside it (10_state.md R55, 70_reset_and_hazards.md R410). -/
theorem afterReset_flash {s : State} (hs : s.Sane) (ram : List Byte) {a : Nat} (hlo : s.par.flashBase ≤ a)
    (hhi : a < s.par.flashEnd) : (s.afterReset ram).mem.get a = s.mem.get a :=
  store_ram_flash hs.sound hs.memory.1 (reset_ram_in s.par) (reset_ram_length ram) hlo hhi

/-- Settles O7: only flash needs an argument, the rest is the reset state's definition. -/
theorem resetLeavesResetValues : Obligations.ResetLeavesResetValues :=
  ⟨State.initial_atReset _ _ _, fun s ram hs => ⟨s.afterReset ram, rfl, s.afterReset_atReset ram, rfl, rfl, rfl,
    fun _ hlo hhi => afterReset_flash hs.sane ram hlo hhi⟩⟩

/-- Settles O8, register by register; what lies above the last one reads 0 and takes no write. -/
theorem registerWindow : Obligations.RegisterWindow := by
  intro s off v
  refine ⟨portRead_register, rfl, rfl, rfl, rfl, rfl, rfl, rfl, rfl, rfl, rfl, rfl, rfl, rfl, rfl, rfl,
    readRegister_above, ?_, portWrite_cmd s v, ?_, ?_, ?_, ?_, fun hal hgt => ?_,
    fun size h => port_refused h v⟩
  · rw [readRegister_afterReset]
    have : off = 0x24 ↔ off.toNat = 0x24 := BitVec.toNat_inj.symm
    simp only [this]
  · exact portWrite_register (by decide) (by decide) v
  · exact portWrite_register (by decide) (by decide) v
  · exact portWrite_register (by decide) (by decide) v
  · exact portWrite_register (by decide) (by decide) v
  · rw [portWrite_register hal (by omega), writeRegister_above hgt]

/-! ### STATUS (10_state.md R35) -/

/-- A field that lies above the low part of a concatenation. -/
theorem extract_append_above {v w k : Nat} (hi : BitVec v) (lo : BitVec w) (n : Nat) :
    (hi ++ lo).extractLsb' (k + w) n = hi.extractLsb' k n := by
  rw [BitVec.extractLsb'_append_eq_of_le (Nat.le_add_left ..), Nat.add_sub_cancel]

/-- Settles O9: each field, once the parts below it are dropped, is the low part of what is left. -/
theorem statusFields : Obligations.StatusFields := by
  intro s
  have hlow {v w : Nat} {hi : BitVec v} {lo : BitVec w} : (hi ++ lo).extractLsb' 0 w = lo :=
    BitVec.extractLsb'_append_eq_right
  refine ⟨?busy, ?_, ?_, ?_, ?_, ?_, ?pstate, ?_, ?_, ?_, ?_, ?dstate, ?reserved, s.afterReset_status []⟩
  all_goals
    simp only [State.status, extract_append_above (w := 1), extract_append_above (w := 2),
      extract_append_above (w := 3)]
  case reserved => rfl
  case busy => exact hlow.trans (by cases s.dstate <;> rfl)
  case pstate => exact hlow.trans (by cases s.parser.pstate <;> rfl)
  case dstate => exact hlow.trans (by cases s.dstate <;> rfl)
  all_goals exact hlow

end Sys2Proof.Machine
end

section
/-! SUPPORT. The bytes below a bound of flash, from any state at all: every computation of the engine keeps the
parameters, the canonical form of memory, and the bytes between FLASH_BASE and the bound (20_memory.md R80, R90,
R91). The bound is CFG_ADDR, or 0, which protects no byte and so asks nothing of the state. -/

namespace Sys2Proof.Machine

/-! ### What is kept -/

/-- The parameters and the memory that a computation starts from, and the bound of the bytes it must not change. -/
structure Baseline where
  par : Config
  mem : Memory
  lo : Nat
  bound : lo = 0 ∨ par.Sound ∧ lo = par.cfgAddr

/-- Measured against the baseline: the parameters are the same, and where its memory was canonical, memory still is
and holds the same bytes below the bound. -/
structure State.Intact (k : Baseline) (s : State) : Prop where
  par : s.par = k.par
  wf : Memory.Wf k.mem → Memory.Wf s.mem
  below : Memory.Wf k.mem → ∀ a, k.par.flashBase ≤ a → a < k.lo → s.mem.get a = k.mem.get a

section
variable {k : Baseline} {s t : State}

theorem State.Intact.of_eq (h : s.Intact k) (hp : t.par = s.par) (hm : t.mem = s.mem) : t.Intact k :=
  ⟨hp.trans h.par, hm ▸ h.wf, hm ▸ h.below⟩

/-- A change of memory that is canonical and leaves the bytes below the bound alone. -/
theorem State.Intact.setMem (h : s.Intact k) (hp : t.par = s.par) (hw : Memory.Wf s.mem → Memory.Wf t.mem)
    (hb : Memory.Wf s.mem → ∀ a, k.par.flashBase ≤ a → a < k.lo → t.mem.get a = s.mem.get a) : t.Intact k :=
  ⟨hp.trans h.par, fun hk => hw (h.wf hk), fun hk a h1 h2 => (hb (h.wf hk) a h1 h2).trans (h.below hk a h1 h2)⟩

theorem State.Intact.storeAbove (h : s.Intact k) {a : Nat} (ha : k.lo ≤ a) (l : List Byte) :
    State.Intact k { s with mem := s.mem.store a l } :=
  h.setMem rfl (fun hw => Memory.store_wf hw a l) fun hw _ _ hb => Memory.get_store_outside hw (by omega)

theorem State.Intact.eraseAbove (h : s.Intact k) {a : Nat} (ha : k.lo ≤ a) (n : Nat) :
    State.Intact k { s with mem := s.mem.eraseSpan a n } :=
  h.setMem rfl (fun hw => Memory.eraseSpan_wf hw a n) fun _ b _ hb => by
    rw [Memory.get_eraseSpan, if_neg (by omega)]

/-- RAM lies outside flash, so outside the protected bytes (00_scope.md R11). -/
theorem State.Intact.storeRam (h : s.Intact k) {a n : Nat} {l : List Byte} (hr : inRam s.par a n = true)
    (hl : l.length ≤ n) : State.Intact k { s with mem := s.mem.store a l } := by
  refine h.setMem rfl (fun hw => Memory.store_wf hw a l) fun hw b h1 h2 => ?_
  rcases k.bound with hlo | ⟨hp, hlo⟩
  · omega
  · obtain ⟨-, hend, hhi⟩ := Config.Sound.cfgAddr_bounds hp
    rw [← h.par] at *
    exact store_ram_flash hp hw hr hl h1 (by omega)

theorem State.Intact.afterReset (h : s.Intact k) (ram : List Byte) : (s.afterReset ram).Intact k :=
  State.Intact.of_eq (h.storeRam (reset_ram_in s.par) (reset_ram_length ram)) rfl rfl

end

/-! ### Addresses at or above the bound -/

/-- The start of the block of `d` bytes that holds `a` does not lie below a block boundary that `a` does not. -/
theorem block_start_ge {b q d a : Nat} (hd : 0 < d) (h : b + q * d ≤ a) : b + q * d ≤ b + (a - b) / d * d :=
  Nat.add_le_add_left (Nat.mul_le_mul_right d ((Nat.le_div_iff_mul_le hd).2 (by omega))) b

section
variable {k : Baseline}

theorem Baseline.lo_le_cfgAddr : k.lo ≤ k.par.cfgAddr := by
  rcases k.bound with h | ⟨-, h⟩
  · omega
  · exact h.le

theorem Baseline.lo_le_managed {a b : Nat} (h : managed k.par a b = true) : k.lo ≤ a := by
  simp only [managed, Bool.and_eq_true, decide_eq_true_eq] at h
  exact k.lo_le_cfgAddr.trans h.1

/-- The regions lie above the bootloader (00_scope.md R11). -/
theorem Baseline.lo_le_region (r : Role) : k.lo ≤ regionBase k.par r := by
  rcases k.bound with h | ⟨hp, h⟩
  · omega
  · have := Config.Sound.region hp r
    have := Config.Sound.cfgAddr_bounds hp
    omega

/-- CFG_ADDR is a sector boundary (20_memory.md R90). -/
theorem Baseline.lo_le_sector {a : Nat} (h : k.lo ≤ a) : k.lo ≤ sectorBase k.par (sectorOf k.par a) := by
  rcases k.bound with h0 | ⟨hp, hlo⟩
  · omega
  · obtain ⟨q, hq, -⟩ := hp.cfgAddr_eq
    rw [hlo, hq] at h ⊢
    exact block_start_ge hp.sector_pos h

/-- CFG_ADDR is a granule boundary (20_memory.md R87, R90). -/
theorem Baseline.lo_le_granule {c : Nat} (h : k.lo ≤ c) :
    k.lo ≤ c - (c - k.par.flashBase) % k.par.granule := by
  rcases k.bound with h0 | ⟨hp, hlo⟩
  · omega
  · obtain ⟨q, hq, -⟩ := hp.cfgAddr_eq
    obtain ⟨g, hg⟩ := hp.granule_dvd
    rw [hlo, hq, hg, Nat.mul_left_comm, Nat.mul_comm k.par.granule] at h ⊢
    have hstart := block_start_ge hp.granule_pos h
    have hdiv := Nat.div_add_mod' (c - k.par.flashBase) k.par.granule
    omega

end

/-! ### Computations -/

/-- Where the flash writer of an open session stands: at or above the bound. -/
def Writing (k : Baseline) (u : Session) : Prop := k.lo ≤ u.cursor.toNat

/-- The cursor moves inside the session's limit, so it does not wrap (43_protocol.md R236). -/
theorem Writing.advance {k : Baseline} {u : Session} (h : Writing k u) {n : Nat}
    (hn : ¬ u.limit.toNat < u.cursor.toNat + n) : k.lo ≤ (u.cursor + BitVec.ofNat 32 n).toNat := by
  have hlt := u.limit.isLt
  rw [BitVec.toNat_add, BitVec.toNat_ofNat, Nat.add_mod_mod, Nat.mod_eq_of_lt (by omega)]
  exact Nat.le_add_right_of_le h

/-- `x` run from `s` leaves an intact state, also where it loses power; a result comes with a session that meets
`Q`. -/
def Leaves {α : Type} (k : Baseline) (Q : Session → Prop) (x : Engine α) (s : State) : Prop :=
  match x s with
  | .ok _ t => t.Intact k ∧ Q t.sess
  | .error _ t => t.Intact k

theorem leaves_ok {α : Type} {k : Baseline} {Q : Session → Prop} {x : Engine α} {s t : State} {a : α}
    (h : x s = .ok a t) (ht : t.Intact k) (hq : Q t.sess) : Leaves k Q x s := by
  rw [Leaves, h]
  exact ⟨ht, hq⟩

theorem leaves_error {α : Type} {k : Baseline} {Q : Session → Prop} {x : Engine α} {s t : State} {e : Stop}
    (h : x s = .error e t) (ht : t.Intact k) : Leaves k Q x s := by
  rw [Leaves, h]
  exact ht

/-- From every intact state whose session meets `P`, `x` leaves an intact state whose session meets `Q`. -/
def Guards {α : Type} (k : Baseline) (P Q : Session → Prop) (x : Engine α) : Prop :=
  ∀ s, s.Intact k → P s.sess → Leaves k Q x s

/-- The parts of the state that matter here, as one value. -/
def State.footing (s : State) : Config × Memory × Session := (s.par, s.mem, s.sess)

/-- The same but for the session's fields other than its cursor. -/
def State.cursorFooting (s : State) : Config × Memory × Word := (s.par, s.mem, s.sess.cursor)

namespace Guards

variable {α β : Type} {k : Baseline} {P Q R : Session → Prop}

theorem pure (a : α) : Guards k P P (pure a : Engine α) := fun _ hs hp => ⟨hs, hp⟩

theorem raise (c : Code) : Guards k P P (raise c) := pure c

theorem leaves {x : Engine α} (h : Guards k P Q x) {s : State} (hs : s.Intact k) (hp : P s.sess) :
    Leaves k Q x s := h s hs hp

theorem bind {x : Engine α} {f : α → Engine β} (hx : Guards k P Q x) (hf : ∀ a, Guards k Q R (f a)) :
    Guards k P R (x >>= f) := by
  intro s hs hp
  have h := hx s hs hp
  rw [Leaves] at h ⊢
  rw [Engine.bind_run]
  rcases hxs : x s with ⟨a, t⟩ | ⟨e, t⟩ <;> rw [hxs] at h
  · exact hf a t h.1 h.2
  · exact h

theorem weaken {P' Q' : Session → Prop} {x : Engine α} (h : Guards k P Q x) (hp : ∀ u, P' u → P u)
    (hq : ∀ u, Q u → Q' u) : Guards k P' Q' x := by
  intro s hs hps
  have h := h s hs (hp _ hps)
  unfold Leaves at h ⊢
  rcases hxs : x s with ⟨a, t⟩ | ⟨e, t⟩ <;> rw [hxs] at h
  · exact ⟨h.1, hq _ h.2⟩
  · exact h

theorem update {f : State → State} (h : ∀ s, (f s).footing = s.footing) : Guards k P P (update f) := by
  intro s hs hp
  have hf := h s
  simp only [State.footing, Prod.mk.injEq] at hf
  obtain ⟨hpar, hmem, hsess⟩ := hf
  exact ⟨hs.of_eq hpar hmem, hsess ▸ hp⟩

theorem updateSession {f : State → State} (h : ∀ s, (f s).cursorFooting = s.cursorFooting) :
    Guards k (Writing k) (Writing k) (Machine.update f) := by
  intro s hs hp
  have hf := h s
  simp only [State.cursorFooting, Prod.mk.injEq] at hf
  obtain ⟨hpar, hmem, hcursor⟩ := hf
  refine ⟨hs.of_eq hpar hmem, ?_⟩
  rw [Writing, hcursor]
  exact hp

/-- Reading the state: its parameters are the baseline's. -/
theorem read {f : State → Engine β} (h : ∀ s, s.par = k.par → Guards k P Q (f s)) :
    Guards k P Q (getState >>= f) := fun s hs hp => h s hs.par s hs hp

/-- Reading the state for its session: what goes on may rely on the session being the one read. -/
theorem readSession {f : State → Engine β} (h : ∀ s, P s.sess → Guards k (· = s.sess) Q (f s)) :
    Guards k P Q (getState >>= f) := fun s hs hp => h s hp s hs rfl

/-- Reading the state for what stays as read until the next step. -/
theorem readAll {f : State → Engine β} (h : ∀ s, s.Intact k → P s.sess → Leaves k Q (f s) s) :
    Guards k P Q (getState >>= f) := h

theorem ite_of {c : Prop} [Decidable c] {x y : Engine α} (hx : c → Guards k P Q x) (hy : ¬ c → Guards k P Q y) :
    Guards k P Q (if c then x else y) := by
  split
  · exact hx ‹_›
  · exact hy ‹_›

theorem ite {c : Prop} [Decidable c] {x y : Engine α} (hx : Guards k P Q x) (hy : Guards k P Q y) :
    Guards k P Q (if c then x else y) := ite_of (fun _ => hx) fun _ => hy

theorem valueOf (e : Element) (v : State → Option α) : Guards k P P (valueOf e v) := by
  intro s hs hp
  cases hv : v s with
  | some a => exact leaves_ok (Engine.valueOf_run hv) hs hp
  | none => exact leaves_error (by rw [Machine.valueOf, hv]) hs

/-! ### The flash unit -/

/-- An erase changes its own sector, whatever the collaborator answers (20_memory.md R96, R104). -/
theorem flashErase {sec : Nat} (h : k.lo ≤ sectorBase k.par sec) : Guards k P P (flashErase sec) := by
  intro s hs hp
  rw [← hs.par] at h
  have drawn : State.Intact k { s with env := s.env.drawFlash s.flashAnswer } := hs.of_eq rfl rfl
  have stored : ∀ l : List Byte, (s.erased (s.mem.store (sectorBase s.par sec) l)).Intact k :=
    fun l => .of_eq (hs.storeAbove h l) rfl rfl
  cases ho : s.flashAnswer.outcome
  case ok => exact leaves_ok (flashErase_ok ho sec) (.of_eq (hs.eraseAbove h _) rfl rfl) hp
  case fail => exact leaves_ok (flashErase_fail ho sec) (stored _) hp
  case lostBefore => exact leaves_error (flashErase_lostBefore ho sec) (drawn.afterReset _)
  case lostDuring => exact leaves_error (flashErase_lostDuring ho sec) ((stored _).afterReset _)

/-- A program call changes bytes from its address on, whatever the collaborator answers (20_memory.md R97, R104). -/
theorem flashProgram {addr : Nat} (h : k.lo ≤ addr) (g : List Byte) : Guards k P P (flashProgram addr g) := by
  intro s hs hp
  have drawn : State.Intact k { s with env := s.env.drawFlash s.flashAnswer } := hs.of_eq rfl rfl
  have stored : ∀ l : List Byte, (s.granuleWritten (s.mem.store addr l)).Intact k :=
    fun l => .of_eq (hs.storeAbove h l) rfl rfl
  cases ho : s.flashAnswer.outcome
  case ok =>
    cases hg : programmed s.par.overNonErased (s.mem.read addr s.par.granule) g with
    | none => exact leaves_ok (flashProgram_refused ho hg) (stored _) hp
    | some new => exact leaves_ok (flashProgram_ok ho hg) (stored _) hp
  case fail => exact leaves_ok (flashProgram_fail ho) (stored _) hp
  case lostBefore => exact leaves_error (flashProgram_lostBefore ho) (drawn.afterReset _)
  case lostDuring => exact leaves_error (flashProgram_lostDuring ho) ((stored _).afterReset _)

theorem programGranules {addr : Nat} (h : k.lo ≤ addr) (gs : List (List Byte)) :
    Guards k P P (programGranules addr gs) := by
  induction gs generalizing addr with
  | nil => exact pure true
  | cons g gs ih =>
    exact read fun s _ => bind (flashProgram h g) fun _ => ite (ih (Nat.le_add_right_of_le h)) (pure false)

theorem masked {op : Engine Bool} (h : Guards k P P op) : Guards k P P (masked op) :=
  bind (update fun _ => rfl) fun _ => bind h fun r => bind (update fun _ => rfl) fun _ => pure r

theorem noCheck {a : Nat} (h : k.lo ≤ a) (hw : List Half) : Guards k P P (noCheck a hw) :=
  read fun _ _ => programGranules h _

theorem eraseMergeProgram {sec : Nat} (h : k.lo ≤ sectorBase k.par sec) (off : Nat) (seg : List Half) :
    Guards k P P (eraseMergeProgram sec off seg) :=
  masked <| bind (flashErase h) fun _ => ite
    (bind (update fun _ => rfl) fun _ => read fun _ hs => programGranules (hs ▸ h) _) (pure false)

theorem writeSector {sec : Nat} (h : k.lo ≤ sectorBase k.par sec) (off : Nat) (seg : List Half) :
    Guards k P P (writeSector sec off seg) :=
  bind (update fun _ => rfl) fun _ => read fun _ hs =>
    ite (eraseMergeProgram h off seg) (masked (noCheck (hs ▸ Nat.le_add_right_of_le h) seg))

/-- The writer erases and programs from the sector of its address on (44_flash.md R271). -/
theorem writeLoop (turns : Nat) {a : Nat} (h : k.lo ≤ a) (hw : List Half) :
    Guards k P P (writeLoop turns a hw) := by
  induction turns generalizing a hw with
  | zero => exact pure true
  | succ turns ih =>
    exact ite (pure true) <| read fun s hs => bind (writeSector (by rw [hs]; exact Baseline.lo_le_sector h) _ _)
      fun _ => ite (ih (Nat.le_add_right_of_le h) _) (pure false)

theorem writeFlash {a : Nat} (h : k.lo ≤ a) (hw : List Half) : Guards k P P (writeFlash a hw) :=
  writeLoop _ h hw

theorem mergeWrite {c : Nat} (h : k.lo ≤ c) (hws : List Half) : Guards k P P (mergeWrite c hws) :=
  read fun s hs => writeFlash (by rw [hs]; exact Baseline.lo_le_granule h) _

theorem eraseSectors {sec : Nat} (h : k.lo ≤ sectorBase k.par sec) (n : Nat) :
    Guards k P P (eraseSectors sec n) := by
  induction n generalizing sec with
  | zero => exact pure true
  | succ n ih =>
    have hnext : sectorBase k.par sec ≤ sectorBase k.par (sec + 1) :=
      Nat.add_le_add_left (Nat.mul_le_mul_right _ (Nat.le_succ sec)) _
    exact bind (masked (flashErase h)) fun _ => ite (ih (h.trans hnext)) (pure false)

theorem eraseRegion {base : Nat} (h : k.lo ≤ base) (size : Nat) : Guards k P P (eraseRegion base size) :=
  read fun s hs => eraseSectors (by rw [hs]; exact Baseline.lo_le_sector h) _

theorem flashCode (r : Bool) : Guards k P P (flashCode r) := ite (raise _) (raise _)

/-! ### The boot unit -/

theorem abCache : Guards k P P abCache := valueOf _ _

theorem srCache : Guards k P P srCache := valueOf _ _

theorem updateAb (f : AbRecord → AbRecord) : Guards k P P (updateAb f) :=
  bind abCache fun _ => update fun _ => rfl

theorem updateSr (f : SrRecord → SrRecord) : Guards k P P (updateSr f) :=
  bind srCache fun _ => update fun _ => rfl

theorem serializeCache : Guards k P P serializeCache := read fun s _ => by
  cases s.par.topology
  · exact bind abCache fun _ => pure _
  · exact bind srCache fun _ => pure _

theorem cfgLoad : Guards k P P cfgLoad :=
  bind (update fun s => by simp [State.footing]) fun _ => read fun _ _ => pure _

/-- A persist erases and programs from the config sector on (45_config.md R303). -/
theorem cfgPersist : Guards k P P cfgPersist :=
  bind serializeCache fun _ => read fun s hs =>
    bind (masked <| bind (flashErase (by rw [hs]; exact Baseline.lo_le_sector k.lo_le_cfgAddr)) fun _ =>
        ite (programGranules (by rw [hs]; exact k.lo_le_cfgAddr) _) (pure false)) fun _ =>
      bind (update fun _ => rfl) fun _ => pure _

theorem probe : Guards k P P probe := read fun s _ => by
  cases s.par.topology
  · cases probeImage s.par s.mem s.par.aBase
    · exact pure ()
    · exact updateAb _
  · cases probeImage s.par s.mem s.par.runBase
    · exact pure ()
    · exact updateSr _

theorem cfgInit : Guards k P P cfgInit :=
  bind (update fun s => by simp [State.footing]) fun _ =>
    read fun _ _ => ite (bind probe fun _ => cfgPersist) cfgPersist

theorem recorded (r : Role) : Guards k P P (recorded r) := by
  cases r
  · exact bind abCache fun _ => pure _
  · exact bind abCache fun _ => pure _
  · exact pure _
  · exact bind srCache fun _ => pure _

theorem verify (r : Role) : Guards k P P (verify r) :=
  read fun _ _ => bind (recorded r) fun _ => pure _

theorem crashRecovery : Guards k P P crashRecovery := bind (updateAb _) fun _ => cfgPersist

theorem attemptBoot (cand : Role) (pf : Bool) : Guards k P P (attemptBoot cand pf) :=
  bind (updateAb _) fun _ => bind cfgPersist fun _ => pure _

theorem selectVerified (pf : Bool) : Guards k P P (selectVerified pf) :=
  bind abCache fun _ => bind (verify _) fun _ => ite (attemptBoot _ _) <|
    bind (verify _) fun _ => ite (attemptBoot _ _) (pure _)

theorem failOverAndSelect (limit : Nat) (pf : Bool) : Guards k P P (failOverAndSelect limit pf) :=
  bind abCache fun _ => ite
    (bind (updateAb _) fun _ => bind cfgPersist fun _ => selectVerified _) (selectVerified _)

theorem bootSelectAb : Guards k P P bootSelectAb := by
  rw [bootSelectAb_eq]
  exact read fun _ _ => bind abCache fun _ =>
    ite (bind crashRecovery fun _ => failOverAndSelect _ _) (failOverAndSelect _ _)

theorem bootSelectSr : Guards k P P bootSelectSr := bind (verify _) fun _ => ite (pure _) (pure _)

theorem bootSelect : Guards k P P bootSelect := read fun s _ => by
  cases s.par.topology
  · exact bootSelectAb
  · exact bootSelectSr

theorem updTarget : Guards k P P updTarget := read fun s _ => by
  cases s.par.topology
  · exact bind abCache fun _ => pure _
  · exact pure _

theorem updStart : Guards k P P updStart := read fun s _ => by
  cases s.par.topology
  · exact bind (updateAb _) fun _ => cfgPersist
  · exact bind (updateSr _) fun _ => cfgPersist

theorem updFailed : Guards k P P updFailed := read fun s _ => by
  cases s.par.topology
  · exact bind (updateAb _) fun _ => cfgPersist
  · exact bind (updateSr _) fun _ => cfgPersist

theorem updCompleteAb (r : Role) (size crc : Word) : Guards k P P (updCompleteAb r size crc) :=
  bind (updateAb _) fun _ => bind cfgPersist fun _ => pure _

/-- The copy starts at the run region, however long it is (45_config.md R314). -/
theorem updCompleteSr (size crc : Word) : Guards k P P (updCompleteSr size crc) :=
  read fun s hs => bind (writeFlash (by rw [hs]; exact Baseline.lo_le_region .run) _) fun _ => read fun _ _ => ite
    (bind (updateSr _) fun _ => bind cfgPersist fun _ => pure _)
    (bind (updateSr _) fun _ => bind cfgPersist fun _ => pure _)

theorem updComplete (r : Role) (size crc : Word) : Guards k P P (updComplete r size crc) := read fun s _ => by
  cases s.par.topology
  · exact updCompleteAb r size crc
  · exact updCompleteSr size crc

theorem requireValid {body : Engine Code} (h : Guards k P P body) : Guards k P P (requireValid body) :=
  read fun _ _ => ite h (raise _)

end Guards

end Sys2Proof.Machine
end

section
/-! SUPPORT. The session, the dispatcher and the commands keep the bytes below the bound, and so does every step
(20_memory.md R80, R90, R91). -/

namespace Sys2Proof.Machine

/-- Nothing is known of the session. -/
def AnySession (_ : Session) : Prop := True

namespace Guards

variable {α : Type} {k : Baseline} {P Q : Session → Prop}

/-! ### The open session -/

theorem rxArm : Guards k P P rxArm := by
  intro s hs hp
  cases ha : s.armAnswer
  · exact leaves_ok (rxArm_refused ha) (hs.of_eq rfl rfl) hp
  · exact leaves_ok (rxArm_ok ha) (hs.of_eq rfl rfl) hp

theorem returnState : Guards k P P returnState := bind (valueOf _ _) fun _ => update fun _ => rfl

/-- What is read of the session may be forgotten: the cursor stands at or above the bound. -/
theorem ofRead {u : Session} {x : Engine α} (hu : Writing k u) (h : Guards k (Writing k) Q x) :
    Guards k (· = u) Q x := h.weaken (fun _ e => e ▸ hu) fun _ h => h

/-- The cursor moves by what fits under the limit read (43_protocol.md R236, R242). -/
theorem advance {u : Session} (hu : Writing k u) {n : Nat} (hn : ¬ u.limit.toNat < u.cursor.toNat + n)
    {f : State → State} (hf : ∀ s, (f s).cursorFooting = (s.par, s.mem, s.sess.cursor + BitVec.ofNat 32 n)) :
    Guards k (· = u) (Writing k) (Machine.update f) := by
  rintro s hs rfl
  have h := hf s
  simp only [State.cursorFooting, Prod.mk.injEq] at h
  obtain ⟨hpar, hmem, hcursor⟩ := h
  refine ⟨hs.of_eq hpar hmem, ?_⟩
  rw [Writing, hcursor]
  exact hu.advance hn

theorem flush : Guards k (Writing k) (Writing k) flush :=
  readSession fun _ hu => ite (ofRead hu (pure _)) <| ite_of (fun _ => ofRead hu (pure _)) fun hroom =>
    bind (mergeWrite hu _) fun _ => ite
      (bind (advance hu hroom fun _ => rfl) fun _ => pure _) (ofRead hu (pure _))

theorem flowEnd (code : Code) : Guards k P P (flowEnd code) :=
  ite
    (read fun _ _ => bind (valueOf _ _) fun _ => bind (updComplete _ _ _) fun _ =>
      bind (update fun _ => rfl) fun _ => returnState)
    (bind updFailed fun _ => bind (update fun _ => rfl) fun _ => returnState)

theorem closeAndReturn (code : Code) : Guards k (Writing k) (Writing k) (closeAndReturn code) :=
  bind (updateSession fun _ => rfl) fun _ => bind (valueOf _ _) fun kind => by
    cases kind
    · exact bind (flowEnd code) fun _ => pure _
    · exact bind returnState fun _ => pure _

theorem endSession (code : Code) : Guards k (Writing k) (Writing k) (endSession code) := by
  rw [endSession_eq]
  exact ite (bind flush fun _ => closeAndReturn _) (closeAndReturn code)

theorem ended (code : Code) : Guards k (Writing k) (Writing k) (ended code) :=
  bind (endSession code) fun _ => pure _

theorem goesOn : Guards k P P goesOn := pure _

theorem endTransfer : Guards k (Writing k) (Writing k) endTransfer := read fun _ _ => ended _

theorem frameError (kind : FrameErrorKind) (next : PState) :
    Guards k P P (do Machine.update fun s => s.frameError kind next; Machine.goesOn) :=
  bind (update fun _ => rfl) fun _ => goesOn

theorem keepCarry_cursor (u : Session) (l : List Byte) : (u.keepCarry l).cursor = u.cursor := by
  unfold Session.keepCarry
  split <;> rfl

theorem acceptDone (tag l : List Byte) : Guards k (Writing k) (Writing k) (acceptDone tag l) :=
  bind (updateSession fun s => congrArg (fun c => (s.par, s.mem, c)) (keepCarry_cursor s.sess l)) fun _ => goesOn

theorem acceptFailed (tag : List Byte) (code : Code) : Guards k (Writing k) (Writing k) (acceptFailed tag code) :=
  bind (update fun _ => rfl) fun _ => ended code

/-- An accepted frame is written from the granule of the cursor on (43_protocol.md R236, R237). -/
theorem accept : Guards k (Writing k) (Writing k) accept :=
  bind (update fun _ => rfl) fun _ => readSession fun _ hu => bind (valueOf _ _) fun _ =>
    ite (ofRead hu (acceptDone _ _)) <| ite_of (fun _ => ofRead hu (acceptFailed _ _)) fun hroom =>
      bind (mergeWrite hu _) fun _ => ite
        (bind (advance hu hroom fun _ => rfl) fun _ => acceptDone _ _) (ofRead hu (acceptFailed _ _))

theorem fieldEnd (c : Byte) : Guards k (Writing k) (Writing k) (fieldEnd c) :=
  read fun _ _ => ite
    (bind (valueOf _ _) fun _ => ite
      (bind accept fun _ => bind (update fun _ => rfl) fun _ => pure _) (frameError _ _))
    (frameError _ _)

theorem fieldStart_footing (s : State) (d : Byte) : (s.fieldStart d).footing = s.footing := by
  unfold State.fieldStart
  split <;> rfl

theorem fieldLength_footing (s : State) (d : Byte) : (s.fieldLength d).footing = s.footing := by
  unfold State.fieldLength
  dsimp only
  split
  · split <;> rfl
  · rfl

theorem fieldBody_footing (s : State) (d : Byte) : (s.fieldBody d).footing = s.footing := by
  unfold State.fieldBody
  dsimp only
  split <;> rfl

theorem fieldCrc_footing (s : State) (d : Byte) : (s.fieldCrc d).footing = s.footing := by
  unfold State.fieldCrc
  dsimp only
  split <;> rfl

theorem field (d : Byte) : Guards k (Writing k) (Writing k) (field d) := read fun s _ => by
  cases s.parser.pstate
  · exact bind (update fun s => fieldStart_footing s d) fun _ => goesOn
  · exact bind (update fun s => fieldLength_footing s d) fun _ => goesOn
  · exact bind (update fun s => fieldBody_footing s d) fun _ => goesOn
  · exact bind (update fun s => fieldCrc_footing s d) fun _ => goesOn
  · exact fieldEnd d

theorem feed (c : Byte) : Guards k (Writing k) (Writing k) (feed c) :=
  read fun _ _ => ite
    (ite
      (bind (update fun _ => rfl) fun _ => ite (field _) <| ite (field _) (frameError _ _))
      (ite (bind (update fun _ => rfl) fun _ => goesOn) <| ite (frameError _ _) (field c)))
    (field c)

theorem feedAll (l : List Byte) : Guards k (Writing k) (Writing k) (feedAll l) := by
  induction l with
  | nil => exact goesOn
  | cons c l ih =>
    exact bind (feed c) fun r => by
      cases r
      · exact ih
      · exact pure _

theorem checkTimeout (now : Word) : Guards k (Writing k) (Writing k) (checkTimeout now) :=
  read fun _ _ => ite (ended _) goesOn

theorem poll : Guards k (Writing k) (Writing k) poll :=
  read fun _ _ => ite
    (bind (update fun _ => rfl) fun _ => ite endTransfer <|
      bind (updateSession fun _ => rfl) fun _ => bind (feedAll _) fun r => by
        cases r
        · exact bind rxArm fun _ => ite (checkTimeout _) (ended _)
        · exact pure _)
    (bind (updateSession fun _ => rfl) fun _ => read fun _ _ => ite endTransfer (checkTimeout _))

/-! ### The dispatcher -/

/-- Any change of the session, where nothing is asked of it. -/
theorem updateAny {f : State → State} (h : ∀ s, (f s).par = s.par ∧ (f s).mem = s.mem) :
    Guards k AnySession AnySession (Machine.update f) := fun s hs _ => ⟨hs.of_eq (h s).1 (h s).2, trivial⟩

theorem startSession (base limit : Nat) (kind : SessKind) (ret : RetState) :
    Guards k AnySession AnySession (startSession base limit kind ret) :=
  bind rxArm fun _ => ite (bind (updateAny fun _ => ⟨rfl, rfl⟩) fun _ => pure _) (pure _)

theorem flowFailed (code : Code) (ret : RetState) : Guards k P P (flowFailed code ret) :=
  bind updFailed fun _ => bind (update fun _ => rfl) fun _ => pure _

theorem runFlow (ret : RetState) : Guards k AnySession AnySession (runFlow ret) :=
  bind updTarget fun t => read fun s hs => bind updStart fun _ => bind (update fun _ => rfl) fun _ =>
    bind (eraseRegion (by rw [hs]; exact k.lo_le_region t) _) fun _ => ite
      (bind (startSession _ _ _ _) fun _ => ite (pure _) (flowFailed _ _)) (flowFailed _ _)

theorem recoverIfUpdating : Guards k P P recoverIfUpdating := read fun s _ => by
  cases s.par.topology
  · exact bind abCache fun _ => ite (bind crashRecovery fun _ => pure _) (pure _)
  · exact pure _

theorem updateMarked : Guards k P P updateMarked := read fun s _ => by
  cases s.par.topology
  · exact bind abCache fun _ => pure _
  · exact bind srCache fun _ => pure _

theorem noneVerifies : Guards k P P noneVerifies := read fun s _ => by
  cases s.par.topology
  · exact bind (verify _) fun _ => bind (verify _) fun _ => pure _
  · exact bind (verify _) fun _ => pure _

theorem checkRecorded : Guards k AnySession AnySession checkRecorded :=
  bind recoverIfUpdating fun _ => bind updateMarked fun _ => bind noneVerifies fun _ =>
    ite (bind (runFlow _) fun _ => pure _) (update fun _ => rfl)

theorem check : Guards k AnySession AnySession check := by
  rw [check_eq]
  exact bind cfgLoad fun _ => ite checkRecorded (bind cfgInit fun _ => checkRecorded)

theorem jump : Guards k P P jump := bind bootSelect fun ⟨sel, _⟩ => by
  cases sel
  · exact update fun _ => rfl
  · exact update fun _ => rfl

/-! ### Commands that write RAM (20_memory.md R83) -/

/-- A command that ends by storing bytes in a span of RAM. -/
theorem storeRam {s : State} (hs : s.Intact k) (hp : P s.sess) {a n : Nat} (hr : inRam s.par a n = true)
    {l : List Byte} (hl : l.length ≤ n) {f : State → State}
    (hf : (f s).footing = (s.par, s.mem.store a l, s.sess)) (c : Code) :
    Leaves k P (do Machine.update f; Machine.raise c) s := by
  simp only [State.footing, Prod.mk.injEq] at hf
  obtain ⟨hpar, hmem, hsess⟩ := hf
  exact leaves_ok rfl (.of_eq (hs.storeRam hr hl) hpar hmem) (hsess ▸ hp)

theorem codecSpansOk_ram {s : State} (h : codecSpansOk s = true) : inRam s.par s.operand2 s.operand3 = true := by
  rw [codecSpansOk, Bool.and_eq_true] at h
  exact h.2

/-- The output of a codec command goes to the span of RAM that was checked (42_codec.md R196 to R198). -/
theorem emit {s : State} (hs : s.Intact k) (hp : P s.sess) (h : codecSpansOk s = true) (out : List Byte)
    (res1 : State → Word) : Leaves k P (emit out res1) s := by
  show Leaves k P (if s.operand3 < out.length then _ else _) s
  split
  · exact leaves (raise _) hs hp
  · exact storeRam hs hp (codecSpansOk_ram h) (Nat.not_lt.1 ‹_›) rfl .ok

/-- Where the cache holds no record, its bytes cannot be taken (10_state.md R55). -/
theorem serializeCache_fault {s : State} (h : ¬ s.hasRecord = true) :
    Machine.serializeCache s = .error (.fault (.noValue .configCache)) s := by
  unfold State.hasRecord at h
  rw [Machine.serializeCache, Engine.getState_bind]
  rcases ht : s.par.topology <;> rw [ht] at h
  · exact Engine.bind_run_error (by rw [Machine.abCache, Machine.valueOf, Option.not_isSome_iff_eq_none.1 h])
  · exact Engine.bind_run_error (by rw [Machine.srCache, Machine.valueOf, Option.not_isSome_iff_eq_none.1 h])

/-- The record goes to the span of RAM that was checked (45_config.md R318). -/
theorem storeRecord {s : State} (hs : s.Intact k) (hp : P s.sess)
    (hr : inRam s.par s.operand0 s.par.recSize = true) {f : List Byte → State → State}
    (hf : ∀ l, (f l s).footing = (s.par, s.mem.store s.operand0 l, s.sess)) (c : Code) :
    Leaves k P (do let l ← Machine.serializeCache; Machine.update (f l); Machine.raise c) s := by
  by_cases h : s.hasRecord = true
  · obtain ⟨l, hl, hlen⟩ := serializeCache_run h
    rw [Leaves, Engine.bind_run_ok hl]
    exact storeRam hs hp hr hlen.le (hf l) c
  · exact leaves_error (Engine.bind_run_error (serializeCache_fault h)) hs

/-! ### Commands -/

/-- A command whose body is guarded leaves an intact state, accepted or not; what the body asks of the session is
asked only where it is accepted. -/
theorem command {c : CmdClass} {body : Engine Code} (h : Guards k P P body) {s t : State} (hs : s.Intact k)
    (hp : refusalCode c s.dstate = none → P s.sess) (ht : runCommand c body s = .next t) : t.Intact k := by
  cases hc : refusalCode c s.dstate with
  | some d =>
    rw [runCommand_refused hc] at ht
    cases ht
    exact hs.of_eq rfl rfl
  | none =>
    have hb := h s hs (hp hc)
    rw [Leaves] at hb
    rw [runCommand_accepted hc] at ht
    rcases hx : body s with ⟨d, u⟩ | ⟨_ | f, u⟩ <;> rw [hx] at hb ht
    · cases ht
      exact hb.1.of_eq rfl rfl
    · cases ht
      exact hb
    · cases ht

/-- The same where the body asks nothing of the session. -/
theorem anyCommand {c : CmdClass} {body : Engine Code} {s t : State} (hs : s.Intact k)
    (ht : runCommand c body s = .next t) (h : Guards k AnySession AnySession body) : t.Intact k :=
  command h hs (fun _ => trivial) ht

/-- SESS_POLL is accepted in UPDATE only (30_encoding.md R127). -/
theorem sessPoll_accepted {d : DState} (h : refusalCode .sessPoll d = none) : d = .update := by
  cases d
  case update => rfl
  all_goals cases h

/-- Every command; SESS_POLL relies on where the open session's writer stands. -/
theorem exec_intact {s t : State} (hs : s.Intact k) (hw : s.dstate = .update → Writing k s.sess) {i : Instr}
    (h : exec i s = .next t) : t.Intact k := by
  cases i with
  | crcInit =>
    refine anyCommand hs h ?_
    exact bind (update fun _ => rfl) fun _ => raise _
  | crcUpdate =>
    refine anyCommand hs h ?_
    exact read fun _ _ => ite (bind (update fun _ => rfl) fun _ => raise _) (raise _)
  | crcUpdateByte b =>
    refine anyCommand hs h ?_
    exact bind (update fun _ => rfl) fun _ => raise _
  | crcFinal =>
    refine anyCommand hs h ?_
    exact bind (update fun _ => rfl) fun _ => raise _
  | crcCompute =>
    refine anyCommand hs h ?_
    exact read fun _ _ => ite (bind (update fun _ => rfl) fun _ => raise _) (raise _)
  | escape =>
    refine anyCommand hs h (readAll fun s hs hp => ?_)
    split
    · exact emit hs hp ‹_› _ _
    · exact leaves (raise _) hs hp
  | unescape =>
    refine anyCommand hs h (readAll fun s hs hp => ?_)
    split
    · split
      · refine leaves ?_ hs hp
        exact bind (update fun _ => rfl) fun _ => raise _
      · exact emit hs hp ‹_› _ _
    · exact leaves (raise _) hs hp
  | frameBuild v r sd =>
    refine anyCommand hs h (readAll fun s hs hp => ?_)
    split
    · exact leaves (raise _) hs hp
    · split
      · exact emit hs hp ‹_› _ _
      · exact leaves (raise _) hs hp
  | sessBegin =>
    refine anyCommand hs h ?_
    exact read fun _ _ => ite (raise _) <| ite (raise _) <| ite (raise _) <|
      bind (startSession _ _ _ _) fun _ => ite (raise _) (raise _)
  | sessPoll =>
    refine command (bind poll fun r => ?_) hs (fun hc => hw (sessPoll_accepted hc)) h
    cases r
    · exact bind (update fun _ => rfl) fun _ => raise _
    · exact bind (update fun _ => rfl) fun _ => raise _
  | sessProgress =>
    refine anyCommand hs h ?_
    exact bind (update fun _ => rfl) fun _ => raise _
  | flWrite =>
    refine anyCommand hs h (read fun s hpar => ite (raise _) <| ite (raise _) <|
      ite_of (fun _ => raise _) fun hm => ?_)
    rw [hpar, Bool.not_eq_true, Bool.not_eq_false'] at hm
    exact bind (writeFlash (k.lo_le_managed hm) _) fun _ => flashCode _
  | flWriteNocheck =>
    refine anyCommand hs h (read fun s hpar => ite (raise _) <| ite (raise _) <|
      ite_of (fun _ => raise _) fun hm => ?_)
    rw [hpar, Bool.not_eq_true, Bool.not_eq_false'] at hm
    exact bind (masked (noCheck (k.lo_le_managed hm) _)) fun _ => flashCode _
  | flRead =>
    refine anyCommand hs h (readAll fun s hs hp => ?_)
    split
    next hspans =>
      rw [Bool.and_eq_true] at hspans
      exact storeRam hs hp hspans.2 (Memory.read_length _ _ _).le rfl .ok
    · exact leaves (raise _) hs hp
  | flEraseSector =>
    refine anyCommand hs h (read fun s hpar => ite (raise _) <| ite_of (fun _ => raise _) fun hm => ?_)
    rw [hpar] at hm
    exact bind (masked (flashErase (k.lo_le_cfgAddr.trans (Nat.not_lt.1 hm)))) fun _ => flashCode _
  | cfgRead =>
    refine anyCommand hs h ?_
    exact bind cfgLoad fun _ => bind (update fun _ => rfl) fun _ => raise _
  | cfgWrite =>
    refine anyCommand hs h ?_
    exact requireValid <| bind cfgPersist fun _ => raise _
  | cfgInit =>
    refine anyCommand hs h ?_
    exact bind cfgInit fun _ => raise _
  | imgCrc =>
    refine anyCommand hs h ?_
    exact read fun _ _ => ite (raise _) (bind (update fun _ => rfl) fun _ => raise _)
  | imgVerify role =>
    refine anyCommand hs h ?_
    exact read fun _ _ => ite (raise _) <| requireValid <|
      bind (verify role) fun _ => bind (update fun _ => rfl) fun _ => raise _
  | bootSelect =>
    refine anyCommand hs h ?_
    refine requireValid <| bind bootSelect fun ⟨sel, _⟩ => bind (update fun _ => ?_) fun _ => raise _
    cases sel <;> rfl
  | updTarget =>
    refine anyCommand hs h ?_
    exact requireValid <| bind updTarget fun _ => bind (update fun _ => rfl) fun _ => raise _
  | updStart role =>
    refine anyCommand hs h ?_
    exact read fun _ _ => ite (raise _) <| requireValid <|
      bind updTarget fun _ => ite (raise _) <| bind updStart fun _ => raise _
  | updComplete role =>
    refine anyCommand hs h ?_
    exact read fun _ _ => ite (raise _) <| bind updTarget fun _ =>
      ite (raise _) <| requireValid <| bind (updComplete _ _ _) fun _ => raise _
  | updFailed =>
    refine anyCommand hs h ?_
    exact requireValid <| bind updFailed fun _ => raise _
  | bootConfirm =>
    refine anyCommand hs h (bind cfgLoad fun _ => ite (read fun s _ => ?_) (raise _))
    cases s.par.topology
    · exact bind abCache fun _ =>
        ite (bind (updateAb _) fun _ => bind cfgPersist fun _ => raise _) (raise _)
    · exact raise _
  | requestUpdate =>
    refine anyCommand hs h (bind cfgLoad fun _ => ite (read fun s _ => ?_) (raise _))
    cases s.par.topology
    · exact bind (updateAb _) fun _ => bind cfgPersist fun _ => raise _
    · exact bind (updateSr _) fun _ => bind cfgPersist fun _ => raise _
  | cfgGet =>
    refine anyCommand hs h (readAll fun s hs hp => ?_)
    split
    · exact storeRecord hs hp ‹_› (fun _ => rfl) .ok
    · exact leaves (raise _) hs hp
  | runApp =>
    refine anyCommand hs h (requireValid <| bind bootSelect fun ⟨sel, _⟩ => ?_)
    cases sel
    · exact bind (update fun _ => rfl) fun _ => raise _
    · exact bind (update fun _ => rfl) fun _ => raise _
  | startUpdate =>
    refine anyCommand hs h ?_
    exact requireValid <| bind (runFlow _) fun _ => raise _
  | erase =>
    refine anyCommand hs h (requireValid <| bind updTarget fun r => read fun _ hpar => ?_)
    exact bind (eraseRegion (by rw [hpar]; exact k.lo_le_region r) _) fun _ => raise _

end Guards

/-! ### One step -/

section
variable {k : Baseline} {s t : State}

theorem settle_intact {P Q : Session → Prop} {x : Engine Unit} (h : Guards k P Q x) (hs : s.Intact k)
    (hp : P s.sess) (ht : settle (x s) = .next t) : t.Intact k := by
  have hx := h s hs hp
  rw [Leaves] at hx
  rcases hxs : x s with ⟨a, u⟩ | ⟨_ | f, u⟩ <;> rw [hxs] at hx ht
  · cases ht
    exact hx.1
  · cases ht
    exact hx
  · cases ht

theorem foregroundStep_intact (hs : s.Intact k) (hw : s.dstate = .update → Writing k s.sess)
    (h : foregroundStep s = .next t) : t.Intact k := by
  unfold foregroundStep at h
  cases hd : s.dstate <;> rw [hd] at h
  case check => exact settle_intact .check hs trivial h
  case jump => exact settle_intact (.jump (P := AnySession)) hs trivial h
  case update =>
    rcases hk : s.sessKind with _ | _ | _ <;> rw [hk] at h
    · cases h
    · exact settle_intact (Guards.bind .poll fun _ => .pure ()) hs (hw hd) h
    · cases h
      exact hs
  all_goals
    cases h
    exact hs

theorem writeRegister_intact (hs : s.Intact k) (off : Nat) (v : Word) : (s.writeRegister off v).Intact k := by
  unfold State.writeRegister
  split <;> exact hs.of_eq rfl rfl

theorem portWrite_intact (hs : s.Intact k) (hw : s.dstate = .update → Writing k s.sess) {addr v : Word} {size : Nat}
    (h : portWrite addr size v s = .next t) : t.Intact k := by
  unfold portWrite issue at h
  dsimp only at h
  split at h
  · split at h
    · split at h
      · exact Guards.exec_intact hs hw h
      · cases h
        exact hs.of_eq rfl rfl
    · cases h
      exact writeRegister_intact hs _ v
  · cases h

theorem portRead_intact (hs : s.Intact k) {addr : Word} {size : Nat} (h : portRead addr size s = .next t) :
    t.Intact k := by
  unfold portRead at h
  dsimp only at h
  split at h
  · cases h
    exact hs.of_eq rfl rfl
  · cases h

theorem fillRam_intact (hs : s.Intact k) (addr : Word) (bytes : List Byte) : (s.fillRam addr bytes).Intact k := by
  unfold State.fillRam
  split
  · exact hs.storeRam ‹_› le_rfl
  · exact hs

theorem receiveLine_intact (hs : s.Intact k) (bytes : List Byte) : (s.receiveLine bytes).Intact k := by
  unfold State.receiveLine
  split <;> exact hs.of_eq rfl rfl

theorem deliverChunk_intact (hs : s.Intact k) (m : Nat) : (s.deliverChunk m).Intact k := by
  unfold State.deliverChunk
  split <;> exact hs.of_eq rfl rfl

theorem takeFatal_intact (hs : s.Intact k) : s.takeFatal.Intact k := by
  unfold State.takeFatal
  split <;> exact hs.of_eq rfl rfl

theorem takeInput_intact (hs : s.Intact k) (hw : s.dstate = .update → Writing k s.sess) {i : Input}
    (h : takeInput i s = .next t) : t.Intact k := by
  cases i with
  | foreground => exact foregroundStep_intact hs hw h
  | portWrite addr size v => exact portWrite_intact hs hw h
  | portRead addr size => exact portRead_intact hs h
  | ramWrite addr bytes =>
    cases h
    exact fillRam_intact hs addr bytes
  | hostSend bytes =>
    cases h
    exact receiveLine_intact hs bytes
  | deliver m =>
    cases h
    exact deliverChunk_intact hs m
  | clockAdvance ticks =>
    cases h
    exact hs.of_eq rfl rfl
  | fatalIn =>
    cases h
    exact takeFatal_intact hs
  | reset ram =>
    cases h
    exact hs.afterReset ram

/-- A step leaves the bytes below the bound, where an open session's writer stands at or above it. -/
theorem step_intact (hs : s.Intact k) (hw : s.dstate = .update → Writing k s.sess) (h : step s = .next t) :
    t.Intact k := by
  unfold step at h
  split at h
  case h_1 => exact foregroundStep_intact hs hw h
  case h_2 i rest _ =>
    exact takeInput_intact (s := s.withInputs rest) (hs.of_eq rfl rfl) hw h

end

/-- Settles O57: measured against the state itself with CFG_ADDR as the bound; the invariant gives sound parameters
and puts the cursor of an open session inside the managed range (43_protocol.md R247). -/
theorem bootloaderNeverWritten : Obligations.BootloaderNeverWritten := by
  intro s t hs hstep a hlo hhi
  have hsound := hs.sane.sound
  let k : Baseline := ⟨s.par, s.mem, s.par.cfgAddr, .inr ⟨hsound, rfl⟩⟩
  have hself : s.Intact k := ⟨rfl, id, fun _ _ _ _ => rfl⟩
  have hw : s.dstate = .update → Writing k s.sess := fun hd => by
    have hin := hs.inSession hd
    have hbase : s.par.cfgAddr ≤ s.sess.base.toNat := hin.base_ge
    show s.par.cfgAddr ≤ s.sess.cursor.toNat
    rw [hin.cursor_eq]
    exact Nat.le_add_right_of_le hbase
  exact (step_intact hself hw hstep).below hs.sane.memory.1 a hlo hhi

/-- Settles O59: measured against the state itself with no byte protected, so nothing is asked of the state. -/
theorem canonicalMemoryKept : Obligations.CanonicalMemoryKept := by
  intro s t hstep
  let k : Baseline := ⟨s.par, s.mem, 0, .inl rfl⟩
  have hself : s.Intact k := ⟨rfl, id, fun _ _ _ _ => rfl⟩
  have ht := step_intact hself (fun _ => Nat.zero_le _) hstep
  exact ⟨ht.par, ht.wf⟩

end Sys2Proof.Machine
end


section
/-! SUPPORT. The command word (30_encoding.md R120 to R126): each format's reader and writer undo each other, so do
the decoder and the encoder, and the legal words are the ones decoded. Then R127's refusals. -/

namespace Sys2Proof.Machine

/-! ### Words and their fields -/

@[simp] theorem opcode_wordB (o b : Byte) : (wordB o b).extractLsb' 0 8 = o := BitVec.extractLsb'_append_eq_right

@[simp] theorem opcode_wordR (o : Byte) (r : Role) : (wordR o r).extractLsb' 0 8 = o :=
  BitVec.extractLsb'_append_eq_right

@[simp] theorem opcode_wordH (o v r sd : Byte) : (wordH o v r sd).extractLsb' 0 8 = o :=
  BitVec.extractLsb'_append_eq_right

@[simp] theorem decodeRole_encodeRole (r : Role) : decodeRole (encodeRole r) = r := by cases r <;> rfl

@[simp] theorem encodeRole_decodeRole : ∀ f : BitVec 2, encodeRole (decodeRole f) = f := by decide

theorem eq_wordN {w : Word} (h : w.extractLsb' 8 24 = 0) : w = wordN (w.extractLsb' 0 8) := by
  have hw : w.extractLsb' 8 24 ++ w.extractLsb' 0 8 = w := by
    rw [BitVec.extractLsb'_append_extractLsb'_eq_extractLsb' (by rfl)]
    exact BitVec.extractLsb'_eq_self
  rw [h] at hw
  rw [wordN, BitVec.setWidth_eq_append (by decide)]
  exact hw.symm

theorem eq_wordB {w : Word} (h : w.extractLsb' 16 16 = 0) : w = wordB (w.extractLsb' 0 8) (w.extractLsb' 8 8) := by
  rw [wordB, ← h, BitVec.extractLsb'_append_extractLsb'_eq_extractLsb' (by rfl),
    BitVec.extractLsb'_append_extractLsb'_eq_extractLsb' (by rfl)]
  exact BitVec.extractLsb'_eq_self.symm

theorem eq_wordR {w : Word} (h : w.extractLsb' 10 22 = 0) :
    w = wordR (w.extractLsb' 0 8) (decodeRole (w.extractLsb' 8 2)) := by
  rw [wordR, encodeRole_decodeRole, ← h, BitVec.extractLsb'_append_extractLsb'_eq_extractLsb' (by rfl),
    BitVec.extractLsb'_append_extractLsb'_eq_extractLsb' (by rfl)]
  exact BitVec.extractLsb'_eq_self.symm

theorem eq_wordH (w : Word) :
    w = wordH (w.extractLsb' 0 8) (w.extractLsb' 8 8) (w.extractLsb' 16 8) (w.extractLsb' 24 8) := by
  rw [wordH, BitVec.extractLsb'_append_extractLsb'_eq_extractLsb' (by rfl),
    BitVec.extractLsb'_append_extractLsb'_eq_extractLsb' (by rfl),
    BitVec.extractLsb'_append_extractLsb'_eq_extractLsb' (by rfl)]
  exact BitVec.extractLsb'_eq_self.symm

/-- A word that a mask takes to 0 is 0 in every field the mask covers. -/
theorem field_eq_zero_of_masked {w m : Word} {k n : Nat} (hm : m.extractLsb' k n = BitVec.allOnes n)
    (h : w &&& m = 0) : w.extractLsb' k n = 0 := by
  have hk := congrArg (BitVec.extractLsb' k n) h
  rw [BitVec.extractLsb'_and, hm, BitVec.and_allOnes] at hk
  simpa using hk

/-! ### The formats -/

theorem formatB_wordB (o b : Byte) (f : Byte → Instr) : formatB (wordB o b) f = .ok (f b) := by
  have hres : (wordB o b).extractLsb' 16 16 = 0 := by
    rw [wordB, BitVec.extractLsb'_append_eq_of_le (by decide)]
    exact BitVec.extractLsb'_append_eq_left
  have himm : (wordB o b).extractLsb' 8 8 = b := by
    rw [wordB, BitVec.extractLsb'_append_eq_of_le (by decide)]
    exact BitVec.extractLsb'_append_eq_right
  rw [formatB, if_pos hres, himm]

theorem formatR_wordR (o : Byte) (r : Role) (f : Role → Instr) : formatR (wordR o r) f = .ok (f r) := by
  have hres : (wordR o r).extractLsb' 10 22 = 0 := by
    rw [wordR, BitVec.extractLsb'_append_eq_of_le (by decide)]
    exact BitVec.extractLsb'_append_eq_left
  have himm : (wordR o r).extractLsb' 8 2 = encodeRole r := by
    rw [wordR, BitVec.extractLsb'_append_eq_of_le (by decide)]
    exact BitVec.extractLsb'_append_eq_right
  rw [formatR, if_pos hres, himm, decodeRole_encodeRole]

theorem formatH_wordH (o v r sd : Byte) (f : Byte → Byte → Byte → Instr) :
    formatH (wordH o v r sd) f = .ok (f v r sd) := by
  have hv : (wordH o v r sd).extractLsb' 8 8 = v := by
    rw [wordH, BitVec.extractLsb'_append_eq_of_le (by decide)]
    exact BitVec.extractLsb'_append_eq_right
  have hr : (wordH o v r sd).extractLsb' 16 8 = r := by
    rw [wordH, BitVec.extractLsb'_append_eq_of_le (by decide), BitVec.extractLsb'_append_eq_of_le (by decide)]
    exact BitVec.extractLsb'_append_eq_right
  have hs : (wordH o v r sd).extractLsb' 24 8 = sd := by
    rw [wordH, BitVec.extractLsb'_append_eq_of_le (by decide), BitVec.extractLsb'_append_eq_of_le (by decide)]
    exact BitVec.extractLsb'_append_eq_left
  rw [formatH, hv, hr, hs]

section
variable {w : Word} {o : Byte} {j : Instr}

theorem encode_of_formatN {i : Instr} (h : formatN w i = .ok j) (hi : encode i = wordN o)
    (ho : (w.extractLsb' 0 8).toNat = o.toNat) : encode j = w := by
  unfold formatN at h
  split at h
  next hres =>
    cases h
    rw [hi, ← BitVec.eq_of_toNat_eq ho, ← eq_wordN hres]
  · cases h

theorem encode_of_formatB {f : Byte → Instr} (h : formatB w f = .ok j)
    (hf : ∀ b, encode (f b) = wordB o b) (ho : (w.extractLsb' 0 8).toNat = o.toNat) : encode j = w := by
  unfold formatB at h
  split at h
  next hres =>
    cases h
    rw [hf, ← BitVec.eq_of_toNat_eq ho, ← eq_wordB hres]
  · cases h

theorem encode_of_formatR {f : Role → Instr} (h : formatR w f = .ok j)
    (hf : ∀ r, encode (f r) = wordR o r) (ho : (w.extractLsb' 0 8).toNat = o.toNat) : encode j = w := by
  unfold formatR at h
  split at h
  next hres =>
    cases h
    rw [hf, ← BitVec.eq_of_toNat_eq ho, ← eq_wordR hres]
  · cases h

theorem encode_of_formatH {f : Byte → Byte → Byte → Instr} (h : formatH w f = .ok j)
    (hf : ∀ v r sd, encode (f v r sd) = wordH o v r sd) (ho : (w.extractLsb' 0 8).toNat = o.toNat) :
    encode j = w := by
  cases h
  rw [hf, ← BitVec.eq_of_toNat_eq ho, ← eq_wordH]

end

/-! ### The decoder and the encoder -/

theorem decode_encode (i : Instr) : decode (encode i) = .ok i := by
  cases i with
  | crcUpdateByte b =>
    rw [encode, decode, opcode_wordB]
    exact formatB_wordB _ b _
  | frameBuild v r sd =>
    rw [encode, decode, opcode_wordH]
    exact formatH_wordH _ v r sd _
  | imgVerify r | updStart r | updComplete r =>
    rw [encode, decode, opcode_wordR]
    exact formatR_wordR _ r _
  | _ => rfl

/-- Each arm of the decoder reads one opcode in one format; the encoder writes the same opcode in the same format. -/
theorem encode_of_decode {w : Word} {i : Instr} (h : decode w = .ok i) : encode i = w := by
  unfold decode at h
  split at h
  case h_3 ho => exact encode_of_formatB h (fun _ => rfl) ho
  case h_8 ho => exact encode_of_formatH h (fun _ _ _ => rfl) ho
  case h_20 ho => exact encode_of_formatR h (fun _ => rfl) ho
  case h_23 ho => exact encode_of_formatR h (fun _ => rfl) ho
  case h_24 ho => exact encode_of_formatR h (fun _ => rfl) ho
  case h_32 => cases h
  all_goals next ho => exact encode_of_formatN h rfl ho

/-! ### Legal words -/

theorem legalWord_encode (i : Instr) : legalWord (encode i) = true := by
  cases i with
  | crcUpdateByte b => exact Laws.EncodedForm.crcUpdateByte b
  | frameBuild v r sd => exact Laws.EncodedForm.frameBuild v r sd
  | imgVerify r => exact Laws.EncodedForm.imgVerify r
  | updStart r => exact Laws.EncodedForm.updStart r
  | updComplete r => exact Laws.EncodedForm.updComplete r
  | _ => rfl

/-- Every word of a row of the table, its opcode the row's and its reserved-zero bits 0, is decoded. -/
def RowDecodes (row : Byte × Word) : Prop :=
  ∀ w : Word, w.extractLsb' 0 8 = row.1 → w &&& row.2 = 0 → ∃ i, decode w = .ok i

namespace RowDecodes

variable {o : Byte}

theorem ofN (i : Instr) (hi : encode i = wordN o) : RowDecodes (o, 0xFFFFFF00) := by
  intro w ho (hm : w &&& 0xFFFFFF00 = 0)
  have hw := eq_wordN (field_eq_zero_of_masked (by decide) hm)
  rw [ho, ← hi] at hw
  exact ⟨i, hw ▸ decode_encode i⟩

theorem ofB (f : Byte → Instr) (hf : ∀ b, encode (f b) = wordB o b) : RowDecodes (o, 0xFFFF0000) := by
  intro w ho (hm : w &&& 0xFFFF0000 = 0)
  have hw := eq_wordB (field_eq_zero_of_masked (by decide) hm)
  rw [ho, ← hf] at hw
  exact ⟨_, hw ▸ decode_encode _⟩

theorem ofR (f : Role → Instr) (hf : ∀ r, encode (f r) = wordR o r) : RowDecodes (o, 0xFFFFFC00) := by
  intro w ho (hm : w &&& 0xFFFFFC00 = 0)
  have hw := eq_wordR (field_eq_zero_of_masked (by decide) hm)
  rw [ho, ← hf] at hw
  exact ⟨_, hw ▸ decode_encode _⟩

theorem ofH (f : Byte → Byte → Byte → Instr) (hf : ∀ v r sd, encode (f v r sd) = wordH o v r sd) :
    RowDecodes (o, 0x00000000) := by
  intro w ho _
  have hw := eq_wordH w
  rw [ho, ← hf] at hw
  exact ⟨_, hw ▸ decode_encode _⟩

end RowDecodes

open RowDecodes in
/-- The table's rows, each with its command and its format (30_encoding.md R120, R125). -/
theorem opcodeTable_decodes : ∀ row ∈ opcodeTable, RowDecodes row := by
  simp only [opcodeTable, List.forall_mem_cons]
  exact ⟨ofN .crcInit rfl, ofN .crcUpdate rfl, ofB .crcUpdateByte fun _ => rfl, ofN .crcFinal rfl,
    ofN .crcCompute rfl, ofN .escape rfl, ofN .unescape rfl, ofH .frameBuild fun _ _ _ => rfl,
    ofN .sessBegin rfl, ofN .sessPoll rfl, ofN .sessProgress rfl,
    ofN .flWrite rfl, ofN .flWriteNocheck rfl, ofN .flRead rfl, ofN .flEraseSector rfl,
    ofN .cfgRead rfl, ofN .cfgWrite rfl, ofN .cfgInit rfl, ofN .imgCrc rfl, ofR .imgVerify fun _ => rfl,
    ofN .bootSelect rfl, ofN .updTarget rfl, ofR .updStart fun _ => rfl, ofR .updComplete fun _ => rfl,
    ofN .updFailed rfl, ofN .bootConfirm rfl, ofN .requestUpdate rfl, ofN .cfgGet rfl,
    ofN .runApp rfl, ofN .startUpdate rfl, ofN .erase rfl, nofun⟩

theorem decode_of_legalWord {w : Word} (h : legalWord w = true) : ∃ i, decode w = .ok i := by
  simp only [legalWord, List.any_eq_true, Bool.and_eq_true, beq_iff_eq] at h
  obtain ⟨row, hrow, ho, hm⟩ := h
  exact opcodeTable_decodes row hrow w ho hm

theorem issue_illegal {w : Word} (h : legalWord w = false) (s : State) : issue w s = .next (s.finish .eIllegal) := by
  unfold issue
  split
  next i hi =>
    have hlegal := legalWord_encode i
    rw [encode_of_decode hi, h] at hlegal
    cases hlegal
  · rfl

/-! ### Refused commands (30_encoding.md R127) -/

theorem exec_refused {i : Instr} {s : State} {c : Code} (h : refusalCode (classOf i) s.dstate = some c) :
    exec i s = .next (s.finish c) := by
  obtain ⟨body, hbody⟩ := exec_eq_runCommand i
  rw [hbody, runCommand_refused h]

theorem refusalCode_busy {d : DState} (h : d = .check ∨ d = .jump) (k : CmdClass) :
    refusalCode k d = some .eBusy := by
  obtain rfl | rfl := h <;> cases k <;> rfl

theorem refusalCode_fault (k : CmdClass) : refusalCode k .fault = some .eState := by cases k <;> rfl

theorem refusalCode_update {k : CmdClass} (h : k = .sessBegin ∨ k = .write ∨ k = .app) :
    refusalCode k .update = some .eBusy := by
  obtain rfl | rfl | rfl := h <;> rfl

theorem refusalCode_noSession {d : DState} (h : d = .noImage ∨ d = .handedOff) :
    refusalCode .sessPoll d = some .eNoSession := by
  obtain rfl | rfl := h <;> rfl

theorem refusalCode_handedOff {k : CmdClass} (h : k = .sessBegin ∨ k = .write) :
    refusalCode k .handedOff = some .eState := by
  obtain rfl | rfl := h <;> rfl

/-! ### The statements -/

/-- Settles O1, from `decode_encode`. -/
theorem decodeReadsBackEncode : Obligations.DecodeReadsBackEncode := fun i _ => decode_encode i

/-- Settles O2, from `encode_of_decode`. -/
theorem encodeReadsBackDecode : Obligations.EncodeReadsBackDecode := fun _ _ h => encode_of_decode h

/-- Settles O3: each word is the encoding of its command. -/
theorem decodedWords : Obligations.DecodedWords :=
  ⟨decode_encode .crcUpdate, decode_encode (.crcUpdateByte 0x31), decode_encode (.imgVerify .b),
    decode_encode (.frameBuild 0x01 0x02 0x03), decode_encode .sessPoll, decode_encode (.updComplete .staging)⟩

/-- Settles O4, from `decode_of_legalWord` and `issue_illegal`. -/
theorem illegalWordRaises : Obligations.IllegalWordRaises :=
  fun _ s => ⟨decode_of_legalWord, fun h => issue_illegal h s⟩

/-- Settles O6, from `exec_refused` and the refusing cells of the acceptance table. -/
theorem refusedByDispatcherState : Obligations.RefusedByDispatcherState := by
  intro i s
  refine ⟨fun hd => ?_, fun hd => ?_, fun hd hk => ?_, fun hd hk => ?_, fun hd hk => ?_⟩
  · exact exec_refused (refusalCode_busy hd _)
  · exact exec_refused (hd ▸ refusalCode_fault _)
  · exact exec_refused (hd ▸ refusalCode_update hk)
  · exact exec_refused (hk ▸ refusalCode_noSession hd)
  · exact exec_refused (hd ▸ refusalCode_handedOff hk)

end Sys2Proof.Machine
end


section
/-! SUPPORT. The CRC unit (41_crc.md): one turn of the loop is linear over XOR, so the low byte of a state can be
looked up apart from the rest (R172); updates stream over concatenation (R173); what the five commands leave. -/

namespace Sys2Proof.Machine

/-! ### The loop and the table (41_crc.md R170, R172) -/

theorem crcBit_of_bit_clear {x : Word} (h : x.getLsbD 0 = false) : crcBit x = x >>> 1 := by rw [crcBit, h]

theorem crcBit_of_bit_set {x : Word} (h : x.getLsbD 0 = true) : crcBit x = (x >>> 1) ^^^ 0xEDB88320 := by
  rw [crcBit, h]

/-- The feedback polynomials of two states with the low bit set cancel, as those low bits do. -/
theorem crcBit_xor (x y : Word) : crcBit (x ^^^ y) = crcBit x ^^^ crcBit y := by
  have hlow : (x ^^^ y).getLsbD 0 = (x.getLsbD 0 ^^ y.getLsbD 0) := BitVec.getLsbD_xor
  have hshift : (x ^^^ y) >>> 1 = (x >>> 1) ^^^ (y >>> 1) := BitVec.ushiftRight_xor_distrib x y 1
  cases hx : x.getLsbD 0 <;> cases hy : y.getLsbD 0 <;> rw [hx, hy] at hlow
  · rw [crcBit_of_bit_clear hlow, crcBit_of_bit_clear hx, crcBit_of_bit_clear hy, hshift]
  · rw [crcBit_of_bit_set hlow, crcBit_of_bit_clear hx, crcBit_of_bit_set hy, hshift, BitVec.xor_assoc]
  · rw [crcBit_of_bit_set hlow, crcBit_of_bit_set hx, crcBit_of_bit_clear hy, hshift]
    ac_rfl
  · rw [crcBit_of_bit_clear hlow, crcBit_of_bit_set hx, crcBit_of_bit_set hy, hshift]
    calc (x >>> 1) ^^^ (y >>> 1)
        = (x >>> 1) ^^^ (y >>> 1) ^^^ ((0xEDB88320 : Word) ^^^ 0xEDB88320) := by
          rw [BitVec.xor_self, BitVec.xor_zero]
      _ = ((x >>> 1) ^^^ 0xEDB88320) ^^^ ((y >>> 1) ^^^ 0xEDB88320) := by ac_rfl

theorem crcBits_xor (n : Nat) (x y : Word) : crcBits n (x ^^^ y) = crcBits n x ^^^ crcBits n y := by
  induction n generalizing x y with
  | zero => rfl
  | succ n ih => simp only [crcBits, crcBit_xor, ih]

/-- A state whose low `n` bits are 0 meets no feedback in `n` turns. -/
theorem crcBits_of_bits_clear {n : Nat} {x : Word} (h : ∀ i < n, x.getLsbD i = false) :
    crcBits n x = x >>> n := by
  induction n generalizing x with
  | zero => exact (BitVec.ushiftRight_zero x).symm
  | succ n ih =>
    have hrest : ∀ i < n, (x >>> 1).getLsbD i = false := fun i hi => by
      rw [BitVec.getLsbD_ushiftRight]
      exact h (1 + i) (by omega)
    rw [crcBits, crcBit_of_bit_clear (h 0 (by omega)), ih hrest, Nat.add_comm n 1, BitVec.shiftRight_add]

/-- A state is its low byte and the rest. -/
theorem lowByte_xor_rest (x : Word) : (x.extractLsb' 0 8).setWidth 32 ^^^ ((x >>> 8) <<< 8) = x := by
  apply BitVec.eq_of_getLsbD_eq
  intro i hi
  by_cases hlow : i < 8
  · simp [hi, hlow]
  · simp [hi, hlow, show 8 + (i - 8) = i by omega]

theorem crcTable_eq_crcBits (i : Byte) : crcTable i = crcBits 8 (i.setWidth 32) :=
  congrArg (crcBits 8) BitVec.zero_xor

/-- Eight turns shift the rest of the state out unchanged; only the low byte feeds back. -/
theorem crcBits_eight (x : Word) : crcBits 8 x = (x >>> 8) ^^^ crcTable (x.extractLsb' 0 8) := by
  have hclear : ∀ i < 8, ((x >>> 8) <<< 8).getLsbD i = false := fun i hi => by simp [hi]
  have hrest : crcBits 8 ((x >>> 8) <<< 8) = x >>> 8 := by
    rw [crcBits_of_bits_clear hclear]
    apply BitVec.eq_of_getLsbD_eq
    intro i hi
    simpa using BitVec.lt_of_getLsbD
  calc crcBits 8 x
      = crcBits 8 ((x.extractLsb' 0 8).setWidth 32 ^^^ ((x >>> 8) <<< 8)) := by rw [lowByte_xor_rest]
    _ = crcTable (x.extractLsb' 0 8) ^^^ (x >>> 8) := by rw [crcBits_xor, hrest, crcTable_eq_crcBits]
    _ = (x >>> 8) ^^^ crcTable (x.extractLsb' 0 8) := BitVec.xor_comm _ _

theorem byte_ushiftRight_eight (b : Byte) : b.setWidth 32 >>> 8 = 0#32 := by
  apply BitVec.eq_of_getLsbD_eq
  intro i _
  simp

theorem crcStep_eq_crcStepTable (s : Word) (b : Byte) : crcStep s b = crcStepTable s b := by
  rw [crcStep, crcBits_eight, BitVec.ushiftRight_xor_distrib, byte_ushiftRight_eight, BitVec.xor_zero,
    crcStepTable]

/-! ### Streaming (41_crc.md R173) -/

theorem crcUpdate_append (s : Word) (a b : List Byte) : crcUpdate s (a ++ b) = crcUpdate (crcUpdate s a) b := by
  induction a generalizing s with
  | nil => rfl
  | cons c a ih => exact ih (crcStep s c)

theorem crc32_nil : crc32 [] = 0 := by decide

/-- Four bytes with the CRC of the empty list. -/
def crcZeroBytes : List Byte := [0x9D, 0x0A, 0xD9, 0x6D]

theorem crc32_crcZeroBytes : crc32 crcZeroBytes = crc32 [] := by decide +kernel

/-- After a zero byte the two lists, of one CRC, are told apart. -/
theorem crc32_zero_crcZeroBytes : crc32 ([0x00] ++ []) ≠ crc32 ([0x00] ++ crcZeroBytes) := by decide +kernel

/-! ### Accepted commands of class P -/

/-- The model's span test is the spec's (20_memory.md R81, R82). -/
theorem readable_iff {p : Config} {a n : Nat} : readable p a n = true ↔ SpanReadable p a n := by
  simp only [readable, inFlash, inRam, inWindow, SpanReadable, Bool.or_eq_true, Bool.and_eq_true,
    decide_eq_true_eq, beq_iff_eq]
  tauto

section
variable {s : State} {f : State → State}

/-- A command that writes registers and raises nothing. -/
theorem runCommand_update (h : s.AcceptsPure) :
    runCommand .pure (do update f; raise .ok) s = .next ((f s).finish .ok) :=
  runCommand_ok (refusalCode_pure h) rfl

/-- The body of a command that reads the span of ARG0 and ARG1 first (20_memory.md R82). -/
def overSpan (f : State → State) : Engine Code := do
  let s ← getState
  if readable s.par s.operand0 s.operand1 then do
    update f
    raise .ok
  else raise .eBadSpan

theorem runCommand_overSpan (h : s.AcceptsPure) (hr : SpanReadable s.par s.operand0 s.operand1) :
    runCommand .pure (overSpan f) s = .next ((f s).finish .ok) := by
  refine runCommand_ok (refusalCode_pure h) ?_
  rw [overSpan, Engine.getState_bind, if_pos (readable_iff.mpr hr), Engine.update_bind, Engine.raise_run]

theorem runCommand_overSpan_bad (h : s.AcceptsPure) (hr : ¬ SpanReadable s.par s.operand0 s.operand1) :
    runCommand .pure (overSpan f) s = .next (s.finish .eBadSpan) := by
  refine runCommand_ok (refusalCode_pure h) ?_
  rw [overSpan, Engine.getState_bind, if_neg (mt readable_iff.mp hr), Engine.raise_run]

end

/-- CRC_UPDATE's effect on a readable span (41_crc.md R176). -/
def State.crcFold (s : State) : State :=
  { s with crcState := crcUpdate s.crcState (s.mem.read s.operand0 s.operand1) }

/-- CRC_COMPUTE's effect on a readable span (41_crc.md R179). -/
def State.crcOfSpan (s : State) : State := { s with res0 := crc32 (s.mem.read s.operand0 s.operand1) }

theorem exec_crcUpdate (s : State) : exec .crcUpdate s = runCommand .pure (overSpan State.crcFold) s := rfl

theorem exec_crcCompute (s : State) : exec .crcCompute s = runCommand .pure (overSpan State.crcOfSpan) s := rfl

/-! ### The statements -/

/-- Settles O12, from the linearity of the loop (`crcStep_eq_crcStepTable`). -/
theorem crcTableFormAgrees : Obligations.CrcTableFormAgrees :=
  ⟨crcStep_eq_crcStepTable, by decide, by decide, by decide, by decide, by decide⟩

/-- Settles O13. The pairs `[0], []` and `[0], crcZeroBytes` agree in their CRCs, and the concatenations differ. -/
theorem crcStreamingLaws : Obligations.CrcStreamingLaws :=
  ⟨crcUpdate_append,
    ⟨[0x00], [0x00], [], crcZeroBytes, rfl, crc32_crcZeroBytes.symm, crc32_zero_crcZeroBytes⟩,
    crc32_nil, by decide +kernel⟩

/-- Settles O10: each command is one register write. -/
theorem crcRegisterCommands : Obligations.CrcRegisterCommands :=
  fun _ _ h => ⟨runCommand_update h, runCommand_update h, runCommand_update h⟩

/-- Settles O11: both commands are a register write behind the span test. -/
theorem crcSpanCommands : Obligations.CrcSpanCommands := by
  intro s h
  refine ⟨fun hr => ⟨?_, ?_⟩, fun hr => ⟨?_, ?_⟩⟩
  · exact (exec_crcUpdate s).trans (runCommand_overSpan h hr)
  · exact (exec_crcCompute s).trans (runCommand_overSpan h hr)
  · exact (exec_crcUpdate s).trans (runCommand_overSpan_bad h hr)
  · exact (exec_crcCompute s).trans (runCommand_overSpan_bad h hr)

end Sys2Proof.Machine
end


section
/-! SUPPORT. The frame codec (42_codec.md). A list long enough for both windows splits into two verbatim ends and an
interior; `escape` and `unescape` act on the interior alone, where `dec` reads back exactly the lists `escList`
writes (R190 to R194). Then the three commands, which store their output behind one test of both spans (R196 to
R198). -/

namespace Sys2Proof.Machine

/-! ### The interior: `escList` and `dec` (42_codec.md R190, R193) -/

theorem escByteOf_plain {b : Byte} (hf : b ≠ flagByte) (he : b ≠ escByte) : escByteOf b = [b] :=
  (if_neg hf).trans (if_neg he)

/-- No substitute holds the sentinel. -/
theorem flagByte_notMem_escByteOf (b : Byte) : flagByte ∉ escByteOf b := by
  by_cases hf : b = flagByte
  · rw [hf]; decide
  · by_cases he : b = escByte
    · rw [he]; decide
    · rw [escByteOf_plain hf he, List.mem_singleton]; exact Ne.symm hf

theorem escByteOf_length (b : Byte) :
    (escByteOf b).length = 1 + if b == flagByte || b == escByte then 1 else 0 := by
  by_cases hf : b = flagByte
  · rw [hf]; rfl
  · by_cases he : b = escByte
    · rw [he]; rfl
    · rw [escByteOf_plain hf he, if_neg (by simp [hf, he])]; rfl

theorem escList_cons (b : Byte) (l : List Byte) : escList (b :: l) = escByteOf b ++ escList l := rfl

theorem flagByte_notMem_escList (l : List Byte) : flagByte ∉ escList l := fun h =>
  have ⟨b, _, hb⟩ := List.mem_flatMap.1 h
  flagByte_notMem_escByteOf b hb

theorem escList_length (l : List Byte) :
    (escList l).length = l.length + l.countP fun b => b == flagByte || b == escByte := by
  induction l with
  | nil => rfl
  | cons b l ih => rw [escList_cons, List.length_append, escByteOf_length, ih, List.countP_cons,
      List.length_cons]; omega

theorem dec_nil (off : Nat) : dec [] off = .ok [] := rfl

theorem dec_plain {c : Byte} (hf : c ≠ flagByte) (he : c ≠ escByte) (w : List Byte) (off : Nat) :
    dec (c :: w) off = (dec w (off + 1)).cons c := by
  cases w <;> exact (if_neg hf).trans (if_neg he)

/-! The three anomalies (30_encoding.md R155). -/

theorem dec_flag (w : List Byte) (off : Nat) : dec (flagByte :: w) off = .anomaly off := by
  cases w <;> rfl

theorem dec_esc_alone (off : Nat) : dec [escByte] off = .anomaly off := rfl

theorem dec_esc_unknown {d : Byte} (hf : d ≠ escFlag) (he : d ≠ escEsc) (w : List Byte) (off : Nat) :
    dec (escByte :: d :: w) off = .anomaly off :=
  (if_neg hf).trans (if_neg he)

/-- The decoder takes one byte's substitute off the front of its input. -/
theorem dec_escByteOf_append (b : Byte) (w : List Byte) (off : Nat) :
    dec (escByteOf b ++ w) off = (dec w (off + (escByteOf b).length)).cons b := by
  by_cases hf : b = flagByte
  · rw [hf]; rfl
  · by_cases he : b = escByte
    · rw [he]; rfl
    · rw [escByteOf_plain hf he]; exact dec_plain hf he w off

/-- Decoding inverts escaping. -/
theorem dec_escList (l : List Byte) (off : Nat) : dec (escList l) off = .ok l := by
  induction l generalizing off with
  | nil => exact dec_nil off
  | cons b l ih => rw [escList_cons, dec_escByteOf_append, ih]; rfl

theorem Decoded.cons_eq_ok {b : Byte} {x : Decoded} {r : List Byte} (h : x.cons b = .ok r) :
    ∃ l, x = .ok l ∧ r = b :: l := by
  cases x with
  | ok l => exact ⟨l, rfl, (Decoded.ok.inj h).symm⟩
  | anomaly i => cases h

/-- Where escaping gives back what `w` decodes from, it does so with one more substitute in front. -/
theorem escList_of_dec_append {b : Byte} {w r : List Byte} {off : Nat}
    (ih : ∀ {l}, dec w (off + (escByteOf b).length) = .ok l → escList l = w)
    (h : dec (escByteOf b ++ w) off = .ok r) : escList r = escByteOf b ++ w := by
  obtain ⟨l, hl, rfl⟩ := Decoded.cons_eq_ok ((dec_escByteOf_append b w off).symm.trans h)
  rw [escList_cons, ih hl]

/-- Escaping inverts decoding: each list decodes from one wire form only (42_codec.md R194, canonical wire). -/
theorem escList_of_dec {w r : List Byte} {off : Nat} (h : dec w off = .ok r) : escList r = w := by
  induction w, off using dec.induct generalizing r with
  | case1 off => cases (dec_nil off).symm.trans h; rfl
  | case2 w off => cases (dec_flag w off).symm.trans h
  | case3 off => cases (dec_esc_alone off).symm.trans h
  | case4 off w _ ih => exact escList_of_dec_append (b := flagByte) ih h
  | case5 off w _ _ ih => exact escList_of_dec_append (b := escByte) ih h
  | case6 off d w hf he => cases (dec_esc_unknown hf he w off).symm.trans h
  | case7 c w off hf he ih =>
    have hc : escByteOf c = [c] := escByteOf_plain hf he
    have hstep := escList_of_dec_append (b := c) (w := w) (off := off) (r := r)
    rw [hc] at hstep
    exact hstep ih h

/-! ### The two windows (30_encoding.md R151, 42_codec.md R191 to R193) -/

/-- A list long enough for two windows of `k` positions is its windows and what is between them. -/
theorem exists_windows {k : Nat} {l : List Byte} (h : 2 * k ≤ l.length) :
    ∃ a x z, l = a ++ x ++ z ∧ a.length = k ∧ z.length = k := by
  refine ⟨l.take k, (l.drop k).take (l.length - 2 * k), l.drop (l.length - k), ?_, ?_, ?_⟩
  · have hz : l.drop (l.length - k) = (l.drop k).drop (l.length - 2 * k) := by
      rw [List.drop_drop]; congr 1; omega
    rw [hz, List.append_assoc, List.take_append_drop, List.take_append_drop]
  · rw [List.length_take]; omega
  · rw [List.length_drop]; omega

section
variable {m : EscMode} {a x z : List Byte}

theorem interior_windows {k : Nat} (ha : a.length = k) (hz : z.length = k) :
    ((a ++ x ++ z).drop k).take ((a ++ x ++ z).length - 2 * k) = x := by
  have hn : (a ++ x ++ z).length - 2 * k = x.length := by simp only [List.length_append]; omega
  rw [hn, List.append_assoc, List.drop_left' ha, List.take_left]

theorem first_window {k : Nat} (ha : a.length = k) : (a ++ x ++ z).take k = a := by
  rw [List.append_assoc, List.take_left' ha]

theorem last_window {k : Nat} (hz : z.length = k) : (a ++ x ++ z).drop ((a ++ x ++ z).length - k) = z := by
  have hn : (a ++ x ++ z).length - k = (a ++ x).length := by simp only [List.length_append]; omega
  rw [hn, List.drop_left]

theorem not_short_windows (ha : a.length = verbatim m) (hz : z.length = verbatim m) :
    ¬ (a ++ x ++ z).length < 2 * verbatim m := by
  simp only [List.length_append]; omega

theorem escape_short {r : List Byte} (h : r.length < 2 * verbatim m) : escape m r = r := if_pos h

theorem escape_windows (ha : a.length = verbatim m) (hz : z.length = verbatim m) :
    escape m (a ++ x ++ z) = a ++ escList x ++ z := by
  refine (if_neg (not_short_windows ha hz)).trans ?_
  show (a ++ x ++ z).take _ ++ escList (((a ++ x ++ z).drop _).take _) ++ (a ++ x ++ z).drop _ = _
  rw [first_window ha, interior_windows ha hz, last_window hz]

theorem unescape_short {w : List Byte} (h : w.length < 2 * verbatim m) : unescape m w = .ok w := if_pos h

/-- A list with both windows decodes as its interior does. -/
theorem unescape_windows (ha : a.length = verbatim m) (hz : z.length = verbatim m) {r : List Byte} :
    unescape m (a ++ x ++ z) = .ok r ↔ ∃ d, dec x (verbatim m) = .ok d ∧ r = a ++ d ++ z := by
  simp only [unescape, if_neg (not_short_windows ha hz), first_window ha, interior_windows ha hz, last_window hz]
  cases dec x (verbatim m) with
  | ok d => simp only [Decoded.ok.injEq, exists_eq_left', eq_comm]
  | anomaly i => simp only [reduceCtorEq, false_and, exists_false]

end

/-! ### The laws (42_codec.md R194) -/

/-- Every list is too short for its two windows, and is copied, or has them. -/
theorem short_or_windows (m : EscMode) (l : List Byte) :
    l.length < 2 * verbatim m ∨ ∃ a x z, l = a ++ x ++ z ∧ a.length = verbatim m ∧ z.length = verbatim m :=
  (Nat.lt_or_ge l.length (2 * verbatim m)).imp_right exists_windows

theorem unescape_escape (m : EscMode) (r : List Byte) : unescape m (escape m r) = .ok r := by
  obtain h | ⟨a, x, z, rfl, ha, hz⟩ := short_or_windows m r
  · rw [escape_short h, unescape_short h]
  · rw [escape_windows ha hz]
    exact (unescape_windows ha hz).2 ⟨x, dec_escList x _, rfl⟩

theorem escape_of_unescape {m : EscMode} {w r : List Byte} (h : unescape m w = .ok r) : escape m r = w := by
  obtain hw | ⟨a, x, z, rfl, ha, hz⟩ := short_or_windows m w
  · rw [unescape_short hw] at h
    cases h
    exact escape_short hw
  · obtain ⟨d, hd, rfl⟩ := (unescape_windows ha hz).1 h
    rw [escape_windows ha hz, escList_of_dec hd]

theorem escape_length (m : EscMode) (r : List Byte) :
    (escape m r).length = r.length + ((r.drop (verbatim m)).take (r.length - 2 * verbatim m)).countP
      fun b => b == flagByte || b == escByte := by
  obtain h | ⟨a, x, z, rfl, ha, hz⟩ := short_or_windows m r
  · have hn : r.length - 2 * verbatim m = 0 := by omega
    rw [escape_short h, hn, List.take_zero, List.countP_nil, Nat.add_zero]
  · rw [escape_windows ha hz, interior_windows ha hz]
    simp only [List.length_append, escList_length]
    omega

/-- The first window is the raw list's. -/
theorem escape_getElem?_of_lt {m : EscMode} {r : List Byte} {i : Nat} (hi : i < verbatim m) :
    (escape m r)[i]? = r[i]? := by
  obtain h | ⟨a, x, z, rfl, ha, hz⟩ := short_or_windows m r
  · rw [escape_short h]
  · rw [escape_windows ha hz, List.append_assoc, List.append_assoc, List.getElem?_append_left (ha ▸ hi),
      List.getElem?_append_left (ha ▸ hi)]

/-- So is the last byte. -/
theorem escape_getLast? (m : EscMode) (r : List Byte) : (escape m r).getLast? = r.getLast? := by
  obtain h | ⟨a, x, z, rfl, ha, hz⟩ := short_or_windows m r
  · rw [escape_short h]
  · have hne : z ≠ [] := List.ne_nil_of_length_pos (by rw [hz]; cases m <;> decide)
    rw [escape_windows ha hz, List.getLast?_append_of_ne_nil _ hne, List.getLast?_append_of_ne_nil _ hne]

/-- The sentinel stands in a window of the wire form, never between them. -/
theorem flagByte_in_window {m : EscMode} {r : List Byte} {i : Nat} (hr : 2 * verbatim m ≤ r.length)
    (h : (escape m r)[i]? = some flagByte) : i < verbatim m ∨ (escape m r).length ≤ i + verbatim m := by
  obtain ⟨a, x, z, rfl, ha, hz⟩ := exists_windows hr
  rw [escape_windows ha hz] at h ⊢
  by_contra hi
  simp only [List.length_append, not_or, Nat.not_lt, Nat.not_le] at hi
  rw [List.getElem?_append_left (by rw [List.length_append]; omega),
    List.getElem?_append_right (by omega)] at h
  exact flagByte_notMem_escList x (List.mem_of_getElem? h)

/-- In FULL mode the sentinel stands at the ends only, where the raw list has it. -/
theorem flagByte_at_end_of_full {r : List Byte} {i : Nat} (h : (escape .full r)[i]? = some flagByte) :
    (i = 0 ∧ r[0]? = some flagByte)
      ∨ (i + 1 = (escape .full r).length ∧ r[r.length - 1]? = some flagByte) := by
  have hlt : i < (escape .full r).length := (List.getElem?_eq_some_iff.1 h).1
  have hends : i < verbatim .full ∨ (escape .full r).length ≤ i + verbatim .full := by
    obtain hs | hl := Nat.lt_or_ge r.length (2 * verbatim .full)
    · rw [escape_short hs] at hlt
      simp only [verbatim] at hs ⊢
      omega
    · exact flagByte_in_window hl h
  simp only [verbatim] at hends
  obtain hfirst | hlast := hends
  · obtain rfl : i = 0 := by omega
    exact .inl ⟨rfl, by rw [← h, escape_getElem?_of_lt (by decide)]⟩
  · refine .inr ⟨by omega, ?_⟩
    have hi : i = (escape .full r).length - 1 := by omega
    rw [← List.getLast?_eq_getElem?, ← escape_getLast? .full r, List.getLast?_eq_getElem?, ← hi, h]

/-! ### The span test and the output (42_codec.md R196) -/

/-- The model's test of an output span is the spec's (20_memory.md R81, R83). -/
theorem inRam_iff {p : Config} {a n : Nat} : inRam p a n = true ↔ SpanWritable p a n := by
  simp only [inRam, inWindow, SpanWritable, Bool.or_eq_true, Bool.and_eq_true, decide_eq_true_eq, beq_iff_eq]

theorem codecSpansOk_iff {s : State} : codecSpansOk s = true ↔
    SpanReadable s.par s.operand0 s.operand1 ∧ SpanWritable s.par s.operand2 s.operand3 := by
  rw [codecSpansOk, Bool.and_eq_true, readable_iff, inRam_iff]

/-- The body of a codec command: the two spans are tested before anything else is done. -/
def behindSpans (x : State → Engine Code) : Engine Code := do
  let s ← getState
  if codecSpansOk s then x s else raise .eBadSpan

/-- What `emit` leaves where the output fits: it stands at ARG2, with its length in RES0 and `r` in RES1. -/
def State.emitted (s : State) (out : List Byte) (r : Word) : State :=
  { s with mem := s.mem.store s.operand2 out, res0 := BitVec.ofNat 32 out.length, res1 := r }

section
variable {s t : State} {x : State → Engine Code} {c : Code} {out : List Byte} {res1 : State → Word}

theorem emit_too_long (h : s.operand3 < out.length) : emit out res1 s = .ok .eCap s :=
  (Engine.ite_run _ _ _ s).trans (if_pos h)

theorem emit_fits (h : out.length ≤ s.operand3) : emit out res1 s = .ok .ok (s.emitted out (res1 s)) :=
  (Engine.ite_run _ _ _ s).trans (if_neg (Nat.not_lt.2 h))

theorem runCommand_behindSpans (h : s.AcceptsPure) (hr : SpanReadable s.par s.operand0 s.operand1)
    (hw : SpanWritable s.par s.operand2 s.operand3) (hx : x s s = .ok c t) :
    runCommand .pure (behindSpans x) s = .next (t.finish c) := by
  refine runCommand_ok (refusalCode_pure h) ?_
  rw [behindSpans, Engine.getState_bind, if_pos (codecSpansOk_iff.2 ⟨hr, hw⟩), hx]

theorem runCommand_behindSpans_bad (h : s.AcceptsPure)
    (hb : ¬ (SpanReadable s.par s.operand0 s.operand1 ∧ SpanWritable s.par s.operand2 s.operand3)) :
    runCommand .pure (behindSpans x) s = .next (s.finish .eBadSpan) := by
  refine runCommand_ok (refusalCode_pure h) ?_
  rw [behindSpans, Engine.getState_bind, if_neg (mt codecSpansOk_iff.1 hb), Engine.raise_run]

/-- An output that does not fit changes RESULT only. -/
theorem runCommand_emit_too_long (h : s.AcceptsPure) (hr : SpanReadable s.par s.operand0 s.operand1)
    (hw : SpanWritable s.par s.operand2 s.operand3) (hx : x s = emit out res1) (hl : s.operand3 < out.length) :
    runCommand .pure (behindSpans x) s = .next (s.finish .eCap) :=
  runCommand_behindSpans h hr hw (hx ▸ emit_too_long hl)

/-- An output that fits stands at ARG2, with every other byte of memory as before. -/
theorem runCommand_emit_fits (h : s.AcceptsPure) (hm : Memory.Wf s.mem)
    (hr : SpanReadable s.par s.operand0 s.operand1) (hw : SpanWritable s.par s.operand2 s.operand3)
    (hx : x s = emit out res1) (hl : out.length ≤ s.operand3) :
    ∃ t, runCommand .pure (behindSpans x) s = .next t
      ∧ t = { s with mem := t.mem, res0 := BitVec.ofNat 32 out.length, res1 := res1 s, result := 0 }
      ∧ StoredAt s.mem t.mem s.operand2 out :=
  ⟨(s.emitted out (res1 s)).finish .ok, runCommand_behindSpans h hr hw (hx ▸ emit_fits hl), rfl,
    Memory.storedAt hm _ _⟩

end

/-! ### The three commands (42_codec.md R196 to R198) -/

/-- What ESCAPE does once its spans are good. -/
def escapeSpan (s : State) : Engine Code :=
  emit (escape s.par.escMode (s.mem.read s.operand0 s.operand1)) (·.res1)

/-- What UNESCAPE does with what its input decodes to. -/
def emitDecoded : Decoded → Engine Code
  | .anomaly i => do
    update fun s => { s with res0 := 0, res1 := BitVec.ofNat 32 i }
    raise .eEscape
  | .ok out => emit out fun _ => 0xFFFFFFFF

/-- What UNESCAPE does once its spans are good. -/
def unescapeSpan (s : State) : Engine Code :=
  emitDecoded (unescape s.par.escMode (s.mem.read s.operand0 s.operand1))

/-- What FRAME_BUILD does once its length and its spans are good. -/
def frameSpan (v rc sd : Byte) (s : State) : Engine Code :=
  emit (wireFrame s.par.escMode v rc sd (s.mem.read s.operand0 s.operand1))
    fun _ => frameCrc (frameBody v rc sd (s.mem.read s.operand0 s.operand1))

theorem exec_escape (s : State) : exec .escape s = runCommand .pure (behindSpans escapeSpan) s := rfl

theorem exec_unescape (s : State) : exec .unescape s = runCommand .pure (behindSpans unescapeSpan) s := rfl

section
variable {s : State} (v rc sd : Byte)

/-- A payload longer than MAX_LEN allows is refused before the spans are looked at (42_codec.md R198). -/
theorem exec_frameBuild_long (h : s.AcceptsPure) (hn : s.par.maxLen - 3 < s.operand1) :
    exec (.frameBuild v rc sd) s = .next (s.finish .eBadArg) := by
  refine runCommand_ok (refusalCode_pure h) ?_
  rw [Engine.getState_bind, if_pos hn, Engine.raise_run]

theorem exec_frameBuild (h : s.AcceptsPure) (hn : s.operand1 ≤ s.par.maxLen - 3) :
    exec (.frameBuild v rc sd) s = runCommand .pure (behindSpans (frameSpan v rc sd)) s := by
  show execFrameBuild v rc sd s = _
  rw [execFrameBuild, runCommand_accepted (refusalCode_pure h), runCommand_accepted (refusalCode_pure h),
    Engine.getState_bind, if_neg (Nat.not_lt.2 hn)]
  rfl

end

/-! ### The statements -/

/-- Settles O14: the ends are verbatim, and `dec` and `escList` are inverse on the interior. -/
theorem escapeLaws : Obligations.EscapeLaws := by
  refine ⟨unescape_escape, fun _ _ _ => escape_of_unescape, escape_length, fun _ _ => flagByte_at_end_of_full, ?_⟩
  intro r i hr hlo hhi hflag
  rcases flagByte_in_window (m := .window5) hr hflag with h | h <;> simp only [verbatim] at h <;> omega

/-- Settles O15. -/
theorem escapeCommand : Obligations.EscapeCommand := by
  intro s out h hm hout
  have hx : escapeSpan s = emit out (·.res1) := by rw [hout]; rfl
  rw [exec_escape]
  exact ⟨runCommand_behindSpans_bad h, fun hr hw =>
    ⟨runCommand_emit_too_long h hr hw hx, runCommand_emit_fits h hm hr hw hx⟩⟩

/-- Settles O16: an anomaly ends the command before the capacity is looked at (30_encoding.md R128). -/
theorem unescapeCommand : Obligations.UnescapeCommand := by
  intro s h hm
  rw [exec_unescape]
  refine ⟨runCommand_behindSpans_bad h, fun hr hw => ⟨fun i hi => ?_, fun out hout => ?_⟩⟩
  · have hx : unescapeSpan s = emitDecoded (.anomaly i) := congrArg emitDecoded hi
    exact runCommand_behindSpans h hr hw (congrFun hx s)
  · have hx : unescapeSpan s = emit out fun _ => 0xFFFFFFFF := congrArg emitDecoded hout
    exact ⟨runCommand_emit_too_long h hr hw hx, runCommand_emit_fits h hm hr hw hx⟩

/-- Settles O17: behind the length test the command is a store of the wire frame (42_codec.md R195). -/
theorem frameBuildCommand : Obligations.FrameBuildCommand := by
  intro s v rc sd body out crc h hm hbody hcrc hout
  subst hbody
  have hx : frameSpan v rc sd s = emit out fun _ => crc := by rw [hout, hcrc]; rfl
  refine ⟨exec_frameBuild_long v rc sd h, fun hn => ?_⟩
  rw [exec_frameBuild v rc sd h hn]
  exact ⟨runCommand_behindSpans_bad h, fun hr hw =>
    ⟨runCommand_emit_too_long h hr hw hx, runCommand_emit_fits h hm hr hw hx⟩⟩

end Sys2Proof.Machine
end

section
/-! SUPPORT. The receive parser byte by byte (43_protocol.md R222 to R226): what a wire byte decodes to, and what the
rule of each state does with it. -/

namespace Sys2Proof.Machine

section
variable {s t : State} {c d : Byte}

/-! ### From wire bytes to field bytes (43_protocol.md R222) -/

/-- The wire byte `c` is its own decoding: it stands outside an escaped field, or is neither FLAG nor ESC there. -/
abbrev State.ReadsPlain (s : State) (c : Byte) : Prop :=
  escapedState s.par.escMode s.parser.pstate = false ∨ s.parser.escPend = false ∧ c ≠ escByte ∧ c ≠ flagByte

theorem feed_plain (h : s.ReadsPlain c) : feed c s = field c s := by
  rw [feed, Engine.getState_bind]
  rcases h with hout | ⟨hpend, hesc, hflag⟩
  · rw [hout, if_neg Bool.false_ne_true]
  · rw [hpend, if_neg Bool.false_ne_true, if_neg hesc, if_neg hflag, ite_self]

/-- ESC in an escaped field only sets `esc_pend`. -/
theorem feed_esc (hin : escapedState s.par.escMode s.parser.pstate = true) (hpend : s.parser.escPend = false) :
    feed escByte s = .ok none { s with parser := { s.parser with escPend := true } } := by
  rw [feed, Engine.getState_bind, if_pos hin, hpend, if_neg Bool.false_ne_true, if_pos rfl]
  rfl

/-- The state in which the byte after ESC meets its rule. -/
def State.afterEsc (s : State) : State := { s with parser := { s.parser with escPend := false } }

/-- The byte after ESC stands for FLAG or for ESC. -/
theorem feed_escaped (hin : escapedState s.par.escMode s.parser.pstate = true) (hpend : s.parser.escPend = true)
    (h : c = escFlag ∧ d = flagByte ∨ c = escEsc ∧ d = escByte) :
    feed c s = field d s.afterEsc := by
  rw [feed, Engine.getState_bind, if_pos hin, if_pos hpend, Engine.update_bind]
  rcases h with ⟨rfl, rfl⟩ | ⟨rfl, rfl⟩
  · exact congrFun (if_pos rfl) _
  · exact congrFun ((if_neg (by decide)).trans (if_pos rfl)) _

/-! ### The rule of each state (43_protocol.md R223 to R226) -/

theorem field_waitStart (h : s.parser.pstate = .waitStart) (d : Byte) : field d s = .ok none (s.fieldStart d) := by
  rw [field, Engine.getState_bind, h]; rfl

theorem field_readLength (h : s.parser.pstate = .readLength) (d : Byte) :
    field d s = .ok none (s.fieldLength d) := by
  rw [field, Engine.getState_bind, h]; rfl

theorem field_readBody (h : s.parser.pstate = .readBody) (d : Byte) : field d s = .ok none (s.fieldBody d) := by
  rw [field, Engine.getState_bind, h]; rfl

theorem field_readCrc (h : s.parser.pstate = .readCrc) (d : Byte) : field d s = .ok none (s.fieldCrc d) := by
  rw [field, Engine.getState_bind, h]; rfl

theorem field_waitEnd (h : s.parser.pstate = .waitEnd) (d : Byte) : field d s = fieldEnd d s := by
  rw [field, Engine.getState_bind, h]

/-- WAIT_START is no escaped field, so each wire byte reaches its rule. -/
theorem feed_waitStart (h : s.parser.pstate = .waitStart) (c : Byte) : feed c s = .ok none (s.fieldStart c) :=
  (feed_plain (.inl (by rw [h]; cases s.par.escMode <;> rfl))).trans (field_waitStart h c)

/-- Nor is WAIT_END. -/
theorem feed_waitEnd (h : s.parser.pstate = .waitEnd) (c : Byte) : feed c s = fieldEnd c s :=
  (feed_plain (.inl (by rw [h]; cases s.par.escMode <;> rfl))).trans (field_waitEnd h c)

theorem field_readLength_early (h : s.parser.pstate = .readLength) (hn : s.parser.pcount < 3) (d : Byte) :
    field d s = .ok none { s with parser := { s.parser with
      lenAcc := accumulate s.parser.lenAcc d s.parser.pcount, pcount := s.parser.pcount + 1 } } :=
  (field_readLength h d).trans (congrArg _ (if_neg (by omega)))

theorem field_readLength_last (h : s.parser.pstate = .readLength) (hn : s.parser.pcount = 3)
    (hmin : minLen ≤ (accumulate s.parser.lenAcc d 3).toNat)
    (hmax : (accumulate s.parser.lenAcc d 3).toNat ≤ s.par.maxLen) :
    field d s = .ok none { s with parser := { s.parser with
      lenAcc := accumulate s.parser.lenAcc d 3, pcount := 0, pstate := .readBody, body := [] } } := by
  rw [field_readLength h, State.fieldLength, hn]
  exact congrArg _ ((if_pos rfl).trans (if_pos ⟨hmin, hmax⟩))

theorem field_readBody_early (h : s.parser.pstate = .readBody)
    (hn : s.parser.body.length + 1 ≠ s.parser.lenAcc.toNat) (d : Byte) :
    field d s = .ok none { s with parser := { s.parser with body := s.parser.body ++ [d] } } :=
  (field_readBody h d).trans (congrArg _ (if_neg (by rwa [List.length_append])))

theorem field_readBody_last (h : s.parser.pstate = .readBody)
    (hn : s.parser.body.length + 1 = s.parser.lenAcc.toNat) (d : Byte) :
    field d s = .ok none { s with parser := { s.parser with
      body := s.parser.body ++ [d], pstate := .readCrc, pcount := 0 } } :=
  (field_readBody h d).trans (congrArg _ (if_pos (by rwa [List.length_append])))

theorem field_readCrc_early (h : s.parser.pstate = .readCrc) (hn : s.parser.pcount < 3) (d : Byte) :
    field d s = .ok none { s with parser := { s.parser with
      crcRaw := s.parser.crcRaw.set s.parser.pcount d,
      crcAcc := accumulate s.parser.crcAcc d s.parser.pcount, pcount := s.parser.pcount + 1 } } :=
  (field_readCrc h d).trans (congrArg _ (if_neg (by show ¬ s.parser.pcount + 1 = 4; omega)))

theorem field_readCrc_last (h : s.parser.pstate = .readCrc) (hn : s.parser.pcount = 3) (d : Byte) :
    field d s = .ok none { s with parser := { s.parser with
      crcRaw := s.parser.crcRaw.set 3 d, crcAcc := accumulate s.parser.crcAcc d 3, pcount := 0,
      pstate := .waitEnd } } := by
  rw [field_readCrc h, State.fieldCrc, hn]
  exact congrArg _ (if_pos rfl)

end

/-- Settles O22: each byte is decoded once (`feed_plain`, `feed_escaped`) and then meets its state's rule. -/
theorem receiveByteRules : Obligations.ReceiveByteRules := by
  intro s c d p hp
  refine ⟨fun hst => ?start, fun hin hpend hc => hc ▸ feed_esc hin hpend, fun hdec => ?decoded⟩
  case start =>
    rw [feed_waitStart hst, State.fieldStart]
    rfl
  case decoded =>
    have hfeed : feed c s = field d s.afterEsc := by
      rcases hdec with ⟨hplain, rfl, hsame⟩ | ⟨hin, hpend, hpair⟩
      · have hs : s.afterEsc = s := congrArg (fun q => ({ s with parser := q } : State)) (hp.symm.trans hsame)
        rw [hs]
        exact feed_plain hplain
      · exact feed_escaped hin hpend hpair
    subst hp
    refine ⟨fun hst hn => ?_, fun hst hn hmin hmax => ?_, fun hst hn => ?_, fun hst hn => ?_, fun hst hn => ?_,
      fun hst hn => ?_⟩
    · exact hfeed.trans (field_readLength_early (s := s.afterEsc) hst hn d)
    · exact hfeed.trans (field_readLength_last (s := s.afterEsc) hst hn hmin hmax)
    · exact hfeed.trans (field_readBody_early (s := s.afterEsc) hst hn d)
    · exact hfeed.trans (field_readBody_last (s := s.afterEsc) hst hn d)
    · exact hfeed.trans (field_readCrc_early (s := s.afterEsc) hst hn d)
    · exact hfeed.trans (field_readCrc_last (s := s.afterEsc) hst hn d)

end Sys2Proof.Machine
end

section
/-! SUPPORT. A whole wire frame (43_protocol.md R245 a): its four fields fed in order bring the parser from WAIT_START
to WAIT_END with the frame's length, body and CRC, and END has it accepted (R236, R237). -/

namespace Sys2Proof.Machine

/-! ### The wire form of a field (30_encoding.md R151, R153) -/

/-- One byte of a field as the sender puts it on the wire, in the field that `PSTATE = ps` receives. -/
def wireByte (m : EscMode) (ps : PState) (b : Byte) : List Byte :=
  if escapedState m ps then escByteOf b else [b]

/-- A field as the sender puts it on the wire. -/
def wireField (m : EscMode) (ps : PState) (l : List Byte) : List Byte := l.flatMap (wireByte m ps)

theorem wireField_escaped {m : EscMode} {ps : PState} (h : escapedState m ps = true) (l : List Byte) :
    wireField m ps l = escList l :=
  congrArg (l.flatMap ·) (funext fun _ => if_pos h)

theorem wireField_plain {m : EscMode} {ps : PState} (h : escapedState m ps = false) (l : List Byte) :
    wireField m ps l = l := by
  have hbyte : wireByte m ps = fun b => [b] := funext fun b => if_neg (by rw [h]; exact Bool.false_ne_true)
  rw [wireField, hbyte, List.flatMap_singleton']

theorem escList_append (a b : List Byte) : escList (a ++ b) = escList a ++ escList b := List.flatMap_append

/-- A wire frame is its four fields between the two sentinels, each in its own wire form. -/
theorem wireFrame_fields (m : EscMode) (v rc sd : Byte) (p : List Byte) :
    wireFrame m v rc sd p = [flagByte] ++ wireField m .readLength (le32 (BitVec.ofNat 32 (frameBody v rc sd p).length))
      ++ wireField m .readBody (frameBody v rc sd p) ++ wireField m .readCrc (le32 (frameCrc (frameBody v rc sd p)))
      ++ [flagByte] := by
  rw [wireField_escaped (ps := .readBody) (by cases m <;> rfl)]
  cases m
  · rw [wireField_plain rfl, wireField_plain rfl, wireFrame, assembleFrame]
    exact (congrArg _ (List.append_assoc _ _ _)).trans
      ((escape_windows (m := .window5) rfl rfl).trans (List.append_assoc _ _ _).symm)
  · rw [wireField_escaped rfl, wireField_escaped rfl, List.append_assoc [flagByte], List.append_assoc [flagByte],
      ← escList_append, ← escList_append, wireFrame, assembleFrame, List.append_assoc [flagByte],
      List.append_assoc [flagByte]]
    exact escape_windows (m := .full) rfl rfl

/-! ### Feeding a field -/

section
variable {s t u : State}

theorem feedAll_singleton {c : Byte} (h : feed c s = .ok none t) : feedAll [c] s = .ok none t :=
  Engine.bind_run_ok h

/-- The wire form of a byte brings that byte to its state's rule, once (43_protocol.md R222). -/
theorem feedAll_wireByte {b : Byte} (hp : s.parser.escPend = false) (h : field b s = .ok none t) :
    feedAll (wireByte s.par.escMode s.parser.pstate b) s = .ok none t := by
  have hplain (hr : s.ReadsPlain b) : feedAll [b] s = .ok none t := feedAll_singleton ((feed_plain hr).trans h)
  have hpair {c : Byte} (hin : escapedState s.par.escMode s.parser.pstate = true)
      (hc : c = escFlag ∧ b = flagByte ∨ c = escEsc ∧ b = escByte) : feedAll [escByte, c] s = .ok none t := by
    have hback : State.afterEsc { s with parser := { s.parser with escPend := true } } = s :=
      congrArg (fun e => ({ s with parser := { s.parser with escPend := e } } : State)) hp.symm
    have hsecond := feed_escaped (s := { s with parser := { s.parser with escPend := true } }) hin rfl hc
    rw [hback, h] at hsecond
    exact (Engine.bind_run_ok (feed_esc hin hp)).trans (feedAll_singleton hsecond)
  rw [wireByte]
  split
  · next hin =>
    by_cases hf : b = flagByte
    · rw [hf]
      exact hpair hin (.inl ⟨rfl, hf⟩)
    · by_cases he : b = escByte
      · rw [he]
        exact hpair hin (.inr ⟨rfl, he⟩)
      · rw [escByteOf_plain hf he]
        exact hplain (.inr ⟨hp, he, hf⟩)
  · next hout => exact hplain (.inl (Bool.eq_false_iff.2 hout))

/-- A field's first byte, and then the rest of the field. -/
theorem feedAll_wireField_cons {m : EscMode} {ps : PState} {b : Byte} {l : List Byte} (hm : s.par.escMode = m)
    (hps : s.parser.pstate = ps) (hp : s.parser.escPend = false) (h : field b s = .ok none u)
    (hrest : feedAll (wireField m ps l) u = .ok none t) : feedAll (wireField m ps (b :: l)) s = .ok none t := by
  subst hm hps
  exact (feedAll_append _ (feedAll_wireByte hp h)).trans hrest

/-- Four bytes accumulated from the lowest on are the word (43_protocol.md R224, R226). -/
theorem accumulate_le32 (w : Word) :
    accumulate (accumulate (accumulate (accumulate 0 (w.extractLsb' 0 8) 0) (w.extractLsb' 8 8) 1)
      (w.extractLsb' 16 8) 2) (w.extractLsb' 24 8) 3 = w := by
  refine BitVec.eq_of_getLsbD_eq fun i hi => ?_
  simp only [accumulate, BitVec.getLsbD_or, BitVec.getLsbD_shiftLeft, BitVec.getLsbD_setWidth,
    BitVec.getLsbD_extractLsb']
  interval_cases i <;> simp

/-- The parser in the LENGTH field after `n` bytes. -/
def Parser.atLength (n : Nat) (acc : Word) : Parser :=
  { Parser.cleared .readLength with pcount := n, lenAcc := acc }

theorem feedAll_length_cons {m : EscMode} {n : Nat} {acc : Word} {b : Byte} {l : List Byte} (hm : s.par.escMode = m)
    (hn : n < 3) (h : feedAll (wireField m .readLength l)
      { s with parser := Parser.atLength (n + 1) (accumulate acc b n) } = .ok none t) :
    feedAll (wireField m .readLength (b :: l)) { s with parser := Parser.atLength n acc } = .ok none t :=
  feedAll_wireField_cons (s := { s with parser := Parser.atLength n acc }) hm rfl rfl
    (field_readLength_early (s := { s with parser := Parser.atLength n acc }) rfl hn b) h

/-- The LENGTH field (43_protocol.md R224). -/
theorem feedAll_length {m : EscMode} {len : Word} (hm : s.par.escMode = m) (hmin : minLen ≤ len.toNat)
    (hmax : len.toNat ≤ s.par.maxLen) :
    feedAll (wireField m .readLength (le32 len)) { s with parser := Parser.cleared .readLength }
      = .ok none { s with parser := { Parser.cleared .readBody with lenAcc := len } } := by
  have hlast {acc : Word} {b : Byte} (h : accumulate acc b 3 = len) :
      field b { s with parser := Parser.atLength 3 acc }
        = .ok none { s with parser := { Parser.cleared .readBody with lenAcc := len } } := by
    subst h
    exact field_readLength_last (s := { s with parser := Parser.atLength 3 acc }) rfl rfl hmin hmax
  refine feedAll_length_cons (n := 0) hm (by decide) ?_
  refine feedAll_length_cons hm (by decide) ?_
  refine feedAll_length_cons hm (by decide) ?_
  exact feedAll_wireField_cons hm rfl rfl (hlast (accumulate_le32 len)) rfl

/-- The body (43_protocol.md R225): the last byte of the declared length ends it. -/
theorem feedAll_body {m : EscMode} {l : List Byte} (hm : s.par.escMode = m) (hps : s.parser.pstate = .readBody)
    (hp : s.parser.escPend = false) (hl : l ≠ [])
    (hlen : s.parser.body.length + l.length = s.parser.lenAcc.toNat) :
    feedAll (wireField m .readBody l) s = .ok none { s with parser := { s.parser with
      body := s.parser.body ++ l, pstate := .readCrc, pcount := 0 } } := by
  induction l generalizing s with
  | nil => exact absurd rfl hl
  | cons b l ih =>
    cases l with
    | nil => exact feedAll_wireField_cons hm hps hp (field_readBody_last hps hlen b) rfl
    | cons c l =>
      have hmore : s.parser.body.length + 1 ≠ s.parser.lenAcc.toNat := by
        simp only [List.length_cons] at hlen
        omega
      have hrest := ih (s := { s with parser := { s.parser with body := s.parser.body ++ [b] } }) hm hps hp nofun (by
        simp only [List.length_cons, List.length_append, List.length_nil] at hlen ⊢
        omega)
      rw [List.append_assoc, List.singleton_append] at hrest
      exact feedAll_wireField_cons hm hps hp (field_readBody_early hps hmore b) hrest

/-- The parser in the CRC field of a frame with the given body, after `n` bytes. -/
def Parser.atCrc (len : Word) (body : List Byte) (n : Nat) (acc : Word) (raw : List Byte) : Parser :=
  { pstate := .readCrc, pcount := n, lenAcc := len, crcAcc := acc, crcRaw := raw, body := body, escPend := false }

theorem feedAll_crc_cons {m : EscMode} {len acc : Word} {body raw : List Byte} {n : Nat} {b : Byte} {l : List Byte}
    (hm : s.par.escMode = m) (hn : n < 3) (h : feedAll (wireField m .readCrc l)
      { s with parser := Parser.atCrc len body (n + 1) (accumulate acc b n) (raw.set n b) } = .ok none t) :
    feedAll (wireField m .readCrc (b :: l)) { s with parser := Parser.atCrc len body n acc raw } = .ok none t :=
  feedAll_wireField_cons (s := { s with parser := Parser.atCrc len body n acc raw }) hm rfl rfl
    (field_readCrc_early (s := { s with parser := Parser.atCrc len body n acc raw }) rfl hn b) h

/-- The CRC field (43_protocol.md R226). -/
theorem feedAll_crc {m : EscMode} {len crc : Word} {body : List Byte} (hm : s.par.escMode = m) :
    feedAll (wireField m .readCrc (le32 crc)) { s with parser := Parser.atCrc len body 0 0 [0, 0, 0, 0] }
      = .ok none { s with parser := { Parser.atCrc len body 0 crc (le32 crc) with pstate := .waitEnd } } := by
  have hlast {acc : Word} {raw : List Byte} {b : Byte} (hacc : accumulate acc b 3 = crc)
      (hraw : raw.set 3 b = le32 crc) : field b { s with parser := Parser.atCrc len body 3 acc raw }
        = .ok none { s with parser := { Parser.atCrc len body 0 crc (le32 crc) with pstate := .waitEnd } } := by
    rw [← hraw, ← hacc]
    exact field_readCrc_last (s := { s with parser := Parser.atCrc len body 3 acc raw }) rfl rfl b
  refine feedAll_crc_cons hm (by decide) ?_
  refine feedAll_crc_cons hm (by decide) ?_
  refine feedAll_crc_cons hm (by decide) ?_
  exact feedAll_wireField_cons hm rfl rfl (hlast (accumulate_le32 crc) rfl) rfl

end

end Sys2Proof.Machine
end

section
/-! SUPPORT. The flash writer at the cursor of an open session, when no call fails (43_protocol.md R236, R237, R242,
R245 a): an accepted frame, and a whole wire frame. -/

namespace Sys2Proof.Machine

/-! ### The writer at the cursor -/

/-- The flash writer may be called at the session's cursor, and no flash call fails (43_protocol.md R237, 20_memory.md
R98). -/
abbrev State.Writable (s : State) : Prop :=
  Memory.Wf s.mem ∧ s.par.Sound ∧ s.irqMasked = false ∧ s.flashOk = true
    ∧ s.par.flashBase ≤ s.sess.cursor.toNat ∧ (s.sess.cursor.toNat - s.par.flashBase) % 2 = 0

/-- The cursor stands a whole number of halfwords above the session's aligned base (43_protocol.md R220, R247). -/
theorem State.InSession.writable {s : State} (h : s.InSession) (hf : s.flashOk = true) : s.Writable := by
  have hbase : s.par.flashBase ≤ s.sess.base.toNat := (wrLo_ge h.sound).trans h.base_ge
  have hcur := h.cursor_eq
  have heven := h.written_even
  obtain ⟨k, hk⟩ := h.sound.granule_even.trans (granuleAligned_dvd h.aligned hbase)
  exact ⟨h.memory.1, h.sound, h.unmasked, hf, by omega, by omega⟩

theorem mergeWrite_writable {s : State} (h : s.Writable) (hws : List Half) :
    ∃ t m, mergeWrite s.sess.cursor.toNat hws s = .ok true t ∧ WriteDone s t m ∧ Memory.Wf m
      ∧ StoredAt s.mem m s.sess.cursor.toNat (halfBytes hws) := by
  obtain ⟨hwf, hsound, hirq, hok, hge, heven⟩ := h
  exact mergeWrite_done hwf hsound hirq hok hge heven

/-! ### An accepted frame (43_protocol.md R236) -/

/-- The bytes that make up whole halfwords; an odd last byte is left over. -/
theorem halfBytes_halves_take (l : List Byte) : halfBytes (halves l) = l.take (2 * (l.length / 2)) := by
  have hall : halves l = halves (l.take (2 * (l.length / 2))) := by
    rw [← halves_take, List.take_of_length_le (halves_length l).le]
  rw [hall, halfBytes_halves _ (by rw [List.length_take]; omega)]

theorem keepCarry_eq (u : Session) (l : List Byte) :
    u.keepCarry l = { u with pendValid := decide (l.length % 2 = 1),
                             pendByte := if l.length % 2 = 1 then l.getLastD 0 else u.pendByte } := by
  by_cases h : l.length % 2 = 1 <;> simp [Session.keepCarry, h]

/-- The cursor and the count of bytes written move together. -/
def Session.advance (u : Session) (n : Nat) : Session :=
  { u with cursor := u.cursor + BitVec.ofNat 32 n, written := u.written + BitVec.ofNat 32 n }

theorem Session.advance_zero (u : Session) : u.advance 0 = u := by
  simp [Session.advance]

/-- What an accepted frame leaves where its bytes are written. -/
def State.accepted (s : State) (bytes : List Byte) (u : State) : State :=
  { s with framesOk := s.framesOk + 1, mem := u.mem, scratch := u.scratch, env := u.env,
           sess := (s.sess.advance (2 * (bytes.length / 2))).keepCarry bytes }.sendStatus s.parser.crcRaw 0

/-- `Accept()` of a frame whose bytes fit under the session's limit. -/
theorem accept_done {s : State} (h : s.Writable) (hb : s.parser.body.length = s.parser.lenAcc.toNat)
    {bytes : List Byte} (hbytes : bytes = s.payloadBytes s.parser.body)
    (hroom : s.sess.cursor.toNat + 2 * (bytes.length / 2) ≤ s.sess.limit.toNat) :
    ∃ u, accept s = .ok none (s.accepted bytes u) ∧ OnlyFlashCalls s.env u.env
      ∧ StoredAt s.mem u.mem s.sess.cursor.toNat (bytes.take (2 * (bytes.length / 2))) := by
  rw [accept, Engine.update_bind, Engine.getState_bind,
    Engine.bind_run_ok (wholeBody_ok (s := { s with framesOk := s.framesOk + 1 }) hb)]
  dsimp only
  rw [show State.payloadBytes { s with framesOk := s.framesOk + 1 } s.parser.body = bytes from hbytes.symm,
    Engine.ite_run, Engine.ite_run, halves_length]
  split
  · next hnone =>
    refine ⟨s, ?_, .refl _, ?_⟩
    · rw [State.accepted, hnone, Nat.mul_zero, Session.advance_zero]
      rfl
    · rw [hnone]
      exact .refl _ _
  · rw [if_neg (Nat.not_lt.2 hroom)]
    obtain ⟨t, m, ht, hd, -, hst⟩ :=
      mergeWrite_writable (s := { s with framesOk := s.framesOk + 1 }) h (halves bytes)
    rw [Engine.bind_run_ok ht, if_pos rfl, Engine.update_bind]
    refine ⟨t, ?_, hd.2.1, ?_⟩
    · rw [hd.1]
      rfl
    · rw [hd.mem, ← halfBytes_halves_take]
      exact hst

/-- END after a frame that has all its bytes and the right CRC (43_protocol.md R227). -/
theorem fieldEnd_accept {s t : State} (hb : s.parser.body.length = s.parser.lenAcc.toNat)
    (hcrc : frameCrc s.parser.body = s.parser.crcAcc) (h : accept s = .ok none t) :
    fieldEnd flagByte s = .ok none { t with parser := { t.parser with pstate := .waitStart } } := by
  rw [fieldEnd, Engine.getState_bind, if_pos rfl, Engine.bind_run_ok (wholeBody_ok hb), if_pos hcrc,
    Engine.bind_run_ok h]
  rfl

/-! ### A whole wire frame (43_protocol.md R245 a) -/

/-- The parser where a frame with the given body has arrived but for its END. -/
def Parser.atEnd (body : List Byte) : Parser :=
  { Parser.atCrc (BitVec.ofNat 32 body.length) body 0 (frameCrc body) (le32 (frameCrc body)) with
    pstate := .waitEnd }

/-- A wire frame fed in WAIT_START reaches WAIT_END with all its fields gathered, and nothing else changed. -/
theorem feedAll_wireFrame {s t : State} {v rc sd : Byte} {pay : List Byte} (hp : s.parser.pstate = .waitStart)
    (hlen : (BitVec.ofNat 32 (frameBody v rc sd pay).length).toNat = (frameBody v rc sd pay).length)
    (hmax : (frameBody v rc sd pay).length ≤ s.par.maxLen)
    (h : feed flagByte { s with parser := Parser.atEnd (frameBody v rc sd pay) } = .ok none t) :
    feedAll (wireFrame s.par.escMode v rc sd pay) s = .ok none t := by
  generalize hbody : frameBody v rc sd pay = body at hlen hmax h
  have hthree : minLen ≤ body.length := by rw [← hbody, frameBody, List.length_append]; exact Nat.le_add_right _ _
  have hstart : feedAll [flagByte] s = .ok none { s with parser := Parser.cleared .readLength } :=
    feedAll_singleton (feed_waitStart hp flagByte)
  have hlength := feedAll_length (s := s) (len := BitVec.ofNat 32 body.length) rfl (hthree.trans_eq hlen.symm)
    (hlen.trans_le hmax)
  have hgather := feedAll_body (l := body)
    (s := { s with parser := { Parser.cleared .readBody with lenAcc := BitVec.ofNat 32 body.length } }) rfl rfl rfl
    (List.ne_nil_of_length_pos (Nat.lt_of_lt_of_le (by decide) hthree)) ((Nat.zero_add _).trans hlen.symm)
  have hcrc := feedAll_crc (s := s) (len := BitVec.ofNat 32 body.length) (crc := frameCrc body) (body := body) rfl
  have hend := feedAll_singleton h
  rw [wireFrame_fields, hbody]
  simp only [List.append_assoc]
  rw [feedAll_append _ hstart, feedAll_append _ hlength, feedAll_append _ hgather]
  exact (feedAll_append _ hcrc).trans hend

/-- Settles O24: the frame is gathered (`feedAll_wireFrame`) and accepted (`accept_done`). -/
theorem wireFrameAccepted : Obligations.WireFrameAccepted := by
  intro s v rc sd pay bytes n hinv hd hp hf hmax hbytes hn hroom
  subst hn
  have hin := hinv.inSession hd
  have hbody : (frameBody v rc sd pay).length = pay.length + 3 := by
    simp only [frameBody, List.length_append, List.length_cons, List.length_nil]; omega
  have hlen : (BitVec.ofNat 32 (frameBody v rc sd pay).length).toNat = (frameBody v rc sd pay).length := by
    have hlt := hin.sound.max_lt
    rw [BitVec.toNat_ofNat, Nat.mod_eq_of_lt (by omega)]
  have hw : State.Writable { s with parser := Parser.atEnd (frameBody v rc sd pay) } := hin.writable hf
  obtain ⟨u, haccept, henv, hstored⟩ := accept_done hw hlen.symm hbytes hroom
  have hfeed := (feed_waitEnd rfl flagByte).trans (fieldEnd_accept hlen.symm rfl haccept)
  refine ⟨_, feedAll_wireFrame hp hlen (hbody ▸ hmax) hfeed, ?_, henv, hstored, rfl, rfl, ?_⟩
  · simp only [State.accepted, keepCarry_eq, Session.advance]
    rfl
  · have hcrc : frameCrc (frameBody v rc sd pay)
        = crc32 (le32 (BitVec.ofNat 32 (pay.length + 3)) ++ [v, rc, sd] ++ pay) := by
      rw [frameCrc, hbody, frameBody, List.append_assoc]
    rw [← hcrc]
    rfl

end Sys2Proof.Machine
end

section
/-! SUPPORT. The commands of the protocol unit (43_protocol.md R221, R240, R246): SESS_BEGIN's checks in order, and
every way in which a poll of a RAW session with no frame waiting goes on or ends the session (R241 to R244). -/

namespace Sys2Proof.Machine

/-! ### SESS_PROGRESS and SESS_BEGIN -/

/-- Settles O19: the command is one register write. -/
theorem sessProgressCommand : Obligations.SessProgressCommand := fun _ h => runCommand_update h

theorem granuleAligned_iff {p : Config} {a : Nat} : granuleAligned p a = true ↔ Aligned p a := beq_iff_eq

theorem managed_iff_inManaged {p : Config} {lo hi : Nat} : managed p lo hi = true ↔ InManaged p lo hi := managed_iff

/-- An accepted SESS_BEGIN makes its checks in the order of R221, and then the channel answers. -/
theorem exec_sessBegin {s : State} (h : s.AcceptsWrite) :
    exec .sessBegin s =
      if s.operand1 < s.operand0 then .next (s.finish .eBadArg)
      else if ¬ Aligned s.par s.operand0 then .next (s.finish .eAlign)
      else if ¬ InManaged s.par s.operand0 s.operand1 then .next (s.finish .eRange)
      else if s.armAnswer = true then .next ((sessionOpened s s.arg0 s.arg1 .raw .noImage).finish .ok)
      else .next ((armRefused s).finish .eRxStart) := by
  show execSessBegin s = _
  rw [execSessBegin, runCommand_accepted (by rw [h]; rfl), Engine.getState_bind]
  simp only [Engine.ite_run, Engine.raise_run, Bool.not_eq_true', ← Bool.not_eq_true, granuleAligned_iff,
    managed_iff_inManaged]
  by_cases hord : s.operand1 < s.operand0
  · rw [if_pos hord, if_pos hord]
  · rw [if_neg hord, if_neg hord]
    by_cases hal : ¬ Aligned s.par s.operand0
    · rw [if_pos hal, if_pos hal]
    · rw [if_neg hal, if_neg hal]
      by_cases hman : ¬ InManaged s.par s.operand0 s.operand1
      · rw [if_pos hman, if_pos hman]
      · rw [if_neg hman, if_neg hman]
        cases harm : s.armAnswer
        · rw [Engine.bind_run_ok (startSession_refused harm _ _ _ _)]
          rfl
        · have h0 : BitVec.ofNat 32 s.operand0 = s.arg0 := by simp [State.operand0]
          have h1 : BitVec.ofNat 32 s.operand1 = s.arg1 := by simp [State.operand1]
          rw [Engine.bind_run_ok (startSession_ok harm _ _ _ _), h0, h1]
          rfl

/-- Settles O18. -/
theorem sessBeginCommand : Obligations.SessBeginCommand := by
  intro s h
  have hrun := exec_sessBegin h
  refine ⟨fun hbad => hrun.trans (if_pos hbad), fun hord hal => ?_, fun hord hal hman => ?_, fun hord hal hman => ?_⟩
  all_goals have hrun := hrun.trans (if_neg (Nat.not_lt.2 hord))
  · exact hrun.trans (if_pos hal)
  · exact (hrun.trans (if_neg (not_not.2 hal))).trans (if_pos hman)
  · have hrun := (hrun.trans (if_neg (not_not.2 hal))).trans (if_neg (not_not.2 hman))
    exact ⟨fun harm => hrun.trans (if_neg (by rw [harm]; exact Bool.false_ne_true)),
      fun harm => hrun.trans (if_pos harm)⟩

/-! ### The end of a RAW session (43_protocol.md R242, R244) -/

/-- A RAW session that SESS_BEGIN opened (43_protocol.md R221). -/
abbrev State.Raw (s : State) : Prop := s.sessKind = some .raw ∧ s.retState = some .noImage

/-- A closed RAW session: the dispatcher is back in NOIMAGE (43_protocol.md R244). -/
def State.closeRaw (s : State) (code : Code) : State := { s.closeSession code with dstate := .noImage }

section
variable {s t : State}

theorem returnState_run {r : RetState} (h : s.retState = some r) :
    returnState s = .ok () { s with dstate := r.dstate } :=
  Engine.bind_run_ok (Engine.valueOf_run h)

theorem closeAndReturn_raw (h : s.Raw) (code : Code) : closeAndReturn code s = .ok code (s.closeRaw code) := by
  obtain ⟨hkind, hret⟩ := h
  rw [closeAndReturn, Engine.update_bind,
    Engine.bind_run_ok (Engine.valueOf_run (v := State.sessKind) (s := s.closeSession code) hkind)]
  exact Engine.bind_run_ok (returnState_run (s := s.closeSession code) hret)

theorem ended_raw_failed (h : s.Raw) {code : Code} (hc : code ≠ .ok) :
    ended code s = .ok (some code) (s.closeRaw code) := by
  rw [ended, endSession_eq, if_neg hc, Engine.bind_run_ok (closeAndReturn_raw h code)]
  rfl

theorem ended_raw_flushed (h : t.Raw) {code : Code} (hf : flush s = .ok code t) :
    ended .ok s = .ok (some code) (t.closeRaw code) := by
  rw [ended, endSession_eq, if_pos rfl,
    Engine.bind_run_ok ((Engine.bind_run_ok hf).trans (closeAndReturn_raw h code))]
  rfl

theorem flush_nothing (h : s.sess.pendValid = false) : flush s = .ok .ok s := by
  rw [flush, Engine.getState_bind, h, if_pos (by decide)]
  rfl

theorem flush_overflow (h : s.sess.pendValid = true) (hfull : s.sess.limit.toNat < s.sess.cursor.toNat + 2) :
    flush s = .ok .eOverflow s := by
  rw [flush, Engine.getState_bind, h, if_neg (by decide), if_pos hfull]
  rfl

/-- What the flush of a carry byte leaves where flash calls have brought `s` to `u`. -/
def State.flushed (s u : State) : State :=
  { s with mem := u.mem, scratch := u.scratch, env := u.env,
           sess := { s.sess with cursor := s.sess.cursor + 2, written := s.sess.written + 1, pendValid := false } }

/-- The carry byte is written, padded with 0xFF (43_protocol.md R242). -/
theorem flush_carry (hw : s.Writable) (h : s.sess.pendValid = true)
    (hroom : s.sess.cursor.toNat + 2 ≤ s.sess.limit.toNat) :
    ∃ u, flush s = .ok .ok (s.flushed u) ∧ OnlyFlashCalls s.env u.env
      ∧ StoredAt s.mem u.mem s.sess.cursor.toNat [s.sess.pendByte, 0xFF] := by
  obtain ⟨u, m, hu, hd, -, hst⟩ := mergeWrite_writable hw [(erasedByte ++ s.sess.pendByte : Half)]
  refine ⟨u, ?_, hd.2.1, ?_⟩
  · rw [flush, Engine.getState_bind, h, if_neg (by decide), if_neg (Nat.not_lt.2 hroom), Engine.bind_run_ok hu,
      if_pos rfl, Engine.update_bind, hd.1]
    rfl
  · rw [halfBytes_cons, le16_append] at hst
    rw [hd.mem]
    exact hst

/-! ### The end of the transfer (43_protocol.md R241) -/

theorem dataSeen_iff : s.sess.dataSeen = true ↔ s.DataSeen := by
  rw [Session.dataSeen, Bool.or_eq_true, bne_iff_ne]

theorem endTransfer_noData (h : s.Raw) (hd : ¬ s.DataSeen) :
    endTransfer s = .ok (some .eNoData) (s.closeRaw .eNoData) := by
  rw [endTransfer, Engine.getState_bind, if_neg (mt dataSeen_iff.1 hd), ended_raw_failed h (by decide)]

theorem endTransfer_flushed {code : Code} (hf : flush s = .ok code t) (h : t.Raw) (hd : s.DataSeen) :
    endTransfer s = .ok (some code) (t.closeRaw code) := by
  rw [endTransfer, Engine.getState_bind, if_pos (dataSeen_iff.2 hd), ended_raw_flushed h hf]

/-! ### The poll (43_protocol.md R240, R243) -/

/-- One more idle poll is counted. -/
def State.idled (s : State) : State :=
  { s with sess := { s.sess with idleCount := idleNext s.sess.idleCount } }

theorem poll_idle (h : s.rx.ready = false) :
    poll s = if s.IdleEnds then endTransfer s.idled else checkTimeout s.env.clock s.idled := by
  rw [poll, Engine.getState_bind, h, if_neg Bool.false_ne_true, Engine.update_bind, Engine.getState_bind,
    Engine.ite_run]
  rfl

theorem poll_marker (h : s.MarkerReady) :
    poll s = endTransfer { s with rx := { s.rx with ready := false } } := by
  obtain ⟨hready, hbuf, hstart⟩ := h
  have hmark : isEndMarker s = true := by rw [isEndMarker, hbuf, hstart]; rfl
  rw [poll, Engine.getState_bind, if_pos hready, Engine.update_bind, if_pos hmark]

/-- The budget is tested on the clock as the poll found it. -/
theorem checkTimeout_run (now : Word) :
    checkTimeout now s = if s.par.sessionTimeout ≤ (now - s.sess.startTick).toNat then
      ended (if s.sess.dataSeen then .eTimeoutPartial else .eTimeoutNoData) s else .ok none s := by
  rw [checkTimeout, Engine.getState_bind, Engine.ite_run]
  rfl

theorem sessPoll_goesOn (hd : s.dstate = .update) (h : poll s = .ok none t) :
    exec .sessPoll s = .next { t with res0 := 0, result := 0 } := by
  refine runCommand_ok (by rw [hd]; rfl) (t := { t with res0 := 0 }) (c := .ok) ?_
  rw [Engine.bind_run_ok h]
  rfl

theorem sessPoll_ended (hd : s.dstate = .update) {code : Code} (h : poll s = .ok (some code) t) :
    exec .sessPoll s = .next { t with res0 := 1, result := code.value } := by
  refine runCommand_ok (by rw [hd]; rfl) (t := { t with res0 := 1 }) (c := code) ?_
  rw [Engine.bind_run_ok h]
  rfl

/-- The poll that ends a RAW session. -/
theorem sessPoll_endedRaw (hd : s.dstate = .update) {code : Code} (h : poll s = .ok (some code) (t.closeRaw code)) :
    exec .sessPoll s = .next (t.rawEnded code.value) := sessPoll_ended hd h

end

/-- Settles O20: with no chunk the poll is `poll_idle`, with the end marker `poll_marker`, and the session ends as
`endTransfer` and the flush say. -/
theorem sessPollCommand : Obligations.SessPollCommand := by
  intro s hd hkind hret
  have hraw : s.Raw := ⟨hkind, hret⟩
  have hidle (hr : s.rx.ready = false) (hi : s.IdleEnds) : poll s = endTransfer s.idled :=
    (poll_idle hr).trans (if_pos hi)
  have hbusy (hr : s.rx.ready = false) (hi : ¬ s.IdleEnds) : poll s = checkTimeout s.env.clock s.idled :=
    (poll_idle hr).trans (if_neg hi)
  have hwritable (hinv : s.Inv) (hf : s.flashOk = true) : s.Writable := (hinv.inSession hd).writable hf
  refine ⟨fun hr hi ht => ?goesOn, fun hr hi ht => ?timeout, fun hr hi hn => ?idleNoData,
    fun hr hi hw hp => ?idleDone, fun hr hi hp hfull => ?idleFull, fun hr hi hp hroom hinv hf => ?idleCarry,
    fun hm hn => ?markNoData, fun hm hw hp => ?markDone, fun hm hp hfull => ?markFull,
    fun hm hp hroom hinv hf => ?markCarry⟩
  case goesOn => exact sessPoll_goesOn hd ((hbusy hr hi).trans ((checkTimeout_run _).trans (if_neg ht)))
  case timeout =>
    have hend := (hbusy hr hi).trans ((checkTimeout_run _).trans (if_pos ht))
    by_cases hn : s.DataSeen
    · rw [if_pos hn]
      rw [if_pos (dataSeen_iff (s := s.idled).2 hn)] at hend
      exact sessPoll_endedRaw hd (hend.trans (ended_raw_failed (s := s.idled) hraw (by decide)))
    · rw [if_neg hn]
      rw [if_neg (mt (dataSeen_iff (s := s.idled)).1 hn)] at hend
      exact sessPoll_endedRaw hd (hend.trans (ended_raw_failed (s := s.idled) hraw (by decide)))
  case idleNoData => exact sessPoll_endedRaw hd ((hidle hr hi).trans (endTransfer_noData (s := s.idled) hraw hn))
  case idleDone =>
    exact sessPoll_endedRaw hd ((hidle hr hi).trans
      (endTransfer_flushed (flush_nothing (s := s.idled) hp) hraw (.inl hw)))
  case idleFull =>
    exact sessPoll_endedRaw hd ((hidle hr hi).trans
      (endTransfer_flushed (flush_overflow (s := s.idled) hp hfull) hraw (.inr hp)))
  case idleCarry =>
    obtain ⟨u, hu, henv, hst⟩ := flush_carry (s := s.idled) (hwritable hinv hf) hp hroom
    exact ⟨{ s with mem := u.mem, scratch := u.scratch, env := u.env }, sessPoll_endedRaw hd ((hidle hr hi).trans
      (endTransfer_flushed hu hraw (.inr hp))), rfl, henv, hst⟩
  case markNoData => exact sessPoll_endedRaw hd ((poll_marker hm).trans (endTransfer_noData hraw hn))
  case markDone =>
    exact sessPoll_endedRaw hd ((poll_marker hm).trans (endTransfer_flushed (flush_nothing hp) hraw (.inl hw)))
  case markFull =>
    exact sessPoll_endedRaw hd ((poll_marker hm).trans (endTransfer_flushed (flush_overflow hp hfull) hraw (.inr hp)))
  case markCarry =>
    obtain ⟨u, hu, henv, hst⟩ := flush_carry (s := { s with rx := { s.rx with ready := false } })
      (hwritable hinv hf) hp hroom
    exact ⟨{ s with mem := u.mem, scratch := u.scratch, env := u.env }, sessPoll_endedRaw hd ((poll_marker hm).trans
      (endTransfer_flushed hu hraw (.inr hp))), rfl, henv, hst⟩

end Sys2Proof.Machine
end

section
/-! SUPPORT. What a step of an open session reports (43_protocol.md R240, R244): the session goes on in UPDATE, or it
ended with a session-ending code and the dispatcher is in the state the session was opened to return to. -/

namespace Sys2Proof.Machine

/-! ### The report -/

/-- The codes that end a session (43_protocol.md R244, 60_exceptions.md R382). -/
def endingCodes : List Code :=
  [.ok, .eNoData, .eTimeoutNoData, .eTimeoutPartial, .eOverflow, .eWrite, .eRxStart]

/-- An open session that was opened to return to `ρ`. -/
abbrev State.Returns (ρ : RetState) (s : State) : Prop := s.dstate = .update ∧ s.retState = some ρ

/-- What a step of that session answers, with the state it leaves. -/
def Reports (ρ : RetState) (r : Option Code) (t : State) : Prop :=
  match r with
  | none => t.Returns ρ
  | some code => code ∈ endingCodes ∧ t.dstate = ρ.dstate

/-- `x` run from `s` reports what became of the session; nothing is said of a power loss. -/
abbrev ReportsFrom (ρ : RetState) (x : Engine (Option Code)) (s : State) : Prop :=
  After x s (Reports ρ) fun _ => True

section
variable {ρ : RetState} {s t : State} {code : Code}

theorem Flashed.returns (h : Flashed s t) (hr : s.Returns ρ) : t.Returns ρ := by
  rw [h.rest]
  exact hr

/-! ### The end of a session (43_protocol.md R242, R244; 46_dispatch.md R353) -/

theorem flush_reports (hs : s.InSession) (hr : s.Returns ρ) :
    After flush s (fun c t => t.Returns ρ ∧ c ∈ endingCodes) fun _ => True := by
  rw [flush, after_bind, after_getState, after_ite]
  split
  · exact ⟨hr, by decide⟩
  · rw [after_ite]
    split
    · exact ⟨hr, by decide⟩
    · next hroom =>
      rw [after_bind]
      refine (mergeWrite_inSession hs (by simpa using hroom)).mono (fun ok t ht => ?_) fun _ _ => trivial
      rw [after_ite]
      split
      · exact ⟨ht.returns hr, by decide⟩
      · exact ⟨ht.returns hr, by decide⟩

theorem after_returnState (hr : s.retState = some ρ) {L : State → Prop} :
    After returnState s (fun _ t => t.dstate = ρ.dstate) L := .of_ok (returnState_run hr) rfl

/-- The boot unit's part of `FlowEnd` leaves `ret_state` alone, so the dispatcher returns where it should. -/
theorem flowEnd_dstate (h : s.Closed) (hk : s.sessKind = some .flow) (hr : s.retState = some ρ) (code : Code) :
    After (flowEnd code) s (fun _ t => t.dstate = ρ.dstate) fun _ => True := by
  obtain ⟨hv, hsome, hsize⟩ := h.flow hk
  have hready : s.Ready := ⟨h.toSane, hv, h.recordValid hv⟩
  obtain ⟨r, ht⟩ := Option.isSome_iff_exists.1 hsome
  have hlast (t : State) (hb : Booted s t) (w : Word) :
      After returnState { t with lastUpdate := w } (fun _ t => t.dstate = ρ.dstate) fun _ => True :=
    after_returnState (by rw [hb.rest]; exact hr)
  rw [flowEnd]
  dsimp only
  rw [after_ite]
  split
  · rw [after_bind, after_getState, after_bind, after_valueOf ht, after_bind]
    exact (updComplete_ready hready r hsize _).mono (fun _ t ⟨hb, _⟩ => hlast t hb _) fun _ _ => trivial
  · rw [after_bind]
    exact (updFailed_ready hready).mono (fun _ t ⟨hb, _⟩ => hlast t hb _) fun _ _ => trivial

theorem closeAndReturn_dstate (h : s.Closing) (hr : s.retState = some ρ) (code : Code) :
    After (closeAndReturn code) s (fun c t => c = code ∧ t.dstate = ρ.dstate) fun _ => True := by
  obtain ⟨k, hk⟩ := Option.isSome_iff_exists.1 h.kind
  rw [closeAndReturn, after_bind, after_update, after_bind, after_valueOf (s := s.closeSession code) hk]
  cases k
  · dsimp only
    rw [after_bind]
    exact (flowEnd_dstate (h.close code) hk hr code).mono (fun _ _ hd => ⟨rfl, hd⟩) fun _ _ => trivial
  · dsimp only
    rw [after_bind]
    exact (after_returnState (s := s.closeSession code) hr).mono (fun _ _ hd => ⟨rfl, hd⟩) fun _ h => h

theorem ended_reports (hs : s.InSession) (hr : s.Returns ρ) (hc : code ∈ endingCodes) :
    ReportsFrom ρ (ended code) s := by
  have hclose {u : State} {c : Code} (h : u.Closing) (hu : u.Returns ρ) (hmem : c ∈ endingCodes) :
      After (closeAndReturn c) u (fun c t => Reports ρ (some c) t) fun _ => True :=
    (closeAndReturn_dstate h hu.2 c).mono (fun _ _ ⟨e, hd⟩ => ⟨e ▸ hmem, hd⟩) fun _ h => h
  rw [ended, ReportsFrom, after_bind, endSession_eq, after_ite]
  split
  · rw [after_bind]
    exact ((flush_closing hs).and (flush_reports hs hr)).mono (fun _ _ ⟨h, hu, hmem⟩ => hclose h hu hmem)
      fun _ _ => trivial
  · exact hclose hs.closing hr hc

theorem endTransfer_reports (hs : s.InSession) (hr : s.Returns ρ) : ReportsFrom ρ endTransfer s := by
  rw [endTransfer, ReportsFrom, after_bind, after_getState]
  exact ended_reports hs hr (by split <;> decide)

theorem checkTimeout_reports (hs : s.InSession) (hr : s.Returns ρ) (now : Word) :
    ReportsFrom ρ (checkTimeout now) s := by
  rw [checkTimeout, ReportsFrom, after_bind, after_getState, after_ite]
  split
  · exact ended_reports hs hr (by split <;> decide)
  · exact hr

/-! ### Bytes (43_protocol.md R222 to R229, R236) -/

theorem acceptFailed_reports (hs : s.InSession) (hr : s.Returns ρ) (hc : code ∈ endingCodes) (tag : List Byte) :
    ReportsFrom ρ (acceptFailed tag code) s := by
  rw [acceptFailed, ReportsFrom, after_bind, after_update]
  exact ended_reports (sendStatus_inSession hs tag 1) hr hc

theorem accept_reports (hs : s.InSession) (hr : s.Returns ρ)
    (hb : s.parser.body.length = s.parser.lenAcc.toNat) : ReportsFrom ρ accept s := by
  have hs' : State.InSession { s with framesOk := s.framesOk + 1 } := hs.ofParser rfl hs.parser
  rw [accept, ReportsFrom, after_bind, after_update, after_bind, after_getState, after_bind]
  refine .of_ok (wholeBody_ok (s := { s with framesOk := s.framesOk + 1 }) hb) ?_
  dsimp only
  rw [after_ite]
  split
  · exact hr
  · rw [after_ite]
    split
    · exact acceptFailed_reports hs' hr (by decide) _
    · next hroom =>
      rw [after_bind]
      refine (mergeWrite_inSession hs' (Nat.not_lt.1 hroom)).mono (fun ok t ht => ?_) fun _ _ => trivial
      rw [after_ite]
      split
      · exact ht.returns (s := { s with framesOk := s.framesOk + 1 }) hr
      · exact acceptFailed_reports (ht.inSession hs') (ht.returns hr) (by decide) _

/-- After an accepted frame `PSTATE` is WAIT_START, whatever the frame came to. -/
theorem Reports.setParser {r : Option Code} (h : Reports ρ r t) (p : Parser) :
    Reports ρ r { t with parser := p } := by
  cases r <;> exact h

theorem fieldEnd_reports (hs : s.InSession) (hr : s.Returns ρ) (hp : s.parser.pstate = .waitEnd) (c : Byte) :
    ReportsFrom ρ (fieldEnd c) s := by
  obtain ⟨-, -, -, -, hwhole, -⟩ := hs.parser
  obtain ⟨-, hlen⟩ := hwhole (.inr hp)
  rw [fieldEnd, ReportsFrom, after_bind, after_getState, after_ite]
  split
  · rw [after_bind]
    refine .of_ok (wholeBody_ok hlen) ?_
    rw [after_ite]
    split
    · rw [after_bind]
      exact (accept_reports hs hr hlen).mono (fun _ _ h => h.setParser _) fun _ h => h
    · exact hr
  · exact hr

/-- The rules of the first four states write the parser and send status frames, and no more. -/
theorem field_reports (hs : s.InSession) (hr : s.Returns ρ) (d : Byte) : ReportsFrom ρ (field d) s := by
  cases hp : s.parser.pstate
  · refine .of_ok (field_waitStart hp d) ?_
    unfold State.fieldStart
    split <;> exact hr
  · refine .of_ok (field_readLength hp d) ?_
    unfold State.fieldLength
    dsimp only
    split
    · split <;> exact hr
    · exact hr
  · refine .of_ok (field_readBody hp d) ?_
    unfold State.fieldBody
    dsimp only
    split <;> exact hr
  · refine .of_ok (field_readCrc hp d) ?_
    unfold State.fieldCrc
    dsimp only
    split <;> exact hr
  · have h := fieldEnd_reports hs hr hp d
    unfold ReportsFrom After at h ⊢
    rwa [field_waitEnd hp d]

theorem feed_reports (hs : s.InSession) (hr : s.Returns ρ) (c : Byte) : ReportsFrom ρ (feed c) s := by
  rw [feed, ReportsFrom, after_bind, after_getState, after_ite]
  split
  · rw [after_ite]
    split
    · have hcleared : State.InSession { s with parser := { s.parser with escPend := false } } :=
        escPend_inSession hs nofun
      rw [after_bind, after_update, after_ite]
      split
      · exact field_reports hcleared hr _
      · rw [after_ite]
        split
        · exact field_reports hcleared hr _
        · exact hr
    · rw [after_ite]
      split
      · exact hr
      · rw [after_ite]
        split
        · exact hr
        · exact field_reports hs hr c
  · exact field_reports hs hr c

theorem feedAll_reports (hs : s.InSession) (hr : s.Returns ρ) (l : List Byte) : ReportsFrom ρ (feedAll l) s := by
  induction l generalizing s with
  | nil => exact hr
  | cons c l ih =>
    rw [feedAll, ReportsFrom, after_bind]
    refine ((feed_keeps hs c).and (feed_reports hs hr c)).mono (fun r t ⟨hk, ht⟩ => ?_) fun _ _ => trivial
    cases r with
    | none => exact ih hk ht
    | some code => exact ht

/-! ### The poll (43_protocol.md R240) -/

theorem rearm_reports (hs : s.InSession) (hr : s.Returns ρ) (now : Word) : ReportsFrom ρ (do
    if ← rxArm then checkTimeout now else ended .eRxStart) s := by
  rw [ReportsFrom, after_bind]
  cases ha : s.armAnswer
  · refine .of_ok (rxArm_refused ha) ?_
    rw [after_ite, if_neg (by decide)]
    exact ended_reports (s := armRefused s) { hs with } hr (by decide)
  · refine .of_ok (rxArm_ok ha) ?_
    rw [after_ite, if_pos rfl]
    have hin : State.InSession
        { armRefused s with rx := { armed := true, ready := false, buf := [], line := [] } } :=
      { hs with buffer := Nat.zero_le _ }
    exact checkTimeout_reports hin hr now

theorem poll_reports (hs : s.InSession) (hr : s.Returns ρ) : ReportsFrom ρ poll s := by
  rw [poll, ReportsFrom, after_bind, after_getState]
  dsimp only
  rw [after_ite]
  split
  · rw [after_bind, after_update, after_ite]
    split
    · exact endTransfer_reports { hs with } hr
    · have hread : State.InSession
          { s with rx := { s.rx with ready := false }, sess := { s.sess with idleCount := 0 } } := { hs with }
      rw [after_bind, after_update, after_bind]
      refine ((feedAll_keeps hread s.rx.buf).and (feedAll_reports hread hr s.rx.buf)).mono
        (fun r t ⟨hk, ht⟩ => ?_) fun _ _ => trivial
      cases r with
      | none => exact rearm_reports hk ht _
      | some code => exact ht
  · rw [after_bind, after_update, after_bind, after_getState, after_ite]
    split
    · exact endTransfer_reports (s := { s with sess := s.sess.idle }) { hs with } hr
    · exact checkTimeout_reports (s := { s with sess := s.sess.idle }) { hs with } hr _

/-- A power loss leaves the reset values (20_memory.md R104). -/
theorem Spares.after {α : Type} {x : Engine α} {Q : α → State → Prop} {L : State → Prop} (hx : Spares x)
    (h : After x s Q L) : After x s Q State.AtReset := by
  have hs := hx s
  unfold After at h ⊢
  rcases hxs : x s with ⟨a, t⟩ | ⟨_ | f, t⟩ <;> rw [hxs] at h hs
  · exact h
  · exact hs
  · exact h

theorem sessPoll_lost (hd : s.dstate = .update) (h : poll s = .error .powerLost t) : exec .sessPoll s = .next t := by
  show runCommand _ _ s = _
  rw [runCommand_accepted (by rw [hd]; rfl), Engine.bind_run_error h]

theorem endingCodes_value (h : code ∈ endingCodes) : code.value ∈
    ([0, 0xFFFFFFFB, 0xFFFFFFFD, 0xFFFFFFFC, 0xFFFFFFF9, 0xFFFFFFFA, 0xFFFFFFFE] : List Word) :=
  List.mem_map_of_mem (f := Code.value) h

end

/-- Settles O21: the invariant says how the session stands (`poll_inv`), the report how the poll ended
(`poll_reports`). -/
theorem sessPollReportsTheSession : Obligations.SessPollReportsTheSession := by
  intro s hs hd
  have hin := hs.inSession hd
  obtain ⟨ρ, hret⟩ := Option.isSome_iff_exists.1 hin.ret
  have hpoll := Spares.poll.after ((poll_inv hs hd).and (poll_reports hin ⟨hd, hret⟩))
  unfold After at hpoll
  rcases hx : poll s with ⟨_ | code, t⟩ | ⟨_ | f, t⟩ <;> rw [hx] at hpoll
  · obtain ⟨hinv, hupd, -⟩ := hpoll
    exact ⟨_, sessPoll_goesOn hd hx, .inl ⟨rfl, rfl, hupd, (hinv.inSession hupd).active⟩⟩
  · obtain ⟨⟨-, -, -, -, ⟨hact, -⟩, -⟩, hcode, hback⟩ := hpoll
    have hclosed : t.sess.active = false := by
      refine Bool.eq_false_iff.2 fun ha => ?_
      have hupd := hback.symm.trans (hact.1 ha)
      cases ρ <;> cases hupd
    refine ⟨_, sessPoll_ended hd hx, .inr (.inl ⟨rfl, hclosed, ?_, endingCodes_value hcode⟩)⟩
    rw [hret]
    exact congrArg some hback
  · exact ⟨t, sessPoll_lost hd hx, .inr (.inr hpoll)⟩
  · exact hpoll.elim

end Sys2Proof.Machine
end

section
/-! SUPPORT. The flash unit's computations, as its commands use them (44_flash.md R271 to R277, 20_memory.md R97, R104):
how many calls a turn of the writer makes, what granule programs leave over granules that hold data, and how a masked
sector erase ends. -/

namespace Sys2Proof.Machine

/-! ### Whether a granule holds data (44_flash.md R271, R273) -/

theorem halves_of_erased (l : List Byte) (h : ∀ b ∈ l, b = erasedByte) : ∀ x ∈ halves l, x = 0xFFFF := by
  induction l using halves.induct with
  | case1 lo hi rest ih =>
    intro x hx
    rw [halves, List.mem_cons] at hx
    rcases hx with rfl | hx
    · rw [h lo (by simp), h hi (by simp)]
      rfl
    · exact ih (fun b hb => h b (by simp [hb])) x hx
  | case2 l hl => simp [halves]

/-- The writer's test of the scratch buffer is a test of the sector's bytes. -/
theorem holdsData_iff {m : Memory} {sb n off hi : Nat} (hn : 2 * hi ≤ n) :
    holdsData (m.read sb n) off hi = true ↔ ∃ a, sb + 2 * off ≤ a ∧ a < sb + 2 * hi ∧ m.get a ≠ erasedByte := by
  constructor
  · intro h
    by_contra hno
    push Not at hno
    refine Bool.eq_false_iff.1 ?_ h
    rw [holdsData, List.any_eq_false]
    intro x hx
    have hseg : ∀ b ∈ ((m.read sb n).drop (2 * off)).take (2 * (hi - off)), b = erasedByte := by
      intro b hb
      obtain ⟨i, hlt, rfl⟩ := List.mem_iff_getElem.1 hb
      simp only [Memory.read, List.length_take, List.length_drop, List.length_map, List.length_range] at hlt
      simp only [Memory.read, List.getElem_take, List.getElem_drop, List.getElem_map, List.getElem_range]
      exact hno _ (by omega) (by omega)
    simpa using halves_of_erased _ hseg x hx
  · rintro ⟨a, hlo, hhi, hne⟩
    by_contra hno
    refine hne ?_
    have := holdsData_false (Bool.eq_false_iff.2 hno) hn (i := a - sb) (by omega) (by omega)
    rwa [show sb + (a - sb) = a by omega] at this

/-! ### One turn of the writer (44_flash.md R271, R281 b, R282) -/

section
variable {s : State} {sec off : Nat} {seg : List Half}

/-- The sector's content, as the writer first reads it into the scratch buffer. -/
abbrev State.scratched (s : State) (sec : Nat) : State :=
  { s with scratch := s.mem.read (sectorBase s.par sec) s.par.sector }

/-- The turn's granules lie in its sector, and the writer looks at their bytes only. -/
theorem turn_holdsData_iff (hp : s.par.Sound) (hoff : 2 * off + 2 * seg.length ≤ s.par.sector)
    (hal : s.par.granule ∣ 2 * off) :
    holdsData (s.scratched sec).scratch off (roundUp (off + seg.length) (s.par.granule / 2)) = true ↔
      ∃ a, sectorBase s.par sec + 2 * off ≤ a
        ∧ a < sectorBase s.par sec + 2 * off + ceilDiv (2 * seg.length) s.par.granule * s.par.granule
        ∧ s.mem.get a ≠ erasedByte := by
  have hround := roundUp_half (k := seg.length) hp.granule_pos hp.granule_even hal
  have hfit := ceilDiv_mul_le (x := 2 * seg.length) (y := s.par.sector - 2 * off) hp.granule_pos (by omega)
    (Nat.dvd_sub hp.granule_dvd hal)
  rw [holdsData_iff (by omega), hround, Nat.add_assoc]

/-- A turn over granules of which one holds data: one erase, and every granule of the sector is programmed. -/
theorem writeSector_calls_of_data (hm : Memory.Wf s.mem) (hp : s.par.Sound) (hi : s.irqMasked = false)
    (h : s.flashOk = true) (hoff : 2 * off + 2 * seg.length ≤ s.par.sector) (hal : s.par.granule ∣ 2 * off)
    (hd : ∃ a, sectorBase s.par sec + 2 * off ≤ a
      ∧ a < sectorBase s.par sec + 2 * off + ceilDiv (2 * seg.length) s.par.granule * s.par.granule
      ∧ s.mem.get a ≠ erasedByte) :
    ∃ t, writeSector sec off seg s = .ok true t ∧ FlashCalls s.env t.env 1 (s.par.sector / s.par.granule) := by
  rw [writeSector, Engine.update_bind, Engine.getState_bind, if_pos ((turn_holdsData_iff hp hoff hal).2 hd)]
  obtain ⟨t, _, ht, -, -, -, hcalls⟩ := eraseMergeProgram_done (s := s.scratched sec) hm hp hi h rfl hoff
  exact ⟨t, ht, hcalls⟩

/-- A turn over erased granules: no erase, and one program for each of them. -/
theorem writeSector_calls_of_erased (hm : Memory.Wf s.mem) (hp : s.par.Sound) (hi : s.irqMasked = false)
    (h : s.flashOk = true) (hoff : 2 * off + 2 * seg.length ≤ s.par.sector) (hal : s.par.granule ∣ 2 * off)
    (he : ∀ a, sectorBase s.par sec + 2 * off ≤ a →
      a < sectorBase s.par sec + 2 * off + ceilDiv (2 * seg.length) s.par.granule * s.par.granule →
      s.mem.get a = erasedByte) :
    ∃ t, writeSector sec off seg s = .ok true t
      ∧ FlashCalls s.env t.env 0 (ceilDiv (2 * seg.length) s.par.granule) := by
  rw [writeSector, Engine.update_bind, Engine.getState_bind, if_neg (mt (turn_holdsData_iff hp hoff hal).1 ?_)]
  · obtain ⟨t, ht, hd⟩ := noCheck_done (s := { s.scratched sec with irqMasked := true }) (hw := seg) hm hp h he
    obtain ⟨u, hu, -, hcalls, -⟩ := masked_done (s := s.scratched sec) hi ht hd
    exact ⟨u, hu, hcalls⟩
  · rintro ⟨a, hlo, hhi, hne⟩
    exact hne (he a hlo hhi)

end

/-! ### A write inside one sector (44_flash.md R271) -/

theorem writeLoop_nil (turns a : Nat) (s : State) : writeLoop turns a [] s = .ok true s := by
  cases turns <;> rfl

/-- What fits in the sector of its first byte is written in one turn. -/
theorem writeFlash_one_turn {s : State} {a : Nat} {hw : List Half} (hne : hw ≠ [])
    (hfit : hw.length ≤ s.par.sector / 2 - (a - sectorBase s.par (sectorOf s.par a)) / 2) :
    writeFlash a hw s
      = writeSector (sectorOf s.par a) ((a - sectorBase s.par (sectorOf s.par a)) / 2) hw s := by
  obtain ⟨x, l, rfl⟩ := List.exists_cons_of_ne_nil hne
  rw [writeFlash, List.length_cons, writeLoop, Engine.ite_run, if_neg (by simp), Engine.getState_bind,
    Nat.min_eq_right hfit, List.take_length, List.drop_length, Engine.bind_run]
  rcases writeSector _ _ _ s with ⟨_ | _, t⟩ | ⟨e, t⟩
  · rfl
  · exact writeLoop_nil _ _ t
  · rfl

/-- An address lies below the end of its sector. -/
theorem lt_sector_end {p : Config} (hp : p.Sound) (a : Nat) : a < sectorBase p (sectorOf p a) + p.sector := by
  have := Nat.lt_div_mul_add (a := a - p.flashBase) hp.sector_pos
  unfold sectorBase sectorOf
  omega

/-! ### Programs over granules that hold data (20_memory.md R97) -/

theorem programmed_andBits {old g : List Byte} (hl : old.length = g.length) :
    programmed .andBits old g = some (List.zipWith (· &&& ·) old g) := by
  unfold programmed
  split
  · next he =>
    refine congrArg some (List.ext_getElem (by simp [hl]) fun i h1 h2 => ?_)
    have hi : old[i] = erasedByte := by simpa using List.all_eq_true.1 he _ (List.getElem_mem (hl ▸ h1))
    have hand : ∀ b : Byte, b = erasedByte &&& b := fun b => (BitVec.allOnes_and).symm
    rw [List.getElem_zipWith, hi]
    exact hand _
  · rfl

theorem programmed_failAny {m : Memory} {a n : Nat} (h : ∃ x, a ≤ x ∧ x < a + n ∧ m.get x ≠ erasedByte)
    (g : List Byte) : programmed .failAny (m.read a n) g = none := by
  obtain ⟨x, hlo, hhi, hne⟩ := h
  refine if_neg fun hall => hne ?_
  have hx := List.all_eq_true.1 hall (m.get x)
    (List.mem_map.2 ⟨x - a, List.mem_range.2 (by omega), by congr 1; omega⟩)
  exact beq_iff_eq.1 hx

theorem FlashCalls.ofErase (s : State) (m : Memory) : FlashCalls s.env (s.erased m).env 1 0 := by
  simp [FlashCalls, Env.drawFlash, List.drop_one]

theorem FlashCalls.ofProgram (s : State) (m : Memory) : FlashCalls s.env (s.granuleWritten m).env 0 1 := by
  simp [FlashCalls, Env.drawFlash, List.drop_one]

/-- The bytes from `a` on, each ANDed with the byte of `l` that is programmed over it (20_memory.md R97). -/
def Memory.andBytes (m : Memory) (a : Nat) (l : List Byte) : List Byte :=
  List.zipWith (· &&& ·) (m.read a l.length) l

theorem Memory.andBytes_length (m : Memory) (a : Nat) (l : List Byte) : (m.andBytes a l).length = l.length := by
  simp [Memory.andBytes]

theorem Memory.andBytes_append (m : Memory) (a : Nat) (l k : List Byte) :
    m.andBytes a (l ++ k) = m.andBytes a l ++ m.andBytes (a + l.length) k := by
  rw [Memory.andBytes, List.length_append, Memory.read_append, List.zipWith_append (Memory.read_length _ _ _)]
  rfl

/-- A store below `b` does not change what is ANDed from `b` on. -/
theorem Memory.andBytes_store {m : Memory} (hm : Memory.Wf m) {a b : Nat} {l : List Byte} (h : a + l.length ≤ b)
    (k : List Byte) : (m.store a l).andBytes b k = m.andBytes b k := by
  rw [Memory.andBytes, Memory.andBytes,
    Memory.read_congr fun x hx _ => Memory.get_store_outside hm (.inr (h.trans hx))]

theorem flashProgram_andBits {s : State} (h : s.flashOk = true) (hand : s.par.overNonErased = .andBits)
    {addr : Nat} {g : List Byte} (hg : g.length = s.par.granule) :
    ∃ t, flashProgram addr g s = .ok true t ∧ FlashDone s t (s.mem.store addr (s.mem.andBytes addr g)) 0 1 := by
  have hprog : programmed s.par.overNonErased (s.mem.read addr s.par.granule) g = some (s.mem.andBytes addr g) := by
    rw [hand, ← hg]
    exact programmed_andBits (Memory.read_length _ _ _)
  exact ⟨_, flashProgram_ok (flashOk_answer h) hprog, rfl, .ofProgram s _, flashOk_tail h rfl rfl⟩

/-- Under AND_BITS a run of granule programs leaves the AND of the old bytes and the new ones. -/
theorem programGranules_andBits {s : State} (hm : Memory.Wf s.mem) (h : s.flashOk = true)
    (hand : s.par.overNonErased = .andBits) {addr : Nat} {gs : List (List Byte)}
    (hg : ∀ g ∈ gs, g.length = s.par.granule) :
    ∃ t, programGranules addr gs s = .ok true t
      ∧ FlashDone s t (s.mem.store addr (s.mem.andBytes addr gs.flatten)) 0 gs.length := by
  induction gs generalizing addr s with
  | nil => exact ⟨s, rfl, .refl h⟩
  | cons g gs ih =>
    have hg0 := hg g List.mem_cons_self
    obtain ⟨t, ht, hd⟩ := flashProgram_andBits h hand (addr := addr) hg0
    have hmem := hd.mem
    have hpar := hd.par
    obtain ⟨u, hu, hdu⟩ := ih (s := t) (addr := addr + s.par.granule) (hmem ▸ Memory.store_wf hm _ _) hd.2.2
      (hpar ▸ hand) fun g' hg' => hpar ▸ hg g' (List.mem_cons_of_mem g hg')
    refine ⟨u, ?_, ?_⟩
    · rw [programGranules, Engine.getState_bind, Engine.bind_run_ok ht]
      exact hu
    · have hall := hd.trans hdu
      rw [hmem, Memory.andBytes_store hm (by rw [Memory.andBytes_length, hg0])] at hall
      rw [List.flatten_cons, Memory.andBytes_append, Memory.store_append, Memory.andBytes_length, hg0,
        List.length_cons, Nat.add_comm gs.length]
      exact hall

/-- Under FAIL_ANY a run of granule programs stops at a first granule that holds data, and may change its bytes. -/
theorem programGranules_failAny {s : State} (h : s.flashOk = true) (hfail : s.par.overNonErased = .failAny)
    {addr : Nat} (hd : ∃ a, addr ≤ a ∧ a < addr + s.par.granule ∧ s.mem.get a ≠ erasedByte)
    {gs : List (List Byte)} (hne : gs ≠ []) :
    ∃ t m, programGranules addr gs s = .ok false t ∧ FlashDone s t m 0 1
      ∧ (Memory.Wf s.mem → ∀ a, a < addr ∨ addr + s.par.granule ≤ a → m.get a = s.mem.get a) := by
  obtain ⟨g, gs, rfl⟩ := List.exists_cons_of_ne_nil hne
  have hrefused := flashProgram_refused (g := g) (flashOk_answer h) (by rw [hfail, programmed_failAny hd])
  have hjunk : (s.flashAnswer.junk.take s.par.granule).length ≤ s.par.granule := List.length_take_le _ _
  refine ⟨_, _, ?_, ⟨rfl, .ofProgram s _, flashOk_tail h rfl rfl⟩, fun hm a ha =>
    Memory.get_store_outside (a := addr) hm (ha.imp_right fun hge => (Nat.add_le_add_left hjunk _).trans hge)⟩
  rw [programGranules, Engine.getState_bind, Engine.bind_run_ok hrefused]
  rfl

/-! ### The program primitive over any granules (44_flash.md R277) -/

/-- The bytes `NoCheck` programs: the halfwords, padded with 0xFF to whole granules (30_encoding.md R165). -/
def paddedBytes (p : Config) (hw : List Half) : List Byte :=
  padTo (ceilDiv (2 * hw.length) p.granule * p.granule) erasedByte (halfBytes hw)

/-- The granules `NoCheck` programs. -/
def paddedGranules (p : Config) (hw : List Half) : List (List Byte) :=
  pieces p.granule (ceilDiv (2 * hw.length) p.granule) (paddedBytes p hw)

theorem noCheck_run (a : Nat) (hw : List Half) (s : State) :
    noCheck a hw s = programGranules a (paddedGranules s.par hw) s := rfl

theorem paddedBytes_length {p : Config} (hp : p.Sound) (hw : List Half) :
    (paddedBytes p hw).length = ceilDiv (2 * hw.length) p.granule * p.granule := by
  have := le_ceilDiv_mul (2 * hw.length) hp.granule_pos
  rw [paddedBytes, padTo_length, halfBytes_length]
  omega

theorem paddedGranules_length (p : Config) (hw : List Half) :
    (paddedGranules p hw).length = ceilDiv (2 * hw.length) p.granule := pieces_length _ _ _

theorem paddedGranules_flatten {p : Config} (hp : p.Sound) (hw : List Half) :
    (paddedGranules p hw).flatten = paddedBytes p hw := by
  rw [paddedGranules, pieces_flatten, List.take_of_length_le (paddedBytes_length hp hw).le]

theorem paddedGranules_all {p : Config} (hp : p.Sound) (hw : List Half) :
    ∀ g ∈ paddedGranules p hw, g.length = p.granule := pieces_all (paddedBytes_length hp hw).ge

/-! ### A masked sector erase (44_flash.md R274, R279; 20_memory.md R96, R104) -/

section
variable {s t : State} {op : Engine Bool} {r : Bool} {sec : Nat}

theorem masked_run (h : op { s with irqMasked := true } = .ok r t) :
    masked op s = .ok r { t with irqMasked := false } := by
  rw [masked, Engine.update_bind, Engine.bind_run_ok h]
  rfl

theorem masked_lost (h : op { s with irqMasked := true } = .error .powerLost t) :
    masked op s = .error .powerLost t := by
  rw [masked, Engine.update_bind, Engine.bind_run_error h]

/-- An erase that ends, masked, leaves what the unmasked one would: interrupts were unmasked before it. -/
theorem masked_erased {m : Memory} (hi : s.irqMasked = false)
    (h : flashErase sec { s with irqMasked := true } = .ok r ({ s with irqMasked := true }.erased m)) :
    masked (flashErase sec) s = .ok r (s.erased m) := by
  rw [masked_run h, ← hi]
  rfl

theorem masked_flashErase_ok (hi : s.irqMasked = false) (h : s.flashAnswer.outcome = .ok) (sec : Nat) :
    masked (flashErase sec) s
      = .ok true (s.erased (s.mem.eraseSpan (sectorBase s.par sec) s.par.sector)) :=
  masked_erased hi (flashErase_ok (s := { s with irqMasked := true }) h sec)

theorem masked_flashErase_fail (hi : s.irqMasked = false) (h : s.flashAnswer.outcome = .fail) (sec : Nat) :
    masked (flashErase sec) s = .ok false (s.erased
      (s.mem.store (sectorBase s.par sec) (s.flashAnswer.junk.take s.par.sector))) :=
  masked_erased hi (flashErase_fail (s := { s with irqMasked := true }) h sec)

theorem flashErase_lost (h : s.flashAnswer.outcome = .lostBefore ∨ s.flashAnswer.outcome = .lostDuring)
    (sec : Nat) : ∃ t, flashErase sec s = .error .powerLost t := by
  rcases h with h | h
  · exact ⟨_, flashErase_lostBefore h sec⟩
  · exact ⟨_, flashErase_lostDuring h sec⟩

/-- A reset keeps flash (10_state.md R55). -/
theorem afterReset_get_flash (hp : s.par.Sound) (hm : Memory.Wf s.mem) (ram : List Byte) {a : Nat}
    (hlo : s.par.flashBase ≤ a) (hhi : a < s.par.flashEnd) : (s.afterReset ram).mem.get a = s.mem.get a :=
  store_ram_flash hp hm (reset_ram_in s.par) (reset_ram_length ram) hlo hhi

/-- A power loss at a sector erase leaves the state after a reset, with flash outside the sector as it was. -/
theorem masked_flashErase_lost (hm : Memory.Wf s.mem) (hp : s.par.Sound)
    (h : s.flashAnswer.outcome = .lostBefore ∨ s.flashAnswer.outcome = .lostDuring) (sec : Nat) :
    ∃ t, masked (flashErase sec) s = .error .powerLost t ∧ t.AtReset ∧ t.par = s.par
      ∧ ∀ a, s.par.flashBase ≤ a → a < s.par.flashEnd →
          a < sectorBase s.par sec ∨ sectorBase s.par sec + s.par.sector ≤ a → t.mem.get a = s.mem.get a := by
  obtain ⟨t, ht⟩ := flashErase_lost (s := { s with irqMasked := true }) h sec
  have hrun := masked_lost ht
  have hstep := masked_flashErase_flashing hm sec
  unfold Flashing After at hstep
  rw [hrun] at hstep
  obtain ⟨u, ram, hu, rfl⟩ := hstep
  refine ⟨_, hrun, u.afterReset_atReset ram, hu.par, fun a hlo hhi hout => ?_⟩
  rw [afterReset_get_flash (hu.par ▸ hp) hu.wf ram (hu.par ▸ hlo) (hu.par ▸ hhi), hu.outside a hout]

end

end Sys2Proof.Machine
end

section
/-! SUPPORT. The commands of the flash unit (44_flash.md R270, R277 to R282): the two writers' checks in order and what
they leave, FL_READ, and FL_ERASE_SECTOR under each answer of the collaborator. -/

namespace Sys2Proof.Machine

/-! ### The checks of the two writers (44_flash.md R270, R277) -/

/-- The body of a flash writer: source, alignment and target, up to `top`, are tested before any flash call. -/
def behindTarget (top : State → Nat) (x : State → Engine Bool) : Engine Code := do
  let s ← getState
  if !readable s.par s.operand1 (2 * s.operand2) then raise .eBadSpan
  else if !granuleAligned s.par s.operand0 then raise .eAlign
  else if !managed s.par s.operand0 (top s) then raise .eRange
  else do
    let r ← x s
    flashCode r

/-- The source halfwords of a flash writer, read in full before the first flash call. -/
def State.source (s : State) : List Half := s.mem.halfBuffer s.operand1 s.operand2

/-- The end of FL_WRITE's target. -/
def State.writeEnd (s : State) : Nat := s.operand0 + 2 * s.operand2

/-- The end of FL_WRITE_NOCHECK's target, which covers whole granules. -/
def State.paddedEnd (s : State) : Nat := s.operand0 + s.par.granule * ceilDiv (2 * s.operand2) s.par.granule

theorem exec_flWrite (s : State) : exec .flWrite s =
    runCommand .write (behindTarget State.writeEnd fun s => writeFlash s.operand0 s.source) s := rfl

theorem exec_flWriteNocheck (s : State) : exec .flWriteNocheck s =
    runCommand .write (behindTarget State.paddedEnd fun s => masked (noCheck s.operand0 s.source)) s := rfl

theorem source_length (s : State) : s.source.length = s.operand2 := by
  rw [State.source, Memory.halfBuffer, halves_length, Memory.read_length, Nat.mul_div_cancel_left _ (by decide)]

theorem halfBytes_source (s : State) : halfBytes s.source = s.mem.read s.operand1 (2 * s.operand2) :=
  halfBytes_halves _ (by rw [Memory.read_length, Nat.mul_mod_right])

section
variable {s t : State} {top : State → Nat} {x : State → Engine Bool} {r : Bool}

/-- RESULT says whether every flash call was ok (44_flash.md R275). -/
theorem runCommand_flash {op : Engine Bool} (h : s.AcceptsWrite) (hx : op s = .ok r t) :
    runCommand .write (do let r ← op; flashCode r) s = .next (t.finish (if r then .ok else .eFlash)) := by
  refine runCommand_ok (refusalCode_write h) ?_
  rw [Engine.bind_run_ok hx]
  cases r <;> rfl

/-- A power loss at a flash call ends the command with the state after the reset. -/
theorem runCommand_flash_lost {op : Engine Bool} (h : s.AcceptsWrite) (hx : op s = .error .powerLost t) :
    runCommand .write (do let r ← op; flashCode r) s = .next t := by
  rw [runCommand_accepted (refusalCode_write h), Engine.bind_run_error hx]

/-- An accepted flash writer makes its checks in the order of R270, and then runs. -/
theorem runCommand_behindTarget (h : s.AcceptsWrite) :
    runCommand .write (behindTarget top x) s =
      if ¬ SpanReadable s.par s.operand1 (2 * s.operand2) then .next (s.finish .eBadSpan)
      else if ¬ Aligned s.par s.operand0 then .next (s.finish .eAlign)
      else if ¬ InManaged s.par s.operand0 (top s) then .next (s.finish .eRange)
      else runCommand .write (do let r ← x s; flashCode r) s := by
  rw [runCommand_accepted (refusalCode_write h), runCommand_accepted (refusalCode_write h), behindTarget,
    Engine.getState_bind]
  simp only [Engine.ite_run, Engine.raise_run, Bool.not_eq_true', ← Bool.not_eq_true, readable_iff,
    granuleAligned_iff, managed_iff_inManaged]
  by_cases hspan : ¬ SpanReadable s.par s.operand1 (2 * s.operand2)
  · rw [if_pos hspan, if_pos hspan]
  · rw [if_neg hspan, if_neg hspan]
    by_cases hal : ¬ Aligned s.par s.operand0
    · rw [if_pos hal, if_pos hal]
    · rw [if_neg hal, if_neg hal]
      by_cases hman : ¬ InManaged s.par s.operand0 (top s)
      · rw [if_pos hman, if_pos hman]
      · rw [if_neg hman, if_neg hman]

theorem runCommand_onTarget (h : s.AcceptsWrite) (hspan : SpanReadable s.par s.operand1 (2 * s.operand2))
    (hal : Aligned s.par s.operand0) (hman : InManaged s.par s.operand0 (top s)) (hx : x s s = .ok r t) :
    runCommand .write (behindTarget top x) s = .next (t.finish (if r then .ok else .eFlash)) := by
  rw [runCommand_behindTarget h, if_neg (not_not.2 hspan), if_neg (not_not.2 hal), if_neg (not_not.2 hman)]
  exact runCommand_flash h hx

theorem runCommand_badSource (h : s.AcceptsWrite) (hspan : ¬ SpanReadable s.par s.operand1 (2 * s.operand2)) :
    runCommand .write (behindTarget top x) s = .next (s.finish .eBadSpan) :=
  (runCommand_behindTarget h).trans (if_pos hspan)

theorem runCommand_misaligned (h : s.AcceptsWrite) (hspan : SpanReadable s.par s.operand1 (2 * s.operand2))
    (hal : ¬ Aligned s.par s.operand0) : runCommand .write (behindTarget top x) s = .next (s.finish .eAlign) := by
  rw [runCommand_behindTarget h, if_neg (not_not.2 hspan), if_pos hal]

theorem runCommand_outOfRange (h : s.AcceptsWrite) (hspan : SpanReadable s.par s.operand1 (2 * s.operand2))
    (hal : Aligned s.par s.operand0) (hman : ¬ InManaged s.par s.operand0 (top s)) :
    runCommand .write (behindTarget top x) s = .next (s.finish .eRange) := by
  rw [runCommand_behindTarget h, if_neg (not_not.2 hspan), if_neg (not_not.2 hal), if_pos hman]

end

/-- Settles O27: both commands are a flash writer behind the same checks. -/
theorem flashWritesRefused : Obligations.FlashWritesRefused := by
  intro s h
  rw [exec_flWrite, exec_flWriteNocheck]
  exact ⟨fun hspan => ⟨runCommand_badSource h hspan, runCommand_badSource h hspan⟩,
    fun hspan hal => ⟨runCommand_misaligned h hspan hal, runCommand_misaligned h hspan hal⟩,
    fun hspan hal => ⟨runCommand_outOfRange (top := State.writeEnd) h hspan hal,
      runCommand_outOfRange (top := State.paddedEnd) h hspan hal⟩⟩

/-! ### FL_WRITE (44_flash.md R270, R281, R282) -/

/-- An aligned target in the managed range stands a whole number of granules above FLASH_BASE. -/
theorem target_in_flash {p : Config} (hp : p.Sound) {a hi : Nat} (hal : Aligned p a) (hman : InManaged p a hi) :
    p.flashBase ≤ a ∧ p.granule ∣ a - p.flashBase :=
  have hbase := (wrLo_ge hp).trans hman.1
  ⟨hbase, granuleAligned_dvd (granuleAligned_iff.2 hal) hbase⟩

/-- The command where its write ends with `r`. -/
theorem flWrite_run {s t : State} {r : Bool} (h : s.AcceptsWrite)
    (hspan : SpanReadable s.par s.operand1 (2 * s.operand2)) (hal : Aligned s.par s.operand0)
    (hman : InManaged s.par s.operand0 s.writeEnd) (hx : writeFlash s.operand0 s.source s = .ok r t) :
    exec .flWrite s = .next (t.finish (if r then .ok else .eFlash)) :=
  runCommand_onTarget h hspan hal hman hx

/-- Settles O25: behind the checks the command is `writeFlash` (`writeFlash_done`). -/
theorem flWriteWritesExactly : Obligations.FlWriteWritesExactly := by
  intro s hs hacc hok hspan hal hman
  obtain ⟨hbase, hdvd⟩ := target_in_flash hs.sane.sound hal hman
  obtain ⟨t, m, ht, hd, -, hst⟩ :=
    writeFlash_done (hw := s.source) hs.sane.memory.1 hs.sane.sound hs.sane.unmasked hok hbase hdvd
  refine ⟨_, flWrite_run hacc hspan hal hman ht, ?_, hd.2.1, ?_⟩
  · rw [hd.1]
    rfl
  · rw [halfBytes_source] at hst
    rw [State.finish_mem, hd.mem]
    exact hst

/-- Settles O26: inside one sector the writer takes one turn, and the turn looks whether its granules hold data. -/
theorem flWriteCallCounts : Obligations.FlWriteCallCounts := by
  intro s n hs hacc hok hpos hspan hal hman hsec hn
  obtain ⟨hwf, hp, hirq⟩ : Memory.Wf s.mem ∧ s.par.Sound ∧ s.irqMasked = false :=
    ⟨hs.sane.memory.1, hs.sane.sound, hs.sane.unmasked⟩
  obtain ⟨hbase, hdvd⟩ := target_in_flash hp hal hman
  obtain ⟨hlo, -, hoff, hback⟩ := Config.Sound.turn hp hbase hdvd
  have hend := lt_sector_end hp (s.arg0.toNat + 2 * s.arg2.toNat - 1)
  have hlen : s.source.length = s.arg2.toNat := source_length s
  rw [show sectorOf s.par (s.arg0.toNat + 2 * s.arg2.toNat - 1) = sectorOf s.par s.arg0.toNat from hsec.symm] at hend
  have hne : s.source ≠ [] := List.ne_nil_of_length_pos (by omega)
  have hturn := writeFlash_one_turn (s := s) (a := s.arg0.toNat) hne (by omega)
  have hrun : ∀ t, writeFlash s.arg0.toNat s.source s = .ok true t → exec .flWrite s = .next (t.finish .ok) :=
    fun t ht => flWrite_run hacc hspan hal hman ht
  have hat : sectorBase s.par (sectorOf s.par s.arg0.toNat)
      + 2 * ((s.arg0.toNat - sectorBase s.par (sectorOf s.par s.arg0.toNat)) / 2) = s.arg0.toNat := by omega
  have hgran : ceilDiv (2 * s.source.length) s.par.granule = n := by rw [hlen, hn]
  constructor
  · intro he
    obtain ⟨t, ht, hcalls⟩ := writeSector_calls_of_erased (seg := s.source) hwf hp hirq hok (by omega) hoff
      (by rw [hat, hgran]; exact he)
    exact ⟨_, hrun t (hturn.trans ht), hgran ▸ hcalls⟩
  · intro hd
    obtain ⟨t, ht, hcalls⟩ := writeSector_calls_of_data (seg := s.source) hwf hp hirq hok (by omega) hoff
      (by rw [hat, hgran]; exact hd)
    exact ⟨_, hrun t (hturn.trans ht), hcalls⟩

/-! ### FL_WRITE_NOCHECK (44_flash.md R277, 20_memory.md R97) -/

/-- The command where its granule programs, run with interrupts masked, end with `r`. -/
theorem flWriteNocheck_run {s t : State} {m : Memory} {r : Bool} {k : Nat} (hs : s.Inv) (hacc : s.AcceptsWrite)
    (hspan : SpanReadable s.par s.operand1 (2 * s.operand2)) (hal : Aligned s.par s.operand0)
    (hman : InManaged s.par s.operand0 s.paddedEnd)
    (ht : programGranules s.operand0 (paddedGranules s.par s.source) { s with irqMasked := true } = .ok r t)
    (hd : FlashDone { s with irqMasked := true } t m 0 k) :
    ∃ u, exec .flWriteNocheck s = .next u
      ∧ u = { s with mem := u.mem, env := u.env, result := (if r then Code.ok else .eFlash).value }
      ∧ FlashCalls s.env u.env 0 k ∧ u.mem = m := by
  obtain ⟨u, hu, hdu⟩ := masked_done hs.sane.unmasked ((noCheck_run _ _ _).trans ht) hd
  refine ⟨_, runCommand_onTarget hacc hspan hal hman hu, ?_, hdu.2.1, hdu.mem⟩
  rw [hdu.1]
  rfl

/-- Settles O28: the command is a run of granule programs, over erased granules (`programGranules_done`), under
AND_BITS (`programGranules_andBits`), and under FAIL_ANY, where the first one fails (`programGranules_failAny`). -/
theorem flWriteNocheckCommand : Obligations.FlWriteNocheckCommand := by
  intro s n l hs hacc hok hspan hal hn hman hl
  obtain ⟨hwf, hp⟩ : Memory.Wf s.mem ∧ s.par.Sound := ⟨hs.sane.memory.1, hs.sane.sound⟩
  have hman' : InManaged s.par s.operand0 s.paddedEnd := by
    rw [hn, Nat.mul_comm] at hman
    exact hman
  have hgran : ceilDiv (2 * s.source.length) s.par.granule = n := by rw [source_length, hn]; rfl
  have hcount : (paddedGranules s.par s.source).length = n := by rw [paddedGranules_length, hgran]
  have hbytes : paddedBytes s.par s.source = l := by rw [paddedBytes, hgran, halfBytes_source, hl]; rfl
  have hflat : (paddedGranules s.par s.source).flatten = l := by rw [paddedGranules_flatten hp, hbytes]
  have hlen : l.length = n * s.par.granule := by rw [← hbytes, paddedBytes_length hp, hgran]
  have hall := paddedGranules_all hp s.source
  refine ⟨fun he => ?_, fun hand => ?_, fun hfail hn0 hdata => ?_⟩
  · obtain ⟨t, ht, hd⟩ := programGranules_done (s := { s with irqMasked := true }) (addr := s.operand0) hwf hok hall
      (by rw [hcount]; exact he)
    rw [hflat, hcount] at hd
    obtain ⟨u, hu, hrest, hcalls, hmem⟩ := flWriteNocheck_run hs hacc hspan hal hman' ht hd
    exact ⟨u, hu, hrest, hcalls, hmem ▸ Memory.storedAt hwf _ _⟩
  · obtain ⟨t, ht, hd⟩ := programGranules_andBits (s := { s with irqMasked := true }) (addr := s.operand0) hwf hok
      hand hall
    rw [hflat, hcount, Memory.andBytes, hlen] at hd
    obtain ⟨u, hu, hrest, hcalls, hmem⟩ := flWriteNocheck_run hs hacc hspan hal hman' ht hd
    exact ⟨u, hu, hrest, hcalls, hmem ▸ Memory.storedAt hwf _ _⟩
  · obtain ⟨t, m, ht, hd, hout⟩ := programGranules_failAny (s := { s with irqMasked := true }) hok hfail hdata
      (List.ne_nil_of_length_pos (hcount ▸ hn0))
    obtain ⟨u, hu, hrest, hcalls, hmem⟩ := flWriteNocheck_run hs hacc hspan hal hman' ht hd
    exact ⟨u, hu, hrest, hcalls, hmem ▸ hout hwf⟩

/-! ### FL_READ (44_flash.md R278) -/

theorem exec_flRead {s : State} (h : s.AcceptsPure) :
    exec .flRead s =
      if SpanReadable s.par s.operand0 (2 * s.operand2) ∧ SpanWritable s.par s.operand1 (2 * s.operand2) then
        .next ({ s with mem := s.mem.store s.operand1 (s.mem.read s.operand0 (2 * s.operand2)) }.finish .ok)
      else .next (s.finish .eBadSpan) := by
  show execFlRead s = _
  rw [execFlRead, runCommand_accepted (refusalCode_pure h), Engine.getState_bind]
  simp only [Bool.and_eq_true, readable_iff, inRam_iff]
  by_cases hspans : SpanReadable s.par s.operand0 (2 * s.operand2) ∧ SpanWritable s.par s.operand1 (2 * s.operand2)
  · rw [if_pos hspans, if_pos hspans]
    rfl
  · rw [if_neg hspans, if_neg hspans]
    rfl

/-- Settles O29: behind the two span tests the command is one store of what it read first. -/
theorem flReadCommand : Obligations.FlReadCommand := by
  intro s h hm
  exact ⟨fun hr hw => ⟨_, (exec_flRead h).trans (if_pos ⟨hr, hw⟩), rfl, Memory.storedAt hm _ _⟩,
    fun hb => (exec_flRead h).trans (if_neg hb)⟩

/-! ### FL_ERASE_SECTOR (44_flash.md R279, 20_memory.md R96, R104) -/

/-- An accepted FL_ERASE_SECTOR makes its two checks and then erases with interrupts masked. -/
theorem exec_flEraseSector {s : State} (h : s.AcceptsWrite) :
    exec .flEraseSector s =
      if s.par.nsect ≤ s.operand0 then .next (s.finish .eBadArg)
      else if sectorBase s.par s.operand0 < s.par.wrLo then .next (s.finish .eRange)
      else runCommand .write (do let r ← masked (flashErase s.operand0); flashCode r) s := by
  show execFlEraseSector s = _
  rw [execFlEraseSector, runCommand_accepted (refusalCode_write h), runCommand_accepted (refusalCode_write h),
    Engine.getState_bind]
  by_cases hsec : s.par.nsect ≤ s.operand0
  · rw [if_pos hsec, if_pos hsec, Engine.raise_run]
  · rw [if_neg hsec, if_neg hsec]
    by_cases hlow : sectorBase s.par s.operand0 < s.par.wrLo
    · rw [if_pos hlow, if_pos hlow, Engine.raise_run]
    · rw [if_neg hlow, if_neg hlow]

/-- Settles O30: behind the two checks the command is one masked erase, and each answer has its lemma. -/
theorem flEraseSectorCommand : Obligations.FlEraseSectorCommand := by
  intro s lo hs hacc hlo
  obtain ⟨hwf, hp, hirq⟩ : Memory.Wf s.mem ∧ s.par.Sound ∧ s.irqMasked = false :=
    ⟨hs.sane.memory.1, hs.sane.sound, hs.sane.unmasked⟩
  obtain rfl : lo = sectorBase s.par s.operand0 := hlo
  have hexec := exec_flEraseSector hacc
  refine ⟨fun hsec => hexec.trans (if_pos hsec), fun hsec hlow => ?_, fun hsec hlow => ?_⟩
  all_goals have hexec := hexec.trans (if_neg (Nat.not_le.2 hsec))
  · exact hexec.trans (if_pos hlow)
  · have hexec := hexec.trans (if_neg (Nat.not_lt.2 hlow))
    refine ⟨fun ho => ?_, fun ho => ?_, fun ho => ?_⟩
    · have hrun := runCommand_flash hacc (masked_flashErase_ok hirq ho s.operand0)
      exact ⟨_, hexec.trans hrun, rfl, .ofErase s s.mem, Memory.erasedAt _ _ _⟩
    · have hrun := runCommand_flash hacc (masked_flashErase_fail hirq ho s.operand0)
      exact ⟨_, hexec.trans hrun, rfl, .ofErase s s.mem, fun a ha =>
        Memory.get_store_outside hwf (by rw [List.length_take]; omega)⟩
    · obtain ⟨t, ht, hleft⟩ := masked_flashErase_lost hwf hp ho s.operand0
      exact ⟨t, hexec.trans (runCommand_flash_lost hacc ht), hleft⟩

end Sys2Proof.Machine
end

section
/-! SUPPORT. The bytes a flow session must leave alone (45_config.md R320 c): every computation of an open session
keeps a fenced span of flash that lies apart from the session's sectors and above the config sector, whatever the
environment answers. -/

namespace Sys2Proof.Machine

/-! ### Computations that keep a property -/

/-- From every state that meets `P`, `x` ends in a state that meets `Q`, or loses power and leaves one that meets
`L`; a fault leaves no state to speak of. -/
def Upholds {α : Type} (L P Q : State → Prop) (x : Engine α) : Prop :=
  ∀ s, P s → match x s with
    | .ok _ t => Q t
    | .error .powerLost t => L t
    | .error (.fault _) _ => True

namespace Upholds

variable {α β : Type} {L P Q R : State → Prop}

theorem of_after {x : Engine α} {s : State} (h : After x s (fun _ t => Q t) L) : Upholds L (· = s) Q x := by
  rintro _ rfl
  unfold After at h
  rcases hx : x _ with ⟨a, t⟩ | ⟨_ | f, t⟩ <;> rw [hx] at h
  · exact h
  · exact h
  · trivial

theorem pure (a : α) : Upholds L P P (pure a : Engine α) := fun _ hs => hs

theorem bind {x : Engine α} {f : α → Engine β} (hx : Upholds L P Q x) (hf : ∀ a, Upholds L Q R (f a)) :
    Upholds L P R (x >>= f) := by
  intro s hs
  have h := hx s hs
  rw [Engine.bind_run]
  rcases hxs : x s with ⟨a, t⟩ | ⟨_ | f, t⟩ <;> rw [hxs] at h
  · exact hf a t h
  · exact h
  · trivial

theorem weaken {P' : State → Prop} {x : Engine α} (h : Upholds L P Q x) (hp : ∀ s, P' s → P s) :
    Upholds L P' Q x := fun s hs => h s (hp s hs)

theorem change {f : State → State} (h : ∀ s, P s → Q (f s)) : Upholds L P Q (Machine.update f) := h

/-- Reading the state: what goes on starts from a state that still meets `P`, as the one read does. -/
theorem read {f : State → Engine β} (h : ∀ s, P s → Upholds L P Q (f s)) : Upholds L P Q (getState >>= f) :=
  fun s hs => h s hs s hs

/-- Reading the state, where what goes on starts from the very state that was read. -/
theorem readExact {f : State → Engine β} (h : ∀ s, P s → Upholds L (· = s) Q (f s)) :
    Upholds L P Q (getState >>= f) := fun s hs => h s hs s rfl

theorem branch_of {c : Prop} [Decidable c] {x y : Engine α} (hx : c → Upholds L P Q x)
    (hy : ¬ c → Upholds L P Q y) :
    Upholds L P Q (if c then x else y) := by
  split
  · exact hx ‹_›
  · exact hy ‹_›

theorem branch {c : Prop} [Decidable c] {x y : Engine α} (hx : Upholds L P Q x) (hy : Upholds L P Q y) :
    Upholds L P Q (if c then x else y) := branch_of (fun _ => hx) fun _ => hy

theorem valueOf (e : Element) (v : State → Option α) : Upholds L P P (valueOf e v) := by
  intro s hs
  cases hv : v s with
  | some a => rw [Engine.valueOf_run hv]; exact hs
  | none => rw [Machine.valueOf, hv]; trivial

end Upholds

/-! ### The fence -/

/-- A span `[lo, hi)` of flash that lies apart from the sectors `[first, last)`, which a session writes, and above the
config sector, under AB. -/
def Fences (p : Config) (lo hi first last : Nat) : Prop :=
  p.Sound ∧ p.topology = .ab ∧ p.cfgAddr + p.sector ≤ lo ∧ hi ≤ p.flashEnd
    ∧ (hi ≤ sectorBase p first ∨ sectorBase p last ≤ lo)

/-- A fence: the parameters, a memory, and a span of flash to keep as it stands in that memory. (A tuple, where one
would write a `structure`: that command makes the compile wait for each kernel check before it.) -/
abbrev Fence : Type :=
  { k : (Config × Memory) × (Nat × Nat) × (Nat × Nat) // Fences k.1.1 k.2.1.1 k.2.1.2 k.2.2.1 k.2.2.2 }

namespace Fence
variable (k : Fence)

def par : Config := k.1.1.1

def mem : Memory := k.1.1.2

def lo : Nat := k.1.2.1.1

def hi : Nat := k.1.2.1.2

def first : Nat := k.1.2.2.1

def last : Nat := k.1.2.2.2

theorem fences : Fences k.par k.lo k.hi k.first k.last := k.2

theorem sound : k.par.Sound := by
  obtain ⟨h, -, -, -, -⟩ := k.fences
  exact h

theorem ab : k.par.topology = .ab := by
  obtain ⟨-, h, -, -, -⟩ := k.fences
  exact h

theorem above : k.par.cfgAddr + k.par.sector ≤ k.lo := by
  obtain ⟨-, -, h, -, -⟩ := k.fences
  exact h

theorem inFlash : k.hi ≤ k.par.flashEnd := by
  obtain ⟨-, -, -, h, -⟩ := k.fences
  exact h

theorem apart : k.hi ≤ sectorBase k.par k.first ∨ sectorBase k.par k.last ≤ k.lo := by
  obtain ⟨-, -, -, -, h⟩ := k.fences
  exact h

/-- The fenced bytes are as they were. -/
abbrev Spared (s : State) : Prop :=
  s.par = k.par ∧ Memory.Wf s.mem ∧ ∀ a, k.lo ≤ a → a < k.hi → s.mem.get a = k.mem.get a

/-- And the session's writer stands at or above its first sector, with its limit at the end of the last one. -/
abbrev Open (s : State) : Prop :=
  k.Spared s ∧ sectorBase k.par k.first ≤ s.sess.cursor.toNat ∧ s.sess.limit.toNat = sectorBase k.par k.last

variable {k} {s : State}

theorem Spared.par (h : k.Spared s) : s.par = k.par := h.left

theorem Spared.wf (h : k.Spared s) : Memory.Wf s.mem := h.right.left

theorem Spared.kept (h : k.Spared s) : ∀ a, k.lo ≤ a → a < k.hi → s.mem.get a = k.mem.get a := h.right.right

theorem Open.toSpared (h : k.Open s) : k.Spared s := h.left

theorem Open.par (h : k.Open s) : s.par = k.par := h.toSpared.par

theorem Open.wf (h : k.Open s) : Memory.Wf s.mem := h.toSpared.wf

theorem Open.kept (h : k.Open s) : ∀ a, k.lo ≤ a → a < k.hi → s.mem.get a = k.mem.get a := h.toSpared.kept

theorem Open.cursor (h : k.Open s) : sectorBase k.par k.first ≤ s.sess.cursor.toNat := h.right.left

theorem Open.limit (h : k.Open s) : s.sess.limit.toNat = sectorBase k.par k.last := h.right.right

end Fence

/-- What the fence looks at, as one value. -/
def State.writerFooting (s : State) : Config × Memory × Word × Word := (s.par, s.mem, s.sess.cursor, s.sess.limit)

section
variable {k : Fence} {s t : State}

theorem Fence.Spared.of_eq (h : k.Spared s) (hp : t.par = s.par) (hm : t.mem = s.mem) : k.Spared t :=
  ⟨hp.trans h.par, hm ▸ h.wf, hm ▸ h.kept⟩

theorem Fence.Open.of_footing (h : k.Open s) (hf : t.writerFooting = s.writerFooting) : k.Open t := by
  simp only [State.writerFooting, Prod.mk.injEq] at hf
  obtain ⟨hp, hm, hc, hl⟩ := hf
  exact ⟨h.toSpared.of_eq hp hm, hc ▸ h.cursor, hl ▸ h.limit⟩

/-- The same session over other memory. -/
theorem Fence.Open.of_spared (h : k.Open s) (ht : k.Spared t) (hs : t.sess = s.sess) : k.Open t :=
  ⟨ht, hs ▸ h.cursor, hs ▸ h.limit⟩

/-- The fence stands in flash, so what is stored in RAM is outside it (00_scope.md R11). -/
theorem Fence.Spared.storeRam (h : k.Spared s) {a n : Nat} {l : List Byte} (hr : inRam s.par a n = true)
    (hl : l.length ≤ n) : k.Spared { s with mem := s.mem.store a l } := by
  refine ⟨h.par, Memory.store_wf h.wf a l, fun b hlo hhi => ?_⟩
  have hcfg := (Config.Sound.cfgAddr_bounds k.sound).1
  have habove := k.above
  have hin := k.inFlash
  rw [← h.par] at hcfg habove hin
  have hsame := store_ram_flash (x := b) (h.par ▸ k.sound) h.wf hr hl (by omega) (by omega)
  exact hsame.trans (h.kept b hlo hhi)

theorem Fence.Spared.afterReset (h : k.Spared s) (ram : List Byte) : k.Spared (s.afterReset ram) :=
  (h.storeRam (reset_ram_in s.par) (reset_ram_length ram)).of_eq rfl rfl

theorem Fence.Spared.flash (h : k.Spared s) {a b : Nat} (ht : FlashStep a b s t) (hab : k.hi ≤ a ∨ b ≤ k.lo) :
    k.Spared t :=
  ⟨ht.par.trans h.par, ht.wf, fun x hlo hhi => (ht.outside x (by omega)).trans (h.kept x hlo hhi)⟩

end

/-- A step of an open session that keeps the fence. -/
abbrev Fence.Keeps {α : Type} (k : Fence) (x : Engine α) : Prop := Upholds k.Spared k.Open k.Open x

namespace Upholds

variable {α : Type} {k : Fence} {s : State}

theorem update {f : State → State} (h : ∀ s, (f s).writerFooting = s.writerFooting) : k.Keeps (Machine.update f) :=
  change fun s hs => hs.of_footing (h s)

/-- An update of parameters, memory and session that changes none of them. -/
theorem updateFooting {f : State → State} (h : ∀ s, (f s).footing = s.footing) : k.Keeps (Machine.update f) :=
  update fun s => by
    have hf := h s
    simp only [State.footing, Prod.mk.injEq] at hf
    obtain ⟨hp, hm, hs⟩ := hf
    rw [State.writerFooting, hp, hm, hs, State.writerFooting]

/-- What is read of the state may be forgotten. -/
theorem ofRead {x : Engine α} (hs : k.Open s) (h : k.Keeps x) : Upholds k.Spared (· = s) k.Open x :=
  h.weaken fun _ e => e ▸ hs

/-! ### Flash calls -/

/-- The writer at the cursor, under the limit, stays inside the session's sectors (43_protocol.md R237). -/
theorem mergeWrite (hs : k.Open s) {hws : List Half}
    (hroom : s.sess.cursor.toNat + 2 * hws.length ≤ s.sess.limit.toNat) :
    Upholds k.Spared (· = s) (fun t => k.Spared t ∧ t.sess = s.sess) (mergeWrite s.sess.cursor.toNat hws) := by
  have hcur := hs.cursor
  have hlim := hs.limit
  rw [← hs.par] at hcur hlim
  have hp : s.par.Sound := hs.par ▸ k.sound
  have hmod := Nat.mod_le (s.sess.cursor.toNat - s.par.flashBase) s.par.granule
  have hbase : s.par.flashBase ≤ sectorBase s.par k.first := Nat.le_add_right _ _
  obtain ⟨q, hq⟩ := hp.granule_dvd
  have hfirst : sectorBase s.par k.first = s.par.flashBase + k.first * q * s.par.granule := by
    rw [sectorBase, hq, Nat.mul_comm s.par.granule, ← Nat.mul_assoc]
  have hstart := block_start_ge hp.granule_pos (hfirst ▸ hcur)
  have hdiv := Nat.div_add_mod' (s.sess.cursor.toNat - s.par.flashBase) s.par.granule
  have hflash : Flashing (sectorBase s.par k.first) (sectorBase s.par k.last)
      (Machine.mergeWrite s.sess.cursor.toNat hws) s := by
    rw [Machine.mergeWrite, Flashing, after_bind, after_getState]
    refine writeLoop_flashing hs.wf hp (by omega) (fun _ => ?_) fun _ => ?_
    · have hrest : s.sess.cursor.toNat - (s.sess.cursor.toNat - s.par.flashBase) % s.par.granule
          - s.par.flashBase = s.sess.cursor.toNat - s.par.flashBase
            - (s.sess.cursor.toNat - s.par.flashBase) % s.par.granule := by omega
      rw [hrest]
      exact Nat.dvd_sub_mod _
    · rw [List.length_append, Memory.halfBuffer, halves_length, Memory.read_length]
      omega
  have hapart := k.apart
  rw [← hs.par] at hapart
  refine of_after (After.mono hflash (fun _ t ht => ⟨hs.toSpared.flash ht hapart, ht.sess⟩) ?_)
  rintro _ ⟨u, ram, hu, rfl⟩
  exact (hs.toSpared.flash hu hapart).afterReset ram

/-- A persist writes the config sector, below the fence (45_config.md R303). -/
theorem cfgPersist : k.Keeps cfgPersist := by
  intro s hs
  by_cases hrec : s.hasRecord = true
  · have habove : k.hi ≤ s.par.cfgAddr ∨ s.par.cfgAddr + s.par.sector ≤ k.lo := by
      rw [hs.par]
      exact .inr k.above
    refine of_after ((cfgPersist_flashing hs.wf (hs.par ▸ k.sound) hrec).mono (fun r t ht => ?_) ?_) s rfl
    · have hdirty : k.Spared { s with cfgDirty := !r } := hs.toSpared.of_eq rfl rfl
      exact hs.of_spared (hdirty.flash ht habove) ht.sess
    · rintro _ ⟨u, ram, hu, rfl⟩
      exact (hs.toSpared.flash hu habove).afterReset ram
  · rw [Machine.cfgPersist, Engine.bind_run_error (Guards.serializeCache_fault hrec)]
    trivial

/-! ### The update lifecycle (45_config.md R313, R315) -/

theorem updateAb (f : AbRecord → AbRecord) : k.Keeps (updateAb f) :=
  bind (valueOf _ _) fun _ => update fun _ => rfl

theorem updCompleteAb (r : Role) (size crc : Word) : k.Keeps (updCompleteAb r size crc) :=
  bind (updateAb _) fun _ => bind cfgPersist fun _ => pure _

/-- Under AB the end of an update writes the record only. -/
theorem updComplete (r : Role) (size crc : Word) : k.Keeps (updComplete r size crc) := read fun s hs => by
  rw [hs.par, k.ab]
  exact updCompleteAb r size crc

theorem updFailed : k.Keeps updFailed := read fun s hs => by
  rw [hs.par, k.ab]
  exact bind (updateAb _) fun _ => cfgPersist

/-! ### The session (43_protocol.md R222 to R244, 46_dispatch.md R353) -/

theorem returnState : k.Keeps returnState := bind (valueOf _ _) fun _ => update fun _ => rfl

/-- The cursor moves by what fits under the limit read, which lies below `2 ^ 32`. -/
theorem advance {s : State} (hs : k.Open s) {n : Nat} (hroom : ¬ s.sess.limit.toNat < s.sess.cursor.toNat + n)
    {f : State → State}
    (hf : ∀ t, (f t).writerFooting = (t.par, t.mem, t.sess.cursor + BitVec.ofNat 32 n, t.sess.limit)) :
    Upholds k.Spared (fun t => k.Spared t ∧ t.sess = s.sess) k.Open (Machine.update f) := by
  refine change fun t ⟨ht, hsess⟩ => ?_
  have h := hf t
  simp only [State.writerFooting, Prod.mk.injEq] at h
  obtain ⟨hp, hm, hc, hl⟩ := h
  have hcur := hs.cursor
  have hlt := s.sess.limit.isLt
  refine ⟨ht.of_eq hp hm, ?_, ?_⟩
  · rw [hc, hsess, BitVec.toNat_add, BitVec.toNat_ofNat, Nat.add_mod_mod, Nat.mod_eq_of_lt (by omega)]
    omega
  · rw [hl, hsess]
    exact hs.limit

/-- A write at the cursor of the state read, and then the cursor moves; or the write failed. -/
theorem writeAndAdvance (hs : k.Open s) {hws : List Half} {n : Nat} (hn : n = 2 * hws.length)
    (hroom : ¬ s.sess.limit.toNat < s.sess.cursor.toNat + n) {f : State → State}
    (hf : ∀ t, (f t).writerFooting = (t.par, t.mem, t.sess.cursor + BitVec.ofNat 32 n, t.sess.limit))
    {x y : Engine α} (hx : k.Keeps x) (hy : k.Keeps y) :
    Upholds k.Spared (· = s) k.Open (do
      if ← Machine.mergeWrite s.sess.cursor.toNat hws then do
        Machine.update f
        x
      else y) :=
  bind (mergeWrite hs (by omega)) fun _ => branch (bind (advance hs hroom hf) fun _ => hx)
    (hy.weaken fun _ ⟨ht, hsess⟩ => hs.of_spared ht hsess)

theorem flush : k.Keeps flush :=
  readExact fun _ hs => branch (ofRead hs (pure _)) <| branch_of (fun _ => ofRead hs (pure _)) fun hroom =>
    writeAndAdvance (n := 2) hs rfl hroom (fun _ => rfl) (pure _) (pure _)

theorem flowEnd (code : Code) : k.Keeps (flowEnd code) :=
  branch
    (read fun _ _ => bind (valueOf _ _) fun _ => bind (updComplete _ _ _) fun _ =>
      bind (update fun _ => rfl) fun _ => returnState)
    (bind updFailed fun _ => bind (update fun _ => rfl) fun _ => returnState)

theorem closeAndReturn (code : Code) : k.Keeps (closeAndReturn code) :=
  bind (update fun _ => rfl) fun _ => bind (valueOf _ _) fun kind => by
    cases kind
    · exact bind (flowEnd code) fun _ => pure _
    · exact bind returnState fun _ => pure _

theorem ended (code : Code) : k.Keeps (ended code) := by
  rw [Machine.ended, endSession_eq]
  exact bind (branch (bind flush fun _ => closeAndReturn _) (closeAndReturn code)) fun _ => pure _

theorem endTransfer : k.Keeps endTransfer := read fun _ _ => ended _

theorem checkTimeout (now : Word) : k.Keeps (checkTimeout now) := read fun _ _ => branch (ended _) (pure _)

theorem frameError (kind : FrameErrorKind) (next : PState) :
    k.Keeps (do Machine.update fun s => s.frameError kind next; goesOn) := bind (update fun _ => rfl) fun _ => pure _

theorem acceptDone (tag l : List Byte) : k.Keeps (acceptDone tag l) :=
  bind (update fun s => by simp [State.writerFooting, State.sendStatus, State.uartSend]) fun _ => pure _

theorem acceptFailed (tag : List Byte) (code : Code) : k.Keeps (acceptFailed tag code) :=
  bind (update fun _ => rfl) fun _ => ended code

/-- An accepted frame is written at the cursor, under the limit (43_protocol.md R236). -/
theorem accept : k.Keeps accept :=
  bind (update fun _ => rfl) fun _ => readExact fun _ hs => bind (valueOf _ _) fun _ =>
    branch (ofRead hs (acceptDone _ _)) <| branch_of (fun _ => ofRead hs (acceptFailed _ _)) fun hroom =>
      writeAndAdvance hs rfl hroom (fun _ => rfl) (acceptDone _ _) (acceptFailed _ _)

theorem fieldEnd (c : Byte) : k.Keeps (fieldEnd c) :=
  read fun _ _ => branch
    (bind (valueOf _ _) fun _ => branch
      (bind accept fun _ => bind (update fun _ => rfl) fun _ => pure _) (frameError _ _))
    (frameError _ _)

theorem field (d : Byte) : k.Keeps (field d) := read fun s _ => by
  cases s.parser.pstate
  · exact bind (updateFooting fun s => Guards.fieldStart_footing s d) fun _ => pure _
  · exact bind (updateFooting fun s => Guards.fieldLength_footing s d) fun _ => pure _
  · exact bind (updateFooting fun s => Guards.fieldBody_footing s d) fun _ => pure _
  · exact bind (updateFooting fun s => Guards.fieldCrc_footing s d) fun _ => pure _
  · exact fieldEnd d

theorem feed (c : Byte) : k.Keeps (feed c) :=
  read fun _ _ => branch
    (branch
      (bind (update fun _ => rfl) fun _ => branch (field _) <| branch (field _) (frameError _ _))
      (branch (bind (update fun _ => rfl) fun _ => pure _) <| branch (frameError _ _) (field c)))
    (field c)

theorem feedAll (l : List Byte) : k.Keeps (feedAll l) := by
  induction l with
  | nil => exact pure _
  | cons c l ih =>
    exact bind (feed c) fun r => by
      cases r
      · exact ih
      · exact pure _

theorem rxArm : k.Keeps rxArm := by
  intro s hs
  cases ha : s.armAnswer
  · rw [rxArm_refused ha]
    exact hs.of_footing rfl
  · rw [rxArm_ok ha]
    exact hs.of_footing rfl

theorem poll : k.Keeps poll :=
  read fun _ _ => branch
    (bind (update fun _ => rfl) fun _ => branch endTransfer <|
      bind (update fun _ => rfl) fun _ => bind (feedAll _) fun r => by
        cases r
        · exact bind rxArm fun _ => branch (checkTimeout _) (ended _)
        · exact pure _)
    (bind (update fun _ => rfl) fun _ => read fun _ _ => branch endTransfer (checkTimeout _))

end Upholds

/-! ### One step of an open flow session -/

section
variable {k : Fence} {s t : State}

theorem settle_spared {x : Engine Unit} (hs : k.Open s) (h : k.Keeps x) (ht : settle (x s) = .next t) :
    k.Spared t := by
  have hx := h s hs
  rcases hxs : x s with ⟨a, u⟩ | ⟨_ | f, u⟩ <;> rw [hxs] at hx ht
  · cases ht
    exact hx.toSpared
  · cases ht
    exact hx
  · cases ht

theorem foregroundStep_spared (hs : k.Open s) (hd : s.dstate = .update) (h : foregroundStep s = .next t) :
    k.Spared t := by
  rw [foregroundStep, hd] at h
  rcases hk : s.sessKind with _ | _ | _ <;> rw [hk] at h
  · cases h
  · exact settle_spared hs (.bind .poll fun _ => .pure ()) h
  · cases h
    exact hs.toSpared

/-- The body of SESS_POLL (43_protocol.md R240). -/
theorem sessPoll_spared (hs : k.Open s) (hd : s.dstate = .update) (h : exec .sessPoll s = .next t) : k.Spared t := by
  have hx := Upholds.poll s hs
  rcases hxs : poll s with ⟨_ | code, u⟩ | ⟨_ | f, u⟩ <;> rw [hxs] at hx
  · rw [sessPoll_goesOn hd hxs] at h
    cases h
    exact hx.toSpared.of_eq rfl rfl
  · rw [sessPoll_ended hd hxs] at h
    cases h
    exact hx.toSpared.of_eq rfl rfl
  · rw [sessPoll_lost hd hxs] at h
    cases h
    exact hx
  · have hrun : exec .sessPoll s = .fault f := by
      show runCommand _ _ s = _
      rw [runCommand_accepted (by rw [hd]; rfl), Engine.bind_run_error hxs]
    rw [hrun] at h
    cases h

/-- In UPDATE a command is refused, or is SESS_POLL, or is of class P and writes no flash (30_encoding.md R127). -/
theorem exec_spared (hs : k.Open s) (hinv : s.Inv) (hd : s.dstate = .update) {i : Instr} (h : exec i s = .next t) :
    k.Spared t := by
  have hrefused (hc : classOf i = .sessBegin ∨ classOf i = .write ∨ classOf i = .app) : k.Spared t := by
    rw [exec_refused (hd ▸ refusalCode_update hc)] at h
    cases h
    exact hs.toSpared.of_eq rfl rfl
  cases hc : classOf i
  case pure =>
    obtain ⟨u, hu, hpure⟩ := exec_pure hinv hc
    rw [hu] at h
    cases h
    refine ⟨(congrArg State.par hpure.rest).trans hs.par, hpure.memory.1, fun a hlo hhi => ?_⟩
    have hcfg := (Config.Sound.cfgAddr_bounds k.sound).1
    have habove := k.above
    have hin := k.inFlash
    rw [← hs.par] at hcfg habove hin
    exact (hpure.flash a (by omega) (by omega)).trans (hs.kept a hlo hhi)
  case sessPoll =>
    obtain rfl : i = .sessPoll := by
      cases i
      case sessPoll => rfl
      all_goals cases hc
    exact sessPoll_spared hs hd h
  case sessBegin => exact hrefused (.inl hc)
  case write => exact hrefused (.inr (.inl hc))
  case app => exact hrefused (.inr (.inr hc))

theorem portWrite_spared (hs : k.Open s) (hinv : s.Inv) (hd : s.dstate = .update) {addr v : Word} {size : Nat}
    (h : portWrite addr size v s = .next t) : k.Spared t := by
  unfold portWrite issue at h
  dsimp only at h
  split at h
  · split at h
    · split at h
      · exact exec_spared hs hinv hd h
      · cases h
        exact hs.toSpared.of_eq rfl rfl
    · cases h
      unfold State.writeRegister
      split <;> exact hs.toSpared.of_eq rfl rfl
  · cases h

theorem takeInput_spared (hs : k.Open s) (hinv : s.Inv) (hd : s.dstate = .update) {i : Input}
    (h : takeInput i s = .next t) : k.Spared t := by
  cases i with
  | foreground => exact foregroundStep_spared hs hd h
  | portWrite addr size v => exact portWrite_spared hs hinv hd h
  | portRead addr size =>
    unfold takeInput portRead at h
    dsimp only at h
    split at h
    · cases h
      exact hs.toSpared.of_eq rfl rfl
    · cases h
  | ramWrite addr bytes =>
    cases h
    unfold State.fillRam
    split
    · exact hs.toSpared.storeRam ‹_› le_rfl
    · exact hs.toSpared
  | hostSend bytes =>
    cases h
    unfold State.receiveLine
    split <;> exact hs.toSpared.of_eq rfl rfl
  | deliver m =>
    cases h
    unfold State.deliverChunk
    split <;> exact hs.toSpared.of_eq rfl rfl
  | clockAdvance ticks =>
    cases h
    exact hs.toSpared.of_eq rfl rfl
  | fatalIn =>
    cases h
    unfold State.takeFatal
    split <;> exact hs.toSpared.of_eq rfl rfl
  | reset ram =>
    cases h
    exact hs.toSpared.afterReset ram

theorem step_spared (hs : k.Open s) (hinv : s.Inv) (hd : s.dstate = .update) (h : step s = .next t) :
    k.Spared t := by
  unfold step at h
  split at h
  case h_1 => exact foregroundStep_spared hs hd h
  case h_2 i rest _ =>
    exact takeInput_spared (s := s.withInputs rest) (hs.of_footing rfl) (hinv.withInputs rest) hd h

end

/-! ### The two regions of AB -/

/-- A region is a run of whole sectors. -/
theorem Config.Sound.region_sectors {p : Config} (hp : p.Sound) (r : Role) :
    ∃ i j, sectorBase p i = regionBase p r ∧ sectorBase p j = regionBase p r + p.regionSize := by
  obtain ⟨hlo, -, q, hq⟩ := Config.Sound.region hp r
  obtain ⟨n, hn⟩ := hp.region_dvd
  refine ⟨q, q + n, ?_, ?_⟩
  · rw [sectorBase, Nat.mul_comm]
    omega
  · rw [sectorBase, Nat.add_mul, Nat.mul_comm q, Nat.mul_comm n]
    omega

/-- The active region and the update target do not overlap (00_scope.md R11). -/
theorem Config.Sound.active_apart {p : Config} (hp : p.Sound) (b : Byte) :
    regionBase p (activeRole b) + p.regionSize ≤ regionBase p (otherRole (activeRole b))
      ∨ regionBase p (otherRole (activeRole b)) + p.regionSize ≤ regionBase p (activeRole b) := by
  have h := hp.ab_disjoint
  simp only [disjointSpans, Bool.or_eq_true, decide_eq_true_eq] at h
  rcases activeRole_cases b with e | e <;> rw [e]
  · exact h
  · exact h.symm

/-- Settles O58: the active region is fenced. The session stands in the update target's region
(`State.InSession.flow`), and nothing else a step in UPDATE writes in flash is above the config sector
(`step_spared`). -/
theorem activeRegionNotWrittenByFlow : Obligations.ActiveRegionNotWrittenByFlow := by
  intro s t c hinv htop hd hkind hc hstep
  have hin := hinv.inSession hd
  have hp := hin.sound
  obtain ⟨-, htarget, hbase, hlimit⟩ := hin.flow hkind
  have htarget : s.flowTarget = some (otherRole (activeRole c.active)) := by
    rw [htarget, State.target, htop, hc]
    rfl
  have hbase := hbase _ htarget
  obtain ⟨i, j, hi, hj⟩ := Config.Sound.region_sectors hp (otherRole (activeRole c.active))
  obtain ⟨-, hcfg, -⟩ := Config.Sound.cfgAddr_bounds hp
  obtain ⟨hlo, hhi, -⟩ := Config.Sound.region hp (activeRole c.active)
  let k : Fence := ⟨((s.par, s.mem), (regionBase s.par (activeRole c.active),
    regionBase s.par (activeRole c.active) + s.par.regionSize), (i, j)), hp, htop, by dsimp only; omega, hhi,
    by dsimp only; rw [hi, hj]; exact Config.Sound.active_apart hp c.active⟩
  have hopen : k.Open s := by
    refine ⟨⟨rfl, hin.memory.1, fun _ _ _ => rfl⟩, ?_, ?_⟩
    · show sectorBase s.par i ≤ s.sess.cursor.toNat
      rw [hi, ← hbase, hin.cursor_eq]
      exact Nat.le_add_right _ _
    · show s.sess.limit.toNat = sectorBase s.par j
      rw [hj, hlimit, hbase]
  exact (step_spared hopen hinv hd hstep).kept

end Sys2Proof.Machine
end

section
/-! SUPPORT. The config record in flash and in the cache (45_config.md R300 to R304, 30_encoding.md R160 to R163): a
record reads back as it was written, a load, and a change of the cache that is persisted with no call failing. -/

namespace Sys2Proof.Machine

/-! ### A record reads back (30_encoding.md R162, R163) -/

theorem deserialize_serializeAb (c : AbRecord) : deserializeAb (serializeAb c) = c := by
  obtain ⟨magic, active, updating, bootCount, updateReq, sizeA, crcA, sizeB, crcB⟩ := c
  simp only [deserializeAb, AbRecord.mk.injEq]
  exact ⟨u32_le32 magic _, rfl, rfl, rfl, rfl, u32_le32 sizeA _, u32_le32 crcA _, u32_le32 sizeB _,
    u32_le32 crcB _⟩

theorem deserialize_serializeSr (c : SrRecord) : deserializeSr (serializeSr c) = c := by
  obtain ⟨magic, pageCount, runSize, runCrc⟩ := c
  simp only [deserializeSr, SrRecord.mk.injEq]
  exact ⟨u32_le32 magic _, u32_le32 pageCount _, u32_le32 runSize _, u32_le32 runCrc []⟩

/-- Reading back the first bytes of what is stored. -/
theorem StoredAt.read {m m' : Memory} {a n : Nat} {l : List Byte} (h : StoredAt m m' a l) (hn : n ≤ l.length) :
    m'.read a n = l.take n := by
  refine List.ext_getElem (by simp [hn]) fun i hi hi' => ?_
  rw [Memory.read_length] at hi
  have hbyte := h.1 i (by omega)
  rw [← Memory.read_getD m' a n i hi 0] at hbyte
  simpa [List.getD_eq_getElem?_getD, hi, Nat.lt_of_lt_of_le hi hn] using hbyte

/-- The record at CFG_ADDR (30_encoding.md R163). -/
theorem RecordStored.read {p : Config} {m m' : Memory} {l : List Byte} (h : RecordStored p m m' l) {n : Nat}
    (hn : l.length = n) : m'.read p.cfgAddr n = l := by
  subst hn
  rw [StoredAt.read h (by rw [padTo_length]; omega), padTo, List.take_left]

/-- Only the config sector differs. -/
theorem RecordStored.outside {p : Config} {m m' : Memory} {l : List Byte} (h : RecordStored p m m' l)
    (hl : l.length ≤ p.sector) {a : Nat} (ha : a < p.cfgAddr ∨ p.cfgAddr + p.sector ≤ a) : m'.get a = m.get a :=
  h.2 a (by rw [padTo_length]; omega)

/-- A later record takes the place of an earlier one. -/
theorem RecordStored.trans {p : Config} {m m' m'' : Memory} {l l' : List Byte} (h : RecordStored p m m' l)
    (h' : RecordStored p m' m'' l') (hl : l.length = l'.length) : RecordStored p m m'' l' := by
  refine ⟨h'.1, fun b hb => (h'.2 b hb).trans (h.2 b ?_)⟩
  rw [padTo_length] at hb ⊢
  omega

/-! ### Load (45_config.md R300, R301) -/

section
variable {s t : State}

theorem loadRecord_ab {c : AbRecord} (ht : s.par.topology = .ab)
    (hc : c = deserializeAb (s.mem.read s.par.cfgAddr 32)) :
    s.loadRecord = { s with cacheAb := some c, cfgValid := validAb s.par c, cfgDirty := false } := by
  simp [State.loadRecord, Config.recSize, ht, hc]

theorem loadRecord_sr {c : SrRecord} (ht : s.par.topology = .sr)
    (hc : c = deserializeSr (s.mem.read s.par.cfgAddr 16)) :
    s.loadRecord = { s with cacheSr := some c, cfgValid := validSr s.par c, cfgDirty := false } := by
  simp [State.loadRecord, Config.recSize, ht, hc]

/-- A result bit. -/
theorem flagWord (v : Bool) : (BitVec.ofBool v).setWidth 32 = if v = true then (1 : Word) else 0 := by
  cases v <;> rfl

theorem exec_cfgRead (h : s.AcceptsWrite) :
    exec .cfgRead s
      = .next { s.loadRecord with res0 := if s.loadRecord.cfgValid = true then 1 else 0, result := 0 } := by
  rw [← flagWord]
  exact runCommand_ok (c := .ok)
    (t := { s.loadRecord with res0 := (BitVec.ofBool s.loadRecord.cfgValid).setWidth 32 })
    (refusalCode_write h) (Engine.bind_run_ok (cfgLoad_run s))

/-- Settles O31: the command is a load, and `validAb_iff` and `validSr_iff` say when the record is valid. -/
theorem cfgReadCommand : Obligations.CfgReadCommand := by
  intro s h
  refine ⟨fun c ht hc => ?_, fun c ht hc => ?_⟩
  · rw [exec_cfgRead h, loadRecord_ab ht hc, ← validAb_iff]
    exact ⟨fun hv => by rw [hv]; rfl, fun hv => by rw [Bool.eq_false_iff.2 hv]; rfl⟩
  · rw [exec_cfgRead h, loadRecord_sr ht hc, ← validSr_iff]
    exact ⟨fun hv => by rw [hv]; rfl, fun hv => by rw [Bool.eq_false_iff.2 hv]; rfl⟩

/-! ### A change of the cache that is persisted (45_config.md R303) -/

/-- Flash may be written, and no call fails (20_memory.md R98). -/
abbrev State.FlashReady (s : State) : Prop :=
  Memory.Wf s.mem ∧ s.par.Sound ∧ s.irqMasked = false ∧ s.flashOk = true

theorem State.Inv.flashReady (h : s.Inv) (hf : s.flashOk = true) : s.FlashReady :=
  ⟨h.sane.memory.1, h.sane.sound, h.sane.unmasked, hf⟩

/-- What one persist of an AB record leaves: no register is written, and flash may be written again. -/
def SavedAb (s t : State) (c : AbRecord) : Prop :=
  PersistedAb 1 s t c ∧ t.FlashReady ∧ t.res0 = s.res0 ∧ t.res1 = s.res1 ∧ t.result = s.result

/-- The same of an SR record. -/
def SavedSr (s t : State) (c : SrRecord) : Prop :=
  PersistedSr 1 s t c ∧ t.FlashReady ∧ t.res0 = s.res0 ∧ t.res1 = s.res1 ∧ t.result = s.result

theorem updateAb_run {c : AbRecord} (hc : s.cacheAb = some c) (f : AbRecord → AbRecord) :
    updateAb f s = .ok () { s with cacheAb := some (f c) } := by
  rw [updateAb, Engine.bind_run_ok (abCache_run hc)]
  rfl

theorem updateSr_run {c : SrRecord} (hc : s.cacheSr = some c) (f : SrRecord → SrRecord) :
    updateSr f s = .ok () { s with cacheSr := some (f c) } := by
  rw [updateSr, Engine.bind_run_ok (srCache_run hc)]
  rfl

theorem cfgPersist_savedAb {c : AbRecord} (h : s.FlashReady) (ht : s.par.topology = .ab) (hc : s.cacheAb = some c) :
    ∃ t, cfgPersist s = .ok true t ∧ SavedAb s t c := by
  obtain ⟨hwf, hp, hirq, hok⟩ := h
  obtain ⟨t, hrun, hper, hwft, hokt, h0, h1, hr⟩ := cfgPersist_ab hwf hp hirq hok ht hc
  obtain ⟨hrest, -⟩ := id hper
  refine ⟨t, hrun, hper, ⟨hwft, ?_, ?_, hokt⟩, h0, h1, hr⟩
  · rw [hrest]
    exact hp
  · rw [hrest]
    exact hirq

theorem cfgPersist_savedSr {c : SrRecord} (h : s.FlashReady) (ht : s.par.topology = .sr) (hc : s.cacheSr = some c) :
    ∃ t, cfgPersist s = .ok true t ∧ SavedSr s t c := by
  obtain ⟨hwf, hp, hirq, hok⟩ := h
  obtain ⟨t, hrun, hper, hwft, hokt, h0, h1, hr⟩ := cfgPersist_sr hwf hp hirq hok ht hc
  obtain ⟨hrest, -⟩ := id hper
  refine ⟨t, hrun, hper, ⟨hwft, ?_, ?_, hokt⟩, h0, h1, hr⟩
  · rw [hrest]
    exact hp
  · rw [hrest]
    exact hirq

/-- The persist of a record that has just been written to the cache. -/
theorem cfgPersist_setAb (h : s.FlashReady) (ht : s.par.topology = .ab) (c : AbRecord) :
    ∃ t, cfgPersist { s with cacheAb := some c } = .ok true t ∧ SavedAb s t c :=
  cfgPersist_savedAb (s := { s with cacheAb := some c }) h ht rfl

theorem cfgPersist_setSr (h : s.FlashReady) (ht : s.par.topology = .sr) (c : SrRecord) :
    ∃ t, cfgPersist { s with cacheSr := some c } = .ok true t ∧ SavedSr s t c :=
  cfgPersist_savedSr (s := { s with cacheSr := some c }) h ht rfl

/-- The shape of every transition under AB: change the cache, then persist it. -/
def changeAb (f : AbRecord → AbRecord) : Engine Bool := do
  updateAb f
  cfgPersist

/-- The same under SR. -/
def changeSr (f : SrRecord → SrRecord) : Engine Bool := do
  updateSr f
  cfgPersist

theorem changeAb_saved {c : AbRecord} (h : s.FlashReady) (ht : s.par.topology = .ab) (hc : s.cacheAb = some c)
    (f : AbRecord → AbRecord) : ∃ t, changeAb f s = .ok true t ∧ SavedAb s t (f c) := by
  obtain ⟨t, hrun, hsave⟩ := cfgPersist_setAb h ht (f c)
  exact ⟨t, (Engine.bind_run_ok (updateAb_run hc f)).trans hrun, hsave⟩

theorem changeSr_saved {c : SrRecord} (h : s.FlashReady) (ht : s.par.topology = .sr) (hc : s.cacheSr = some c)
    (f : SrRecord → SrRecord) : ∃ t, changeSr f s = .ok true t ∧ SavedSr s t (f c) := by
  obtain ⟨t, hrun, hsave⟩ := cfgPersist_setSr h ht (f c)
  exact ⟨t, (Engine.bind_run_ok (updateSr_run hc f)).trans hrun, hsave⟩

/-! ### Commands that persist the record -/

/-- The outcome of a command that persists the AB record `c` and succeeds; `s` is the state it persists from. -/
def StoresAb (o : Host.Outcome State Fault Refusal) (s : State) (c : AbRecord) : Prop :=
  ∃ t, o = .next t ∧ PersistedAb 1 s t c ∧ t.res0 = s.res0 ∧ t.res1 = s.res1 ∧ t.result = 0

/-- The same of an SR record. -/
def StoresSr (o : Host.Outcome State Fault Refusal) (s : State) (c : SrRecord) : Prop :=
  ∃ t, o = .next t ∧ PersistedSr 1 s t c ∧ t.res0 = s.res0 ∧ t.res1 = s.res1 ∧ t.result = 0

theorem PersistedAb.finish {n : Nat} {c : AbRecord} (h : PersistedAb n s t c) (code : Code) :
    PersistedAb n s (t.finish code) c := by
  obtain ⟨hrest, hst, hcalls⟩ := h
  exact ⟨congrArg (State.finish · code) hrest, hst, hcalls⟩

theorem PersistedSr.finish {n : Nat} {c : SrRecord} (h : PersistedSr n s t c) (code : Code) :
    PersistedSr n s (t.finish code) c := by
  obtain ⟨hrest, hst, hcalls⟩ := h
  exact ⟨congrArg (State.finish · code) hrest, hst, hcalls⟩

variable {u : State} {k : CmdClass} {body : Engine Code}

theorem storesAb {c : AbRecord} (hacc : refusalCode k u.dstate = none) (hb : body u = .ok .ok t)
    (h : SavedAb s t c) : StoresAb (runCommand k body u) s c := by
  obtain ⟨hper, -, h0, h1, -⟩ := h
  exact ⟨t.finish .ok, runCommand_ok hacc hb, hper.finish .ok, h0, h1, rfl⟩

theorem storesSr {c : SrRecord} (hacc : refusalCode k u.dstate = none) (hb : body u = .ok .ok t)
    (h : SavedSr s t c) : StoresSr (runCommand k body u) s c := by
  obtain ⟨hper, -, h0, h1, -⟩ := h
  exact ⟨t.finish .ok, runCommand_ok hacc hb, hper.finish .ok, h0, h1, rfl⟩

theorem requireValid_run (h : s.cfgValid = true) (body : Engine Code) : requireValid body s = body s := by
  rw [requireValid, Engine.getState_bind, if_pos h]

theorem requireValid_refused (h : s.cfgValid = false) (body : Engine Code) :
    requireValid body s = .ok .eCfgInvalid s := by
  rw [requireValid, Engine.getState_bind, if_neg (by rw [h]; exact Bool.false_ne_true)]
  rfl

/-- A transition that persists and succeeds ends with RESULT 0. -/
theorem persistCode_run {x : Engine Bool} (hx : x s = .ok true t) :
    (do let r ← x; raise (persistCode r)) s = .ok .ok t := by
  rw [Engine.bind_run_ok hx]
  rfl

/-! ### CFG_WRITE (45_config.md R303) -/

theorem exec_cfgWrite (s : State) :
    exec .cfgWrite s = runCommand .write (requireValid do let r ← cfgPersist; raise (persistCode r)) s := rfl

theorem cfgWrite_storesAb {c : AbRecord} (h : s.FlashReady) (hacc : s.AcceptsWrite) (hv : s.cfgValid = true)
    (ht : s.par.topology = .ab) (hc : s.cacheAb = some c) : StoresAb (exec .cfgWrite s) s c := by
  obtain ⟨t, hrun, hsave⟩ := cfgPersist_savedAb h ht hc
  rw [exec_cfgWrite]
  exact storesAb (refusalCode_write hacc) ((requireValid_run hv _).trans (persistCode_run hrun)) hsave

theorem cfgWrite_storesSr {c : SrRecord} (h : s.FlashReady) (hacc : s.AcceptsWrite) (hv : s.cfgValid = true)
    (ht : s.par.topology = .sr) (hc : s.cacheSr = some c) : StoresSr (exec .cfgWrite s) s c := by
  obtain ⟨t, hrun, hsave⟩ := cfgPersist_savedSr h ht hc
  rw [exec_cfgWrite]
  exact storesSr (refusalCode_write hacc) ((requireValid_run hv _).trans (persistCode_run hrun)) hsave

/-- A load after a persist of a valid record finds the cache as it is (45_config.md R320 e). -/
theorem PersistedAb.loadRecord {n : Nat} {c : AbRecord} (h : PersistedAb n s t c) (ht : s.par.topology = .ab)
    (hv : validAb s.par c = true) (hcfg : s.cfgValid = true) : t.loadRecord = t := by
  obtain ⟨hrest, hst, -⟩ := h
  have hpar : t.par = s.par := by rw [hrest]
  have hread : c = deserializeAb (t.mem.read t.par.cfgAddr 32) := by
    rw [hpar, hst.read (serializeAb_length c), deserialize_serializeAb]
  have hcache : t.cacheAb = some c := by rw [hrest]
  have hvalid : t.cfgValid = validAb t.par c := by rw [hpar, hv, ← hcfg, hrest]
  have hdirty : t.cfgDirty = false := by rw [hrest]
  rw [loadRecord_ab (hpar ▸ ht) hread, ← hcache, ← hvalid, ← hdirty]

theorem PersistedSr.loadRecord {n : Nat} {c : SrRecord} (h : PersistedSr n s t c) (ht : s.par.topology = .sr)
    (hv : validSr s.par c = true) (hcfg : s.cfgValid = true) : t.loadRecord = t := by
  obtain ⟨hrest, hst, -⟩ := h
  have hpar : t.par = s.par := by rw [hrest]
  have hread : c = deserializeSr (t.mem.read t.par.cfgAddr 16) := by
    rw [hpar, hst.read (serializeSr_length c), deserialize_serializeSr]
  have hcache : t.cacheSr = some c := by rw [hrest]
  have hvalid : t.cfgValid = validSr t.par c := by rw [hpar, hv, ← hcfg, hrest]
  have hdirty : t.cfgDirty = false := by rw [hrest]
  rw [loadRecord_sr (hpar ▸ ht) hread, ← hcache, ← hvalid, ← hdirty]

/-- CFG_READ where a load changes nothing and the record is valid. -/
theorem exec_cfgRead_same (h : t.AcceptsWrite) (hload : t.loadRecord = t) (hv : t.cfgValid = true) :
    exec .cfgRead t = .next { t with res0 := 1, result := 0 } := by
  rw [exec_cfgRead h, hload, if_pos hv]

/-- Settles O32: the command persists (`cfgWrite_storesAb`), and what it stored is what a load reads
(`PersistedAb.loadRecord`). -/
theorem cfgWriteReadsBack : Obligations.CfgWriteReadsBack := by
  intro s hs hacc hv hok
  have hready := hs.ready hv
  have hflash := hs.flashReady hok
  refine ⟨fun c ht hc => ?_, fun c ht hc => ?_⟩
  · obtain ⟨t, hrun, hper, h0, h1, hr⟩ := cfgWrite_storesAb hflash hacc hv ht hc
    obtain ⟨c', hc', hvalid⟩ := hready.ab ht
    obtain rfl : c = c' := Option.some.inj (hc.symm.trans hc')
    obtain ⟨hrest, -⟩ := id hper
    have hd : t.dstate = s.dstate := by rw [hrest]
    have hvt : t.cfgValid = s.cfgValid := by rw [hrest]
    exact ⟨t, hrun, hper, h0, h1, hr,
      exec_cfgRead_same (hd.trans hacc) (hper.loadRecord ht hvalid hv) (hvt.trans hv)⟩
  · obtain ⟨t, hrun, hper, h0, h1, hr⟩ := cfgWrite_storesSr hflash hacc hv ht hc
    obtain ⟨c', hc', hvalid⟩ := hready.sr ht
    obtain rfl : c = c' := Option.some.inj (hc.symm.trans hc')
    obtain ⟨hrest, -⟩ := id hper
    have hd : t.dstate = s.dstate := by rw [hrest]
    have hvt : t.cfgValid = s.cfgValid := by rw [hrest]
    exact ⟨t, hrun, hper, h0, h1, hr,
      exec_cfgRead_same (hd.trans hacc) (hper.loadRecord ht hvalid hv) (hvt.trans hv)⟩

/-- A persist whose erase fails makes no other call. -/
theorem cfgPersist_eraseFails (hrec : s.hasRecord = true) (hi : s.irqMasked = false)
    (h : s.flashAnswer.outcome = .fail) :
    cfgPersist s = .ok false { s.erased (s.mem.store (sectorBase s.par (sectorOf s.par s.par.cfgAddr))
      (s.flashAnswer.junk.take s.par.sector)) with cfgDirty := true } := by
  obtain ⟨l, hl, -⟩ := serializeCache_run hrec
  have herase := flashErase_fail (s := { s with irqMasked := true }) h (sectorOf s.par s.par.cfgAddr)
  have hseq : ∀ x : Engine Bool, masked (do
      if ← flashErase (sectorOf s.par s.par.cfgAddr) then x else pure false) s
        = .ok false (s.erased (s.mem.store (sectorBase s.par (sectorOf s.par s.par.cfgAddr))
            (s.flashAnswer.junk.take s.par.sector))) := fun x => by
    have hop : (do if ← flashErase (sectorOf s.par s.par.cfgAddr) then x else pure false)
        { s with irqMasked := true } = .ok false _ := (Engine.bind_run_ok herase).trans rfl
    rw [masked_run hop, ← hi]
    rfl
  rw [cfgPersist, Engine.bind_run_ok hl, Engine.getState_bind, Engine.bind_run_ok (hseq _)]
  rfl

/-- Settles O33: the erase is the only call (`cfgPersist_eraseFails`), and it may change the config sector only. -/
theorem cfgWriteEraseFails : Obligations.CfgWriteEraseFails := by
  intro s hs hacc hv hfail
  have hwf := hs.sane.memory.1
  have hrun := cfgPersist_eraseFails (hs.ready hv).hasRecord hs.sane.unmasked hfail
  have hbody : requireValid (do let r ← cfgPersist; raise (persistCode r)) s = .ok .eFlash _ :=
    (requireValid_run hv _).trans (Engine.bind_run_ok hrun)
  refine ⟨_, (exec_cfgWrite s).trans (runCommand_ok (refusalCode_write hacc) hbody), rfl, .ofErase s s.mem,
    fun a ha => ?_⟩
  show (s.mem.store _ _).get a = _
  rw [sectorOf_cfgAddr hs.sane.sound]
  exact Memory.get_store_outside hwf (by rw [List.length_take]; omega)

end

end Sys2Proof.Machine
end

section
/-! SUPPORT. The commands of the boot unit that write no flash, and the refusal of every transition without a valid
record (45_config.md R300, R305 to R307, R311, R318). -/

namespace Sys2Proof.Machine

section
variable {s : State}

/-! ### IMG_CRC (45_config.md R305) -/

theorem imgCrc_rejected {p : Config} {m : Memory} {base size : Nat} (h : size = 0 ∨ p.regionSize < size) :
    imgCrc p m base size = 0 := if_pos h

theorem imgCrc_accepted {p : Config} {m : Memory} {base size : Nat} (h0 : 0 < size) (hn : size ≤ p.regionSize) :
    imgCrc p m base size = crc32 (m.read base size) := if_neg (by omega)

/-- The span is refused: its size is accepted, but it is not readable. -/
abbrev State.crcSpanBad (s : State) : Prop :=
  0 < s.operand1 ∧ s.operand1 ≤ s.par.regionSize ∧ !readable s.par s.operand0 s.operand1

theorem exec_imgCrc_bad (h : s.AcceptsPure) (hb : s.crcSpanBad) :
    exec .imgCrc s = .next { s with result := 0xFFFFFFEE } := by
  refine runCommand_ok (c := .eBadSpan) (t := s) (refusalCode_pure h) ?_
  rw [Engine.getState_bind, if_pos hb]
  rfl

theorem exec_imgCrc (h : s.AcceptsPure) (hb : ¬ s.crcSpanBad) :
    exec .imgCrc s = .next { s with res0 := imgCrc s.par s.mem s.arg0.toNat s.arg1.toNat, result := 0 } := by
  refine runCommand_ok (c := .ok) (t := { s with res0 := imgCrc s.par s.mem s.operand0 s.operand1 })
    (refusalCode_pure h) ?_
  rw [Engine.getState_bind, if_neg hb]
  rfl

theorem crcSpanBad_iff (h0 : 0 < s.arg1.toNat) (hn : s.arg1.toNat ≤ s.par.regionSize) :
    s.crcSpanBad ↔ ¬ SpanReadable s.par s.arg0.toNat s.arg1.toNat := by
  rw [← readable_iff, Bool.not_eq_true, ← Bool.not_eq_true']
  exact ⟨fun ⟨_, _, hr⟩ => hr, fun hr => ⟨h0, hn, hr⟩⟩

/-- Settles O35, by whether the size is accepted and the span is readable (`crcSpanBad_iff`). -/
theorem imgCrcCommand : Obligations.ImgCrcCommand := by
  intro s h
  refine ⟨fun hsize => ?_, fun h0 hn => ⟨fun hr => ?_, fun hr => ?_⟩⟩
  · rw [exec_imgCrc h (fun ⟨h0, hn, _⟩ => absurd hsize (by unfold State.operand1 at h0 hn; omega)),
      imgCrc_rejected hsize]
  · rw [exec_imgCrc h (fun hb => (crcSpanBad_iff h0 hn).1 hb hr), imgCrc_accepted h0 hn]
  · exact exec_imgCrc_bad h ((crcSpanBad_iff h0 hn).2 hr)

/-! ### Verification (45_config.md R306, R307) -/

theorem spPlausible_iff {p : Config} {sp : Word} :
    spPlausible p sp = true ↔ p.ramBase < sp.toNat ∧ sp.toNat ≤ p.ramEnd := by
  rw [spPlausible, Bool.and_eq_true, decide_eq_true_eq, decide_eq_true_eq]

theorem imageVerifies_iff {p : Config} {m : Memory} {base : Nat} {size crc : Word} :
    imageVerifies p m base size crc = true ↔ ImageGood p m base size crc := by
  simp only [imageVerifies, Bool.and_eq_true, decide_eq_true_eq, beq_iff_eq, spPlausible_iff, and_assoc]
  refine and_congr_right fun h0 => and_congr_right fun hn => ?_
  rw [imgCrc_accepted h0 hn]

theorem imageVerifies_eq (p : Config) (m : Memory) (base : Nat) (size crc : Word) :
    imageVerifies p m base size crc = decide (ImageGood p m base size crc) :=
  Bool.eq_iff_iff.2 (Iff.trans imageVerifies_iff decide_eq_true_iff.symm)

/-- `Verify(role)` with the record known. -/
theorem verify_eq {r : Role} {size crc : Word} (h : recorded r s = .ok (size, crc) s) :
    verify r s = .ok (decide (ImageGood s.par s.mem (regionBase s.par r) size crc)) s := by
  rw [verify, Engine.getState_bind, Engine.bind_run_ok h, ← imageVerifies_eq]
  rfl

theorem verify_ab {c : AbRecord} {r : Role} (hc : s.cacheAb = some c) (hr : r = .a ∨ r = .b) :
    verify r s = .ok (decide (RoleGood s.par s.mem c r)) s := by
  rcases hr with rfl | rfl
  · exact verify_eq (Engine.bind_run_ok (abCache_run hc))
  · exact verify_eq (Engine.bind_run_ok (abCache_run hc))

theorem verify_runRegion {c : SrRecord} (hc : s.cacheSr = some c) :
    verify .run s = .ok (decide (ImageGood s.par s.mem s.par.runBase c.runSize c.runCrc)) s :=
  verify_eq (Engine.bind_run_ok (srCache_run hc))

/-- STAGING has no recorded image, so it never verifies. -/
theorem verify_staging (s : State) : verify .staging s = .ok false s := by
  rw [verify_eq (size := 0) (crc := 0) rfl, decide_eq_false (fun ⟨h0, _⟩ => Nat.lt_irrefl 0 h0)]

/-- A result bit that answers a question. -/
theorem flagWord_decide (P : Prop) [Decidable P] :
    (BitVec.ofBool (decide P)).setWidth 32 = if P then (1 : Word) else 0 := by
  by_cases h : P
  · rw [decide_eq_true h, if_pos h]
    rfl
  · rw [decide_eq_false h, if_neg h]
    rfl

/-! ### IMG_VERIFY (45_config.md R306) -/

theorem exec_imgVerify_badRole {r : Role} (h : s.AcceptsPure) (hr : hasRole s.par r = false) :
    exec (.imgVerify r) s = .next { s with result := 0xFFFFFFE5 } := by
  refine runCommand_ok (c := .eBadArg) (t := s) (refusalCode_pure h) ?_
  rw [Engine.getState_bind, if_pos (by rw [hr]; rfl)]
  rfl

theorem exec_imgVerify_invalid {r : Role} (h : s.AcceptsPure) (hr : hasRole s.par r = true)
    (hv : s.cfgValid = false) : exec (.imgVerify r) s = .next { s with result := 0xFFFFFFE8 } := by
  refine runCommand_ok (c := .eCfgInvalid) (t := s) (refusalCode_pure h) ?_
  rw [Engine.getState_bind, if_neg (by rw [hr]; exact Bool.false_ne_true), requireValid_refused hv]

theorem exec_imgVerify {r : Role} {v : Bool} (h : s.AcceptsPure) (hr : hasRole s.par r = true)
    (hv : s.cfgValid = true) (hrun : verify r s = .ok v s) :
    exec (.imgVerify r) s = .next { s with res0 := (BitVec.ofBool v).setWidth 32, result := 0 } := by
  refine runCommand_ok (c := .ok) (t := { s with res0 := (BitVec.ofBool v).setWidth 32 }) (refusalCode_pure h) ?_
  rw [Engine.getState_bind, if_neg (by rw [hr]; exact Bool.false_ne_true), requireValid_run hv,
    Engine.bind_run_ok hrun]
  rfl

theorem hasRole_ab {p : Config} (ht : p.topology = .ab) (r : Role) :
    hasRole p r = decide (r = .a ∨ r = .b) := by
  unfold hasRole
  rw [ht]
  cases r <;> rfl

theorem hasRole_sr {p : Config} (ht : p.topology = .sr) (r : Role) :
    hasRole p r = decide (r = .staging ∨ r = .run) := by
  unfold hasRole
  rw [ht]
  cases r <;> rfl

/-- Settles O36, by the role: `verify_ab`, `verify_runRegion` and `verify_staging` say what `Verify` answers. -/
theorem imgVerifyCommand : Obligations.ImgVerifyCommand := by
  intro s r h
  refine ⟨fun ht hr => exec_imgVerify_badRole h ?_, fun ht hr => exec_imgVerify_badRole h ?_, fun ht hr => ?_,
    fun ht hr => ?_⟩
  · rw [hasRole_ab ht]
    rcases hr with rfl | rfl <;> rfl
  · rw [hasRole_sr ht]
    rcases hr with rfl | rfl <;> rfl
  · have hrole : hasRole s.par r = true := by rw [hasRole_ab ht, decide_eq_true hr]
    refine ⟨exec_imgVerify_invalid h hrole, fun c hv hc => ?_⟩
    rw [exec_imgVerify h hrole hv (verify_ab hc hr), flagWord_decide]
  · have hrole : hasRole s.par r = true := by rw [hasRole_sr ht, decide_eq_true hr]
    refine ⟨exec_imgVerify_invalid h hrole, fun c hv hc => ?_⟩
    rcases hr with rfl | rfl
    · rw [exec_imgVerify h hrole hv (verify_staging s), if_neg (fun ⟨he, _⟩ => Role.noConfusion he)]
      rfl
    · rw [exec_imgVerify h hrole hv (verify_runRegion hc), flagWord_decide]
      simp only [true_and]

/-! ### UPD_TARGET (45_config.md R311) -/

theorem updTarget_eq {r : Role} (h : s.hasRecord = true) (ht : s.target = some r) : updTarget s = .ok r s := by
  obtain ⟨r', hrun, ht'⟩ := updTarget_run h
  obtain rfl : r = r' := Option.some.inj (ht.symm.trans ht')
  exact hrun

theorem target_ab {c : AbRecord} (ht : s.par.topology = .ab) (hc : s.cacheAb = some c) :
    s.target = some (otherRole (activeRole c.active)) := by
  rw [State.target, ht, hc]
  rfl

theorem target_sr (ht : s.par.topology = .sr) : s.target = some .staging := by
  rw [State.target, ht]

theorem exec_updTarget {r : Role} (h : s.AcceptsPure) (hv : s.cfgValid = true) (hrec : s.hasRecord = true)
    (ht : s.target = some r) : exec .updTarget s = .next { s with res0 := roleWord r, result := 0 } := by
  refine runCommand_ok (c := .ok) (t := { s with res0 := roleWord r }) (refusalCode_pure h) ?_
  rw [requireValid_run hv, Engine.bind_run_ok (updTarget_eq hrec ht)]
  rfl

/-- The word of the inactive role, for an active byte a valid record may hold. -/
theorem roleWord_inactive {b : Byte} (hb : b.toNat ≤ 1) :
    roleWord (otherRole (activeRole b)) = if b = 0 then 1 else 0 := by
  have hcases : b = 0 ∨ b = 1 := by bv_omega
  rcases hcases with rfl | rfl <;> rfl

/-- A pure command behind `requireValid` is refused without a valid record. -/
theorem refusesPure {body : Engine Code} (h : s.AcceptsPure) (hv : s.cfgValid = false) :
    runCommand .pure (requireValid body) s = .next { s with result := 0xFFFFFFE8 } :=
  runCommand_ok (refusalCode_pure h) (requireValid_refused hv body)

/-- The same of a command that may write. -/
theorem refusesWrite {body : Engine Code} (h : s.AcceptsWrite) (hv : s.cfgValid = false) :
    runCommand .write (requireValid body) s = .next { s with result := 0xFFFFFFE8 } :=
  runCommand_ok (refusalCode_write h) (requireValid_refused hv body)

/-- Settles O38: a valid record holds an active byte of 0 or 1, which `roleWord_inactive` needs. -/
theorem updTargetCommand : Obligations.UpdTargetCommand := by
  intro s hs h
  refine ⟨refusesPure h, fun c hv ht hc => ?_, fun hv ht => ?_⟩
  · have hready := hs.ready hv
    obtain ⟨c', hc', hvalid⟩ := hready.ab ht
    obtain rfl : c = c' := Option.some.inj (hc.symm.trans hc')
    obtain ⟨-, hactive, -⟩ := validAb_iff.1 hvalid
    rw [exec_updTarget h hv hready.hasRecord (target_ab ht hc), roleWord_inactive hactive]
  · rw [exec_updTarget h hv (hs.ready hv).hasRecord (target_sr ht)]
    rfl

/-! ### CFG_GET (45_config.md R318) -/

theorem serializeCache_ab {c : AbRecord} (ht : s.par.topology = .ab) (hc : s.cacheAb = some c) :
    serializeCache s = .ok (serializeAb c) s := by
  rw [serializeCache, Engine.getState_bind, ht]
  exact Engine.bind_run_ok (abCache_run hc)

theorem serializeCache_sr {c : SrRecord} (ht : s.par.topology = .sr) (hc : s.cacheSr = some c) :
    serializeCache s = .ok (serializeSr c) s := by
  rw [serializeCache, Engine.getState_bind, ht]
  exact Engine.bind_run_ok (srCache_run hc)

theorem exec_cfgGet_bad (h : s.AcceptsPure) (hb : ¬ SpanWritable s.par s.operand0 s.par.recSize) :
    exec .cfgGet s = .next { s with result := 0xFFFFFFEE } := by
  refine runCommand_ok (c := .eBadSpan) (t := s) (refusalCode_pure h) ?_
  rw [Engine.getState_bind, if_neg (mt inRam_iff.1 hb)]
  rfl

/-- The serialised cache is copied to ARG0. -/
theorem exec_cfgGet {l : List Byte} {n : Nat} (h : s.AcceptsPure) (hm : Memory.Wf s.mem)
    (hspan : SpanWritable s.par s.operand0 s.par.recSize) (hl : serializeCache s = .ok l s)
    (hn : s.par.recSize = n) :
    ∃ t, exec .cfgGet s = .next t
      ∧ t = { s with mem := t.mem, res0 := BitVec.ofNat 32 n, res1 := if s.cfgValid then 1 else 0, result := 0 }
      ∧ StoredAt s.mem t.mem s.operand0 l := by
  refine ⟨{ s with
    mem := s.mem.store s.operand0 l, res0 := BitVec.ofNat 32 n, res1 := if s.cfgValid then 1 else 0, result := 0 },
    ?_, rfl, Memory.storedAt hm _ _⟩
  rw [← flagWord, ← hn]
  refine runCommand_ok (c := .ok) (t := { s with
    mem := s.mem.store s.operand0 l, res0 := BitVec.ofNat 32 s.par.recSize,
    res1 := (BitVec.ofBool s.cfgValid).setWidth 32 }) (refusalCode_pure h) ?_
  rw [Engine.getState_bind, if_pos (inRam_iff.2 hspan), Engine.bind_run_ok hl]
  rfl

/-- Settles O44, by the topology, which says what the cache serialises to. -/
theorem cfgGetCommand : Obligations.CfgGetCommand := by
  intro s h hm
  refine ⟨exec_cfgGet_bad h, fun hspan => ⟨fun c ht hc => ?_, fun c ht hc => ?_⟩⟩
  · exact exec_cfgGet h hm hspan (serializeCache_ab ht hc) (by rw [Config.recSize, ht])
  · exact exec_cfgGet h hm hspan (serializeCache_sr ht hc) (by rw [Config.recSize, ht])

/-! ### Without a valid record (45_config.md R300) -/

theorem hasRole_target {r : Role} (ht : s.target = some r) : hasRole s.par r = true := by
  cases htop : s.par.topology
  · rw [State.target, htop] at ht
    obtain ⟨c, -, rfl⟩ := Option.map_eq_some_iff.1 ht
    exact (hasRole_activeRole htop c.active).2
  · obtain rfl : r = .staging := Option.some.inj (ht.symm.trans (target_sr htop))
    rw [hasRole_sr htop]
    rfl

theorem exec_updStart_invalid {r : Role} (h : s.AcceptsWrite) (hr : hasRole s.par r = true)
    (hv : s.cfgValid = false) : exec (.updStart r) s = .next { s with result := 0xFFFFFFE8 } := by
  refine runCommand_ok (c := .eCfgInvalid) (t := s) (refusalCode_write h) ?_
  rw [Engine.getState_bind, if_neg (by rw [hr]; exact Bool.false_ne_true), requireValid_refused hv]

/-- The role and the size that UPD_COMPLETE takes (45_config.md R313). -/
abbrev State.completes (s : State) (r : Role) : Prop :=
  s.target = some r ∧ s.arg0 ≠ 0 ∧ s.arg0.toNat ≤ s.par.regionSize

/-- The body of UPD_COMPLETE past its tests. -/
theorem updComplete_tests {r : Role} {x y : Engine Code} (h : s.completes r) (hrec : s.hasRecord = true) :
    (if !hasRole s.par r ∨ s.operand0 = 0 ∨ s.par.regionSize < s.operand0 then x else do
      let t ← updTarget
      if r ≠ t then x else y) s = y s := by
  obtain ⟨ht, h0, hn⟩ := h
  have hpos : s.arg0.toNat ≠ 0 := fun he => h0 (BitVec.eq_of_toNat_eq he)
  have hpass : ¬ ((!hasRole s.par r) = true ∨ s.operand0 = 0 ∨ s.par.regionSize < s.operand0) := by
    rw [hasRole_target ht]
    rintro (hr | hz | hlt)
    · exact Bool.false_ne_true hr
    · exact hpos hz
    · exact absurd hn (Nat.not_le.2 hlt)
  rw [if_neg hpass, Engine.bind_run_ok (updTarget_eq hrec ht), if_neg (not_not.2 rfl)]

theorem exec_updComplete_invalid {r : Role} (h : s.AcceptsWrite) (hr : s.completes r) (hrec : s.hasRecord = true)
    (hv : s.cfgValid = false) : exec (.updComplete r) s = .next { s with result := 0xFFFFFFE8 } := by
  refine runCommand_ok (c := .eCfgInvalid) (t := s) (refusalCode_write h) ?_
  rw [Engine.getState_bind, updComplete_tests hr hrec, requireValid_refused hv]

/-- Settles O45: a command that runs behind `requireValid` at once, or after its own tests pass. -/
theorem needsValidRecord : Obligations.NeedsValidRecord := by
  intro s i hs h hv hi
  have hpure : s.AcceptsPure := .inr (.inl h)
  have hrec : s.hasRecord = true := hs.hasRecord (by rw [h]; decide) (by rw [h]; decide)
  rcases hi with hi | ⟨r, rfl, hr⟩ | ⟨r, rfl, hr⟩ | ⟨r, rfl, hr⟩
  · simp only [List.mem_cons, List.not_mem_nil, or_false] at hi
    rcases hi with rfl | rfl | rfl | rfl | rfl | rfl | rfl
    case inr.inr.inl => exact refusesPure hpure hv
    all_goals exact refusesWrite h hv
  · exact exec_updStart_invalid h hr hv
  · exact exec_imgVerify_invalid hpure hr hv
  · exact exec_updComplete_invalid h hr hrec hv

end

end Sys2Proof.Machine
end

section
/-! SUPPORT. The transitions of the boot unit that make one persist, with no flash call failing (45_config.md R302,
R304, R312, R313, R315 to R317). -/

namespace Sys2Proof.Machine

section
variable {s t : State}

/-- Two bodies with the same run give the same command. -/
theorem runCommand_congr {k : CmdClass} {body body' : Engine Code} (h : refusalCode k s.dstate = none)
    (hb : body s = body' s) : runCommand k body s = runCommand k body' s := by
  rw [runCommand_accepted h, runCommand_accepted h, hb]

/-! ### UPD_START and UPD_FAILED (45_config.md R312, R315) -/

theorem updStart_ab (ht : s.par.topology = .ab) :
    updStart s = changeAb (fun c => { c with updating := 1, updateReq := 0 }) s := by
  rw [updStart, Engine.getState_bind, ht]
  rfl

theorem updStart_sr (ht : s.par.topology = .sr) : updStart s = changeSr (fun c => { c with pageCount := 1 }) s := by
  rw [updStart, Engine.getState_bind, ht]
  rfl

theorem updFailed_ab (ht : s.par.topology = .ab) :
    updFailed s = changeAb (fun c => { c with updating := 0 }) s := by
  rw [updFailed, Engine.getState_bind, ht]
  rfl

theorem updFailed_sr (ht : s.par.topology = .sr) : updFailed s = changeSr (fun c => { c with pageCount := 0 }) s := by
  rw [updFailed, Engine.getState_bind, ht]
  rfl

/-- A role of the topology that is not the update target is refused, and so is a role of the other topology. -/
theorem exec_updStart_badRole {r : Role} (h : s.AcceptsWrite) (hv : s.cfgValid = true) (hrec : s.hasRecord = true)
    (hr : s.target ≠ some r) : exec (.updStart r) s = .next { s with result := 0xFFFFFFE5 } := by
  refine runCommand_ok (c := .eBadArg) (t := s) (refusalCode_write h) ?_
  rw [Engine.getState_bind, Engine.ite_run]
  split
  · rfl
  · obtain ⟨r', hrun, ht⟩ := updTarget_run hrec
    have hne : r ≠ r' := fun he => hr (he ▸ ht)
    rw [requireValid_run hv, Engine.bind_run_ok hrun, if_pos hne]
    rfl

/-- UPD_START past its tests. -/
theorem exec_updStart {r : Role} (h : s.AcceptsWrite) (hv : s.cfgValid = true) (hrec : s.hasRecord = true)
    (hr : s.target = some r) :
    exec (.updStart r) s = runCommand .write (do let ok ← updStart; raise (persistCode ok)) s := by
  refine runCommand_congr (refusalCode_write h) ?_
  rw [Engine.getState_bind, if_neg (by rw [hasRole_target hr]; exact Bool.false_ne_true), requireValid_run hv,
    Engine.bind_run_ok (updTarget_eq hrec hr), if_neg (not_not.2 rfl)]

theorem exec_updFailed (h : s.AcceptsWrite) (hv : s.cfgValid = true) :
    exec .updFailed s = runCommand .write (do let ok ← updFailed; raise (persistCode ok)) s :=
  runCommand_congr (refusalCode_write h) (requireValid_run hv _)

/-- A command that changes the cache, persists it, and raises the code of the persist. -/
theorem runCommand_changeAb {x : Engine Bool} {c : AbRecord} {f : AbRecord → AbRecord} (hacc : s.AcceptsWrite)
    (h : s.FlashReady) (ht : s.par.topology = .ab) (hc : s.cacheAb = some c) (hx : x s = changeAb f s) :
    StoresAb (runCommand .write (do let ok ← x; raise (persistCode ok)) s) s (f c) := by
  obtain ⟨t, hrun, hsave⟩ := changeAb_saved h ht hc f
  exact storesAb (refusalCode_write hacc) (persistCode_run (hx.trans hrun)) hsave

theorem runCommand_changeSr {x : Engine Bool} {c : SrRecord} {f : SrRecord → SrRecord} (hacc : s.AcceptsWrite)
    (h : s.FlashReady) (ht : s.par.topology = .sr) (hc : s.cacheSr = some c) (hx : x s = changeSr f s) :
    StoresSr (runCommand .write (do let ok ← x; raise (persistCode ok)) s) s (f c) := by
  obtain ⟨t, hrun, hsave⟩ := changeSr_saved h ht hc f
  exact storesSr (refusalCode_write hacc) (persistCode_run (hx.trans hrun)) hsave

/-- Settles O39: past its tests each command is one change of the cache that is persisted. -/
theorem updStartAndFailed : Obligations.UpdStartAndFailed := by
  intro s r hs hacc hv
  have hrec := (hs.ready hv).hasRecord
  refine ⟨exec_updStart_badRole hacc hv hrec, fun hok => ?_⟩
  have hflash := hs.flashReady hok
  refine ⟨fun c ht hc => ⟨fun hr => ?_, ?_⟩, fun c ht hc => ⟨fun hr => ?_, ?_⟩⟩
  · rw [exec_updStart hacc hv hrec hr]
    exact runCommand_changeAb hacc hflash ht hc (updStart_ab ht)
  · rw [exec_updFailed hacc hv]
    exact runCommand_changeAb hacc hflash ht hc (updFailed_ab ht)
  · rw [exec_updStart hacc hv hrec hr]
    exact runCommand_changeSr hacc hflash ht hc (updStart_sr ht)
  · rw [exec_updFailed hacc hv]
    exact runCommand_changeSr hacc hflash ht hc (updFailed_sr ht)

/-! ### UPD_COMPLETE (45_config.md R313) -/

theorem exec_updComplete_bad {r : Role} (h : s.AcceptsWrite) (hrec : s.hasRecord = true) (hr : ¬ s.completes r) :
    exec (.updComplete r) s = .next { s with result := 0xFFFFFFE5 } := by
  refine runCommand_ok (c := .eBadArg) (t := s) (refusalCode_write h) ?_
  rw [Engine.getState_bind, Engine.ite_run]
  split
  · rfl
  · next hpass =>
    obtain ⟨r', hrun, ht⟩ := updTarget_run hrec
    have hne : r ≠ r' := fun he => hr ⟨he ▸ ht, fun h0 => hpass (.inr (.inl (by rw [State.operand0, h0]; rfl))),
      Nat.le_of_not_lt fun hn => hpass (.inr (.inr hn))⟩
    rw [Engine.bind_run_ok hrun, if_pos hne]
    rfl

/-- UPD_COMPLETE past its tests. -/
theorem exec_updComplete {r : Role} (h : s.AcceptsWrite) (hv : s.cfgValid = true) (hrec : s.hasRecord = true)
    (hr : s.completes r) :
    exec (.updComplete r) s = runCommand .write (do let c ← updComplete r s.arg0 s.arg1; raise c) s := by
  refine runCommand_congr (refusalCode_write h) ?_
  rw [Engine.getState_bind, updComplete_tests hr hrec, requireValid_run hv]

theorem updComplete_ab {c : AbRecord} (h : s.FlashReady) (ht : s.par.topology = .ab) (hc : s.cacheAb = some c)
    (r : Role) (size crc : Word) :
    ∃ t, updComplete r size crc s = .ok .ok t
      ∧ SavedAb s t { c.setImage r size crc with active := activeByte r, updating := 0, bootCount := 0 } := by
  obtain ⟨t, hrun, hsave⟩ := cfgPersist_setAb h ht
    { c.setImage r size crc with active := activeByte r, updating := 0, bootCount := 0 }
  refine ⟨t, ?_, hsave⟩
  rw [updComplete, Engine.getState_bind, ht]
  show updCompleteAb r size crc s = _
  rw [updCompleteAb, Engine.bind_run_ok (updateAb_run hc _), Engine.bind_run_ok hrun]
  rfl

/-- Settles O40: refused where `State.completes` fails, and else one change that is persisted. -/
theorem updCompleteAbCommand : Obligations.UpdCompleteAb := by
  intro s r c hs hacc ht hc hv
  have hrec := (hs.ready hv).hasRecord
  refine ⟨fun hbad => exec_updComplete_bad hacc hrec ?_, fun hr h0 hn hok => ?_⟩
  · rintro ⟨hr, h0, hn⟩
    rcases hbad with hbad | hbad | hbad
    · exact hbad hr
    · exact h0 hbad
    · exact absurd hn (Nat.not_le.2 hbad)
  · obtain ⟨t, hrun, hsave⟩ := updComplete_ab (hs.flashReady hok) ht hc r s.arg0 s.arg1
    rw [exec_updComplete hacc hv hrec ⟨hr, h0, hn⟩]
    exact storesAb (refusalCode_write hacc) (Engine.bind_run_ok hrun) hsave

/-! ### BOOT_CONFIRM and REQUEST_UPDATE (45_config.md R316, R317) -/

theorem cfgLoad_ab {c : AbRecord} {v : Bool} (ht : s.par.topology = .ab)
    (hc : c = deserializeAb (s.mem.read s.par.cfgAddr 32)) (hv : validAb s.par c = v) :
    cfgLoad s = .ok v { s with cacheAb := some c, cfgValid := v, cfgDirty := false } := by
  rw [cfgLoad_run, loadRecord_ab ht hc, hv]

theorem cfgLoad_sr {c : SrRecord} {v : Bool} (ht : s.par.topology = .sr)
    (hc : c = deserializeSr (s.mem.read s.par.cfgAddr 16)) (hv : validSr s.par c = v) :
    cfgLoad s = .ok v { s with cacheSr := some c, cfgValid := v, cfgDirty := false } := by
  rw [cfgLoad_run, loadRecord_sr ht hc, hv]

/-- A command that reloads the record first is refused where it is not valid. -/
theorem runCommand_load_invalid {x : Engine Code} (h : s.AcceptsApp) (hload : cfgLoad s = .ok false t) :
    runCommand .app (do if ← cfgLoad then x else raise .eCfgInvalid) s = .next (t.finish .eCfgInvalid) :=
  runCommand_ok (refusalCode_app h) (Engine.bind_run_ok hload)

/-- And runs on the reloaded record where it is valid. -/
theorem load_valid {x : Engine Code} (hload : cfgLoad s = .ok true t) :
    (do if ← cfgLoad then x else raise .eCfgInvalid) s = x t := Engine.bind_run_ok hload

/-- What BOOT_CONFIRM does with a valid record. -/
def confirmBoot : Engine Code := do
  let s ← getState
  match s.par.topology with
  | .ab => do
    let c ← abCache
    if c.bootCount ≠ 0 then do
      updateAb fun c => { c with bootCount := 0 }
      let ok ← cfgPersist
      raise (persistCode ok)
    else raise .ok
  | .sr => raise .ok

/-- What REQUEST_UPDATE does with a valid record. -/
def requestUpdate : Engine Code := do
  let s ← getState
  match s.par.topology with
  | .ab => updateAb fun c => { c with updateReq := 1 }
  | .sr => updateSr fun c => { c with pageCount := 1 }
  let ok ← cfgPersist
  raise (persistCode ok)

theorem exec_bootConfirm (s : State) :
    exec .bootConfirm s = runCommand .app (do if ← cfgLoad then confirmBoot else raise .eCfgInvalid) s := rfl

theorem exec_requestUpdate (s : State) :
    exec .requestUpdate s = runCommand .app (do if ← cfgLoad then requestUpdate else raise .eCfgInvalid) s := rfl

theorem confirmBoot_zero {c : AbRecord} (ht : s.par.topology = .ab) (hc : s.cacheAb = some c)
    (h0 : c.bootCount = 0) : confirmBoot s = .ok .ok s := by
  rw [confirmBoot, Engine.getState_bind, ht]
  refine (Engine.bind_run_ok (abCache_run hc)).trans ?_
  rw [if_neg (not_not.2 h0)]
  rfl

theorem confirmBoot_ab {c : AbRecord} (h : s.FlashReady) (ht : s.par.topology = .ab) (hc : s.cacheAb = some c)
    (h0 : c.bootCount ≠ 0) : ∃ t, confirmBoot s = .ok .ok t ∧ SavedAb s t { c with bootCount := 0 } := by
  obtain ⟨t, hrun, hsave⟩ := cfgPersist_setAb h ht { c with bootCount := 0 }
  refine ⟨t, ?_, hsave⟩
  rw [confirmBoot, Engine.getState_bind, ht]
  refine (Engine.bind_run_ok (abCache_run hc)).trans ?_
  rw [if_pos h0, Engine.bind_run_ok (updateAb_run hc _), persistCode_run hrun]

theorem confirmBoot_sr (ht : s.par.topology = .sr) : confirmBoot s = .ok .ok s := by
  rw [confirmBoot, Engine.getState_bind, ht]
  rfl

theorem requestUpdate_ab {c : AbRecord} (h : s.FlashReady) (ht : s.par.topology = .ab) (hc : s.cacheAb = some c) :
    ∃ t, requestUpdate s = .ok .ok t ∧ SavedAb s t { c with updateReq := 1 } := by
  obtain ⟨t, hrun, hsave⟩ := cfgPersist_setAb h ht { c with updateReq := 1 }
  refine ⟨t, ?_, hsave⟩
  rw [requestUpdate, Engine.getState_bind, ht]
  exact (Engine.bind_run_ok (updateAb_run hc _)).trans (persistCode_run hrun)

theorem requestUpdate_sr {c : SrRecord} (h : s.FlashReady) (ht : s.par.topology = .sr) (hc : s.cacheSr = some c) :
    ∃ t, requestUpdate s = .ok .ok t ∧ SavedSr s t { c with pageCount := 1 } := by
  obtain ⟨t, hrun, hsave⟩ := cfgPersist_setSr h ht { c with pageCount := 1 }
  refine ⟨t, ?_, hsave⟩
  rw [requestUpdate, Engine.getState_bind, ht]
  exact (Engine.bind_run_ok (updateSr_run hc _)).trans (persistCode_run hrun)

/-- The state after a load that finds a valid AB record; a persist after it is measured from `s` with `cfg_valid` = 1,
since it writes the cache and `cfg_dirty` itself. -/
abbrev State.loadedAb (s : State) (c : AbRecord) : State :=
  { s with cacheAb := some c, cfgValid := true, cfgDirty := false }

abbrev State.loadedSr (s : State) (c : SrRecord) : State :=
  { s with cacheSr := some c, cfgValid := true, cfgDirty := false }

theorem SavedAb.of_loaded {c d : AbRecord} (h : SavedAb (s.loadedAb c) t d) :
    SavedAb { s with cfgValid := true } t d := h

theorem SavedSr.of_loaded {c d : SrRecord} (h : SavedSr (s.loadedSr c) t d) :
    SavedSr { s with cfgValid := true } t d := h

/-- Settles O42: a load, and then `confirmBoot` on the record that it found. -/
theorem bootConfirmCommand : Obligations.BootConfirmCommand := by
  intro s hs hacc
  refine ⟨fun c ht hc => ⟨fun hv => ?_, fun hv h0 => ?_, fun hv h0 hok => ?_⟩,
    fun c ht hc => ⟨fun hv => ?_, fun hv => ?_⟩⟩ <;> rw [exec_bootConfirm]
  · exact runCommand_load_invalid hacc (cfgLoad_ab ht hc hv)
  · have hrun := confirmBoot_zero (s := s.loadedAb c) ht rfl h0
    exact runCommand_ok (refusalCode_app hacc) ((load_valid (cfgLoad_ab ht hc hv)).trans hrun)
  · obtain ⟨t, hrun, hsave⟩ := confirmBoot_ab (s := s.loadedAb c) (hs.flashReady hok) ht rfl h0
    exact storesAb (refusalCode_app hacc) ((load_valid (cfgLoad_ab ht hc hv)).trans hrun) hsave.of_loaded
  · exact runCommand_load_invalid hacc (cfgLoad_sr ht hc hv)
  · have hrun := confirmBoot_sr (s := s.loadedSr c) ht
    exact runCommand_ok (refusalCode_app hacc) ((load_valid (cfgLoad_sr ht hc hv)).trans hrun)

/-- Settles O43: a load, and then `requestUpdate` on the record that it found. -/
theorem requestUpdateCommand : Obligations.RequestUpdateCommand := by
  intro s hs hacc
  refine ⟨fun c ht hc => ⟨fun hv => ?_, fun hv hok => ?_⟩,
    fun c ht hc => ⟨fun hv => ?_, fun hv hok => ?_⟩⟩ <;> rw [exec_requestUpdate]
  · exact runCommand_load_invalid hacc (cfgLoad_ab ht hc hv)
  · obtain ⟨t, hrun, hsave⟩ := requestUpdate_ab (s := s.loadedAb c) (hs.flashReady hok) ht rfl
    exact storesAb (refusalCode_app hacc) ((load_valid (cfgLoad_ab ht hc hv)).trans hrun) hsave.of_loaded
  · exact runCommand_load_invalid hacc (cfgLoad_sr ht hc hv)
  · obtain ⟨t, hrun, hsave⟩ := requestUpdate_sr (s := s.loadedSr c) (hs.flashReady hok) ht rfl
    exact storesSr (refusalCode_app hacc) ((load_valid (cfgLoad_sr ht hc hv)).trans hrun) hsave.of_loaded

/-! ### CFG_INIT and the factory probe (45_config.md R302, R304) -/

/-- A plausible stack pointer and reset vector stand at `b` (45_config.md R304, R307). -/
abbrev ImageFound (p : Config) (m : Memory) (b : Nat) : Prop :=
  p.ramBase < (m.word b).toNat ∧ (m.word b).toNat ≤ p.ramEnd ∧ b ≤ (m.word (b + 4)).toNat
    ∧ (m.word (b + 4)).toNat < b + p.regionSize

theorem probeImage_eq (p : Config) (m : Memory) (b : Nat) :
    probeImage p m b = if ImageFound p m b then
      some (BitVec.ofNat 32 (measuredSize (m.read b p.regionSize)),
        crc32 (m.read b (measuredSize (m.read b p.regionSize))))
    else none := by
  simp only [probeImage, Bool.and_eq_true, decide_eq_true_eq, spPlausible_iff, and_assoc]

/-- The measured size ends at the last byte that is not erased. -/
theorem measuredSize_eq {l : List Byte} {o : Nat} (ho : o < l.length) (hl : l[o] ≠ erasedByte)
    (hrest : ∀ q (hq : q < l.length), o < q → l[q] = erasedByte) : measuredSize l = o + 1 := by
  have herased : ∀ x ∈ (l.drop (o + 1)).reverse, (x == erasedByte) = true := by
    intro x hx
    obtain ⟨i, hi, rfl⟩ := List.getElem_of_mem (List.mem_reverse.1 hx)
    rw [List.getElem_drop, hrest _ (by rw [List.length_drop] at hi; omega) (by omega), beq_self_eq_true]
  have hsplit : l.reverse = (l.drop (o + 1)).reverse ++ l[o] :: (l.take o).reverse := by
    conv_lhs => rw [← List.take_append_drop (o + 1) l, ← List.take_concat_get' l o ho]
    rw [List.reverse_append, List.reverse_append]
    rfl
  rw [measuredSize, hsplit, List.dropWhile_append_of_pos herased,
    List.dropWhile_cons_of_neg (by rw [beq_iff_eq]; exact hl), List.length_cons, List.length_reverse,
    List.length_take_of_le ho.le]

/-- Where the probe finds an image that ends at offset `o`, it measures and checks that image. -/
theorem probeImage_found {p : Config} {m : Memory} {b o : Nat} (h : ImageFound p m b) (ho : o < p.regionSize)
    (hbyte : m.get (b + o) ≠ 0xFF) (hrest : ∀ q, o < q → q < p.regionSize → m.get (b + q) = 0xFF) :
    probeImage p m b = some (BitVec.ofNat 32 (o + 1), crc32 (m.read b (o + 1))) := by
  have hget (q : Nat) (hq : q < (m.read b p.regionSize).length) :
      (m.read b p.regionSize)[q] = m.get (b + q) := by simp [Memory.read]
  have hlen : (m.read b p.regionSize).length = p.regionSize := Memory.read_length m b p.regionSize
  have hsize : measuredSize (m.read b p.regionSize) = o + 1 :=
    measuredSize_eq (by rw [hlen]; exact ho) (by rw [hget]; exact hbyte) fun q hq hoq => by
      rw [hget]
      exact hrest q hoq (by rw [hlen] at hq; exact hq)
  rw [probeImage_eq, if_pos h, hsize]

/-- What CFG_INIT finds in the probe region: nothing where the probe is off. -/
def factoryImage (p : Config) (m : Memory) (b : Nat) : Option (Word × Word) :=
  if p.probeFactory then probeImage p m b else none

theorem factoryImage_none {p : Config} {m : Memory} {b : Nat} (h : p.probeFactory = false ∨ ¬ ImageFound p m b) :
    factoryImage p m b = none := by
  unfold factoryImage
  rw [probeImage_eq]
  rcases h with h | h
  · rw [h]
    rfl
  · rw [if_neg h, ite_self]

theorem factoryImage_some {p : Config} {m : Memory} {b o : Nat} (hp : p.probeFactory = true) (h : ImageFound p m b)
    (ho : o < p.regionSize) (hbyte : m.get (b + o) ≠ 0xFF)
    (hrest : ∀ q, o < q → q < p.regionSize → m.get (b + q) = 0xFF) :
    factoryImage p m b = some (BitVec.ofNat 32 (o + 1), crc32 (m.read b (o + 1))) :=
  (if_pos hp).trans (probeImage_found h ho hbyte hrest)

theorem probe_nothing {b : Nat} (hb : b = if s.par.topology = .ab then s.par.aBase else s.par.runBase)
    (h : probeImage s.par s.mem b = none) : probe s = .ok () s := by
  rw [probe, Engine.getState_bind]
  cases ht : s.par.topology
  · rw [hb, if_pos ht] at h
    simp only [h]
    rfl
  · rw [hb, if_neg (by rw [ht]; decide)] at h
    simp only [h]
    rfl

theorem probe_ab {c : AbRecord} {size crc : Word} (ht : s.par.topology = .ab) (hc : s.cacheAb = some c)
    (h : probeImage s.par s.mem s.par.aBase = some (size, crc)) :
    probe s = .ok () { s with cacheAb := some { c with sizeA := size, crcA := crc, active := 0 } } := by
  rw [probe, Engine.getState_bind, ht]
  simp only [h]
  exact updateAb_run hc _

theorem probe_sr {c : SrRecord} {size crc : Word} (ht : s.par.topology = .sr) (hc : s.cacheSr = some c)
    (h : probeImage s.par s.mem s.par.runBase = some (size, crc)) :
    probe s = .ok () { s with cacheSr := some { c with runSize := size, runCrc := crc } } := by
  rw [probe, Engine.getState_bind, ht]
  simp only [h]
  exact updateSr_run hc _

theorem defaultRecord_ab (ht : s.par.topology = .ab) :
    s.defaultRecord = { s with cacheAb := some (defaultAb s.par), cfgValid := true } := by
  rw [State.defaultRecord, ht]

theorem defaultRecord_sr (ht : s.par.topology = .sr) :
    s.defaultRecord = { s with cacheSr := some (defaultSr s.par), cfgValid := true } := by
  rw [State.defaultRecord, ht]

@[simp] theorem defaultRecord_par (s : State) : s.defaultRecord.par = s.par := by
  cases ht : s.par.topology
  · rw [defaultRecord_ab ht]
  · rw [defaultRecord_sr ht]

@[simp] theorem defaultRecord_mem (s : State) : s.defaultRecord.mem = s.mem := by
  cases ht : s.par.topology
  · rw [defaultRecord_ab ht]
  · rw [defaultRecord_sr ht]

theorem cfgInit_probed (hp : s.par.probeFactory = true) (h : probe s.defaultRecord = .ok () t) :
    cfgInit s = cfgPersist t := by
  rw [cfgInit, Engine.update_bind, Engine.getState_bind, if_pos (by rw [defaultRecord_par, hp])]
  exact Engine.bind_run_ok h

theorem cfgInit_default {b : Nat} (hb : b = if s.par.topology = .ab then s.par.aBase else s.par.runBase)
    (h : factoryImage s.par s.mem b = none) : cfgInit s = cfgPersist s.defaultRecord := by
  cases hp : s.par.probeFactory
  · rw [cfgInit, Engine.update_bind, Engine.getState_bind,
      if_neg (by rw [defaultRecord_par, hp]; exact Bool.false_ne_true)]
  · rw [factoryImage, if_pos hp] at h
    exact cfgInit_probed hp (probe_nothing (b := b) (by rw [defaultRecord_par]; exact hb)
      (by rw [defaultRecord_par, defaultRecord_mem]; exact h))

theorem factoryImage_found {p : Config} {m : Memory} {b : Nat} {found : Word × Word}
    (h : factoryImage p m b = some found) : p.probeFactory = true ∧ probeImage p m b = some found := by
  unfold factoryImage at h
  split at h
  · exact ⟨‹_›, h⟩
  · cases h

theorem cfgInit_ab {size crc : Word} (ht : s.par.topology = .ab)
    (h : factoryImage s.par s.mem s.par.aBase = some (size, crc)) :
    cfgInit s = cfgPersist { s with
      cacheAb := some { defaultAb s.par with sizeA := size, crcA := crc }, cfgValid := true } := by
  obtain ⟨hp, himage⟩ := factoryImage_found h
  refine cfgInit_probed hp ?_
  rw [defaultRecord_ab ht]
  exact probe_ab ht rfl himage

theorem cfgInit_sr {size crc : Word} (ht : s.par.topology = .sr)
    (h : factoryImage s.par s.mem s.par.runBase = some (size, crc)) :
    cfgInit s = cfgPersist { s with
      cacheSr := some { defaultSr s.par with runSize := size, runCrc := crc }, cfgValid := true } := by
  obtain ⟨hp, himage⟩ := factoryImage_found h
  refine cfgInit_probed hp ?_
  rw [defaultRecord_sr ht]
  exact probe_sr ht rfl himage

/-- CFG_INIT, by the record it persists. -/
theorem exec_cfgInit_ab {c : AbRecord} (hacc : s.AcceptsWrite) (h : s.FlashReady) (ht : s.par.topology = .ab)
    (hinit : cfgInit s = cfgPersist { s with cacheAb := some c, cfgValid := true }) :
    StoresAb (exec .cfgInit s) { s with cfgValid := true } c := by
  obtain ⟨t, hrun, hsave⟩ := cfgPersist_setAb (s := { s with cfgValid := true }) h ht c
  exact storesAb (refusalCode_write hacc) (persistCode_run (hinit.trans hrun)) hsave

theorem exec_cfgInit_sr {c : SrRecord} (hacc : s.AcceptsWrite) (h : s.FlashReady) (ht : s.par.topology = .sr)
    (hinit : cfgInit s = cfgPersist { s with cacheSr := some c, cfgValid := true }) :
    StoresSr (exec .cfgInit s) { s with cfgValid := true } c := by
  obtain ⟨t, hrun, hsave⟩ := cfgPersist_setSr (s := { s with cfgValid := true }) h ht c
  exact storesSr (refusalCode_write hacc) (persistCode_run (hinit.trans hrun)) hsave

/-- Settles O34: `factoryImage` says what the probe finds, and the record that results is persisted. -/
theorem cfgInitCommand : Obligations.CfgInitCommand := by
  intro s b hs hacc hok hb
  have hflash := hs.flashReady hok
  refine ⟨fun c ht hc => ?_, fun c ht hc => ?_⟩ <;> subst hc
  · have hbase : b = s.par.aBase := hb.trans (if_pos ht)
    refine ⟨fun hno => ?_, fun o hp h1 h2 h3 h4 ho hbyte hrest => ?_⟩
    · have hinit := cfgInit_default hb (factoryImage_none hno)
      rw [defaultRecord_ab ht] at hinit
      exact exec_cfgInit_ab hacc hflash ht hinit
    · have hfound := factoryImage_some hp ⟨h1, h2, h3, h4⟩ ho hbyte hrest
      subst hbase
      exact exec_cfgInit_ab hacc hflash ht (cfgInit_ab ht hfound)
  · have hbase : b = s.par.runBase := hb.trans (if_neg (by rw [ht]; decide))
    refine ⟨fun hno => ?_, fun o hp h1 h2 h3 h4 ho hbyte hrest => ?_⟩
    · have hinit := cfgInit_default hb (factoryImage_none hno)
      rw [defaultRecord_sr ht] at hinit
      exact exec_cfgInit_sr hacc hflash ht hinit
    · have hfound := factoryImage_some hp ⟨h1, h2, h3, h4⟩ ho hbyte hrest
      subst hbase
      exact exec_cfgInit_sr hacc hflash ht (cfgInit_sr ht hfound)

end

end Sys2Proof.Machine
end

section
/-! SUPPORT. UPD_COMPLETE under SR: the copy of the staging image into the run region, and its verification
(45_config.md R313, R314), with no flash call failing. -/

namespace Sys2Proof.Machine

section
variable {s t u : State}

theorem Memory.take_read (m : Memory) (a : Nat) {k n : Nat} (h : k ≤ n) : (m.read a n).take k = m.read a k := by
  rw [Memory.read, Memory.read, ← List.map_take, List.take_range, Nat.min_eq_left h]

/-- The copy writes the staging bytes, up to a whole halfword, and nothing else. -/
theorem copyStaging_done (h : s.FlashReady) (n : Nat) :
    ∃ u, writeFlash s.par.runBase (s.mem.halfBuffer s.par.stagingBase (ceilDiv n 2)) s = .ok true u
      ∧ WriteDone s u u.mem ∧ Memory.Wf u.mem
      ∧ StoredAt s.mem u.mem s.par.runBase (s.mem.read s.par.stagingBase (2 * ceilDiv n 2)) := by
  obtain ⟨hwf, hp, hirq, hok⟩ := h
  obtain ⟨hbase, -, hdvd⟩ := Config.Sound.region hp .run
  obtain ⟨u, m, hrun, hd, hw, hst⟩ := writeFlash_done hwf hp hirq hok (a := s.par.runBase)
    (hw := s.mem.halfBuffer s.par.stagingBase (ceilDiv n 2)) (Nat.le_of_add_right_le hbase)
    (hp.granule_dvd.trans hdvd)
  obtain rfl : u.mem = m := hd.mem
  rw [Memory.halfBuffer, halfBytes_halves _ (by rw [Memory.read_length, Nat.mul_mod_right])] at hst
  exact ⟨u, hrun, hd, hw, hst⟩

theorem WriteDone.flashReady {m : Memory} (h : WriteDone s t m) (hs : s.FlashReady) (hw : Memory.Wf t.mem) :
    t.FlashReady := by
  obtain ⟨-, hp, hirq, -⟩ := hs
  obtain ⟨-, -, hok⟩ := id h
  exact ⟨hw, h.par ▸ hp, h.irq.trans hirq, hok⟩

theorem WriteDone.cacheSr {m : Memory} (h : WriteDone s t m) : t.cacheSr = s.cacheSr := by
  obtain ⟨hrest, -⟩ := h
  rw [hrest]

/-- What the end of the command leaves after a copy that reached `u` and a persist from there. -/
def CopyEnds (s u t : State) (c : SrRecord) : Prop :=
  t = { s with mem := t.mem, scratch := t.scratch, env := t.env, cacheSr := some c, cfgDirty := false,
               result := t.result }
    ∧ OnlyFlashCalls s.env t.env ∧ RecordStored s.par u.mem t.mem (serializeSr c)

theorem CopyEnds.of_saved {c : SrRecord} (hu : WriteDone s u u.mem) (ht : SavedSr u t c) (code : Code) :
    CopyEnds s u (t.finish code) c := by
  obtain ⟨⟨hrest, hst, hcalls⟩, -, h0, h1, -⟩ := ht
  obtain ⟨hcopy, hflash, -⟩ := hu
  have hpar : u.par = s.par := by rw [hcopy]
  have hr0 : t.res0 = s.res0 := h0.trans (by rw [hcopy])
  have hr1 : t.res1 = s.res1 := h1.trans (by rw [hcopy])
  refine ⟨congrArg (State.finish · code) (?_ : t = { s with
    mem := t.mem, scratch := t.scratch, env := t.env, cacheSr := some c, cfgDirty := false, result := t.result }),
    hflash.trans ⟨_, _, hcalls⟩, hpar ▸ hst⟩
  rw [hrest, hr0, hr1, hcopy]

section
variable {c : SrRecord} {size crc : Word}

/-- The image in the run region after the copy has the CRC of the staging image. -/
theorem copied_crc {p : Config} {m m' : Memory} {n : Nat} (h0 : 0 < n) (hn : n ≤ p.regionSize)
    (h : StoredAt m m' p.runBase (m.read p.stagingBase (2 * ceilDiv n 2))) :
    imgCrc p m' p.runBase n = crc32 (m.read p.stagingBase n) := by
  have hle : n ≤ 2 * ceilDiv n 2 := by
    rw [Nat.mul_comm]
    exact le_ceilDiv_mul n (by decide)
  rw [imgCrc_accepted h0 hn, h.read (by rw [Memory.read_length]; exact hle), Memory.take_read _ _ hle]

/-- The record takes the new image where its CRC matches. -/
theorem updComplete_copied (h : s.FlashReady) (ht : s.par.topology = .sr) (hc : s.cacheSr = some c)
    (hcopy : writeFlash s.par.runBase (s.mem.halfBuffer s.par.stagingBase (ceilDiv size.toNat 2)) s = .ok true u)
    (hu : WriteDone s u u.mem) (hw : Memory.Wf u.mem) (hcrc : imgCrc s.par u.mem s.par.runBase size.toNat = crc) :
    ∃ t, updComplete .staging size crc s = .ok .ok t
      ∧ SavedSr u t { c with runSize := size, runCrc := crc, pageCount := 0 } := by
  have hcu : u.cacheSr = some c := hu.cacheSr.trans hc
  obtain ⟨t, hrun, hsave⟩ := cfgPersist_setSr (hu.flashReady h hw) (hu.par ▸ ht)
    { c with runSize := size, runCrc := crc, pageCount := 0 }
  refine ⟨t, ?_, hsave⟩
  rw [updComplete, Engine.getState_bind, ht]
  show updCompleteSr size crc s = _
  rw [updCompleteSr, Engine.getState_bind, Engine.bind_run_ok hcopy, Engine.getState_bind,
    if_pos (by rw [hu.par, hcrc, beq_self_eq_true]; rfl), Engine.bind_run_ok (updateSr_run hcu _),
    Engine.bind_run_ok hrun]
  rfl

/-- The old run record stays where it does not. -/
theorem updComplete_mismatch (h : s.FlashReady) (ht : s.par.topology = .sr) (hc : s.cacheSr = some c)
    (hcopy : writeFlash s.par.runBase (s.mem.halfBuffer s.par.stagingBase (ceilDiv size.toNat 2)) s = .ok true u)
    (hu : WriteDone s u u.mem) (hw : Memory.Wf u.mem) (hcrc : imgCrc s.par u.mem s.par.runBase size.toNat ≠ crc) :
    ∃ t, updComplete .staging size crc s = .ok .eCopy t ∧ SavedSr u t { c with pageCount := 0 } := by
  have hcu : u.cacheSr = some c := hu.cacheSr.trans hc
  obtain ⟨t, hrun, hsave⟩ := cfgPersist_setSr (hu.flashReady h hw) (hu.par ▸ ht) { c with pageCount := 0 }
  refine ⟨t, ?_, hsave⟩
  rw [updComplete, Engine.getState_bind, ht]
  show updCompleteSr size crc s = _
  rw [updCompleteSr, Engine.getState_bind, Engine.bind_run_ok hcopy, Engine.getState_bind,
    if_neg (by rw [hu.par, Bool.true_and, beq_iff_eq]; exact hcrc), Engine.bind_run_ok (updateSr_run hcu _),
    Engine.bind_run_ok hrun]
  rfl

end

/-- Settles O41: the copy (`copyStaging_done`), then one of two persists, by the CRC of what was copied. -/
theorem updCompleteSrCommand : Obligations.UpdCompleteSr := by
  intro s c n hs hacc ht hc hn
  have hrec : s.hasRecord = true := hs.hasRecord (by rw [hacc]; decide) (by rw [hacc]; decide)
  have htarget := target_sr ht
  refine ⟨fun r hbad => exec_updComplete_bad hacc hrec ?_, fun hv hok h0 hle => ?_⟩
  · rintro ⟨hr, hnz, hle⟩
    rcases hbad with hbad | hbad | hbad
    · exact hbad (Option.some.inj (hr.symm.trans htarget))
    · exact hnz (BitVec.eq_of_toNat_eq (hn.symm.trans hbad))
    · exact absurd (hn ▸ hle) (Nat.not_le.2 hbad)
  · have hready := hs.flashReady hok
    have hcompletes : s.completes .staging := ⟨htarget, fun hz => by rw [hn, hz] at h0; exact Nat.lt_irrefl 0 h0,
      hn ▸ hle⟩
    obtain ⟨u, hcopy, hu, hw, hst⟩ := copyStaging_done hready n
    have hcrc := copied_crc h0 hle hst
    rw [exec_updComplete hacc hv hrec hcompletes]
    subst hn
    by_cases hmatch : crc32 (s.mem.read s.par.stagingBase s.arg0.toNat) = s.arg1
    · obtain ⟨t, hrun, hsave⟩ := updComplete_copied hready ht hc hcopy hu hw (hcrc.trans hmatch)
      obtain ⟨hend, hcalls, hstored⟩ := CopyEnds.of_saved hu hsave .ok
      have hcache : (t.finish .ok).cacheSr = _ := congrArg State.cacheSr hend
      refine ⟨t.finish .ok, u.mem, runCommand_ok (refusalCode_write hacc) (Engine.bind_run_ok hrun), ?_, hcalls, hst,
        fun _ => ⟨rfl, hcache, hstored⟩, fun hne => absurd hmatch hne⟩
      rw [hcache]
      exact hend
    · obtain ⟨t, hrun, hsave⟩ := updComplete_mismatch hready ht hc hcopy hu hw (hcrc ▸ hmatch)
      obtain ⟨hend, hcalls, hstored⟩ := CopyEnds.of_saved hu hsave .eCopy
      have hcache : (t.finish .eCopy).cacheSr = _ := congrArg State.cacheSr hend
      refine ⟨t.finish .eCopy, u.mem, runCommand_ok (refusalCode_write hacc) (Engine.bind_run_ok hrun), ?_, hcalls,
        hst, fun he => absurd he hmatch, fun _ => ⟨rfl, hcache, hstored⟩⟩
      rw [hcache]
      exact hend

end

end Sys2Proof.Machine
end

section
/-! SUPPORT. BOOT_SELECT with no flash call failing (45_config.md R308 to R310): each of its steps is a run of changes
that are persisted, and none of them touches an image. -/

namespace Sys2Proof.Machine

section
variable {s t u : State} {n : Nat} {c d : AbRecord}

/-! ### Several persists in a row -/

theorem PersistedAb.trans (h : PersistedAb n s t c) (k : PersistedAb 1 t u d) : PersistedAb (n + 1) s u d := by
  obtain ⟨hrest, hst, hcalls⟩ := h
  obtain ⟨krest, kst, kcalls⟩ := k
  have hpar : t.par = s.par := by rw [hrest]
  refine ⟨by rw [krest, hrest], hst.trans (hpar ▸ kst) ?_, ?_⟩
  · rw [serializeAb_length, serializeAb_length]
  · have hboth := hcalls.trans kcalls
    rwa [hpar, ← Nat.add_mul] at hboth

/-- From `s`, `n` persists with no call failing have led to `t`, whose cache is `c`; no result register has changed. -/
def PersistsAb (n : Nat) (s t : State) (c : AbRecord) : Prop :=
  t.FlashReady ∧ t.par = s.par ∧ t.cacheAb = some c ∧ (n = 0 → t = s) ∧ (0 < n → PersistedAb n s t c)

theorem PersistsAb.zero (h : s.FlashReady) (hc : s.cacheAb = some c) : PersistsAb 0 s s c :=
  ⟨h, rfl, hc, fun _ => rfl, fun h0 => absurd h0 (Nat.lt_irrefl 0)⟩

theorem PersistsAb.saved (h : PersistsAb n s t c) (k : SavedAb t u d) : PersistsAb (n + 1) s u d := by
  obtain ⟨-, hpar, -, hzero, hpos⟩ := h
  obtain ⟨kper, kready, -⟩ := k
  obtain ⟨krest, -⟩ := id kper
  refine ⟨kready, ?_, by rw [krest], fun h0 => absurd h0 (Nat.succ_ne_zero n), fun _ => ?_⟩
  · rw [krest]
    exact hpar
  · rcases Nat.eq_zero_or_pos n with h0 | h0
    · subst h0
      exact hzero rfl ▸ kper
    · exact (hpos h0).trans kper

/-- One more change that is persisted. -/
theorem PersistsAb.change (h : PersistsAb n s t c) (ht : s.par.topology = .ab) (f : AbRecord → AbRecord) :
    ∃ u, changeAb f t = .ok true u ∧ PersistsAb (n + 1) s u (f c) := by
  obtain ⟨hready, hpar, hcache, -⟩ := id h
  obtain ⟨u, hrun, hsave⟩ := changeAb_saved hready (hpar ▸ ht) hcache f
  exact ⟨u, hrun, h.saved hsave⟩

/-- Persists write the config sector only. -/
theorem PersistsAb.outside (h : PersistsAb n s t c) {a : Nat} (hp : s.par.Sound) (ht : s.par.topology = .ab)
    (ha : s.par.cfgAddr + s.par.sector ≤ a) : t.mem.get a = s.mem.get a := by
  obtain ⟨-, -, -, hzero, hpos⟩ := h
  rcases Nat.eq_zero_or_pos n with h0 | h0
  · rw [hzero h0]
  · obtain ⟨-, hst, -⟩ := hpos h0
    have hrec : s.par.recSize = 32 := by rw [Config.recSize, ht]
    exact hst.outside (by rw [serializeAb_length, ← hrec]; exact hp.rec_le) (.inr ha)

/-! ### An image is told by the bytes of its region -/

theorem imageGood_congr {p : Config} {m m' : Memory} {base : Nat} {size crc : Word} (h8 : 8 ≤ p.regionSize)
    (h : ∀ a, base ≤ a → a < base + p.regionSize → m'.get a = m.get a) :
    ImageGood p m' base size crc ↔ ImageGood p m base size crc := by
  have hword : m'.word base = m.word base := by
    rw [Memory.word, Memory.word, Memory.read_congr fun a h1 h2 => h a h1 (by omega)]
  unfold ImageGood
  rw [hword]
  refine and_congr_right fun _ => and_congr_right fun hn => ?_
  rw [Memory.read_congr fun a h1 h2 => h a h1 (by omega)]

/-- Persists leave each image as it was. -/
theorem PersistsAb.roleGood (h : PersistsAb n s t c) (hp : s.par.Sound) (ht : s.par.topology = .ab)
    (d : AbRecord) (r : Role) : RoleGood t.par t.mem d r ↔ RoleGood s.par s.mem d r := by
  obtain ⟨-, hpar, -⟩ := id h
  obtain ⟨-, hcfg, -⟩ := Config.Sound.cfgAddr_bounds hp
  obtain ⟨hbase, -, -⟩ := Config.Sound.region hp r
  rw [hpar]
  exact imageGood_congr hp.region_ge fun a ha _ => h.outside hp ht (by omega)

/-! ### Steps 1 and 2: crash recovery and failover (45_config.md R308, R309) -/

/-- Step 1. -/
theorem bootSelectAb_recovered (h : s.FlashReady) (ht : s.par.topology = .ab) (hc : s.cacheAb = some c) :
    ∃ t, PersistsAb (if c.updating = 1 then 1 else 0) s t (recovered c)
      ∧ bootSelectAb s = failOverAndSelect s.par.maxBootAttempts true t := by
  have hstart := PersistsAb.zero h hc
  rw [bootSelectAb_eq, Engine.getState_bind, Engine.bind_run_ok (abCache_run hc), recovered]
  split
  · obtain ⟨t, hrun, hper⟩ := hstart.change ht fun c =>
      { c.setImage (otherRole (activeRole c.active)) 0 0 with updating := 0, bootCount := 0 }
    exact ⟨t, hper, Engine.bind_run_ok (x := crashRecovery) hrun⟩
  · exact ⟨s, hstart, rfl⟩

/-- Step 2. -/
theorem failOverAndSelect_failedOver (h : PersistsAb n s t c) (ht : s.par.topology = .ab) :
    ∃ u, PersistsAb (n + if s.par.maxBootAttempts ≤ c.bootCount.toNat then 1 else 0) s u (failedOver s.par c)
      ∧ failOverAndSelect s.par.maxBootAttempts true t = selectVerified true u := by
  obtain ⟨hready, hpar, hcache, -⟩ := id h
  rw [failOverAndSelect, Engine.bind_run_ok (abCache_run hcache), failedOver]
  split
  · obtain ⟨u, hrun, hsave⟩ := cfgPersist_setAb hready (hpar ▸ ht)
      { c with active := activeByte (otherRole (activeRole c.active)), bootCount := 0 }
    refine ⟨u, h.saved hsave, ?_⟩
    rw [Engine.bind_run_ok (updateAb_run hcache _), Engine.bind_run_ok hrun]
    rfl
  · exact ⟨t, h, rfl⟩

/-- Steps 1 and 2 together. -/
theorem bootSelectAb_early (h : s.FlashReady) (ht : s.par.topology = .ab) (hc : s.cacheAb = some c) :
    ∃ u, PersistsAb (earlyPersists s.par c) s u (failedOver s.par (recovered c))
      ∧ bootSelectAb s = selectVerified true u := by
  obtain ⟨t, hper, hrun⟩ := bootSelectAb_recovered h ht hc
  obtain ⟨u, hper', hrun'⟩ := failOverAndSelect_failedOver hper ht
  exact ⟨u, hper', hrun.trans hrun'⟩

/-! ### Step 3: the choice (45_config.md R309) -/

/-- A candidate counts a boot attempt. -/
theorem attemptBoot_persists (h : PersistsAb n s t c) (ht : s.par.topology = .ab) (cand : Role) :
    ∃ u, attemptBoot cand true t = .ok (some cand, true) u
      ∧ PersistsAb (n + 1) s u { c with
          active := if cand = activeRole c.active then c.active else activeByte cand
          bootCount := c.bootCount + 1 } := by
  obtain ⟨hready, hpar, hcache, -⟩ := id h
  obtain ⟨u, hrun, hsave⟩ := cfgPersist_setAb hready (hpar ▸ ht) { c with
    active := if cand = activeRole c.active then c.active else activeByte cand
    bootCount := c.bootCount + 1 }
  refine ⟨u, ?_, h.saved hsave⟩
  rw [attemptBoot, Engine.bind_run_ok (updateAb_run hcache _), Engine.bind_run_ok hrun]
  rfl

theorem otherRole_ne (b : Byte) : otherRole (activeRole b) ≠ activeRole b := by
  rcases activeRole_cases b with e | e <;> rw [e] <;> decide

theorem otherRole_cases (b : Byte) : otherRole (activeRole b) = .a ∨ otherRole (activeRole b) = .b := by
  rcases activeRole_cases b with e | e <;> rw [e]
  · exact .inr rfl
  · exact .inl rfl

section
variable (h : PersistsAb n s t c) (ht : s.par.topology = .ab) (hp : s.par.Sound)
include h ht hp

theorem verify_persisted {r : Role} (hr : r = .a ∨ r = .b) :
    verify r t = .ok (decide (RoleGood s.par s.mem c r)) t := by
  obtain ⟨-, -, hcache, -⟩ := id h
  rw [verify_ab hcache hr, decide_eq_decide.2 (h.roleGood hp ht c r)]

theorem selectVerified_first (hgood : RoleGood s.par s.mem c (activeRole c.active)) :
    ∃ u, selectVerified true t = .ok (some (activeRole c.active), true) u
      ∧ PersistsAb (n + 1) s u { c with bootCount := c.bootCount + 1 } := by
  obtain ⟨-, -, hcache, -⟩ := id h
  obtain ⟨u, hrun, hper⟩ := attemptBoot_persists h ht (activeRole c.active)
  rw [if_pos rfl] at hper
  refine ⟨u, ?_, hper⟩
  rw [selectVerified, Engine.bind_run_ok (abCache_run hcache),
    Engine.bind_run_ok (verify_persisted h ht hp (activeRole_cases _)), if_pos (decide_eq_true hgood), hrun]

theorem selectVerified_second (hbad : ¬ RoleGood s.par s.mem c (activeRole c.active))
    (hgood : RoleGood s.par s.mem c (otherRole (activeRole c.active))) :
    ∃ u, selectVerified true t = .ok (some (otherRole (activeRole c.active)), true) u
      ∧ PersistsAb (n + 1) s u { c with
          active := activeByte (otherRole (activeRole c.active)), bootCount := c.bootCount + 1 } := by
  obtain ⟨-, -, hcache, -⟩ := id h
  obtain ⟨u, hrun, hper⟩ := attemptBoot_persists h ht (otherRole (activeRole c.active))
  rw [if_neg (otherRole_ne _)] at hper
  refine ⟨u, ?_, hper⟩
  rw [selectVerified, Engine.bind_run_ok (abCache_run hcache),
    Engine.bind_run_ok (verify_persisted h ht hp (activeRole_cases _)), if_neg (by rw [decide_eq_true_eq]; exact hbad),
    Engine.bind_run_ok (verify_persisted h ht hp (otherRole_cases _)), if_pos (decide_eq_true hgood), hrun]

theorem selectVerified_none (hbad : ¬ RoleGood s.par s.mem c (activeRole c.active))
    (hbad' : ¬ RoleGood s.par s.mem c (otherRole (activeRole c.active))) :
    selectVerified true t = .ok (none, true) t := by
  obtain ⟨-, -, hcache, -⟩ := id h
  rw [selectVerified, Engine.bind_run_ok (abCache_run hcache),
    Engine.bind_run_ok (verify_persisted h ht hp (activeRole_cases _)), if_neg (by rw [decide_eq_true_eq]; exact hbad),
    Engine.bind_run_ok (verify_persisted h ht hp (otherRole_cases _)), if_neg (by rw [decide_eq_true_eq]; exact hbad')]
  rfl

end

/-! ### The command -/

theorem bootSelect_ab (ht : s.par.topology = .ab) : bootSelect s = bootSelectAb s := by
  rw [bootSelect, Engine.getState_bind, ht]

theorem bootSelect_sr (ht : s.par.topology = .sr) {c : SrRecord} (hc : s.cacheSr = some c) :
    bootSelect s = .ok (if ImageGood s.par s.mem s.par.runBase c.runSize c.runCrc then some .run else none, true)
      s := by
  rw [bootSelect, Engine.getState_bind, ht]
  show bootSelectSr s = _
  rw [bootSelectSr, Engine.bind_run_ok (verify_runRegion hc), Engine.ite_run]
  simp only [decide_eq_true_eq]
  split <;> rfl

/-- RES0 and RES1 name the choice. -/
theorem exec_bootSelect {sel : Option Role} (hacc : s.AcceptsWrite) (hv : s.cfgValid = true)
    (hrun : bootSelect s = .ok (sel, true) t) : exec .bootSelect s = .next ((t.setSelection sel).finish .ok) := by
  refine runCommand_ok (refusalCode_write hacc) ?_
  rw [requireValid_run hv, Engine.bind_run_ok hrun]
  rfl

theorem PersistedAb.setResults (h : PersistedAb n s t c) (r0 r1 code : Word) :
    PersistedAb n s { t with res0 := r0, res1 := r1, result := code } c := by
  obtain ⟨hrest, hst, hcalls⟩ := h
  exact ⟨congrArg (fun t : State => { t with res0 := r0, res1 := r1, result := code }) hrest, hst, hcalls⟩

/-- The selection writes result registers only. -/
theorem PersistedAb.setSelection (h : PersistedAb n s t c) (sel : Option Role) :
    PersistedAb n s ((t.setSelection sel).finish .ok) c := by
  cases sel with
  | none => exact h.setResults _ _ _
  | some r => exact h.setResults _ _ _

/-- Settles O37: the early persists (`bootSelectAb_early`), then the choice by what verifies; under SR
`bootSelect_sr`. -/
theorem bootSelectCommand : Obligations.BootSelectCommand := by
  intro s hs hacc hv hok
  have hp := hs.sane.sound
  refine ⟨fun c d n first second ht hc hd hn hfirst hsecond => ?_, fun c ht hc => ?_⟩
  · obtain ⟨u, hper, hrun⟩ := bootSelectAb_early (hs.flashReady hok) ht hc
    rw [← hd, ← hn] at hper
    rw [hfirst] at hsecond
    subst hfirst hsecond
    have hselect := (bootSelect_ab ht).trans hrun
    refine ⟨fun hgood => ?_, fun hbad hgood => ?_, fun hbad hbad' => ?_⟩
    · obtain ⟨t, hsel, -, hpar, -, -, hpos⟩ := selectVerified_first hper ht hp hgood
      exact ⟨_, exec_bootSelect hacc hv (hselect.trans hsel), (hpos (Nat.succ_pos n)).setSelection _,
        by rw [← hpar]; rfl, rfl, rfl⟩
    · obtain ⟨t, hsel, -, hpar, -, -, hpos⟩ := selectVerified_second hper ht hp hbad hgood
      exact ⟨_, exec_bootSelect hacc hv (hselect.trans hsel), (hpos (Nat.succ_pos n)).setSelection _,
        by rw [← hpar]; rfl, rfl, rfl⟩
    · have hsel := selectVerified_none hper ht hp hbad hbad'
      obtain ⟨-, -, -, hzero, hpos⟩ := hper
      exact ⟨_, exec_bootSelect hacc hv (hselect.trans hsel), rfl, rfl, rfl, fun h0 => (hpos h0).setSelection none,
        fun h0 => by rw [hzero h0]; rfl⟩
  · have hrun := bootSelect_sr ht hc
    refine ⟨fun hgood => ?_, fun hbad => ?_⟩
    · rw [if_pos hgood] at hrun
      exact exec_bootSelect hacc hv hrun
    · rw [if_neg hbad] at hrun
      exact exec_bootSelect hacc hv hrun

end

end Sys2Proof.Machine
end

section
/-! SUPPORT. RUN_APP, CHECK and JUMP with no flash call failing (46_dispatch.md R350, R354, R355, R357): what
`BootSelect()` chooses is handed off to, and CHECK goes on to JUMP where an image verifies. -/

namespace Sys2Proof.Machine

section
variable {s t u : State} {n : Nat} {c d : AbRecord} {first second : Role}

/-! ### What `BootSelect()` answers (45_config.md R309) -/

/-- Boot selection writes no result register. -/
theorem bootSelect_registers {a : Option Role × Bool} (hs : s.Ready) (hrun : bootSelect s = .ok a u) :
    u.res0 = s.res0 ∧ u.res1 = s.res1 ∧ u.result = s.result := by
  have hboot := bootSelect_ready hs
  rw [Transition, After, hrun] at hboot
  obtain ⟨hb, -⟩ := hboot
  rw [hb.rest]
  exact ⟨rfl, rfl, rfl⟩

section
variable (h : s.FlashReady) (ht : s.par.topology = .ab) (hc : s.cacheAb = some c)
  (hd : d = failedOver s.par (recovered c)) (hn : n = earlyPersists s.par c)
include h ht hc hd hn

/-- The early persists, and then the choice among the images as they were. -/
theorem bootSelect_early :
    ∃ t, PersistsAb n s t d ∧ bootSelect s = selectVerified true t := by
  obtain ⟨t, hper, hrun⟩ := bootSelectAb_early h ht hc
  rw [← hd, ← hn] at hper
  exact ⟨t, hper, (bootSelect_ab ht).trans hrun⟩

variable (hfirst : first = activeRole d.active)
include hfirst

theorem bootSelect_first (hgood : RoleGood s.par s.mem d first) :
    ∃ u, bootSelect s = .ok (some first, true) u
      ∧ PersistsAb (n + 1) s u { d with bootCount := d.bootCount + 1 } := by
  obtain ⟨t, hper, hrun⟩ := bootSelect_early h ht hc hd hn
  subst hfirst
  obtain ⟨-, hp, -⟩ := h
  obtain ⟨u, hsel, hcount⟩ := selectVerified_first hper ht hp hgood
  exact ⟨u, hrun.trans hsel, hcount⟩

variable (hsecond : second = otherRole first)
include hsecond

theorem bootSelect_second (hbad : ¬ RoleGood s.par s.mem d first) (hgood : RoleGood s.par s.mem d second) :
    ∃ u, bootSelect s = .ok (some second, true) u
      ∧ PersistsAb (n + 1) s u { d with active := activeByte second, bootCount := d.bootCount + 1 } := by
  obtain ⟨t, hper, hrun⟩ := bootSelect_early h ht hc hd hn
  subst hsecond hfirst
  obtain ⟨-, hp, -⟩ := h
  obtain ⟨u, hsel, hcount⟩ := selectVerified_second hper ht hp hbad hgood
  exact ⟨u, hrun.trans hsel, hcount⟩

theorem bootSelect_none (hbad : ¬ RoleGood s.par s.mem d first) (hbad' : ¬ RoleGood s.par s.mem d second) :
    ∃ u, bootSelect s = .ok (none, true) u ∧ PersistsAb n s u d := by
  obtain ⟨t, hper, hrun⟩ := bootSelect_early h ht hc hd hn
  subst hsecond hfirst
  obtain ⟨-, hp, -⟩ := h
  exact ⟨t, hrun.trans (selectVerified_none hper ht hp hbad hbad'), hper⟩

end

/-! ### RUN_APP (46_dispatch.md R355, R357) -/

theorem handOffTo_eq (s : State) (b : Nat) : s.handOffTo b = handedOffAt s b := rfl

theorem exec_runApp_some {r : Role} {pf : Bool} (hacc : s.AcceptsWrite) (hv : s.cfgValid = true)
    (hrun : bootSelect s = .ok (some r, pf) u) (hpar : u.par = s.par) :
    exec .runApp s = .next { handedOffAt u (regionBase s.par r) with result := 0 } := by
  refine runCommand_ok (c := .ok) (t := handedOffAt u (regionBase s.par r)) (refusalCode_write hacc) ?_
  rw [requireValid_run hv, Engine.bind_run_ok hrun, ← handOffTo_eq, ← hpar]
  rfl

theorem exec_runApp_none {pf : Bool} (hacc : s.AcceptsWrite) (hv : s.cfgValid = true)
    (hrun : bootSelect s = .ok (none, pf) u) :
    exec .runApp s = .next { u with res0 := 0xFFFFFFFF, res1 := 0xFFFFFFFF, result := 0xFFFFFFF7 } := by
  refine runCommand_ok (c := .eNoImage) (t := { u with res0 := noneWord, res1 := noneWord })
    (refusalCode_write hacc) ?_
  rw [requireValid_run hv, Engine.bind_run_ok hrun]
  rfl

/-- Settles O46: what `BootSelect()` chooses (`bootSelect_first`, `bootSelect_second`, `bootSelect_none`) is handed off
to; under SR `bootSelect_sr`. -/
theorem runAppCommand : Obligations.RunAppCommand := by
  intro s hs hacc hv hok
  have hready := hs.ready hv
  have hflash := hs.flashReady hok
  refine ⟨fun c d n first second ht hc hd hn hfirst hsecond => ⟨fun hgood => ?first, fun hbad hgood => ?second,
    fun hbad hbad' => ?none⟩, fun c ht hc => ⟨fun hgood => ?run, fun hbad => ?noRun⟩⟩
  case first =>
    obtain ⟨u, hrun, -, hpar, -, -, hpos⟩ := bootSelect_first hflash ht hc hd hn hfirst hgood
    obtain ⟨h0, h1, -⟩ := bootSelect_registers hready hrun
    exact ⟨u, exec_runApp_some hacc hv hrun hpar, hpos (Nat.succ_pos n), h0, h1⟩
  case second =>
    obtain ⟨u, hrun, -, hpar, -, -, hpos⟩ := bootSelect_second hflash ht hc hd hn hfirst hsecond hbad hgood
    obtain ⟨h0, h1, -⟩ := bootSelect_registers hready hrun
    exact ⟨u, exec_runApp_some hacc hv hrun hpar, hpos (Nat.succ_pos n), h0, h1⟩
  case none =>
    obtain ⟨u, hrun, -, -, -, hzero, hpos⟩ := bootSelect_none hflash ht hc hd hn hfirst hsecond hbad hbad'
    exact ⟨u, exec_runApp_none hacc hv hrun, hpos, hzero⟩
  case run => exact exec_runApp_some (r := .run) hacc hv ((bootSelect_sr ht hc).trans (by rw [if_pos hgood])) rfl
  case noRun => exact exec_runApp_none hacc hv ((bootSelect_sr ht hc).trans (by rw [if_neg hbad]))

/-! ### JUMP (46_dispatch.md R354) -/

theorem foregroundStep_jump_some {r : Role} {pf : Bool} (hj : s.dstate = .jump)
    (hrun : bootSelect s = .ok (some r, pf) u) (hpar : u.par = s.par) :
    foregroundStep s = .next (handedOffAt u (regionBase s.par r)) := by
  have hjump : jump s = .ok () (handedOffAt u (regionBase s.par r)) := by
    rw [jump, Engine.bind_run_ok hrun, ← handOffTo_eq, ← hpar]
    rfl
  rw [foregroundStep, hj]
  exact congrArg settle hjump

theorem foregroundStep_jump_none {pf : Bool} (hj : s.dstate = .jump) (hrun : bootSelect s = .ok (none, pf) u) :
    foregroundStep s = .next { u with dstate := .noImage } := by
  have hjump : jump s = .ok () { u with dstate := .noImage } := by
    rw [jump, Engine.bind_run_ok hrun]
    rfl
  rw [foregroundStep, hj]
  exact congrArg settle hjump

/-! ### CHECK (46_dispatch.md R350) -/

/-- CHECK with a valid record in flash. -/
theorem foregroundStep_check (hd : s.dstate = .check) (hload : cfgLoad s = .ok true t)
    (hrun : checkRecorded t = .ok () u) : foregroundStep s = .next u := by
  have hcheck : check s = .ok () u := by
    rw [check_eq, Engine.bind_run_ok hload, if_pos rfl]
    exact hrun
  rw [foregroundStep, hd]
  exact congrArg settle hcheck

/-- An unmarked record and an image that verifies: the dispatcher goes on to JUMP. -/
theorem checkRecorded_toJump (hrec : recoverIfUpdating s = .ok () t) (hmark : updateMarked t = .ok false t)
    (hnone : noneVerifies t = .ok false t) : checkRecorded s = .ok () { t with dstate := .jump } := by
  rw [checkRecorded, Engine.bind_run_ok hrec, Engine.bind_run_ok hmark, Engine.bind_run_ok hnone]
  rfl

theorem recoverIfUpdating_idle (ht : s.par.topology = .ab) (hc : s.cacheAb = some c) (h0 : c.updating ≠ 1) :
    recoverIfUpdating s = .ok () s := by
  rw [recoverIfUpdating, Engine.getState_bind, ht]
  refine (Engine.bind_run_ok (abCache_run hc)).trans ?_
  rw [if_neg h0]
  rfl

theorem recoverIfUpdating_recovers (h : s.FlashReady) (ht : s.par.topology = .ab) (hc : s.cacheAb = some c)
    (h1 : c.updating = 1) : ∃ u, recoverIfUpdating s = .ok () u ∧ SavedAb s u (recovered c) := by
  obtain ⟨u, hrun, hsave⟩ := changeAb_saved h ht hc fun c =>
    { c.setImage (otherRole (activeRole c.active)) 0 0 with updating := 0, bootCount := 0 }
  refine ⟨u, ?_, by rw [recovered, if_pos h1]; exact hsave⟩
  rw [recoverIfUpdating, Engine.getState_bind, ht]
  refine (Engine.bind_run_ok (abCache_run hc)).trans ?_
  rw [if_pos h1]
  exact Engine.bind_run_ok (x := crashRecovery) hrun

theorem recoverIfUpdating_sr (ht : s.par.topology = .sr) : recoverIfUpdating s = .ok () s := by
  rw [recoverIfUpdating, Engine.getState_bind, ht]
  rfl

theorem updateMarked_ab (ht : s.par.topology = .ab) (hc : s.cacheAb = some c) (h0 : c.updateReq = 0) :
    updateMarked s = .ok false s := by
  rw [updateMarked, Engine.getState_bind, ht]
  refine (Engine.bind_run_ok (abCache_run hc)).trans ?_
  rw [h0]
  rfl

theorem updateMarked_sr {c : SrRecord} (ht : s.par.topology = .sr) (hc : s.cacheSr = some c)
    (h0 : c.pageCount = 0) : updateMarked s = .ok false s := by
  rw [updateMarked, Engine.getState_bind, ht]
  refine (Engine.bind_run_ok (srCache_run hc)).trans ?_
  rw [h0]
  rfl

theorem noneVerifies_ab (ht : s.par.topology = .ab) (hc : s.cacheAb = some c)
    (hgood : RoleGood s.par s.mem c .a ∨ RoleGood s.par s.mem c .b) : noneVerifies s = .ok false s := by
  rw [noneVerifies, Engine.getState_bind, ht]
  refine (Engine.bind_run_ok (verify_ab hc (.inl rfl))).trans ((Engine.bind_run_ok (verify_ab hc (.inr rfl))).trans ?_)
  rcases hgood with hgood | hgood
  · rw [decide_eq_true hgood]
    rfl
  · rw [decide_eq_true hgood, Bool.not_true, Bool.and_false]
    rfl

theorem noneVerifies_sr {c : SrRecord} (ht : s.par.topology = .sr) (hc : s.cacheSr = some c)
    (hgood : ImageGood s.par s.mem s.par.runBase c.runSize c.runCrc) : noneVerifies s = .ok false s := by
  rw [noneVerifies, Engine.getState_bind, ht]
  refine (Engine.bind_run_ok (verify_runRegion hc)).trans ?_
  rw [decide_eq_true hgood]
  rfl

theorem recovered_idle (h0 : c.updating ≠ 1) : recovered c = c := if_neg h0

theorem setImage_updateReq (c : AbRecord) (r : Role) (size crc : Word) :
    (c.setImage r size crc).updateReq = c.updateReq := by
  cases r <;> rfl

/-- Crash recovery leaves the update request. -/
theorem recovered_updateReq (c : AbRecord) : (recovered c).updateReq = c.updateReq := by
  rw [recovered]
  split
  · exact setImage_updateReq _ _ _ _
  · rfl

/-- Settles O49: CHECK goes on as `checkRecorded_toJump` says, and JUMP as `BootSelect()` chooses. -/
theorem checkAndJumpSteps : Obligations.CheckAndJumpSteps := by
  intro s hs hok
  have hflash := hs.flashReady hok
  have hp := hs.sane.sound
  obtain ⟨-, -, hvalid⟩ := hs.recordOk
  refine ⟨fun c d ht hd hc hv hreq hrec hgood => ⟨fun h0 => ?checkIdle, fun h1 => ?checkRecovers⟩,
    fun c ht hd hc hv hpage hgood => ?checkSr,
    fun c d n first second ht hd hc hrec hn hfirst hsecond => ⟨fun hgood => ?first, fun hbad hgood => ?second,
      fun hbad hbad' => ?none⟩,
    fun c ht hd hc => ⟨fun hgood => ?run, fun hbad => ?noRun⟩⟩
  case checkIdle =>
    have hne : c.updating ≠ 1 := by rw [h0]; decide
    rw [hrec, recovered_idle hne] at hgood
    exact foregroundStep_check hd (cfgLoad_ab ht hc hv) (checkRecorded_toJump (s := s.loadedAb c)
      (recoverIfUpdating_idle ht rfl hne) (updateMarked_ab ht rfl hreq) (noneVerifies_ab ht rfl hgood))
  case checkRecovers =>
    subst hrec
    have hstart := PersistsAb.zero (s := s.loadedAb c) hflash rfl
    obtain ⟨u, hrun, hsave⟩ := recoverIfUpdating_recovers (s := s.loadedAb c) hflash ht rfl h1
    have hper := hstart.saved hsave
    obtain ⟨-, hpar, hcache, -⟩ := id hper
    have htu : u.par.topology = .ab := hpar ▸ ht
    have hgood' := hgood.imp (hper.roleGood hp ht _ _).2 (hper.roleGood hp ht _ _).2
    obtain ⟨hsaved, -, hregs⟩ := hsave.of_loaded
    exact ⟨u, foregroundStep_check hd (cfgLoad_ab ht hc hv) (checkRecorded_toJump hrun
      (updateMarked_ab htu hcache ((recovered_updateReq c).trans hreq)) (noneVerifies_ab htu hcache hgood')),
      hsaved, hregs⟩
  case checkSr =>
    exact foregroundStep_check hd (cfgLoad_sr ht hc hv) (checkRecorded_toJump (s := s.loadedSr c)
      (recoverIfUpdating_sr ht) (updateMarked_sr ht rfl hpage) (noneVerifies_sr ht rfl hgood))
  case first =>
    obtain ⟨u, hrun, -, hpar, -, -, hpos⟩ := bootSelect_first hflash ht hc hrec hn hfirst hgood
    exact ⟨u, foregroundStep_jump_some hd hrun hpar, hpos (Nat.succ_pos n),
      bootSelect_registers (hs.ready (hvalid hd)) hrun⟩
  case second =>
    obtain ⟨u, hrun, -, hpar, -, -, hpos⟩ := bootSelect_second hflash ht hc hrec hn hfirst hsecond hbad hgood
    exact ⟨u, foregroundStep_jump_some hd hrun hpar, hpos (Nat.succ_pos n),
      bootSelect_registers (hs.ready (hvalid hd)) hrun⟩
  case none =>
    obtain ⟨u, hrun, -, -, -, hzero, hpos⟩ := bootSelect_none hflash ht hc hrec hn hfirst hsecond hbad hbad'
    exact ⟨u, foregroundStep_jump_none hd hrun, hpos, hzero, bootSelect_registers (hs.ready (hvalid hd)) hrun⟩
  case run => exact foregroundStep_jump_some (r := .run) hd ((bootSelect_sr ht hc).trans (by rw [if_pos hgood])) rfl
  case noRun => exact foregroundStep_jump_none hd ((bootSelect_sr ht hc).trans (by rw [if_neg hbad]))

end

end Sys2Proof.Machine
end

section
/-! SUPPORT. ERASE and START_UPDATE (46_dispatch.md R351, R352, R356): the erase of the update target, and the flow that
marks the record, erases, and opens the session or takes the mark back. -/

namespace Sys2Proof.Machine

section
variable {s t u v : State} {r : Role}

/-! ### The erase of a region (44_flash.md R280) -/

/-- `v` is `u` with the region of `r` erased, one erase a sector. -/
def TargetErased (u v : State) (r : Role) : Prop :=
  v = { u with mem := v.mem, env := v.env }
    ∧ FlashCalls u.env v.env (u.par.regionSize / u.par.sector) 0
    ∧ ErasedAt u.mem v.mem (regionBase u.par r) u.par.regionSize

theorem eraseRegion_target (h : u.FlashReady) (r : Role) :
    ∃ v, eraseRegion (regionBase u.par r) u.par.regionSize u = .ok true v ∧ TargetErased u v r ∧ v.FlashReady := by
  obtain ⟨hwf, hp, hirq, hok⟩ := h
  obtain ⟨v, hrun, hd⟩ := eraseRegion_done hwf hp hirq hok r
  have hmem := hd.mem
  obtain ⟨hrest, hcalls, hokv⟩ := hd
  refine ⟨v, hrun, ⟨hrest.trans (by rw [hmem]), hcalls, ?_⟩, ?_, ?_, ?_, hokv⟩
  · rw [hmem]
    exact Memory.erasedAt _ _ _
  · rw [hmem]
    exact Memory.eraseSpan_wf hwf _ _
  · rw [hrest]
    exact hp
  · rw [hrest]
    exact hirq

theorem sectorBase_sectorOf_region {p : Config} (hp : p.Sound) (r : Role) :
    sectorBase p (sectorOf p (regionBase p r)) = regionBase p r := by
  obtain ⟨hlo, -, hdvd⟩ := Config.Sound.region hp r
  rw [sectorBase, sectorOf, Nat.div_mul_cancel hdvd]
  omega

/-- A region has at least one sector. -/
theorem regionSectors_pos {p : Config} (hp : p.Sound) : 0 < p.regionSize / p.sector :=
  Nat.div_pos (Nat.le_of_dvd (Nat.lt_of_lt_of_le (by decide) hp.region_ge) hp.region_dvd) hp.sector_pos

/-- Where the first erase fails no other is made. -/
theorem eraseSectors_firstFails (hi : s.irqMasked = false) (h : s.flashAnswer.outcome = .fail) (sec : Nat) {n : Nat}
    (hn : 0 < n) : eraseSectors sec n s = .ok false (s.erased
      (s.mem.store (sectorBase s.par sec) (s.flashAnswer.junk.take s.par.sector))) := by
  cases n with
  | zero => exact absurd hn (Nat.lt_irrefl 0)
  | succ n => exact Engine.bind_run_ok (masked_flashErase_fail hi h sec)

theorem eraseRegion_firstFails (hp : s.par.Sound) (hi : s.irqMasked = false) (h : s.flashAnswer.outcome = .fail)
    (r : Role) : eraseRegion (regionBase s.par r) s.par.regionSize s = .ok false (s.erased
      (s.mem.store (regionBase s.par r) (s.flashAnswer.junk.take s.par.sector))) := by
  have hfail := eraseSectors_firstFails hi h (sectorOf s.par (regionBase s.par r)) (regionSectors_pos hp)
  rw [sectorBase_sectorOf_region hp] at hfail
  exact hfail

/-! ### ERASE (46_dispatch.md R356) -/

theorem exec_erase {ok : Bool} (hacc : s.AcceptsWrite) (hv : s.cfgValid = true) (hrec : s.hasRecord = true)
    (hr : s.target = some r) (hrun : eraseRegion (regionBase s.par r) s.par.regionSize s = .ok ok t) :
    exec .erase s = .next (t.finish (if ok then .ok else .eErase)) := by
  refine runCommand_ok (refusalCode_write hacc) ?_
  rw [requireValid_run hv, Engine.bind_run_ok (updTarget_eq hrec hr), Engine.getState_bind, Engine.bind_run_ok hrun]
  rfl

/-- Settles O48: the command is one region erase (`eraseRegion_target`, `eraseRegion_firstFails`). -/
theorem eraseCommand : Obligations.EraseCommand := by
  intro s r hs hacc hv hr
  have hrec := (hs.ready hv).hasRecord
  refine ⟨fun hok => ?_, fun hfail => ?_⟩
  · obtain ⟨t, hrun, ⟨hrest, hcalls, herased⟩, -⟩ := eraseRegion_target (hs.flashReady hok) r
    exact ⟨t.finish .ok, exec_erase hacc hv hrec hr hrun, congrArg (State.finish · .ok) hrest, hcalls, herased⟩
  · have hrun := eraseRegion_firstFails hs.sane.sound hs.sane.unmasked hfail r
    exact ⟨_, exec_erase hacc hv hrec hr hrun, rfl, .ofErase s s.mem, fun a ha =>
      Memory.get_store_outside hs.sane.memory.1 (by rw [List.length_take]; omega)⟩

/-! ### The flow up to its session (46_dispatch.md R351) -/

/-- The answer to `RxArm()` does not hang on flash calls. -/
theorem FlashCalls.armAnswer {e p : Nat} (h : FlashCalls s.env t.env e p) : t.armAnswer = s.armAnswer := by
  rw [State.armAnswer, State.armAnswer, h]

/-- The end of `RunFlow()`: the session of a flow, or the end of a flow that could not start. -/
def openFlow (base limit : Nat) (ret : RetState) : Engine Code := do
  if ← startSession base limit .flow ret then pure .ok
  else flowFailed .eRxStart ret

/-- `RunFlow()` up to its session, from the state `u` that the mark leaves. -/
theorem runFlow_erased (hrec : s.hasRecord = true) (hr : s.target = some r) {ok : Bool}
    (hmark : updStart s = .ok ok u) (hu : u.FlashReady) (hpar : u.par = s.par) (ret : RetState) :
    ∃ v, TargetErased u v r ∧ v.FlashReady
      ∧ runFlow ret s = openFlow (regionBase s.par r) (regionBase s.par r + s.par.regionSize) ret
          { v with flowTarget := some r } := by
  obtain ⟨w, hrun, ⟨hrest, hcalls, herased⟩, hw⟩ := eraseRegion_target (u := { u with flowTarget := some r }) hu r
  refine ⟨{ u with mem := w.mem, env := w.env }, ⟨rfl, hcalls, herased⟩, ?_, ?_⟩
  · rw [hrest] at hw
    exact hw
  · rw [runFlow, Engine.bind_run_ok (updTarget_eq hrec hr), Engine.getState_bind]
    dsimp only
    rw [Engine.bind_run_ok hmark, Engine.update_bind, ← hpar, Engine.bind_run_ok hrun, if_pos rfl, hrest]
    rfl

theorem openFlow_armed (h : s.armAnswer = true) (base limit : Nat) (ret : RetState) :
    openFlow base limit ret s
      = .ok .ok (sessionOpened s (BitVec.ofNat 32 base) (BitVec.ofNat 32 limit) .flow ret) :=
  Engine.bind_run_ok (startSession_ok h base limit .flow ret)

theorem openFlow_refused (h : s.armAnswer = false) (base limit : Nat) (ret : RetState) :
    openFlow base limit ret s = flowFailed .eRxStart ret (armRefused s) :=
  Engine.bind_run_ok (startSession_refused h base limit .flow ret)

theorem flowFailed_run {ok : Bool} (hrun : updFailed s = .ok ok t) (code : Code) (ret : RetState) :
    flowFailed code ret s = .ok code { t with lastUpdate := code.value, dstate := ret.dstate } :=
  Engine.bind_run_ok hrun

/-- The record of a flow that could not start takes the place of the marked one; the target stays erased. -/
theorem RecordStored.over_erased {p : Config} {m m₁ m₂ m₃ : Memory} {l l' : List Byte} {a n : Nat}
    (hmark : RecordStored p m m₁ l) (herased : ErasedAt m₁ m₂ a n) (hstored : RecordStored p m₂ m₃ l')
    (hl : l.length = l'.length) : RecordStored p (m.eraseSpan a n) m₃ l' := by
  obtain ⟨-, hmark⟩ := hmark
  obtain ⟨hin, hout⟩ := herased
  obtain ⟨hrecord, hstored⟩ := hstored
  refine ⟨hrecord, fun b hb => ?_⟩
  rw [hstored b hb, Memory.get_eraseSpan]
  split
  · next hb' => exact hin b hb'.1 hb'.2
  · next hb' =>
    rw [padTo_length] at hb
    rw [hout b (by omega), hmark b (by rw [padTo_length]; omega)]

/-! ### START_UPDATE (46_dispatch.md R352) -/

theorem exec_startUpdate {code : Code} (hacc : s.AcceptsWrite) (hv : s.cfgValid = true)
    (hrun : runFlow .noImage s = .ok code t) : exec .startUpdate s = .next (t.finish code) := by
  refine runCommand_ok (refusalCode_write hacc) ?_
  rw [requireValid_run hv, Engine.bind_run_ok hrun]
  rfl

theorem SavedAb.par {c : AbRecord} (h : SavedAb s t c) : t.par = s.par := by
  obtain ⟨⟨hrest, -⟩, -⟩ := h
  rw [hrest]

theorem SavedSr.par {c : SrRecord} (h : SavedSr s t c) : t.par = s.par := by
  obtain ⟨⟨hrest, -⟩, -⟩ := h
  rw [hrest]

section
variable (hacc : s.AcceptsWrite) (hs : s.Ready) (hr : s.target = some r) (hmark : updStart s = .ok true u)
  (hu : u.FlashReady) (hpar : u.par = s.par)
include hacc hs hr hmark hu hpar

/-- START_UPDATE where the channel arms, from the state `u` that the mark leaves. -/
theorem startUpdate_opens (harm : u.armAnswer = true) :
    ∃ v : State, exec .startUpdate s = .next { sessionOpened { v with flowTarget := some r }
          (BitVec.ofNat 32 (regionBase s.par r)) (BitVec.ofNat 32 (regionBase s.par r + s.par.regionSize))
          .flow .noImage with result := 0 }
      ∧ v = { u with mem := v.mem, env := v.env }
      ∧ FlashCalls u.env v.env (s.par.regionSize / s.par.sector) 0
      ∧ ErasedAt u.mem v.mem (regionBase s.par r) s.par.regionSize := by
  obtain ⟨v, ⟨hrest, hcalls, herased⟩, -, hrun⟩ := runFlow_erased hs.hasRecord hr hmark hu hpar .noImage
  have hopen := openFlow_armed (s := { v with flowTarget := some r }) (hcalls.armAnswer.trans harm)
    (regionBase s.par r) (regionBase s.par r + s.par.regionSize) .noImage
  rw [hpar] at hcalls herased
  exact ⟨v, exec_startUpdate hacc hs.cfgValid (hrun.trans hopen), hrest, hcalls, herased⟩

/-- START_UPDATE where it does not, up to the mark being taken back. -/
theorem startUpdate_refused (harm : u.armAnswer = false) :
    ∃ v : State, v = { u with mem := v.mem, env := v.env } ∧ v.FlashReady
      ∧ ErasedAt u.mem v.mem (regionBase s.par r) s.par.regionSize
      ∧ ∀ w, updFailed (armRefused { v with flowTarget := some r }) = .ok true w →
          exec .startUpdate s
            = .next { w with lastUpdate := 0xFFFFFFFE, dstate := .noImage, result := 0xFFFFFFFE } := by
  obtain ⟨v, ⟨hrest, hcalls, herased⟩, hv, hrun⟩ := runFlow_erased hs.hasRecord hr hmark hu hpar .noImage
  have hopen := openFlow_refused (s := { v with flowTarget := some r }) (hcalls.armAnswer.trans harm)
    (regionBase s.par r) (regionBase s.par r + s.par.regionSize) .noImage
  rw [hpar] at herased
  exact ⟨v, hrest, hv, herased, fun w hw => exec_startUpdate hacc hs.cfgValid
    ((hrun.trans hopen).trans (flowFailed_run hw .eRxStart .noImage))⟩

end

/-- Settles O47: the mark is a change of the record that is persisted, and so is its removal; between the two
`startUpdate_opens` or `startUpdate_refused` says how the flow goes. -/
theorem startUpdateCommand : Obligations.StartUpdateCommand := by
  intro s r hs hacc hv hok hr
  have hready := hs.ready hv
  refine ⟨fun c ht hc => ?ab, fun c ht hc => ?sr⟩
  case ab =>
    obtain ⟨u, hmark, hsave⟩ := changeAb_saved (hs.flashReady hok) ht hc fun c => { c with updating := 1, updateReq := 0 }
    have hpar := hsave.par
    obtain ⟨hper, hu, h0, h1, -⟩ := hsave
    obtain ⟨hrest, hstored, hcalls⟩ := id hper
    have hmark := (updStart_ab ht).trans hmark
    refine ⟨fun hyes => ?_, fun hno => ?_⟩
    · obtain ⟨v, hrun, hflow⟩ := startUpdate_opens hacc hready hr hmark hu hpar (hcalls.armAnswer.trans hyes)
      exact ⟨u, v, hrun, hper, h0, h1, hflow⟩
    · obtain ⟨v, hvrest, hvready, herased, hrun⟩ :=
        startUpdate_refused hacc hready hr hmark hu hpar (hcalls.armAnswer.trans hno)
      have hvpar : v.par = s.par := by rw [hvrest, hpar]
      have hvc : v.cacheAb = some { c with updating := 1, updateReq := 0 } := by rw [hvrest, hrest]
      obtain ⟨w, hfail, ⟨hwrest, hwstored, -⟩, -⟩ := changeAb_saved
        (s := armRefused { v with flowTarget := some r }) hvready (hvpar ▸ ht) hvc fun c => { c with updating := 0 }
      have hcache : w.cacheAb = _ := congrArg State.cacheAb hwrest
      have hdirty : w.cfgDirty = false := congrArg State.cfgDirty hwrest
      exact ⟨_, hrun w ((updFailed_ab (hvpar ▸ ht)).trans hfail), rfl, rfl, rfl, hcache, hdirty, _,
        Memory.erasedAt _ _ _, hstored.over_erased herased (hvpar ▸ hwstored) rfl⟩
  case sr =>
    obtain ⟨u, hmark, hsave⟩ := changeSr_saved (hs.flashReady hok) ht hc fun c => { c with pageCount := 1 }
    have hpar := hsave.par
    obtain ⟨hper, hu, h0, h1, -⟩ := hsave
    obtain ⟨hrest, hstored, hcalls⟩ := id hper
    have hmark := (updStart_sr ht).trans hmark
    refine ⟨fun hyes => ?_, fun hno => ?_⟩
    · obtain ⟨v, hrun, hflow⟩ := startUpdate_opens hacc hready hr hmark hu hpar (hcalls.armAnswer.trans hyes)
      exact ⟨u, v, hrun, hper, h0, h1, hflow⟩
    · obtain ⟨v, hvrest, hvready, herased, hrun⟩ :=
        startUpdate_refused hacc hready hr hmark hu hpar (hcalls.armAnswer.trans hno)
      have hvpar : v.par = s.par := by rw [hvrest, hpar]
      have hvc : v.cacheSr = some { c with pageCount := 1 } := by rw [hvrest, hrest]
      obtain ⟨w, hfail, ⟨hwrest, hwstored, -⟩, -⟩ := changeSr_saved
        (s := armRefused { v with flowTarget := some r }) hvready (hvpar ▸ ht) hvc fun c => { c with pageCount := 0 }
      have hcache : w.cacheSr = _ := congrArg State.cacheSr hwrest
      have hdirty : w.cfgDirty = false := congrArg State.cfgDirty hwrest
      exact ⟨_, hrun w ((updFailed_sr (hvpar ▸ ht)).trans hfail), rfl, rfl, rfl, hcache, hdirty, _,
        Memory.erasedAt _ _ _, hstored.over_erased herased (hvpar ▸ hwstored) rfl⟩

end

end Sys2Proof.Machine
end

section
/-! SUPPORT. The end of an update flow with no flash call failing (46_dispatch.md R353, 43_protocol.md R242 to R244): the
session is closed, and then the record takes the new image, or only stops saying that an update goes on. -/

namespace Sys2Proof.Machine

section
variable {s t u v : State} {r : Role} {ret : RetState} {code : Code}

/-! ### The end of a flow session (43_protocol.md R244, 46_dispatch.md R353) -/

/-- A successful flow hands the image it wrote to `UpdComplete()`. -/
theorem flowEnd_ok (htarget : s.flowTarget = some r)
    (hrun : updComplete r s.sess.written (imgCrc s.par s.mem s.sess.base.toNat s.sess.written.toNat) s = .ok .ok t)
    (hret : t.retState = some ret) :
    flowEnd .ok s = .ok () { t with lastUpdate := 0, dstate := ret.dstate } := by
  rw [flowEnd]
  dsimp only
  rw [if_pos rfl, Engine.getState_bind, Engine.bind_run_ok (Engine.valueOf_run htarget), Engine.bind_run_ok hrun]
  exact returnState_run (s := { t with lastUpdate := 0 }) hret

theorem flowEnd_failed {ok : Bool} (hc : code ≠ .ok) (hrun : updFailed s = .ok ok t) (hret : t.retState = some ret) :
    flowEnd code s = .ok () { t with lastUpdate := code.value, dstate := ret.dstate } := by
  rw [flowEnd]
  dsimp only
  rw [if_neg hc, Engine.bind_run_ok hrun]
  exact returnState_run (s := { t with lastUpdate := code.value }) hret

theorem closeAndReturn_flow (hkind : s.sessKind = some .flow) (hend : flowEnd code (s.closeSession code) = .ok () t) :
    closeAndReturn code s = .ok code t := by
  rw [closeAndReturn, Engine.update_bind,
    Engine.bind_run_ok (Engine.valueOf_run (v := State.sessKind) (s := s.closeSession code) hkind)]
  exact Engine.bind_run_ok hend

theorem ended_flow_flushed (hflush : flush s = .ok .ok u) (hkind : u.sessKind = some .flow)
    (hend : flowEnd .ok (u.closeSession .ok) = .ok () t) : ended .ok s = .ok (some .ok) t := by
  rw [ended, endSession_eq, if_pos rfl,
    Engine.bind_run_ok ((Engine.bind_run_ok hflush).trans (closeAndReturn_flow hkind hend))]
  rfl

theorem ended_flow_failed (hc : code ≠ .ok) (hkind : s.sessKind = some .flow)
    (hend : flowEnd code (s.closeSession code) = .ok () t) : ended code s = .ok (some code) t := by
  rw [ended, endSession_eq, if_neg hc, Engine.bind_run_ok (closeAndReturn_flow hkind hend)]
  rfl

/-- The poll of a flow session is the dispatcher's own step. -/
theorem foregroundStep_poll {c : Option Code} (hd : s.dstate = .update) (hkind : s.sessKind = some .flow)
    (hrun : poll s = .ok c t) : foregroundStep s = .next t := by
  have hpoll : (do let _ ← poll : Engine Unit) s = .ok () t := Engine.bind_run_ok hrun
  rw [foregroundStep, hd, hkind]
  exact congrArg settle hpoll

/-! ### The flush of the carry byte (43_protocol.md R242) -/

theorem OnlyFlashCalls.flashOk (h : OnlyFlashCalls s.env t.env) (hok : s.flashOk = true) : t.flashOk = true := by
  obtain ⟨e, p, hcalls⟩ := h
  rw [State.flashOk, Bool.and_eq_true, List.all_eq_true] at hok ⊢
  obtain ⟨hall, hrest⟩ := hok
  rw [hcalls]
  exact ⟨fun a ha => hall a (List.mem_of_mem_drop ha), hrest⟩

/-- `u` is `s` once the carry byte, if there is one, has been written. -/
def CarryFlushed (s u : State) : Prop :=
  u = { s with mem := u.mem, scratch := u.scratch, env := u.env, sess := u.sess }
    ∧ u.sess.base = s.sess.base ∧ u.sess.written = s.sess.written + (if s.sess.pendValid then 1 else 0)
    ∧ StoredAt s.mem u.mem s.sess.cursor.toNat (if s.sess.pendValid then [s.sess.pendByte, 0xFF] else [])
    ∧ u.flashOk = true

theorem flush_done (hs : s.InSession) (hok : s.flashOk = true)
    (hroom : s.sess.pendValid = true → s.sess.cursor.toNat + 2 ≤ s.sess.limit.toNat) :
    ∃ u, flush s = .ok .ok u ∧ CarryFlushed s u ∧ u.Closing := by
  have hclosing := flush_closing hs
  have hdone : ∃ u, flush s = .ok .ok u ∧ CarryFlushed s u := by
    cases hpend : s.sess.pendValid
    · refine ⟨s, flush_nothing hpend, rfl, rfl, ?_, ?_, hok⟩
      · rw [hpend, if_neg Bool.false_ne_true]
        exact (BitVec.add_zero _).symm
      · rw [hpend, if_neg Bool.false_ne_true]
        exact .refl _ _
    · obtain ⟨u, hrun, hcalls, hst⟩ := flush_carry (hs.writable hok) hpend (hroom hpend)
      refine ⟨s.flushed u, hrun, rfl, rfl, ?_, ?_, OnlyFlashCalls.flashOk (t := s.flushed u) hcalls hok⟩
      · rw [hpend, if_pos rfl]
        rfl
      · rw [hpend, if_pos rfl]
        exact hst
  obtain ⟨u, hrun, hu⟩ := hdone
  rw [After, hrun] at hclosing
  exact ⟨u, hrun, hu, hclosing⟩

/-- Where data has been accepted, the flow has received at least one byte: the count before the carry byte is even, so it
does not wrap. -/
theorem received_pos {w : Word} {pend : Bool} (hseen : w ≠ 0 ∨ pend = true) (heven : w.toNat % 2 = 0) :
    0 < (w + (if pend then 1 else 0)).toNat := by
  cases pend
  · have hne : w ≠ 0 := hseen.resolve_right Bool.false_ne_true
    have hsum : w + 0 = w := BitVec.add_zero w
    rw [if_neg Bool.false_ne_true, hsum]
    exact Nat.pos_of_ne_zero fun h => hne (BitVec.eq_of_toNat_eq h)
  · have hlt := w.isLt
    rw [if_pos rfl, BitVec.toNat_add]
    show 0 < (w.toNat + 1) % 2 ^ 32
    omega

/-! ### The record at the end (45_config.md R313 to R315) -/

/-- What `UpdComplete()` of a received image leaves: the record names it, under SR after the copy to the run region. -/
def TakesImage (v t : State) (r : Role) (size crc : Word) : Prop :=
  t.cfgDirty = false ∧ t.sess = v.sess ∧ t.rx = v.rx ∧ t.retState = v.retState
    ∧ (∀ c, v.par.topology = .ab → v.cacheAb = some c →
        t.cacheAb = some { c.setImage r size crc with active := activeByte r, updating := 0, bootCount := 0 }
          ∧ RecordStored v.par v.mem t.mem
              (serializeAb { c.setImage r size crc with active := activeByte r, updating := 0, bootCount := 0 }))
    ∧ (∀ c, v.par.topology = .sr → v.cacheSr = some c →
        t.cacheSr = some { c with runSize := size, runCrc := crc, pageCount := 0 }
          ∧ ∃ copied, StoredAt v.mem copied v.par.runBase
                (v.mem.read v.par.stagingBase (2 * ((size.toNat + 1) / 2)))
              ∧ RecordStored v.par copied t.mem
                  (serializeSr { c with runSize := size, runCrc := crc, pageCount := 0 }))

theorem updComplete_takesAb {c : AbRecord} (h : v.FlashReady) (ht : v.par.topology = .ab) (hc : v.cacheAb = some c)
    (r : Role) (size crc : Word) : ∃ t, updComplete r size crc v = .ok .ok t ∧ TakesImage v t r size crc := by
  obtain ⟨t, hrun, ⟨hrest, hstored, -⟩, -⟩ := updComplete_ab h ht hc r size crc
  refine ⟨t, hrun, by rw [hrest], by rw [hrest], by rw [hrest], by rw [hrest], fun c' _ hc' => ?_, fun c' ht' => ?_⟩
  · obtain rfl : c = c' := Option.some.inj (hc.symm.trans hc')
    exact ⟨by rw [hrest], hstored⟩
  · exact nomatch ht.symm.trans ht'

/-- The copy has the CRC that was read back from staging, so the record takes the image. -/
theorem updComplete_takesSr {c : SrRecord} {size crc : Word} (h : v.FlashReady) (ht : v.par.topology = .sr)
    (hc : v.cacheSr = some c) (h0 : 0 < size.toNat) (hn : size.toNat ≤ v.par.regionSize)
    (hcrc : crc32 (v.mem.read v.par.stagingBase size.toNat) = crc) :
    ∃ t, updComplete .staging size crc v = .ok .ok t ∧ TakesImage v t .staging size crc := by
  obtain ⟨u, hcopy, hu, hw, hst⟩ := copyStaging_done h size.toNat
  have hmatch : imgCrc v.par u.mem v.par.runBase size.toNat = crc := (copied_crc h0 hn hst).trans hcrc
  obtain ⟨t, hrun, ⟨hrest, hstored, -⟩, -⟩ := updComplete_copied h ht hc hcopy hu hw hmatch
  have hpar := hu.par
  obtain ⟨hurest, -⟩ := hu
  rw [hpar] at hstored
  refine ⟨t, hrun, by rw [hrest], by rw [hrest, hurest], by rw [hrest, hurest], by rw [hrest, hurest],
    fun c' ht' => ?_, fun c' _ hc' => ?_⟩
  · exact nomatch ht.symm.trans ht'
  · obtain rfl : c = c' := Option.some.inj (hc.symm.trans hc')
    exact ⟨by rw [hrest], u.mem, hst, hstored⟩

/-- What `UpdFailed()` leaves: the record only stops saying that an update goes on. -/
def DropsUpdate (v t : State) : Prop :=
  t.sess = v.sess ∧ t.retState = v.retState
    ∧ (∀ c, v.par.topology = .ab → v.cacheAb = some c →
        t.cacheAb = some { c with updating := 0 }
          ∧ RecordStored v.par v.mem t.mem (serializeAb { c with updating := 0 }))
    ∧ (∀ c, v.par.topology = .sr → v.cacheSr = some c →
        t.cacheSr = some { c with pageCount := 0 }
          ∧ RecordStored v.par v.mem t.mem (serializeSr { c with pageCount := 0 }))

theorem updFailed_drops (h : v.FlashReady) (hrec : v.hasRecord = true) :
    ∃ t, updFailed v = .ok true t ∧ DropsUpdate v t := by
  cases ht : v.par.topology
  · obtain ⟨c, hc⟩ := (hasRecord_ab ht).1 hrec
    obtain ⟨t, hrun, ⟨hrest, hstored, -⟩, -⟩ := changeAb_saved h ht hc fun c => { c with updating := 0 }
    refine ⟨t, (updFailed_ab ht).trans hrun, by rw [hrest], by rw [hrest], fun c' _ hc' => ?_, fun c' ht' => ?_⟩
    · obtain rfl : c = c' := Option.some.inj (hc.symm.trans hc')
      exact ⟨by rw [hrest], hstored⟩
    · exact nomatch ht.symm.trans ht'
  · obtain ⟨c, hc⟩ := (hasRecord_sr ht).1 hrec
    obtain ⟨t, hrun, ⟨hrest, hstored, -⟩, -⟩ := changeSr_saved h ht hc fun c => { c with pageCount := 0 }
    refine ⟨t, (updFailed_sr ht).trans hrun, by rw [hrest], by rw [hrest], fun c' ht' => ?_, fun c' _ hc' => ?_⟩
    · exact nomatch ht.symm.trans ht'
    · obtain rfl : c = c' := Option.some.inj (hc.symm.trans hc')
      exact ⟨by rw [hrest], hstored⟩

/-! ### The two ends (46_dispatch.md R353) -/

theorem State.Closing.flashReady (h : s.Closing) (hok : s.flashOk = true) : s.FlashReady :=
  ⟨h.memory.1, h.sound, h.unmasked, hok⟩

/-- The image of a flow session that is being closed is taken, with the CRC of what flash holds. -/
theorem updComplete_takes (h : s.Closing) (hok : s.flashOk = true) (hkind : s.sessKind = some .flow)
    (htarget : s.target = some r) (hbase : s.sess.base.toNat = regionBase s.par r) (h0 : 0 < s.sess.written.toNat) :
    ∃ t, updComplete r s.sess.written (imgCrc s.par s.mem s.sess.base.toNat s.sess.written.toNat) s = .ok .ok t
      ∧ TakesImage s t r s.sess.written (crc32 (s.mem.read s.sess.base.toNat s.sess.written.toNat)) := by
  obtain ⟨-, -, hn⟩ := h.flow hkind
  rw [imgCrc_accepted h0 hn]
  cases ht : s.par.topology
  · obtain ⟨c, hc⟩ := (hasRecord_ab ht).1 h.hasRecord
    exact updComplete_takesAb (h.flashReady hok) ht hc r _ _
  · obtain ⟨c, hc⟩ := (hasRecord_sr ht).1 h.hasRecord
    obtain rfl : r = .staging := Option.some.inj (htarget.symm.trans (target_sr ht))
    exact updComplete_takesSr (h.flashReady hok) ht hc h0 hn (by rw [hbase]; rfl)

/-- A flow session that has received data ends with its image taken. -/
theorem ended_flow_takes (hs : s.InSession) (hok : s.flashOk = true) (hkind : s.sessKind = some .flow)
    (htarget : s.flowTarget = some r) (hret : s.retState = some ret) (hseen : s.DataSeen)
    (hroom : s.sess.pendValid = true → s.sess.cursor.toNat + 2 ≤ s.sess.limit.toNat) :
    ∃ u t, ended .ok s = .ok (some .ok) { t with lastUpdate := 0, dstate := ret.dstate }
      ∧ CarryFlushed s u
      ∧ TakesImage (u.closeSession .ok) t r u.sess.written
          (crc32 (u.mem.read u.sess.base.toNat u.sess.written.toNat)) := by
  obtain ⟨u, hflush, hu, hclosing⟩ := flush_done hs hok hroom
  obtain ⟨hrest, hbase, hwritten, -, huok⟩ := id hu
  obtain ⟨-, hflow, hregion, -⟩ := hs.flow hkind
  have hukind : u.sessKind = some .flow := by rw [hrest]; exact hkind
  have hutarget : u.flowTarget = some r := by rw [hrest]; exact htarget
  have huregion : u.target = some r := by rw [hrest]; exact hflow.symm.trans htarget
  have hubase : u.sess.base.toNat = regionBase u.par r := by
    rw [hbase, hrest]
    exact hregion r htarget
  have hpos : 0 < u.sess.written.toNat := by
    rw [hwritten]
    exact received_pos hseen hs.written_even
  have hclosed := hclosing.close .ok
  obtain ⟨t, hrun, htakes⟩ := updComplete_takes (s := u.closeSession .ok) hclosed.toClosing huok hukind huregion hubase
    hpos
  obtain ⟨-, -, -, htret, -⟩ := id htakes
  have huret : t.retState = some ret := by
    rw [htret, hrest]
    exact hret
  exact ⟨u, t, ended_flow_flushed hflush hukind (flowEnd_ok (s := u.closeSession .ok) hutarget hrun huret), hu, htakes⟩

/-- A flow session that fails only drops the update. -/
theorem ended_flow_drops (hs : s.InSession) (hok : s.flashOk = true) (hkind : s.sessKind = some .flow)
    (hret : s.retState = some ret) (hc : code ≠ .ok) :
    ∃ t, ended code s = .ok (some code) { t with lastUpdate := code.value, dstate := ret.dstate }
      ∧ DropsUpdate (s.closeSession code) t := by
  have hclosed := hs.closing.close code
  obtain ⟨t, hrun, hdrops⟩ := updFailed_drops (v := s.closeSession code) (hclosed.toClosing.flashReady hok) hs.hasRecord
  obtain ⟨-, htret, -⟩ := id hdrops
  exact ⟨t, ended_flow_failed hc hkind (flowEnd_failed hc hrun (htret.trans hret)), hdrops⟩

/-- A chunk has been taken from the channel (43_protocol.md R240). -/
def State.chunkTaken (s : State) : State := { s with rx := { s.rx with ready := false } }

/-- The end marker ends a session that has received data (43_protocol.md R241). -/
theorem poll_endMarker (hmark : s.MarkerReady) (hseen : s.DataSeen) : poll s = ended .ok s.chunkTaken := by
  rw [poll_marker hmark, endTransfer, Engine.getState_bind, if_pos (dataSeen_iff.2 hseen), State.chunkTaken]

/-- With no chunk waiting and the idle limit not reached, a session whose budget has run out ends (43_protocol.md
R243). -/
theorem poll_timedOut (hidle : s.rx.ready = false) (hgoes : ¬ s.IdleEnds) (htime : s.TimedOut) :
    poll s = ended (if s.idled.sess.dataSeen then .eTimeoutPartial else .eTimeoutNoData) s.idled := by
  rw [poll_idle hidle, if_neg hgoes, checkTimeout_run]
  exact if_pos htime

/-- The code of a timeout, as `LAST_UPDATE` holds it (43_protocol.md R243). -/
theorem timeoutCode_value (s : State) :
    (if s.sess.dataSeen then Code.eTimeoutPartial else .eTimeoutNoData).value
      = if s.DataSeen then 0xFFFFFFFC else 0xFFFFFFFD := by
  by_cases h : s.DataSeen
  · rw [if_pos h, if_pos (dataSeen_iff.2 h)]
    rfl
  · rw [if_neg h, if_neg (mt dataSeen_iff.1 h)]
    rfl

theorem timeoutCode_ne_ok (b : Bool) : (if b then Code.eTimeoutPartial else .eTimeoutNoData) ≠ .ok := by
  cases b <;> decide

/-- Settles O51: the poll ends the session (`poll_endMarker`, `poll_timedOut`), and the record is left as
`ended_flow_takes` or `ended_flow_drops` says. -/
theorem updateFlowEnds : Obligations.UpdateFlowEnds := by
  intro s r ret hs hd hkind htarget hret hok
  have hin := hs.inSession hd
  refine ⟨fun hmark hseen hroom => ?marker, fun hidle hgoes htime => ?timeout⟩
  case marker =>
    obtain ⟨u, t, hrun, ⟨hrest, hbase, hwritten, hst, -⟩, hdirty, hsess, hrx, -, hab, hsr⟩ :=
      ended_flow_takes (s := s.chunkTaken) { hin with } hok hkind htarget hret hseen hroom
    have hpar : u.par = s.par := by rw [hrest]; rfl
    have hcacheAb : u.cacheAb = s.cacheAb := by rw [hrest]; rfl
    have hcacheSr : u.cacheSr = s.cacheSr := by rw [hrest]; rfl
    have hsize : t.sess.written = u.sess.written := by rw [hsess]; rfl
    rw [hbase] at hab hsr
    refine ⟨_, u.mem, u.sess.written, _, foregroundStep_poll hd hkind ((poll_endMarker hmark hseen).trans hrun), hst,
      hwritten, rfl, fun c ht hc => ?_, fun c ht hc => ?_, hdirty, rfl, rfl, ?_, hsize, ?_, ?_⟩
    · exact hpar ▸ hab c (hpar ▸ ht) (hcacheAb.trans hc)
    · exact hpar ▸ hsr c (hpar ▸ ht) (hcacheSr.trans hc)
    · exact congrArg Session.active hsess
    · exact congrArg RxChannel.armed hrx
    · exact congrArg RxChannel.ready hrx
  case timeout =>
    obtain ⟨t, hrun, hsess, -, hab, hsr⟩ := ended_flow_drops (s := s.idled) { hin with } hok hkind hret
      (timeoutCode_ne_ok s.idled.sess.dataSeen)
    have hwritten : t.sess.written = s.sess.written := by rw [hsess]; rfl
    exact ⟨_, foregroundStep_poll hd hkind ((poll_timedOut hidle hgoes htime).trans hrun), hab, hsr,
      timeoutCode_value s.idled, rfl, congrArg Session.active hsess, hwritten⟩

end

end Sys2Proof.Machine
end

section
/-! SUPPORT. The five kinds of frame error (60_exceptions.md R381, 43_protocol.md R238): which byte in which state of the
parser raises each. -/

namespace Sys2Proof.Machine

section
variable {s : State} {c d : Byte}

/-- The fourth length byte completes a length outside MIN_LEN to MAX_LEN (43_protocol.md R224). -/
theorem field_readLength_bad (h : s.parser.pstate = .readLength) (hn : s.parser.pcount = 3)
    (hlen : ¬ (minLen ≤ (accumulate s.parser.lenAcc d 3).toNat
      ∧ (accumulate s.parser.lenAcc d 3).toNat ≤ s.par.maxLen)) :
    field d s = .ok none (s.frameError .length .waitStart) := by
  rw [field_readLength h, State.fieldLength, hn]
  exact congrArg _ ((if_pos rfl).trans (if_neg hlen))

/-- A byte after ESC that stands for no byte (43_protocol.md R228); FLAG is taken for the start of the next frame. -/
theorem feed_badEscape (hin : escapedState s.par.escMode s.parser.pstate = true) (hpend : s.parser.escPend = true)
    (hflag : c ≠ escFlag) (hesc : c ≠ escEsc) :
    feed c s = .ok none (s.afterEsc.frameError .escape (if c = flagByte then .readLength else .waitStart)) := by
  rw [feed, Engine.getState_bind, if_pos hin, if_pos hpend, Engine.update_bind]
  exact congrFun ((if_neg hflag).trans (if_neg hesc)) _

/-- A bare FLAG inside an escaped field (43_protocol.md R229). -/
theorem feed_flagInField (hin : escapedState s.par.escMode s.parser.pstate = true)
    (hpend : s.parser.escPend = false) : feed flagByte s = .ok none (s.frameError .flag .readLength) := by
  rw [feed, Engine.getState_bind, if_pos hin, hpend, if_neg Bool.false_ne_true, if_neg (by decide), if_pos rfl]
  rfl

/-- A byte other than FLAG where the frame has to end (43_protocol.md R227). -/
theorem fieldEnd_wrongEnd (hc : c ≠ flagByte) : fieldEnd c s = .ok none (s.frameError .wrongEnd .waitStart) := by
  rw [fieldEnd, Engine.getState_bind, if_neg hc]
  rfl

/-- END after a frame that has all its bytes and the wrong CRC (43_protocol.md R227). -/
theorem fieldEnd_badCrc (hb : s.parser.body.length = s.parser.lenAcc.toNat)
    (hcrc : frameCrc s.parser.body ≠ s.parser.crcAcc) :
    fieldEnd flagByte s = .ok none (s.frameError .crc .waitStart) := by
  rw [fieldEnd, Engine.getState_bind, if_pos rfl, Engine.bind_run_ok (wholeBody_ok hb), if_neg hcrc]
  rfl

/-- The CRC of a frame whose bytes have all been gathered covers its length field and its body (42_codec.md R195). -/
theorem frameCrc_gathered (hb : s.parser.body.length = s.parser.lenAcc.toNat) :
    frameCrc s.parser.body = crc32 (le32 s.parser.lenAcc ++ s.parser.body) := by
  rw [frameCrc, hb, BitVec.ofNat_toNat, BitVec.setWidth_eq]

end

/-- Settles O23: each kind's cause leads to `FrameError` (43_protocol.md R238), whose tag is 0 before WAIT_END and the
CRC bytes received there. -/
theorem frameErrorKinds : Obligations.FrameErrorKinds := by
  intro s c d
  refine ⟨fun hst hn hdec hlen => ?length, fun hin hpend hflag hesc => ?escape, fun hin hpend hc => ?flag,
    fun hst hc => ?wrongEnd, fun hst hc hb hcrc => ?crc⟩
  case length =>
    rcases hdec with ⟨hplain, rfl⟩ | ⟨hin, hpend, hpair⟩
    · exact (feed_plain hplain).trans (field_readLength_bad hst hn hlen)
    · exact (feed_escaped hin hpend hpair).trans (field_readLength_bad (s := s.afterEsc) hst hn hlen)
  case escape => exact feed_badEscape hin hpend hflag hesc
  case flag => exact hc ▸ feed_flagInField hin hpend
  case wrongEnd => exact (feed_waitEnd hst c).trans (fieldEnd_wrongEnd hc)
  case crc =>
    subst hc
    exact (feed_waitEnd hst _).trans (fieldEnd_badCrc hb (frameCrc_gathered hb ▸ hcrc))

end Sys2Proof.Machine
end

section
/-! SUPPORT. The steps of the receive channel and of `fatal_in` (60_exceptions.md R384, R392; 46_dispatch.md R360). -/

namespace Sys2Proof.Machine

section
variable {s : State}

/-! ### FAULT (46_dispatch.md R360) -/

theorem takeFatal_eq (h : s.dstate ≠ .fault) :
    s.takeFatal = { s with rx := s.rx.stop, sess := { s.sess with active := false }, dstate := .fault } :=
  if_neg h

theorem takeFatal_inFault (h : s.dstate = .fault) : s.takeFatal = s := if_pos h

/-! ### The receive channel (60_exceptions.md R384) -/

/-- When a delivery of `m` bytes is enabled. -/
theorem canDeliver_iff {m : Nat} : s.canDeliver m = true ↔
    s.rx.armed = true ∧ s.rx.ready = false ∧ s.irqMasked = false ∧ 1 ≤ m ∧ m ≤ s.par.rxCap
      ∧ m ≤ s.rx.line.length := by
  simp [State.canDeliver, and_assoc]

/-- What keeps a delivery of `m` bytes from being enabled. -/
theorem canDeliver_eq_false_iff {m : Nat} : s.canDeliver m = false ↔
    s.rx.armed = false ∨ s.rx.ready = true ∨ s.irqMasked = true ∨ m = 0 ∨ s.par.rxCap < m
      ∨ s.rx.line.length < m := by
  rw [← Bool.not_eq_true, canDeliver_iff]
  simp only [not_and_or, Bool.not_eq_true, Bool.not_eq_false, not_le, Nat.lt_one_iff]

theorem deliverChunk_enabled {m : Nat} (h : s.canDeliver m = true) :
    s.deliverChunk m
      = { s with rx := { armed := false, ready := true, buf := s.rx.line.take m, line := [] } } := if_pos h

theorem deliverChunk_notEnabled {m : Nat} (h : s.canDeliver m = false) : s.deliverChunk m = s :=
  if_neg (Bool.not_eq_true _ ▸ h)

theorem receiveLine_armed (h : s.rx.armed = true) (l : List Byte) :
    s.receiveLine l = { s with rx := { s.rx with line := s.rx.line ++ l } } := if_pos h

theorem receiveLine_notArmed (h : s.rx.armed = false) (l : List Byte) : s.receiveLine l = s :=
  if_neg (Bool.not_eq_true _ ▸ h)

end

/-! ### The statements -/

/-- Settles O52. -/
theorem fatalSignalEntersFault : Obligations.FatalSignalEntersFault := fun _ =>
  ⟨fun h => congrArg Host.Outcome.next (takeFatal_eq h), fun h => congrArg Host.Outcome.next (takeFatal_inFault h)⟩

/-- Settles O53. -/
theorem chunkDelivery : Obligations.ChunkDelivery := by
  intro s m l
  refine ⟨fun harmed hready hirq hpos hcap hline => ?enabled, fun hnot => ?notEnabled,
    fun harmed => congrArg Host.Outcome.next (receiveLine_armed harmed l),
    fun hnot => congrArg Host.Outcome.next (receiveLine_notArmed hnot l)⟩
  case enabled =>
    have hcan : s.canDeliver m = true := canDeliver_iff.2 ⟨harmed, hready, hirq, hpos, hcap, hline⟩
    exact congrArg Host.Outcome.next (deliverChunk_enabled hcan)
  case notEnabled =>
    exact congrArg Host.Outcome.next (deliverChunk_notEnabled (canDeliver_eq_false_iff.2 hnot))

end Sys2Proof.Machine
end

section
/-! SUPPORT. The first boot under AB (70_reset_and_hazards.md R412; 46_dispatch.md R350, R351): CHECK persists the
default record, finds no image that verifies, and opens an update flow over region B. -/

namespace Sys2Proof.Machine

section
variable {s t u : State} {c : AbRecord}

/-! ### CHECK without a valid record (46_dispatch.md R350) -/

/-- CHECK where flash holds no valid record: the record is made first. -/
theorem foregroundStep_check_init {v : State} {ok : Bool} (hd : s.dstate = .check) (hload : cfgLoad s = .ok false t)
    (hinit : cfgInit t = .ok ok u) (hrun : checkRecorded u = .ok () v) : foregroundStep s = .next v := by
  have hcheck : check s = .ok () v := by
    rw [check_eq, Engine.bind_run_ok hload, if_neg Bool.false_ne_true, Engine.bind_run_ok hinit]
    exact hrun
  rw [foregroundStep, hd]
  exact congrArg settle hcheck

/-- No image that verifies: the dispatcher runs an update flow that returns to JUMP. -/
theorem checkRecorded_toFlow {marked : Bool} {code : Code} (hrec : recoverIfUpdating s = .ok () t)
    (hmark : updateMarked t = .ok marked t) (hnone : noneVerifies t = .ok true t)
    (hflow : runFlow .jump t = .ok code u) : checkRecorded s = .ok () u := by
  rw [checkRecorded, Engine.bind_run_ok hrec, Engine.bind_run_ok hmark, Engine.bind_run_ok hnone, Bool.or_true,
    if_pos rfl, Engine.bind_run_ok hflow]
  rfl

theorem noneVerifies_ab_none (ht : s.par.topology = .ab) (hc : s.cacheAb = some c)
    (ha : ¬ RoleGood s.par s.mem c .a) (hb : ¬ RoleGood s.par s.mem c .b) : noneVerifies s = .ok true s := by
  rw [noneVerifies, Engine.getState_bind, ht]
  refine (Engine.bind_run_ok (verify_ab hc (.inl rfl))).trans ((Engine.bind_run_ok (verify_ab hc (.inr rfl))).trans ?_)
  rw [decide_eq_false ha, decide_eq_false hb]
  rfl

/-- An image of recorded size 0 never verifies (45_config.md R306). -/
theorem not_imageGood_zero (p : Config) (m : Memory) (base : Nat) (crc : Word) : ¬ ImageGood p m base 0 crc :=
  fun ⟨hpos, _⟩ => Nat.lt_irrefl 0 hpos

/-! ### The default record (45_config.md R302) -/

/-- With the probe off, the default record is persisted as it is. -/
theorem cfgInit_unprobed_ab (ht : s.par.topology = .ab) (hp : s.par.probeFactory = false) :
    cfgInit s = cfgPersist { s with cacheAb := some (defaultAb s.par), cfgValid := true } := by
  rw [cfgInit_default rfl (factoryImage_none (.inl hp)), defaultRecord_ab ht]

/-- The default record makes A active, so that B is the update target. -/
theorem otherRole_defaultAb (p : Config) : otherRole (activeRole (defaultAb p).active) = .b :=
  (by decide : otherRole (activeRole 0) = .b)

/-- A default record that has just been persisted leads CHECK into an update flow: it marks nothing and names no
image. -/
theorem checkRecorded_default {p : Config} {code : Code} (ht : s.par.topology = .ab)
    (hc : s.cacheAb = some (defaultAb p)) (hflow : runFlow .jump s = .ok code u) : checkRecorded s = .ok () u :=
  checkRecorded_toFlow (recoverIfUpdating_idle ht hc (by decide : (0 : Byte) ≠ 1)) (updateMarked_ab ht hc rfl)
    (noneVerifies_ab_none ht hc (not_imageGood_zero _ _ _ _) (not_imageGood_zero _ _ _ _)) hflow

/-! ### A flow whose channel arms (46_dispatch.md R351) -/

/-- `RunFlow()` under AB: the record is marked in `u`, the target is erased in `v`, and the session opens over it. -/
theorem runFlow_opensAb {r : Role} (h : s.FlashReady) (ht : s.par.topology = .ab) (hc : s.cacheAb = some c)
    (hr : r = otherRole (activeRole c.active)) (harm : s.armAnswer = true) (ret : RetState) :
    ∃ u v, SavedAb s u { c with updating := 1, updateReq := 0 } ∧ TargetErased u v r
      ∧ runFlow ret s = .ok .ok (sessionOpened { v with flowTarget := some r } (BitVec.ofNat 32 (regionBase s.par r))
          (BitVec.ofNat 32 (regionBase s.par r + s.par.regionSize)) .flow ret) := by
  have htarget : s.target = some r := (target_ab ht hc).trans (congrArg some hr.symm)
  obtain ⟨u, hmark, hsave⟩ := changeAb_saved h ht hc fun c => { c with updating := 1, updateReq := 0 }
  obtain ⟨⟨-, -, hpersist⟩, hu, -⟩ := id hsave
  obtain ⟨v, herased, -, hrun⟩ := runFlow_erased ((hasRecord_ab ht).2 ⟨c, hc⟩) htarget
    ((updStart_ab ht).trans hmark) hu hsave.par ret
  obtain ⟨-, herases, -⟩ := id herased
  have harmed : v.armAnswer = true := herases.armAnswer.trans (hpersist.armAnswer.trans harm)
  exact ⟨u, v, hsave, herased, hrun.trans (openFlow_armed (s := { v with flowTarget := some r }) harmed _ _ ret)⟩

/-- Both ends of a region are addresses of 32 bits. -/
theorem regionEnds_toNat {p : Config} (hp : p.Sound) (r : Role) :
    (BitVec.ofNat 32 (regionBase p r)).toNat = regionBase p r
      ∧ (BitVec.ofNat 32 (regionBase p r + p.regionSize)).toNat = regionBase p r + p.regionSize := by
  obtain ⟨-, hhi, -⟩ := Config.Sound.region hp r
  have hlt := hp.flash_lt
  exact ⟨by rw [BitVec.toNat_ofNat, Nat.mod_eq_of_lt (by omega)],
    by rw [BitVec.toNat_ofNat, Nat.mod_eq_of_lt (by omega)]⟩

/-! ### The first boot (70_reset_and_hazards.md R412) -/

/-- The record of the first boot's flow: the default one, marked (45_config.md R302, R312). -/
def firstBootRecord (p : Config) : AbRecord := { defaultAb p with updating := 1, updateReq := 0 }

/-- CHECK of a first boot: `u` is `s` after the defaults and then the mark were persisted, `v` is `u` with B erased, and
the flow opens from `v`. -/
theorem foregroundStep_firstBoot (h : s.FlashReady) (hd : s.dstate = .check) (ht : s.par.topology = .ab)
    (hp : s.par.probeFactory = false)
    (hinvalid : validAb s.par (deserializeAb (s.mem.read s.par.cfgAddr 32)) = false) (harm : s.armAnswer = true) :
    ∃ u v, PersistedAb 2 (s.loadedAb (defaultAb s.par)) u (firstBootRecord s.par) ∧ TargetErased u v .b
      ∧ foregroundStep s = .next (sessionOpened { v with flowTarget := some .b } (BitVec.ofNat 32 s.par.bBase)
          (BitVec.ofNat 32 (s.par.bBase + s.par.regionSize)) .flow .jump) := by
  obtain ⟨t, hinit, hsave⟩ := cfgPersist_savedAb (s := s.loadedAb (defaultAb s.par)) h ht rfl
  have hpar : t.par = s.par := hsave.par
  obtain ⟨hper, hready, -⟩ := hsave
  obtain ⟨hrest, -, hcalls⟩ := id hper
  have hcache : t.cacheAb = some (defaultAb s.par) := by rw [hrest]
  obtain ⟨u, v, hmark, herased, hflow⟩ := runFlow_opensAb (r := .b) hready (hpar ▸ ht) hcache
    (otherRole_defaultAb _).symm (hcalls.armAnswer.trans harm) .jump
  obtain ⟨hmark, -⟩ := hmark
  rw [hpar] at hflow
  refine ⟨u, v, hper.trans hmark, herased, foregroundStep_check_init hd (cfgLoad_ab ht rfl hinvalid)
    ((cfgInit_unprobed_ab ?_ ?_).trans hinit) (checkRecorded_default (hpar ▸ ht) hcache hflow)⟩
  exacts [ht, hp]

end

/-- Settles O50: what `foregroundStep_firstBoot` leaves, field by field. -/
theorem firstBootOpensAnUpdate : Obligations.FirstBootOpensAnUpdate := by
  intro s hs hd ht hp hinvalid hok harm
  obtain ⟨u, v, ⟨hurest, hstored, hpersists⟩, ⟨hvrest, herases, herased⟩, hrun⟩ :=
    foregroundStep_firstBoot (hs.flashReady hok) hd ht hp hinvalid harm
  have hpar : u.par = s.par := by rw [hurest]
  have hcache : v.cacheAb = some (firstBootRecord s.par) := by rw [hvrest, hurest]
  have hvalid : v.cfgValid = true := by rw [hvrest, hurest]
  have hdirty : v.cfgDirty = false := by rw [hvrest, hurest]
  rw [hpar] at herases herased
  have hcalls : v.env.eraseCalls = s.env.eraseCalls + (2 + s.par.regionSize / s.par.sector) :=
    congrArg Env.eraseCalls (hpersists.trans herases)
  obtain ⟨hbase, hlimit⟩ := regionEnds_toNat hs.sane.sound .b
  exact ⟨_, hrun, rfl, rfl, rfl, rfl, hvalid, hdirty, rfl, hbase, hlimit, rfl, hcache,
    hcalls.trans (Nat.add_assoc _ _ _).symm, u.mem, hstored, herased⟩

end Sys2Proof.Machine
end
